-- ==== Sys2Proof/Word.lean ====
section
/-! DEFINITION. Word types of the GZ4 model: the widths the manual names, and nothing else. -/

namespace Sys2Proof

/-- One byte (00 R2). -/
abbrev Byte := BitVec 8
/-- A 32-bit register element, instruction word or structure word. -/
abbrev W32 := BitVec 32
/-- A 64-bit register, queue entry or address operand. -/
abbrev W64 := BitVec 64

end Sys2Proof
end

