-- ==== Sys2Proof/Syntax.lean ====
section
/-! DEFINITION. The syntax of every step of the module: one constructor per row of the opcode table. Operand records hold
the fields of the formats of 06 R105 to R112 (vector), 15 R225 (hart), 23 R331 (frames), and the data of the events that
have no encoding. -/

namespace Sys2Proof

/-- The modifier extension word (06 R108), without its reserved bits. -/
structure Mods where
  sz : BitVec 7
  lz : Bool
  hz : Bool
  xm : BitVec 3
  xk : BitVec 6
  rm : BitVec 2
  sat : Bool
  nx : Bool
  ny : Bool
  deriving DecidableEq, Repr

/-- Format V3 with its optional modifier word (06 R105). -/
structure V3 where
  vd : BitVec 6
  sx : BitVec 7
  sy : BitVec 7
  lx : Bool
  ly : Bool
  hx : Bool
  hy : Bool
  ext : Option Mods
  deriving DecidableEq, Repr

/-- Format V3 with a mask destination, VD[5:3] zero (06 R107). -/
structure VCmp where
  md : BitVec 3
  sx : BitVec 7
  sy : BitVec 7
  lx : Bool
  ly : Bool
  hx : Bool
  hy : Bool
  ext : Option Mods
  deriving DecidableEq, Repr

/-- Format VU, and V3 words without SY: one source (06 R110, 08 R150). -/
structure VU where
  vd : BitVec 6
  sx : BitVec 7
  lx : Bool
  hx : Bool
  ext : Option Mods
  deriving DecidableEq, Repr

/-- MOVI: a destination and its immediate word (06 R109, 08 R137). -/
structure VMovi where
  vd : BitVec 6
  imm : W32
  deriving DecidableEq, Repr

/-- IADDI: destination, source and immediate word (06 R109, 08 R137). -/
structure VAddi where
  vd : BitVec 6
  sx : BitVec 7
  lx : Bool
  hx : Bool
  imm : W32
  deriving DecidableEq, Repr

/-- A packed conversion: SY holds the format and the element group (06 R114, 08 R152). -/
structure VPack where
  vd : BitVec 6
  sx : BitVec 7
  fmt : BitVec 4
  grp : BitVec 3
  lx : Bool
  hx : Bool
  ext : Option Mods
  deriving DecidableEq, Repr

/-- A mask operation on mask codes (09 R158). -/
structure VMask where
  md : BitVec 3
  mx : BitVec 3
  my : BitVec 3
  ext : Option Mods
  deriving DecidableEq, Repr

/-- BCAST: SY is not a v register, so it has no LY and no HY (09 R159). -/
structure VBcast where
  vd : BitVec 6
  sx : BitVec 7
  sy : BitVec 7
  lx : Bool
  hx : Bool
  ext : Option Mods
  deriving DecidableEq, Repr

/-- BALLOT: the half of the weft (09 R161). -/
structure VBallot where
  vd : BitVec 6
  sx : BitVec 7
  half : Bool
  lx : Bool
  hx : Bool
  ext : Option Mods
  deriving DecidableEq, Repr

/-- Scans and reductions: EX and the operation code (09 R162). -/
structure VScan where
  vd : BitVec 6
  sx : BitVec 7
  ex : Bool
  opc : BitVec 3
  lx : Bool
  hx : Bool
  ext : Option Mods
  deriving DecidableEq, Repr

/-- The extension word of format VM (06 R111), without its reserved bits. -/
structure MExt where
  sz : BitVec 7
  lz : Bool
  hz : Bool
  ord : BitVec 2
  scp : BitVec 3
  aop : BitVec 4
  deriving DecidableEq, Repr

/-- Format VM with its optional extension word (06 R111). -/
structure VM where
  vd : BitVec 6
  sx : BitVec 7
  ofs : BitVec 9
  lx : Bool
  nt : Bool
  ext : Option MExt
  deriving DecidableEq, Repr

/-- FENCE: order and scope (10 R185). -/
structure VFence where
  ord : BitVec 2
  scp : BitVec 3
  deriving DecidableEq, Repr

/-- WAITP: path and threshold operand (10 R186). -/
structure VWaitp where
  path : BitVec 2
  sx : BitVec 7
  deriving DecidableEq, Repr

/-- SFULL and SEMPTY (10 R180). -/
structure VLine where
  sx : BitVec 7
  ofs : BitVec 9
  lx : Bool
  ext : Option MExt
  deriving DecidableEq, Repr

/-- STAG and STINV (10 R182); STINV has VD = 0. -/
structure VTag where
  vd : BitVec 6
  sx : BitVec 7
  lx : Bool
  ext : Option MExt
  deriving DecidableEq, Repr

/-- A conditional branch: operand, sense, displacement (11 R190, R191). -/
structure VBranch where
  sx : BitVec 7
  inv : Bool
  lx : Bool
  disp : W32
  deriving DecidableEq, Repr

/-- A clause header (06 R100). -/
structure Header where
  resv : BitVec 4
  yld : Bool
  fb : BitVec 4
  fa : BitVec 4
  wm : BitVec 12
  cls : BitVec 3
  cnt : BitVec 4
  deriving DecidableEq, Repr

/-- Hart ALU operations of RV64I and M. -/
inductive RvAlu where
  | add | sub | sll | slt | sltu | xor | srl | sra | or | and
  | mul | mulh | mulhsu | mulhu | div | divu | rem | remu
  deriving DecidableEq, Repr

/-- Branch conditions of RV64I. -/
inductive RvCond where
  | eq | ne | lt | ge | ltu | geu
  deriving DecidableEq, Repr

/-- Access widths of RV64I loads and stores. -/
inductive RvWidth where
  | b | h | w | d | bu | hu | wu
  deriving DecidableEq, Repr

/-- AMO operations of the A extension. -/
inductive RvAmo where
  | swap | add | xor | and | or | min | max | minu | maxu
  deriving DecidableEq, Repr

/-- RV64I and M instructions other than memory, fence, system and CSR instructions, and MRET of the privileged architecture (15 R211). -/
inductive RvOp where
  | lui (rd : BitVec 5) (imm : BitVec 20)
  | auipc (rd : BitVec 5) (imm : BitVec 20)
  | jal (rd : BitVec 5) (off : BitVec 21)
  | jalr (rd rs1 : BitVec 5) (imm : BitVec 12)
  | branch (c : RvCond) (rs1 rs2 : BitVec 5) (off : BitVec 13)
  | aluImm (op : RvAlu) (rd rs1 : BitVec 5) (imm : BitVec 12)
  | aluImmW (op : RvAlu) (rd rs1 : BitVec 5) (imm : BitVec 12)
  | alu (op : RvAlu) (rd rs1 rs2 : BitVec 5)
  | aluW (op : RvAlu) (rd rs1 rs2 : BitVec 5)
  | mret
  deriving DecidableEq, Repr

/-- How a CSR instruction combines the old value with its source. -/
inductive CsrOp where
  | rw | rs | rc
  deriving DecidableEq, Repr

/-- A command frame: bit 8*i of the frame is bit 0 of its byte i (23 R331). -/
abbrev Frame := BitVec 1024

/-- The scalar agents that a wait, an error or a comparison can concern. -/
inductive Waiter where
  | weft (tid wid : Nat)
  | hart (tid : Nat)
  | context (cluster ctx : Nat)
  deriving DecidableEq, Repr

/-- The storage units of 25 R354 that an ECC event names. -/
inductive EccUnit where
  | memory (fn addr : Nat)
  | scratch (cluster offset : Nat)
  | vreg (tid wid lane reg : Nat)
  | xreg (tid reg : Nat)
  | feedRow (cluster fd row : Nat)
  | accum (cluster slot row col : Nat) (value : W32)
  deriving DecidableEq, Repr

/-- The unpoisoned state of 25 R356 that an error names. -/
inductive BareUnit where
  | weft (tid wid : Nat)
  | team (tid : Nat)
  | task (fn tcb : Nat)
  | cluster (c : Nat)
  deriving DecidableEq, Repr

/-- An access of a host through the Weave window (26 R376): address in the 2^60-byte window, size, world bit of the request
and, for a write, the data, least significant byte first. -/
structure HostReq where
  addr : Nat
  size : Nat
  secure : Bool
  write : Option Nat
  deriving DecidableEq, Repr

/-- What another module sends (26 R375): an access to a bound port, an atomic of 10 R183 with its operands, or the flits of a job
card. -/
inductive WeaveReq where
  | access (port offset size : Nat) (write : Option Nat)
  | atomic (port offset aop : Nat) (data : W32) (expected : W32)
  | card (port die : Nat) (tcbAddr : Nat) (tcb : List Byte) (tiles : List (Nat × List Byte))
  deriving DecidableEq, Repr

/-- A Sync message of a PTP master (26 R372): its origin time in nanoseconds. -/
structure PtpSyncMsg where
  domain : BitVec 8
  twoStep : Bool
  origin : Nat
  deriving DecidableEq, Repr

/-- One step of the module. One constructor per row of the opcode table. -/
inductive Instr where
  -- 08 R136 to R142: integer arithmetic, logic, bit fields, PERM, SEL, comparisons
  | iadd (o : V3) | isub (o : V3) | imul (o : V3) | imulh (o : V3) | imulhu (o : V3) | imad (o : V3)
  | imin (o : V3) | imax (o : V3) | umin (o : V3) | umax (o : V3)
  | and (o : V3) | or (o : V3) | xor (o : V3) | andn (o : V3)
  | shl (o : V3) | shr (o : V3) | sra (o : V3) | rotl (o : V3)
  | bfx (o : V3) | bfxs (o : V3) | bfi (o : V3) | perm (o : V3) | sel (o : V3)
  | cmpeq (o : VCmp) | cmpne (o : VCmp) | cmplt (o : VCmp) | cmple (o : VCmp) | cmpltu (o : VCmp) | cmpleu (o : VCmp)
  | fcmpeq (o : VCmp) | fcmplt (o : VCmp) | fcmple (o : VCmp) | fcmpun (o : VCmp)
  -- 08 R144 to R146: FP32 and packed arithmetic
  | fadd (o : V3) | fsub (o : V3) | fmul (o : V3) | ffma (o : V3) | fmin (o : V3) | fmax (o : V3)
  | hadd2 (o : V3) | hmul2 (o : V3) | hfma2 (o : V3) | badd2 (o : V3) | bmul2 (o : V3) | bfma2 (o : V3)
  | movi (o : VMovi) | iaddi (o : VAddi)
  -- 08 R150 to R155: conversions
  | cvtfi (o : VU) | cvtfu (o : VU) | cvtif (o : VU) | cvtuf (o : VU)
  | nrw2 (o : VPack) | nrw4 (o : VPack) | nrw8 (o : VPack) | wdn2 (o : VPack) | wdn4 (o : VPack) | wdn8 (o : VPack)
  -- 08 R147 to R149, R151: unary groups
  | mov (o : VU) | not (o : VU) | neg (o : VU) | iabs (o : VU) | popc (o : VU) | clz (o : VU) | ctz (o : VU) | brev (o : VU)
  | fabs (o : VU) | fneg (o : VU) | rcp (o : VU) | rsq (o : VU) | sqrt (o : VU) | exp2 (o : VU) | log2 (o : VU)
  | sin (o : VU) | cos (o : VU) | flr (o : VU) | ceil (o : VU) | trunc (o : VU) | rnde (o : VU)
  | cvthf (o : VU) | cvtbf (o : VU) | cvtfh (o : VU) | cvtfb (o : VU)
  -- 10: memory, scratchpad, tags, atomics
  | ldg8 (o : VM) | ldg8s (o : VM) | ldg16 (o : VM) | ldg16s (o : VM) | ldg32 (o : VM) | ldg64 (o : VM)
  | stg8 (o : VM) | stg16 (o : VM) | stg32 (o : VM) | stg64 (o : VM) | ldgs (o : VM) | atomg (o : VM)
  | fence (o : VFence) | waitp (o : VWaitp)
  | lds8 (o : VM) | lds16 (o : VM) | lds32 (o : VM) | lds64 (o : VM)
  | sts8 (o : VM) | sts16 (o : VM) | sts32 (o : VM) | sts64 (o : VM) | ldsC (o : VM)
  | sfull (o : VLine) | sempty (o : VLine) | stag (o : VTag) | stset (o : VM) | stinv (o : VTag) | atoms (o : VM)
  -- 09: cross-lane, masks, regrouping
  | shfl (o : V3) | shflup (o : V3) | shfldn (o : V3) | shflx (o : V3) | bcast (o : VBcast)
  | vany (o : VU) | vall (o : VU) | ballot (o : VBallot)
  | scan (o : VScan) | fscan (o : VScan) | red (o : VScan) | fred (o : VScan)
  | mand (o : VMask) | mor (o : VMask) | regroup (vd : BitVec 6) | ungroup (vd : BitVec 6)
  -- 11: control
  | bru (o : VBranch) | brk (o : VBranch) | call (vd : BitVec 6) (disp : W32) | ret (sx : BitVec 7) (lx : Bool)
  | nbar (sx : BitVec 7) (id : BitVec 4) | kwr (kd : BitVec 5) (sx : BitVec 7) (lx : Bool)
  | twait (scp : BitVec 3) (sx : BitVec 7) (tl : BitVec 5) (lx : Bool)
  | veer (vd : BitVec 6) (sx : BitVec 7) | veerMay (vd : BitVec 6)
  | trap (n : BitVec 5) | tret (skip : Bool)
  -- 21 R319: pipes
  | pacq (vd : BitVec 6) | pget (vd : BitVec 6)
  -- device steps of the vector engine, memory, matrix, copy and task engines
  | clauseStart (h : Header) | chunkPageIn (obj chunk : Nat)
  | loadReturn (op : Nat) | storeApplied (op : Nat) | atomicReturn (op : Nat) | ldgsComplete (op : Nat)
  | remoteAcknowledge (op : Nat) (data : List (W64 × Bool))
  | coreMoveComplete (cluster core : Nat) | idleCoreMove (cluster core : Nat) (pt : BitVec 2)
  | imageRestore (image cluster : Nat)
  | pageMigration (fn va : Nat) (die : BitVec 2) (sram : Bool) | homeSwitch (fn va : Nat)
  | copyStep (cluster ch num : Nat) | multicastHop (cluster ch num : Nat)
  | taskMigration (fn tcb : Nat) (die : BitVec 2) | cardDelivery (card : Nat) | pairCompare (tid : Nat)
  -- 15: control core
  | uqpush (rs1 : BitVec 5) | uqtry (rd rs1 : BitVec 5)
  | tlrd (rd : BitVec 5) (iss : Bool) (tl : BitVec 6) | tlwait (rd rs1 : BitVec 5) (scp : BitVec 3) (tl : BitVec 6)
  | xfence (ord : BitVec 2) (scp : BitVec 3)
  | hartLoad (wd : RvWidth) (rd rs1 : BitVec 5) (imm : BitVec 12)
  | hartStore (wd : RvWidth) (rs1 rs2 : BitVec 5) (imm : BitVec 12)
  | hartAmo (op : RvAmo) (dword aq rl : Bool) (rd rs1 rs2 : BitVec 5)
  | lr (dword aq rl : Bool) (rd rs1 : BitVec 5) | sc (dword aq rl : Bool) (rd rs1 rs2 : BitVec 5)
  | hartFence (fm pred succ : BitVec 4)
  | csrAccess (op : CsrOp) (imm : Bool) (csr : BitVec 12) (rd rs1 : BitVec 5)
  | rv64Instruction (op : RvOp)
  -- 17: matrix instructions
  | mmulMap (rd rs1 rs2 : BitVec 5) | mmulFeed (rd : BitVec 5) (fd : BitVec 2) (rs2 : BitVec 5) | mmulWest (rd rs2 : BitVec 5)
  | mldw (rd rs1 rs2 : BitVec 5) | mdrain (rd rs1 rs2 : BitVec 5) | mzero (rd rs1 : BitVec 5) | mstat (rd : BitVec 5)
  | mbegin (rd : BitVec 5) (feeds : BitVec 4) | mend (rd : BitVec 5) | mchain (rd rs1 : BitVec 5) (len pos : BitVec 2)
  -- 19 R301: task instructions
  | tenq (rd rs1 : BitVec 5) | tsig (rd rs1 : BitVec 5) | tcard (rd rs1 : BitVec 5)
  -- 23: host writes and commands
  | doorbell (q : Nat) (v : W32) | cconsWrite (q : Nat) (v : W32) | econsWrite (q : Nat) (v : W32)
  | rstctlReset (v : W32) | registerWrite (off : Nat) (size : Nat) (v : W64) | frameUnknownOpc (f : Frame)
  | queueReset (f : Frame) | map (f : Frame) | unmap (f : Frame) | protect (f : Frame) | place (f : Frame)
  | portBind (f : Frame) | objLoad (f : Frame) | objUnload (f : Frame) | launch (f : Frame) | gangLaunch (f : Frame)
  | taskEnq (f : Frame) | taskReplay (f : Frame) | taskCancel (f : Frame) | teamResume (f : Frame) | teamEnd (f : Frame)
  | pipeBind (f : Frame) | fenceCommand (f : Frame) | signal (f : Frame) | wait (f : Frame) | waitSatisfied (q : Nat)
  | partition (f : Frame) | functionReset (f : Frame) | resetScrub (fn : BitVec 2)
  | preempt (f : Frame) | resume (f : Frame) | checkpoint (f : Frame) | restore (f : Frame)
  | debugStop (f : Frame) | debugResume (f : Frame) | debugPlant (f : Frame) | debugRemove (f : Frame) | debugRead (f : Frame)
  | powerSet (f : Frame) | telemetrySet (f : Frame) | patchLoad (f : Frame) | attest (f : Frame)
  -- 25, 26: reliability, power, time, fabric
  | eccCorrected (u : EccUnit) | eccUncorrectable (u : EccUnit) | unpoisonedStateError (u : BareUnit)
  | patrolScrub (fn addr : Nat) | waitPeriodExpiry (w : Waiter) | clusterPeriodCheck (die : BitVec 2) (n : Nat)
  | heartbeat (observer target : BitVec 2) (missed : Bool) | functionTagDrop (cluster : Nat) (fn addr : Nat)
  | vaneSample (mw : Nat) | telemetryRecord (tj : BitVec 16) (dies : List (BitVec 16))
  | ptpSync (m : PtpSyncMsg) | ptpFollowUp (origin : Nat) | ptpDelayResp (seq received : Nat)
  | weaveRequest (r : WeaveReq) | undeliverableTimeout (op : Nat)
  | hostWindowAccess (r : HostReq) | chunkEviction (obj chunk : Nat)
  | hartStoreApplied (tid idx : Nat)
  -- steps without operands: the words exit to pdone, the hart words hend to ebreak, and steps of the device whose agent
  -- (weft, hart, cluster, die, port) is the state's current agent
  | exit | bar | kown | kfree | yield | bkpt | prel | pdone | weftCease | teamDispatch
  | clusterPreemptStop | imageSave | pageWalk | weightLatch | matrixStep | quiescentStop | drainWrite | hend | hpause | fenceI
  | wfi | ecall | ebreak | hartMemoryReturn | mModeInterrupt | selfReset | ptpHoldover | flitCheckFail | powerOn | portTrainingComplete
  deriving DecidableEq, Repr

/-- Why a word, a header, a hart word or a frame is not an instruction (06 R117, 15 R227, 23 R333). -/
inductive DecodeErr where
  | unassigned
  | unusedField
  | badSource
  | badMask
  | badMode
  | badOrder
  | needsExtension
  | badExtension
  | noText
  deriving DecidableEq, Repr

end Sys2Proof
end

