-- ==== Sys2Proof/Machine/State.lean ====
section
/-! DEFINITION. The state of the module as plain data: every piece of state that the manual names, and the model's own
agenda, current agent and counters. -/

namespace Sys2Proof.Machine

open Sys2Proof

/-! ### How a step can stop -/

/-- Reasons to stop. Every trap, exception, team end and status of the manual is a next state and none of these. -/
inductive Fault where
  /-- Raised by a word, a hart instruction or a command when the state's current agent is not one that could issue it (no such
  weft, hart or taken frame). Safe: no run of the device reaches such a state, and the model stops. -/
  | noAgent
  deriving DecidableEq, Repr

/-- Reasons to refuse. -/
inductive Refusal where
  /-- Raised by an arm of exec that has no meaning yet. Safe: the model stops where the device would go on. -/
  | notModelled (mnemonic : String)
  deriving DecidableEq, Repr

/-! ### Sparse maps in canonical form -/

/-- A map from keys to values: keys strictly rising, no entry equal to the map's default. -/
abbrev Sp (α : Type) := List (Nat × α)

/-- Byte memory: an unlisted address reads 0 (26 R378 step 4, 23 R337). -/
abbrev Mem := List Host.Cell

/-! ### Agents and turns -/

/-- Who executes the instruction that exec is given; machine: a hart of a cluster that no team has, in M-mode for the Loom (15 R223). -/
inductive Agent where
  | none
  | weft (tid wid : Nat)
  | hart (tid : Nat)
  | machine (c n : Nat)
  | command (q : Nat) (seq : W32)
  | cluster (c : Nat)
  | die (d : Nat)
  | port (p : Nat)
  | device
  deriving DecidableEq, Repr

/-- What moves next: a weft's next word, a hart's next instruction, a command processor's next frame of a queue, a device
step or outside event of an agent, the arrival of a write in transit on a die (03 R55), or the performing of one element of
an outstanding vector operation ahead of the others (03 R52). -/
inductive Turn where
  | weft (tid wid : Nat)
  | hart (tid : Nat)
  | loom (q : Nat)
  | event (a : Agent) (i : Instr)
  | deliver (die idx : Nat)
  | element (op idx : Nat)
  deriving DecidableEq, Repr

/-! ### Global memory, order and translation -/

/-- Who makes an access, as scopes see it (03 R51): a strand of a team with the SIDs of its weft, a team's hart, an engine that a
cluster owns, an engine that a die owns, the Loom, or an agent outside the module. -/
inductive Who where
  | strand (tid sid cluster : Nat) (mates : List Nat)
  | hart (tid cluster : Nat)
  | engine (cluster : Nat)
  | dieEngine (die : Nat)
  | loom
  | outside
  deriving DecidableEq, Repr

/-- A release (03 R54): its number, who made it, its scope, and the writes in transit that happen before it or that it is. -/
structure Release where
  id : Nat
  who : Who
  scp : Nat
  hb : List Nat
  deriving DecidableEq, Repr

/-- A write that its own die has applied and that has not reached every die (03 R55): its number, address, bytes, poison
changes by granule, the releases that a read of it returns, origin die, the writes that must be applied before it (what its
vector clock stands for), and the dies that have applied it. -/
structure Transit where
  id : Nat
  addr : Nat
  bytes : List Byte
  poison : List (Nat × Bool)
  rels : List Nat
  origin : Nat
  deps : List Nat
  applied : List Nat
  deriving DecidableEq, Repr

/-- One die's view of global memory (03 R55): bytes, granule poison (10 R172), the releases that a read of each byte returns
(R54), and the granules that its harts have reserved, by team (15 R216). -/
structure DieView where
  mem : Mem
  poison : Sp Bool
  rel : Sp (List Nat)
  resv : List (Nat × Nat)
  deriving DecidableEq, Repr

/-- The memory system: the dies' views, the writes in transit, the releases that still cover one, and the 4 KiB units, by number, that
something has written since they were mapped (05 R91). -/
structure MemSys where
  views : List DieView
  transit : List Transit
  rels : List Release
  touched : Sp Bool
  deriving DecidableEq, Repr

/-- An access that an agent has performed, or a wait that it has made, while it still bears on order (03 R52 to R54): its number,
the bytes it touched (scratchpad or tag?, address, size), whether it read, whether it was another module's, the paths and the
flag that count it, from which number on accesses follow it (lead within the module, far across modules), the writes in transit
that happen before what follows it, those of them that hold back its agent's later writes on other dies, and what its read
would acquire, by the least scope that would. -/
structure Past where
  id : Nat
  ranges : List (Bool × Nat × Nat)
  reads : Bool
  remote : Bool
  paths : List Nat
  flag : Option Nat
  lead : Option Nat
  far : Option Nat
  hb : List Nat
  dep : List Nat
  saw : List (Nat × List Nat)
  deriving DecidableEq, Repr

/-- What an agent has done that bears on order: accesses, and the widest scope of a release fence (03 R53). -/
structure Hist where
  past : List Past
  rel : Option Nat
  deriving DecidableEq, Repr

/-- Where a mapped page lives (03 R47). -/
structure Home where
  die : Nat
  sram : Bool
  deriving DecidableEq, Repr

/-- A mapped page (03 R46, 23 R337). remote names the module, port and region offset of a REMOTE map. -/
structure Page where
  fn : Nat
  va : Nat
  size : Nat
  r : Bool
  w : Bool
  x : Bool
  secure : Bool
  hint : Nat
  hintDie : Nat
  home : Home
  migrating : Option Home
  remote : Option (Nat × Nat × Nat)
  obj : Option Nat
  deriving DecidableEq, Repr

/-- A range declared ONDEMAND (23 R337). -/
structure OnDemand where
  fn : Nat
  va : Nat
  size : Nat
  psz : Nat
  r : Bool
  w : Bool
  x : Bool
  secure : Bool
  hint : Nat
  hintDie : Nat
  deriving DecidableEq, Repr

/-- A bound port (23 R337). -/
structure Port where
  fn : Nat
  port : Nat
  va : Nat
  size : Nat
  rights : BitVec 3
  deriving DecidableEq, Repr

/-- A kept placement hint (05 R92, 23 R336 PLACE). -/
structure PlaceHint where
  fn : Nat
  va : Nat
  size : Nat
  hint : Nat
  die : Nat
  deriving DecidableEq, Repr

/-- A walk that waits for a walker, or is being walked (03 R48). -/
structure Walk where
  die : Nat
  cluster : Nat
  fn : Nat
  va : Nat
  deriving DecidableEq, Repr

/-- Translation state (03 R46 to R48). A TLB entry is the function and the address of its page. -/
structure Xlat where
  pages : List Page
  onDemand : List OnDemand
  ports : List Port
  hints : List PlaceHint
  utlb : Sp (List (Nat × Nat))
  dtlb : Sp (List (Nat × Nat))
  walks : List Walk
  deriving DecidableEq, Repr

/-! ### Wefts and teams -/

/-- A 32-bit register element and its poison bit (07 R119). -/
structure Elem where
  val : W32
  poison : Bool
  deriving DecidableEq, Repr

/-- A live strand on its lane (02 R19): its em bit, bits of m1 to m7 (bit i is m(i+1)) and v registers (07 R119, R123). -/
structure Strand where
  sid : Nat
  lane : Nat
  em : Bool
  m : BitVec 7
  regs : Sp Elem
  deriving DecidableEq, Repr

/-- The wait state of a weft (07 R132). A retry names the kind of wait of a word that is tried again at the weft's next turn;
the other waits end with the rendezvous, the repair or the debug command they wait for. -/
inductive Wait where
  | none
  | retry (reason : Nat)
  | bar
  | nbar (id n : Nat)
  | veer (vd : BitVec 6) (target : Option Nat) (addr : Nat)
  | regroup (un : Bool) (vd : BitVec 6) (addr word : Nat)
  | pairAccess
  | pageFault
  | chunk
  | bkpt
  deriving DecidableEq, Repr

/-- The trap registers (07 R129). -/
structure TrapRegs where
  clause : W32
  word : W32
  xv : Bool
  mem : BitVec 4
  cause : BitVec 16
  info : W64
  mask : W64
  deriving DecidableEq, Repr

/-- The position of a weft in vector text (06 R102): clause offset, index of the next word in the clause, and whether the
clause's header has been checked. -/
structure Pos where
  clause : Nat
  word : Nat
  started : Bool
  deriving DecidableEq, Repr

/-- A weft (07): its live strands in lane order, allocated registers, queue position, text position, trap registers, progress
index, wait state; hold latches (06 R113); slot, active-set bit and ready order (02 R36); counted expiries of its wait (25
R358); the word a debug resume runs once; its compared access may go on, and its accesses so far (25 R362). anchor is a SID that tells its
core, also once it has no strand left (02 R19). -/
structure Weft where
  wid : Nat
  strands : List Strand
  alloc : BitVec 64
  rpos : BitVec 16
  pos : Pos
  trap : TrapRegs
  pv : Bool
  pdone : BitVec 16
  wait : Wait
  holds : List Nat
  slot : Nat
  active : Bool
  readyAt : Nat
  expiries : Nat
  once : Bool
  granted : Bool
  loadSeq : Nat
  anchor : Nat
  deriving DecidableEq, Repr

/-- What a hart waits for (15 R220). -/
inductive HWait where
  | none
  | load (rd : BitVec 5) (addr : W64) (size : Nat) (sext : Bool)
  | lr (rd : BitVec 5) (addr : W64) (size : Nat) (aq rl : Bool)
  | amo (op : RvAmo) (rd : BitVec 5) (addr : W64) (data : W64) (size : Nat) (aq rl : Bool)
  | hend
  | retry (reason : Nat)
  | fault
  | bkpt
  | pairAccess
  deriving DecidableEq, Repr

/-- A store of a hart that its die has not applied (15 R215, R235): its number among the accesses, and the scope at which it is a
release. -/
structure HStore where
  addr : W64
  bytes : List Byte
  poison : Bool
  rel : Option Nat
  num : Nat
  deriving DecidableEq, Repr

/-- A hart, bound to a team or held by the Loom (15 R212 to R223). Bit i of pois is the poison bit of x(i); csrs holds the M-mode CSRs but
misa, mepc, mcause and mtval (R223). -/
structure Hart where
  num : Nat
  pc : W64
  x : List W64
  pois : BitVec 32
  cycle : W64
  instret : W64
  wait : HWait
  paused : Bool
  ended : Bool
  stores : List HStore
  mepc : W64
  mcause : W64
  mtval : W64
  csrs : Sp W64
  expiries : Nat
  granted : Bool
  loadSeq : Nat
  deriving DecidableEq, Repr

/-- A tag entry (03 R43), with the releases that a read of it returns (10 R182). -/
structure TagEntry where
  valid : Bool
  tag : BitVec 48
  slot : BitVec 13
  rel : List Nat
  deriving DecidableEq, Repr

/-- Which work a team belongs to, as error-log entries name it (23 R343). loom: the Loom's own M-mode work on a hart, which is a team only
within a step (15 R223). -/
inductive TeamRef where
  | launch (fn lid team : Nat)
  | task (fn tcb : Nat)
  | stage (idx : Nat)
  | loom
  deriving DecidableEq, Repr

/-- Work that a task has deferred until its commit (19 R298). -/
inductive Deferred where
  | tenq (tcb : Nat)
  | tcard (card : Nat)
  deriving DecidableEq, Repr

/-- Why a team is held (03 R49, 11 R203, 18 R288), with the faulting address. -/
inductive Held where
  | weftFault (wid addr : Nat)
  | hartFault (addr : Nat)
  | copyFault (cluster ch num addr : Nat)
  | breakpoint
  deriving DecidableEq, Repr

/-- An externally visible access of a member of a redundant pair (25 R362), as the numbers it is compared by, and who waits for
the comparison (a weft's number; 4096 for the hart). -/
structure PairAccess where
  who : Nat
  kind : Nat
  data : List Nat
  deriving DecidableEq, Repr

/-- An access that one member of a redundant pair has made and the other has not (25 R362): by whom, its number there, its
addresses, its operation, the values once known, and, once the other member has made it, whether its addresses differ. -/
structure PairLoad where
  who : Nat
  seq : Nat
  addrs : List Nat
  op : Nat
  results : Option (List (W64 × Bool))
  differs : Option Bool
  deriving DecidableEq, Repr

/-- Team-uniform registers and queue (07 R124 to R127). kpend lists the writes that other wefts need not see yet (07 R126):
register, value replaced, SIDs of the writer's weft. krel holds the writes in transit that the last KFREE released, uqRel those
that the push of each entry released (15 R230). -/
structure Uniform where
  k : List W32
  kpend : List (Nat × W32 × List Nat)
  kowner : Option Nat
  krel : List Nat
  uq : Sp W64
  uqRel : Sp (List Nat)
  tail : BitVec 16
  deriving DecidableEq, Repr

/-- What dispatch gives a team (02 R33, 15 R218, 16 R245). -/
structure Placement where
  cluster : Nat
  core : Nat
  pair : Bool
  scrBase : Nat
  scrSize : Nat
  ctx : Option Nat
  acc : Nat
  accBase : Nat
  deriving DecidableEq, Repr

/-- A resident team (02 R17): identity, uniform state, paths (03 R50, each in issue order, with what has returned), named
barriers (11 R195), tag entries, wefts, hart, held and stopped states, task commit state (19 R298), redundant-pair state; what
each strand, by SID, and the hart, under 4096, has done that bears on order (03 R52), and the writes in transit that the team's
start acquired. -/
structure Team where
  tid : Nat
  ref : TeamRef
  fn : Nat
  secure : Bool
  cls : Nat
  obj : Nat
  nstr : Nat
  queue : Nat
  place : Placement
  uni : Uniform
  paths : List (List (Nat × Bool))
  nbars : Sp Nat
  tags : List TagEntry
  wefts : List Weft
  hart : Option Hart
  held : Option Held
  stopped : Bool
  commit : Bool
  deferred : List Deferred
  partner : Option Nat
  visible : List PairAccess
  pairLoads : List PairLoad
  hists : Sp Hist
  start : List Nat
  deriving DecidableEq, Repr

/-! ### Outstanding vector operations (06 R102) -/

/-- Kinds of long-latency operations. -/
inductive OpKind where
  | load (sext : Bool)
  | store
  | atomic (aop : Nat) (nr : Bool)
  | ldgs
  | stag
  | scrLoad (sext : Bool)
  | scrStore (fill : Bool)
  | scrAtomic (aop : Nat) (nr : Bool)
  deriving DecidableEq, Repr

/-- One strand's access: address or offset, data and second operand, their poison, the result once known, whether its page is
another module's, the scopes at which its write is a release and its read an acquire, from which number on accesses follow it
(03 R52, R53), the value that the other member of a redundant pair has read (25 R362), whether the access has been performed, and
whether its result is in its register. -/
structure Acc where
  sid : Nat
  addr : Nat
  data : W64
  data2 : W32
  poison : Bool
  result : W64
  resPoison : Bool
  remote : Bool
  rel : Option Nat
  acq : Option Nat
  lead : Option Nat
  far : Option Nat
  given : Option (W64 × Bool)
  done : Bool
  landed : Bool
  deriving DecidableEq, Repr

/-- An outstanding operation: owners are the wefts whose flag it holds; discard lists the registers freed while it was in flight,
by SID. -/
structure VOp where
  id : Nat
  tid : Nat
  kind : OpKind
  size : Nat
  vd : BitVec 6
  accs : List Acc
  owners : List Nat
  flag : Option Nat
  discard : List (Nat × Nat)
  deriving DecidableEq, Repr

/-! ### Matrix engine (16, 17) -/

/-- An operand map as a matrix instruction named it (15 R236, R237). -/
structure OMap where
  oma : W64
  omb : W64
  t : Bool
  deriving DecidableEq, Repr

/-- A weight binding (17 R264, R267). -/
structure Binding where
  bmap : OMap
  n : Nat
  k : Nat
  deriving DecidableEq, Repr

/-- Where an MMUL takes A from (17 R268). -/
inductive AForm where
  | map (m : OMap)
  | feed (first : Nat) (fmt : Nat)
  | west (fmt : Nat)
  deriving DecidableEq, Repr

/-- A numbered matrix operation. -/
inductive MKind where
  | mldw
  | mmul (b : Binding) (a : AForm) (m : Nat) (slot : Nat) (sinceChain : Bool)
  | mdrain (d : OMap) (m n slot : Nat) (nan sat integer : Bool)
  | mzero (mask : BitVec 18)
  | mbegin (feeds : BitVec 4)
  | mend
  | mchain (len pos : Nat) (tag : W32)
  deriving DecidableEq, Repr

/-- An operation that its context has not counted (16 R244), with the writes in transit that its issue released to it (17 R265), and the pc of
its instruction (25 R358). -/
structure MOp where
  num : Nat
  kind : MKind
  acq : List Nat
  pc : W64
  deriving DecidableEq, Repr

/-- Kind of an accumulator slot (17 R264). -/
inductive SlotKind where
  | none | floating | integer
  deriving DecidableEq, Repr

/-- Membership of a chain (17 R264, R275). -/
structure Chain where
  len : Nat
  pos : Nat
  tag : W32
  deriving DecidableEq, Repr

/-- A matrix context (16 R245, R250; 17 R264, R277). chain is what the instructions issued so far leave, formed the chain that its
counted MCHAIN has formed, closing that it is dissolved but for the forwarded operation that has begun (17 R276); steps and latches are the progress index of the operation at its head;
forwarded counts, since the MCHAIN, a head's forwarded MMULs or a member's west forms that are over (17 R276); expiries counts
those of the wait at the operation, steps and latches of waitMark (25 R358). rel: what the completion of each counted operation
releases (number, writes in transit; 03 R57). -/
structure Ctx where
  tid : Option Nat
  cls : Nat
  issued : Nat
  ops : List MOp
  binding : Option Binding
  batch : Option (BitVec 4)
  chain : Option Chain
  formed : Option Chain
  closing : Bool
  kinds : Sp SlotKind
  steps : Nat
  latches : Nat
  stopped : Bool
  forwarded : Nat
  corr : Nat
  retired : Nat
  expiries : Nat
  waitMark : Nat × Nat × Nat
  rel : List (Nat × List Nat)
  deriving DecidableEq, Repr

/-- An accumulator slot (16 R247): elements keyed 64*row + column; checksum column and row; magnitude sums; block count; group
sums of A; poisoned-slot flag. -/
structure Slot where
  elems : Sp Elem
  ccol : Sp W32
  crow : Sp W32
  mrow : Sp W32
  mcol : Sp W32
  blocks : Nat
  gsums : Sp Int
  flag : Bool
  deriving DecidableEq, Repr

/-- A feed register (16 R248): bytes, bytes written, rows full, rows poisoned, holding context. -/
structure Feed where
  bytes : Mem
  written : Sp Bool
  full : Sp Bool
  pois : Sp Bool
  holder : Option Nat
  deriving DecidableEq, Repr

/-- Weights latched in the array (16 R241): the context and operation, the k-segment, and for each column the elements of the
segment as codes with their scale or record and their poison. -/
structure Latch where
  ctx : Nat
  num : Nat
  seg : Nat
  cols : List (List (Nat × Nat × Bool))
  deriving DecidableEq, Repr

/-- A matrix engine: contexts 0 to 3 and 4 for the system context; slots under 16 times
the context's number plus the slot's, sys0 and sys1 at 64 and 65; feed registers; the
context that has the array; the latched weights; the context last served in each class (16 R246). -/
structure Matrix where
  ctxs : Sp Ctx
  slots : Sp Slot
  feeds : Sp Feed
  latch : Option Latch
  running : Option Nat
  lastServed : Sp Nat
  deriving DecidableEq, Repr

/-! ### Copy engine (18) -/

/-- A copy template (18 R281), as loaded. -/
structure Template where
  src : W64
  dst : W64
  ss : List Int
  ds : List Int
  n : List Nat
  dir : Nat
  esz : Nat
  xp : Bool
  emp : Bool
  dec : Bool
  srot : Nat
  drot : Nat
  dsel : Nat
  mcn : Nat
  mcs : Nat
  ctab : Nat
  deriving DecidableEq, Repr

/-- A byte that a copy has read and not yet written: its place in shape order, the byte, its poison, and the stream position at which the
decoder began it (03 R57, 18 R285, R286). -/
structure Fetched where
  idx : Nat
  byte : Byte
  poison : Bool
  start : Nat
  deriving DecidableEq, Repr

/-- An uncounted copy or hop (18 R287, R289): number; the name that a copy and its hops have in common, which is the model's; template; DISP;
issuing team, its launch and TEAM, and destination team; PROG in bytes; the bytes beyond PROG that are written already, and those that are read
and not written (03 R57); halted, finished; decoder table and bit position; hop number; the tile as written with its poison, by place in shape
order; of each 64-byte granule of the destination, the byte writes still to come and whether poison was
written; the writes in transit that its issue released to it (R290), and its own writes in transit. -/
structure Copy where
  num : Nat
  root : Nat
  tmpl : Template
  disp : Int
  tid : Nat
  launch : Option (Nat × Nat × Nat)
  dstTid : Nat
  prog : Nat
  ahead : List Nat
  fetched : List Fetched
  halted : Bool
  finished : Bool
  table : List Nat
  tablePoison : Bool
  bitpos : Nat
  hop : Nat
  carried : List (Byte × Bool)
  tile : Sp (Byte × Bool)
  left : Sp Nat
  dirty : Sp Bool
  acq : List Nat
  wrote : List Nat
  deriving DecidableEq, Repr

/-- A copy channel (18 R279, R280). rel: what the completion of each counted copy releases (number, writes in transit; R290). -/
structure Chan where
  issued : Nat
  copies : List Copy
  rel : List (Nat × List Nat)
  deriving DecidableEq, Repr

/-! ### Clusters -/

/-- A vector core (02 R21, R22): its point, the point it moves to, and the weft, by team and WID, that each issue slot served last
(R36). -/
structure Core where
  pt : BitVec 2
  moving : Option (BitVec 2)
  last : Sp (Nat × Nat)
  deriving DecidableEq, Repr

/-- Phases of a cluster pre-emption (02 R37). -/
inductive Preempt where
  | none
  | requested
  | stopped
  deriving DecidableEq, Repr

/-- A cluster (01 R6): scratchpad bytes, empty lines, granule poison, the releases that a read of each byte returns (03 R54, R56);
channels, and copies that were written here whose next hop has not started,
by channel (18 R287), which wait for their teams wherever their copies go; matrix engine; cores; fenced bit, stalled periods, and what its engines were at when the last period ended (25
R359); pre-emption phase; from which hart on the control core's present turn goes on (15 R220); the harts that the Loom has used in M-mode, with the instruction that one
waits in (15 R223). -/
structure Cluster where
  scr : Mem
  empty : Sp Bool
  scrPoison : Sp Bool
  scrRel : Sp (List Nat)
  chans : Sp Chan
  hops : List (Nat × Copy)
  mx : Matrix
  cores : Sp Core
  fenced : Bool
  stalled : Nat
  seen : List (List Nat)
  preempt : Preempt
  lastHart : Nat
  machine : Sp (Hart × Option Instr)
  deriving DecidableEq, Repr

/-- A saved cluster image (02 R37): the cluster's state, its teams, the function that owns them, their highest class, its place in
pre-emption order, the writes in transit that its die had applied, and the operations of redundant pairs that one member has issued and the other
has not (25 R363). -/
structure Image where
  id : Nat
  fn : Nat
  cls : Nat
  order : Nat
  cluster : Cluster
  teams : List Team
  acq : List Nat
  ops : List VOp
  deriving DecidableEq, Repr

/-! ### Task engine (19) -/

/-- An enqueued task as the engine holds it (19 R291, R292). state is STATE of the TCB; acq the writes in transit that its start
acquires (R304). -/
structure Task where
  fn : Nat
  tcb : Nat
  secure : Bool
  obj : Nat
  vent : Nat
  cent : W32
  nstr : Nat
  cls : Nat
  nsucc : Nat
  scrsize : Nat
  qid : Nat
  slist : Nat
  args : List W32
  dep : W32
  seq : W64
  state : Nat
  runs : Nat
  die : Nat
  acq : List Nat
  deriving DecidableEq, Repr

/-- A job card on its way (19 R302, R303), with the writes in transit that it releases (R304). -/
structure Card where
  id : Nat
  acq : List Nat
  fn : Nat
  secure : Bool
  issuerQueue : Nat
  cls : Nat
  tcb : Nat
  die : Nat
  remote : Bool
  modid : Nat
  port : Nat
  tiles : List (Nat × Nat × Nat)
  lid : Nat
  team : Nat
  tcb2 : W64
  deriving DecidableEq, Repr

/-- The task engine: tasks, cards, the enqueue sequence counter (19 R294), and the number last served in each class by the round
robin of 02 R32. -/
structure TaskEngine where
  tasks : List Task
  cards : List Card
  seq : W64
  rr : Sp Nat
  deriving DecidableEq, Repr

/-! ### Link engine (21) -/

/-- An attachment of a pipe (21 R308): its pipeline and the stage that consumes, J, NXT, released records beyond REL, REL, and
the holders (record, SID); rels: what each release of a record covers (record, writes in transit; R325). -/
structure Attach where
  stage : Nat
  j : Nat
  nxt : Nat
  rel : Nat
  released : List Nat
  holders : List (Nat × Nat)
  rels : List (Nat × List Nat)
  removed : Bool
  deriving DecidableEq, Repr

/-- A pipe (21 R307, R308). pubs: what each publication covers (record, writes in transit; R325). -/
structure Pipe where
  rsz : Nat
  nslot : Nat
  rwin : Nat
  ring : Nat
  fn : Nat
  acq : Nat
  pub : Nat
  published : List Nat
  holders : List (Nat × Nat)
  pubs : List (Nat × List Nat)
  closed : Bool
  attaches : List Attach
  deriving DecidableEq, Repr

/-- A stage instance (21 R310, R317): identity, function, world, entry, team, pipes, index, creating and owning pipelines, and the
writes in transit that its start acquires (23 R335). -/
structure Stage where
  idx : Nat
  ident : List Byte
  fn : Nat
  secure : Bool
  obj : Nat
  vent : Nat
  cent : W32
  nstr : Nat
  scrsize : Nat
  args : List W32
  cls : Nat
  index : Nat
  creator : Nat
  owner : Nat
  isPrefix : Bool
  out : Option Nat
  inp : Option Nat
  tid : Option Nat
  started : Bool
  ended : Bool
  seq : W64
  acq : List Nat
  deriving DecidableEq, Repr

/-- A pipeline (21 R311, R316); die: whose ready queue holds its stages until they start (02 R31). -/
structure Pipeline where
  pid : Nat
  fn : Nat
  qid : Nat
  stages : List Nat
  shared : Nat
  order : Nat
  die : Nat
  ended : Bool
  deriving DecidableEq, Repr

/-- The Heddle. Pipes and stages are named by their place in these lists. -/
structure Heddle where
  pipes : List Pipe
  stages : List Stage
  pipelines : List Pipeline
  deriving DecidableEq, Repr

/-! ### The Loom (23) -/

/-- A function (23 R344). -/
structure Func where
  secure : Bool
  qlo : Nat
  qhi : Nat
  clusters : BitVec 160
  squota : Nat
  gquota : Nat
  deriving DecidableEq, Repr

/-- Declarations of an object (05 R90). -/
structure Decl where
  scrMin : Nat
  tags : Nat
  hart : Bool
  acc : Nat
  floor : Nat
  width : Nat
  pt : Nat
  nstrMax : Nat
  deriving DecidableEq, Repr

/-- A loaded code object (05 R76 to R92): text as words, control text as words, recorded clause headers, veer table, trap
entries (cause, entry), templates, DATA ranges (address, bytes, first body chunk), leaves in body order, the address of the image. vbase,
cbase and tbase are the first body chunks of the texts and of the templates. -/
structure Obj where
  handle : Nat
  fn : Nat
  secure : Bool
  vmaj : Nat
  vmin : Nat
  root : List Byte
  leaves : List (List Byte)
  image : Nat
  vbase : Nat
  cbase : Nat
  tbase : Nat
  vtext : List W32
  ctext : List W32
  hasCtext : Bool
  ventry : Nat
  centry : W32
  headers : List Nat
  veer : List Nat
  traps : List (Nat × Nat)
  templates : List Template
  decl : Decl
  data : List (Nat × Nat × Nat)
  deriving DecidableEq, Repr

/-- A resident chunk in the store of a function and world (05 R84, R85). -/
structure Chunk where
  fn : Nat
  secure : Bool
  leaf : List Byte
  bytes : List Byte
  deriving DecidableEq, Repr

/-- A command that has been taken and has not completed (23 R334); acq: the writes in transit that taking it acquired; rel: its effects,
which its completion releases (R335). -/
structure Pending where
  opc : BitVec 16
  ctag : W32
  flags : BitVec 8
  seq : W32
  lid : Nat
  addr : Nat
  value : W64
  acq : List Nat
  rel : List Nat
  deriving DecidableEq, Repr

/-- A completion record (23 R332). -/
structure Record where
  opc : BitVec 16
  status : BitVec 16
  ctag : W32
  seq : W64
  result : BitVec 128
  deriving DecidableEq, Repr

/-- A host queue (23 R329, R330). acq: the writes in transit that its doorbells released to its commands; rel: those that its
completed commands release (R335). -/
structure Queue where
  prod : W32
  cons : W32
  cprod : W32
  ccons : W32
  eprod : W32
  econs : W32
  dropped : W32
  pending : List Pending
  backlog : List Record
  stopped : Bool
  acq : List Nat
  rel : List Nat
  deriving DecidableEq, Repr

/-- A launch's debug-private copy of a chunk of vector text (05 R86): the chunk, its words, its own hash, whether it is resident. -/
structure PrivateCopy where
  chunk : Nat
  words : List W32
  hash : List Byte
  resident : Bool
  deriving DecidableEq, Repr

/-- A live launch (23 R338): next is the number of the next team to dispatch, gang names the launches placed with it,
planted holds the words planted by debug (offset,
word replaced) and copies the chunks that they stand in, die is the die whose ready queue holds it (02 R31), acq the writes in transit that its teams' starts acquire and rel those that its completion releases (23 R335). -/
structure Launch where
  fn : Nat
  lid : Nat
  queue : Nat
  ctag : W32
  flags : BitVec 8
  cmdSeq : W32
  opc : BitVec 16
  cls : Nat
  obj : Nat
  vent : Nat
  cent : W32
  nstr : Nat
  scrsize : Nat
  args : List W32
  teams : Nat
  next : Nat
  ended : Nat
  faulted : Nat
  pair : Bool
  seq : W64
  gang : Option Nat
  parked : Bool
  stopped : Bool
  planted : List (Nat × W32)
  copies : List PrivateCopy
  aborted : Bool
  die : Nat
  acq : List Nat
  rel : List Nat
  deriving DecidableEq, Repr

/-- What a checkpoint's bytes stand for (23 R347; log entry 14): the launch, its images, its hops that wait to start with the clusters and
channels that they wait on (18 R287), its object's ROOT and world. -/
structure Checkpoint where
  bytes : List Byte
  launch : Launch
  images : List Image
  hops : List (Nat × Nat × Copy)
  root : List Byte
  secure : Bool
  deriving DecidableEq, Repr

/-- One error-log entry, without its count (23 R343). -/
structure Entry where
  kind : Nat
  cause : Nat := 0
  reason : Nat := 0
  replayable : Bool := false
  heldTeam : Bool := false
  cluster : Nat := 0
  core : Nat := 0
  channel : Nat := 0
  lid : Nat := 0
  team : Nat := 0
  lanes : Nat := 0
  pc : Nat := 0
  tcb : Nat := 0
  tcb2 : Nat := 0
  addr : Nat := 0
  deriving DecidableEq, Repr

/-- Corrected errors of a die that wait for the end of the millisecond in which one entry reports them (25 R364): the queue, the code, the
die, the entry with their number in lanes. -/
structure Merged where
  queue : Nat
  code : Nat
  die : Nat
  entry : Entry
  deriving DecidableEq, Repr

/-- Watchdog settings in force (25 R357). -/
structure Wdcfg where
  wperiod : Nat
  cperiod : Nat
  wcount : Nat
  ccount : Nat
  pcount : Nat
  deriving DecidableEq, Repr

/-- POWER.SET settings (26 R367). -/
structure Power where
  ceil : Nat
  rise : Nat
  fall : Nat
  bmax : Nat
  pmode : BitVec 3
  deriving DecidableEq, Repr

/-- TELEMETRY.SET settings (26 R373). -/
structure Telemetry where
  raddr : W64
  rslots : W32
  ptpdom : BitVec 8
  tdest : BitVec 2
  dport : BitVec 16
  dip : W32
  sip : W32
  deriving DecidableEq, Repr

/-- The Loom's tables. ctl holds the bytes of the control area that queue counts do not cover (23 R329, 25 R357): rings, error
logs and WDCFG. checkpoints holds what each checkpoint's bytes stand for (23 R347; log entry 14). -/
structure Loom where
  funcs : Sp (Option Func)
  queues : Sp Queue
  ctl : Mem
  objs : List Obj
  chunks : List Chunk
  nextHandle : Nat
  launches : List Launch
  images : List Image
  checkpoints : List Checkpoint
  patch : Option (W32 × List Byte)
  wd : Wdcfg
  power : Power
  telem : Telemetry
  missed : Sp Nat
  deadCp : Sp Bool
  merged : List Merged
  resetRequested : Bool
  draining : Option Nat
  deriving DecidableEq, Repr

/-! ### The Vane, time and the fabric (26) -/

/-- What a telemetry record says of the instant at which its window ended (26 R374): seconds, nanoseconds and SYNC of module time, and the
cores at each point. -/
structure Stamp where
  secs : BitVec 48
  nsec : Nat
  sync : BitVec 2
  cores : List Nat
  deriving DecidableEq, Repr

/-- The limiter's state (26 R368 to R374): samples of the current window in mW, oldest first; the last 99 samples in mW, oldest first, each
with the ceiling in W that was in force at it; sum
of the previous window's samples in mW; flags; filler gate; ballast draw in mW now and summed over the window; telemetry sequence; whether no
record of the window is to be sent any more; the stamp of the window that ended last, and the telemetry settings in force at its end; how many
windows of the current millisecond have ended (25 R364). -/
structure Vane where
  samples : List Nat
  recent : List (Nat × Nat)
  prevSum : Option Nat
  rise : Bool
  ceil : Bool
  fall : Bool
  fallViol : Bool
  gate : Bool
  ballast : Nat
  ballSum : Nat
  telemSeq : W32
  telemSent : Bool
  stamp : Stamp
  dest : Telemetry
  windows : Nat
  deriving DecidableEq, Repr

/-- PTP time (26 R372): seconds and nanoseconds since the epoch, state, offset still to be removed, the arrival of a two-step Sync
that waits for its Follow_Up, arrival minus origin of the last Sync applied, by the clock as the correction left it, the Delay_Req that is not
yet answered with its sequence number and the clock's stamp of its departure, the next one's number, the delay measured, the nanoseconds since
the last Sync, whether the clock runs at half rate. -/
structure Ptp where
  secs : BitVec 48
  nsec : Nat
  sync : BitVec 2
  offset : Int
  twoStep : Option Nat
  syncDiff : Int
  request : Option (Nat × Nat)
  nextReq : Nat
  delay : Int
  since : Nat
  half : Bool
  deriving DecidableEq, Repr

/-- A Weave port (26 R377). -/
structure WeavePort where
  up : Bool
  retries : Nat
  deriving DecidableEq, Repr

/-- A response to a host or another module (26 R375, R376): no error, poison, data. -/
structure Response where
  ok : Bool
  poison : Bool
  data : Nat
  deriving DecidableEq, Repr

/-- A telemetry record that was sent (26 R373): TDEST, the address of its slot in the host ring, the datagram's destination, port and source,
its bytes. -/
structure Sent where
  tdest : BitVec 2
  slot : Nat
  dip : W32
  dport : BitVec 16
  sip : W32
  bytes : List Byte
  deriving DecidableEq, Repr

/-- The fabric: ports, responses and telemetry sent, oldest first; the writes in transit that hosts made, those that each queue's records
covered when a host last read its CPROD, and those that hosts have acquired (23 R335). -/
structure Weave where
  ports : Sp WeavePort
  responses : List Response
  sentRecords : List Sent
  hostOwn : List Nat
  hostSaw : Sp (List Nat)
  hostAcq : List Nat
  deriving DecidableEq, Repr

/-! ### The whole module -/

/-- The state of the module. agenda, cur, tick and nextId are the model's own (INVENTORY.md). -/
structure State where
  agenda : List Turn
  cur : Agent
  tick : Nat
  nextId : Nat
  mem : MemSys
  xlat : Xlat
  clusters : Sp Cluster
  teams : List Team
  vops : List VOp
  tasks : TaskEngine
  heddle : Heddle
  loom : Loom
  vane : Vane
  ptp : Ptp
  weave : Weave
  deriving DecidableEq, Repr

/-! ### Default records and reset -/

/-- A die view before any write (26 R378 step 4). -/
def DieView.reset : DieView := { mem := [], poison := [], rel := [], resv := [] }

/-- What an agent that has done nothing has done. -/
def Hist.empty : Hist := { past := [], rel := none }

/-- A queue with every count 0 (23 R330). -/
def Queue.reset : Queue :=
  { prod := 0, cons := 0, cprod := 0, ccons := 0, eprod := 0, econs := 0, dropped := 0, pending := [], backlog := [],
    stopped := false, acq := [], rel := [] }

/-- A hart that the Loom has not used. DESIGN CHOICE (log entry 73): the spec gives its registers no reset value; they are 0. Unsafe. -/
def Hart.reset : Hart :=
  { num := 0, pc := 0, x := List.replicate 32 0, pois := 0, cycle := 0, instret := 0, wait := .none, paused := false, ended := false,
    stores := [], mepc := 0, mcause := 0, mtval := 0, csrs := [], expiries := 0, granted := false, loadSeq := 0 }

/-- A channel that has carried nothing (01 R10). -/
def Chan.reset : Chan := { issued := 0, copies := [], rel := [] }

/-- A context nobody holds. -/
def Ctx.reset : Ctx :=
  { tid := none, cls := 0, issued := 0, ops := [], binding := none, batch := none, chain := none, formed := none, closing := false, kinds := [],
    steps := 0, latches := 0, stopped := false, forwarded := 0, corr := 0, retired := 0,
    expiries := 0, waitMark := (0, 0, 0), rel := [] }

/-- A zeroed slot (16 R247). -/
def Slot.reset : Slot :=
  { elems := [], ccol := [], crow := [], mrow := [], mcol := [], blocks := 0, gsums := [], flag := false }

/-- A feed register nobody holds (16 R248). -/
def Feed.reset : Feed := { bytes := [], written := [], full := [], pois := [], holder := none }

/-- A core with no resident team is held at ZEPHYR (26 R366, R378). -/
def Core.reset : Core := { pt := 3, moving := none, last := [] }

/-- A matrix engine at reset. -/
def Matrix.reset : Matrix := { ctxs := [], slots := [], feeds := [], latch := none, running := none, lastServed := [] }

/-- A cluster at reset. DESIGN CHOICE (log entry 3): scratchpad zero, full and clear. Unsafe until a dispatch sets them. -/
def Cluster.reset : Cluster :=
  { scr := [], empty := [], scrPoison := [], scrRel := [], chans := [], hops := [], mx := Matrix.reset, cores := [], fenced := false, stalled := 0, seen := [],
    preempt := .none, lastHart := 0, machine := [] }

/-- Default watchdog settings (25 R357). -/
def Wdcfg.reset : Wdcfg := { wperiod := 10000, cperiod := 10000, wcount := 4, ccount := 3, pcount := 3 }

/-- Default power settings (26 R367). -/
def Power.reset : Power := { ceil := 2200, rise := 200, fall := 200, bmax := 400, pmode := 7 }

/-- Telemetry settings after reset (26 R373). -/
def Telemetry.reset : Telemetry :=
  { raddr := 0, rslots := 0, ptpdom := 0, tdest := 0, dport := 0, dip := 0, sip := 0 }

/-- A Weave port that is being trained: after reset every port but the one towards the host (26 R378 step 6). -/
def WeavePort.reset : WeavePort := { up := false, retries := 0 }

/-- The module right after reset, when queue 0 takes frames (26 R378): the port towards the host is trained, DESIGN CHOICE (log entry 8)
port 0, for the spec does not number it. Unsafe where a statement rests on the number. No function, no work, zero memory, defaults, free-running time from 0, the
enqueue sequence counter at 1 (19 R294). -/
def State.reset : State :=
  { agenda := [], cur := .none, tick := 0, nextId := 0,
    mem := { views := [DieView.reset, DieView.reset, DieView.reset, DieView.reset], transit := [], rels := [], touched := [] },
    xlat := { pages := [], onDemand := [], ports := [], hints := [], utlb := [], dtlb := [], walks := [] },
    clusters := [], teams := [], vops := [],
    tasks := { tasks := [], cards := [], seq := 1, rr := [] },
    heddle := { pipes := [], stages := [], pipelines := [] },
    loom := { funcs := [], queues := [], ctl := [], objs := [], chunks := [], nextHandle := 1, launches := [], images := [],
              checkpoints := [],
              patch := none, wd := Wdcfg.reset, power := Power.reset, telem := Telemetry.reset, missed := [], deadCp := [], merged := [],
              resetRequested := false, draining := none },
    vane := { samples := [], recent := [], prevSum := none, rise := false, ceil := false, fall := false, fallViol := false,
              gate := false, ballast := 0, ballSum := 0, telemSeq := 0, telemSent := false,
              stamp := { secs := 0, nsec := 0, sync := 0, cores := [] }, dest := Telemetry.reset, windows := 0 },
    ptp := { secs := 0, nsec := 0, sync := 0, offset := 0, twoStep := none, syncDiff := 0,
             request := none, nextReq := 0, delay := 0, since := 0, half := false },
    weave := { ports := [(0, { up := true, retries := 0 })], responses := [], sentRecords := [], hostOwn := [], hostSaw := [], hostAcq := [] } }

end Sys2Proof.Machine
end

