-- ==== Sys2Proof/Config.lean ====
section
/-! DEFINITION. What an implementation fixes and what the manual leaves open: uninterpreted constants, applied to the counter
tick of the state where a fresh value is needed each time. Nothing can evaluate them or prove a value of them. -/

namespace Sys2Proof.Config

open Sys2Proof.Machine

/-- Who moves next when the agenda is empty (log entry 1). -/
opaque nextTurn : Nat → Option Turn

/-- A free number: a choice among the outcomes that the manual allows, or a value it leaves open (log entry 2). -/
opaque freeNat : Nat → Nat

/-- Free bytes: the contents of memory that is not the module's, read over Weave (03 R50 P3; log entry 2). -/
opaque freeByte : Nat → Byte

/-- The bytes that the Loom finds at the addresses of a function where no page is mapped, from which it reads an object's image: by function and
address, the same at each read (24 R351; log entry 86). -/
opaque outsideByte : Nat → Nat → Byte

/-- Free bits: the poison of what is read over Weave (25 R355; log entry 2). -/
opaque freeBit : Nat → Bool

/-- The attestation report of 512 bytes: what it holds, laid out and signed with the identity key (23 R350; log entry 10). -/
opaque attestation : List Byte → List Byte

/-- The x and y coordinates of the public key in ROM (23 R349; log entry 10). -/
opaque romKey : Nat × Nat

/-- The ROM release (23 R349; log entry 10). -/
opaque romVer : W32

/-- The fused minimum patch version (23 R349; log entry 10). -/
opaque minPver : W32

/-- The module's identity (23 R350, 26 R375; log entry 10). -/
opaque moduleId : W32

/-- The identification CSRs of a hart, 0xF11 to 0xF14, by number (15 R223; log entry 73). -/
opaque machineId : Nat → BitVec 64

/-- What bytes that another device wrote as a checkpoint stand for (23 R347; log entry 14). -/
opaque foreignCheckpoint : List Byte → Option Checkpoint

/-- Disabled engines (16 R257): a matrix engine that manufacture left disabled, by cluster (log entry 11). -/
opaque engineDisabled : Nat → Bool

end Sys2Proof.Config
end

