-- ==== Sys2Proof/Machine/Bits.lean ====
section
/-! DEFINITION. Bit fields, byte order (00 R2), sign extension, and the sparse maps every store of the module is held in. -/

namespace Sys2Proof.Machine

open Sys2Proof

/-! ### Sparse maps -/

/-- The value at a key, or the default. -/
def spGet {α : Type} (d : α) : Sp α → Nat → α
  | [], _ => d
  | (k, v) :: t, a => if k = a then v else spGet d t a

/-- Put a value at a key, keeping keys rising. -/
def spPut {α : Type} (k : Nat) (v : α) : Sp α → Sp α
  | [] => [(k, v)]
  | (k', v') :: t => if k < k' then (k, v) :: (k', v') :: t else if k = k' then (k, v) :: t else (k', v') :: spPut k v t

/-- Drop a key. -/
def spDrop {α : Type} (k : Nat) : Sp α → Sp α
  | [] => []
  | (k', v') :: t => if k' = k then spDrop k t else (k', v') :: spDrop k t

/-- Set a key: the default's entry is not listed. -/
def spSet {α : Type} [DecidableEq α] (d : α) (m : Sp α) (k : Nat) (v : α) : Sp α :=
  if v = d then spDrop k m else spPut k v m

/-- The canonical form: keys strictly rising from a bound, and no entry equal to the default. -/
def spWfFrom {α : Type} [DecidableEq α] (d : α) : Nat → Sp α → Bool
  | _, [] => true
  | b, (k, v) :: t => decide (b ≤ k) && decide (v ≠ d) && spWfFrom d (k + 1) t

/-- The canonical form of a map. -/
def spWf {α : Type} [DecidableEq α] (d : α) (m : Sp α) : Bool := spWfFrom d 0 m

/-- Drop every key of a half-open range. -/
def spClear {α : Type} (lo n : Nat) (m : Sp α) : Sp α := m.filter fun e => !(decide (lo ≤ e.1) && decide (e.1 < lo + n))

/-- The canonical form of byte memory. -/
def Memory.wf (m : Mem) : Bool := spWf (0 : Byte) m

/-- One byte of a memory. -/
def memGet (m : Mem) (a : Nat) : Byte := spGet 0 m a

/-- Write one byte of a memory. -/
def memSet (m : Mem) (a : Nat) (b : Byte) : Mem := spSet 0 m a b

/-- n bytes from an address upward. -/
def memRead (m : Mem) : Nat → Nat → List Byte
  | _, 0 => []
  | a, n + 1 => memGet m a :: memRead m (a + 1) n

/-- Write bytes from an address upward. -/
def memWrite (m : Mem) : Nat → List Byte → Mem
  | _, [] => m
  | a, b :: t => memWrite (memSet m a b) (a + 1) t

/-! ### Little-endian values (00 R2) -/

/-- The value of bytes, lowest address first. -/
def leNat : List Byte → Nat
  | [] => 0
  | b :: t => b.toNat + 256 * leNat t

/-- The n low bytes of a value, lowest first. -/
def leBytes : Nat → Nat → List Byte
  | 0, _ => []
  | n + 1, v => BitVec.ofNat 8 v :: leBytes n (v / 256)

/-- Bits [lo + n - 1 : lo] of a number. -/
def bitsOf (v lo n : Nat) : Nat := (v >>> lo) % 2 ^ n

/-- One bit of a number. -/
def bitOf (v i : Nat) : Bool := v.testBit i

/-- A two's-complement reading of an n-bit number. -/
def signedOf (n v : Nat) : Int := if v % 2 ^ n < 2 ^ (n - 1) then (v % 2 ^ n : Nat) else (v % 2 ^ n : Nat) - (2 ^ n : Nat)

/-- An integer clamped to a range. -/
def clampInt (lo hi x : Int) : Int := if x < lo then lo else if hi < x then hi else x

/-- One bit as a number. -/
def ofBool (b : Bool) : Nat := if b then 1 else 0

/-- The value of a list of bits, lowest first. -/
def bitsNat : List Bool → Nat
  | [] => 0
  | b :: t => ofBool b + 2 * bitsNat t

/-- Numbers from a start. -/
def upFrom : Nat → Nat → List Nat
  | _, 0 => []
  | a, n + 1 => a :: upFrom (a + 1) n

/-- Replace the first element that meets a test. -/
def updFirst {α : Type} (p : α → Bool) (f : α → α) : List α → List α
  | [] => []
  | a :: t => if p a then f a :: t else a :: updFirst p f t

/-- Replace the element at a position. -/
def updAt {α : Type} (f : α → α) : Nat → List α → List α
  | _, [] => []
  | 0, a :: t => f a :: t
  | n + 1, a :: t => a :: updAt f n t

/-- The element at a position, or a default. -/
def nthD {α : Type} (d : α) : List α → Nat → α
  | [], _ => d
  | a :: _, 0 => a
  | _ :: t, n + 1 => nthD d t n

/-- Chunks of n elements, with fuel for the length. -/
def chunksOf {α : Type} (n : Nat) : Nat → List α → List (List α)
  | 0, _ => []
  | f + 1, l => if l.isEmpty then [] else l.take n :: chunksOf n f (l.drop n)

/-- All natural numbers of a sorted union of two lists of numbers, without repeats. -/
def insNat (a : Nat) : List Nat → List Nat
  | [] => [a]
  | b :: t => if a < b then a :: b :: t else if a = b then b :: t else b :: insNat a t

end Sys2Proof.Machine
end

