-- ==== Sys2Proof/Machine/Mem.lean ====
section
/-! DEFINITION. Global memory as the dies see it (03 R55), poison granules (10 R172), translation (03 R46 to R49), scratchpad
(03 R40 to R44). Every engine reads and writes memory through these operations. -/

namespace Sys2Proof.Machine

open Sys2Proof

/-- What a step answers. -/
abbrev Result := Host.Outcome State Fault Refusal

/-! ### Free choices -/

/-- Take a free number and advance the counter (log entry 2). -/
def takeFree (s : State) : Nat × State := (Config.freeNat s.tick, { s with tick := s.tick + 1 })

/-- n bytes of another module's memory from an address on, with the poison of the granules they come from (03 R50 P3, 25 R355). -/
def remoteRead (s : State) (a n : Nat) : List (Byte × Bool) × State :=
  let (k, s) := takeFree s
  ((upFrom a n).map fun b => (Config.freeByte (k + (b - a)), Config.freeBit (k + (b / 64 - a / 64))), s)

/-- Some Weave port is up, so that traffic has a port to take (26 R377). Which routes the ports give, the spec does not say. -/
def linked (s : State) : Bool := (upFrom 0 24).any fun p => (spGet WeavePort.reset s.weave.ports p).up

/-- Take a fresh name. -/
def takeId (s : State) : Nat × State := (s.nextId, { s with nextId := s.nextId + 1 })

/-! ### Clusters -/

/-- The cluster of a number. -/
def getCluster (s : State) (c : Nat) : Cluster := spGet Cluster.reset s.clusters c

/-- Replace a cluster. -/
def setCluster (s : State) (c : Nat) (x : Cluster) : State := { s with clusters := spSet Cluster.reset s.clusters c x }

/-- Change a cluster. -/
def updCluster (s : State) (c : Nat) (f : Cluster → Cluster) : State := setCluster s c (f (getCluster s c))

/-- The die of a cluster (01 R5). -/
def dieOf (c : Nat) : Nat := c / 40

/-! ### Die views and writes in transit (03 R55) -/

/-- The key of a function's virtual address. -/
def gkey (fn va : Nat) : Nat := fn * 2 ^ 56 + va

/-- A die's view. -/
def viewOf (m : MemSys) (d : Nat) : DieView := nthD DieView.reset m.views d

/-- Change a die's view. -/
def updView (m : MemSys) (d : Nat) (f : DieView → DieView) : MemSys := { m with views := updAt f d m.views }

/-- Two byte ranges meet. -/
def overlap (a n b m : Nat) : Bool := decide (a < b + m) && decide (b < a + n) && decide (0 < n) && decide (0 < m)

/-- Note, byte by byte, the releases that a read of a range returns (03 R54). -/
def setRels (addr n : Nat) (rels : List Nat) (m : Sp (List Nat)) : Sp (List Nat) :=
  (upFrom addr n).foldl (fun m a => spSet [] m a rels) m

/-- Apply bytes and poison changes to one view; reservations of the granules written are lost (15 R216). -/
def applyTo (v : DieView) (addr : Nat) (bytes : List Byte) (poison : List (Nat × Bool)) (rels : List Nat) : DieView :=
  { v with mem := memWrite v.mem addr bytes,
           poison := poison.foldl (fun p g => spSet false p g.1 g.2) v.poison,
           rel := setRels addr bytes.length rels v.rel,
           resv := v.resv.filter fun r => !overlap addr bytes.length (64 * r.2) 64 }

/-- A die has applied a write. -/
def Transit.on (e : Transit) (d : Nat) : Bool := decide (e.origin = d) || e.applied.contains d

/-- Apply one write in transit on a die. -/
def deliverOne (m : MemSys) (d : Nat) (e : Transit) : MemSys :=
  let m := updView m d fun v => applyTo v e.addr e.bytes e.poison e.rels
  { m with transit := (updFirst (fun x => x.id = e.id) (fun x => { x with applied := insNat d x.applied }) m.transit).filter
             fun x => !([0, 1, 2, 3].all fun j => x.on j) }

/-- The writes that must be applied on a die before a set of writes may be: the set closed under predecessors. The list is in
the order of application at the origins, so predecessors stand earlier. -/
def depClosure (want : List Nat) : List Transit → List Nat
  | [] => want
  | e :: t =>
    let w := depClosure want t
    if w.contains e.id then e.deps.foldl (fun a i => insNat i a) w else w

/-- Apply on a die, in order, every write in transit of a set closed under predecessors. -/
def deliverSet (m : MemSys) (d : Nat) (want : List Nat) : MemSys :=
  let w := depClosure want m.transit
  (m.transit.filter fun e => w.contains e.id && !e.on d).foldl (fun m e => deliverOne m d e) m

/-- Writes in transit that meet a byte range. -/
def meeting (m : MemSys) (addr n : Nat) : List Nat :=
  (m.transit.filter fun e => overlap e.addr e.bytes.length addr n).map (·.id)

/-- Every earlier write to these bytes, wherever it was applied, is applied on the die: its coherence order is the order of
application at the origins (03 R55; log entry 12). -/
def catchUp (m : MemSys) (d addr n : Nat) : MemSys :=
  match meeting m addr n with
  | [] => m
  | l => deliverSet m d l

/-- A die may apply a write in transit: every predecessor, and every earlier write to a common byte, is applied there. -/
def mayDeliver (m : MemSys) (d : Nat) (e : Transit) : Bool :=
  !e.on d &&
  (m.transit.takeWhile fun x => x.id ≠ e.id).all fun x =>
    x.on d || !(e.deps.contains x.id || overlap x.addr x.bytes.length e.addr e.bytes.length)

/-- The arrival of a write in transit on a die: nothing where the write may not be applied yet. -/
def deliverAt (s : State) (d idx : Nat) : State :=
  match s.mem.transit[idx]? with
  | none => s
  | some e => if mayDeliver s.mem d e then { s with mem := deliverOne s.mem d e } else s

/-- Everything a die has applied of what is still in transit. -/
def appliedOn (m : MemSys) (d : Nat) : List Nat := (m.transit.filter fun e => e.on d).map (·.id)

/-- Of a set of writes, those still in transit. -/
def inTransit (m : MemSys) (ids : List Nat) : List Nat := ids.filter fun i => m.transit.any fun e => e.id = i

/-- A set of writes is applied on a die, with their predecessors: what an acquire of a release outside memory, a counted operation, a
publication, a decrement, an enqueue, asks of the die (03 R55, R57; 19 R304, 21 R325). -/
def bring (s : State) (d : Nat) (ids : List Nat) : State := { s with mem := deliverSet s.mem d ids }

/-- Write bytes on a die, under the number nextId. deps: the writes in transit that happen before it (03 R54); rels: the releases
that a read of it returns. The write follows, in its location's coherence order, every write already applied anywhere. -/
def writeBytes (s : State) (d addr : Nat) (bytes : List Byte) (poison : List (Nat × Bool)) (deps rels : List Nat) : State :=
  let m := catchUp s.mem d addr bytes.length
  let m := updView m d fun v => applyTo v addr bytes poison rels
  let (i, s) := takeId s
  { s with mem := { m with touched := (upFrom (addr / 4096) ((addr + bytes.length + 4095) / 4096 - addr / 4096)).foldl (fun l u => spSet false l u true) m.touched,
                           transit := m.transit ++
      [{ id := i, addr := addr, bytes := bytes, poison := poison, rels := rels, origin := d,
         deps := inTransit m (deps ++ meeting m addr bytes.length), applied := [] }] } }

/-- The units of a range count as not written since they were mapped (05 R91). -/
def untouch (s : State) (addr n : Nat) : State :=
  { s with mem := { s.mem with touched := spClear (addr / 4096) ((n + 4095) / 4096) s.mem.touched } }

/-- The granule that a team's hart has reserved on a die (15 R216). -/
def resvOf (s : State) (d tid : Nat) : Option Nat := ((viewOf s.mem d).resv.find? fun r => r.1 = tid).map (·.2)

/-- Set or drop the reservation of a team's hart. -/
def setResv (s : State) (d tid : Nat) (g : Option Nat) : State :=
  { s with mem := updView s.mem d fun v =>
      { v with resv := v.resv.filter (fun r => decide (r.1 ≠ tid)) ++ match g with | some g => [(tid, g)] | none => [] } }

/-- A write of a team's hart: its own reservation outlasts it (15 R216). -/
def writeOwn (s : State) (d tid addr : Nat) (bytes : List Byte) (poison : List (Nat × Bool)) (deps rels : List Nat) :
    State :=
  let s := { s with mem := catchUp s.mem d addr bytes.length }
  let r := resvOf s d tid
  let s := writeBytes s d addr bytes poison deps rels
  match r with
  | some g => setResv s d tid (some g)
  | none => s

/-- n bytes as a die sees them. -/
def readBytes (s : State) (d addr n : Nat) : List Byte := memRead (viewOf s.mem d).mem addr n

/-- The poison bit of the granule of an address, as a die sees it (10 R172). -/
def poisonAt (s : State) (d addr : Nat) : Bool := spGet false (viewOf s.mem d).poison (addr / 64)

/-- Some granule of a byte range is poisoned. -/
def anyPoison (s : State) (d addr n : Nat) : Bool :=
  (upFrom (addr / 64) ((addr + n + 63) / 64 - addr / 64)).any fun g => spGet false (viewOf s.mem d).poison g

/-- A little-endian number as a die sees it. -/
def readNat (s : State) (d addr n : Nat) : Nat := leNat (readBytes s d addr n)

/-- Put bytes into every view at once, and drop writes in transit to them: what the Loom does to memory that no agent may be
reading (03 R46, 23 R337, R346). -/
def fillAll (s : State) (addr n : Nat) (v : DieView → DieView) : State :=
  let m := [0, 1, 2, 3].foldl (fun m d => updView m d v) s.mem
  { s with mem := { m with transit := (m.transit.filter fun e => !overlap e.addr e.bytes.length addr n),
                           touched := spClear (addr / 4096) ((n + 4095) / 4096) m.touched } }

/-- Zero a byte range everywhere. -/
def zeroAll (s : State) (addr n : Nat) : State :=
  fillAll s addr n fun v =>
    { v with mem := spClear addr n v.mem, poison := spClear (addr / 64) ((n + 63) / 64) v.poison, rel := spClear addr n v.rel }

/-- The granules that a set of byte ranges covers whole (10 R172). -/
def coveredGranules (ranges : List (Nat × Nat)) : List Nat :=
  let gs := ranges.foldl (fun a r => (upFrom (r.1 / 64) ((r.1 + r.2 + 63) / 64 - r.1 / 64)).foldl (fun b g => insNat g b) a) []
  gs.filter fun g => (upFrom (64 * g) 64).all fun a => ranges.any fun r => decide (r.1 ≤ a) && decide (a < r.1 + r.2)

/-- The granules that a byte range touches. -/
def granulesOf (addr n : Nat) : List Nat := upFrom (addr / 64) ((addr + n + 63) / 64 - addr / 64)

/-! ### Translation (03 R46 to R49) -/

/-- The page of a function's address. -/
def findPage (x : Xlat) (fn va : Nat) : Option Page :=
  x.pages.find? fun p => decide (p.fn = fn) && decide (p.va ≤ va) && decide (va < p.va + p.size)

/-- The rights an access needs. -/
inductive Need where
  | read | write | exec
  deriving DecidableEq, Repr

/-- A page carries a right. -/
def Page.allows (p : Page) : Need → Bool
  | .read => p.r
  | .write => p.w
  | .exec => p.x

/-- The first byte of the copy aperture (18 R279). -/
def apertureBase : Nat := 0x00FFFFFFFFFFF000

/-- The memory reason code of an access of n bytes, the lowest that applies (03 R49); none where the access may be made. The
accesses that the copy aperture accepts are let through by their own words before this check (18 R279). -/
def checkAccess (s : State) (fn : Nat) (secure : Bool) (a : Int) (n : Nat) (align : Bool) (needs : List Need) : Option Nat :=
  if a < 0 || a ≥ 2 ^ 56 then some 1
  else if align && decide (a.toNat % n ≠ 0) then some 2
  else if apertureBase ≤ a.toNat then some 5
  else
    match findPage s.xlat fn a.toNat with
    | none => some 3
    | some p =>
      if p.secure ≠ secure then some 4
      else if needs.all p.allows then none
      else some 5

/-- Whether every byte of a range may be accessed, page by page: the lowest code over its 4 KiB units (03 R49). -/
def checkRange (s : State) (fn : Nat) (secure : Bool) (a n : Nat) (needs : List Need) : Option Nat :=
  let units := upFrom (a / 4096) ((a + n + 4095) / 4096 - a / 4096)
  units.foldl (fun acc u =>
    match acc, checkAccess s fn secure ((Nat.max (u * 4096) a : Nat) : Int) 1 false needs with
    | none, r => r
    | some c, some r => some (Nat.min c r)
    | some c, none => some c) none

/-- A page is another module's memory (23 R337). -/
def isRemote (s : State) (fn va : Nat) : Bool :=
  match findPage s.xlat fn va with
  | some p => p.remote.isSome
  | none => false

/-- Entries of a cluster's micro-TLB (03 R48). -/
def utlbOf (x : Xlat) (c : Nat) : List (Nat × Nat) := spGet [] x.utlb c
/-- Entries of a die's TLB (03 R48). -/
def dtlbOf (x : Xlat) (d : Nat) : List (Nat × Nat) := spGet [] x.dtlb d

/-- Add an entry. DESIGN CHOICE (log entry 69): a full TLB gives up its oldest entry. Safe: a TLB's contents change only time. -/
def tlbAdd (cap : Nat) (e : Nat × Nat) (l : List (Nat × Nat)) : List (Nat × Nat) :=
  if l.contains e then l else let l := l ++ [e]; if cap < l.length then l.drop (l.length - cap) else l

/-- Make the translation of one page ready for a cluster: true where it is in a TLB (the die TLB fills the micro-TLB), else a
walk is asked for (03 R48). -/
def tlbLookup (s : State) (c fn va : Nat) : Bool × State :=
  match findPage s.xlat fn va with
  | none => (true, s)
  | some p =>
    let e := (fn, p.va)
    if (utlbOf s.xlat c).contains e then (true, s)
    else if (dtlbOf s.xlat (dieOf c)).contains e then
      (true, { s with xlat := { s.xlat with utlb := spSet [] s.xlat.utlb c (tlbAdd 256 e (utlbOf s.xlat c)) } })
    else
      let w : Walk := { die := dieOf c, cluster := c, fn := fn, va := p.va }
      (false, if s.xlat.walks.contains w then s else { s with xlat := { s.xlat with walks := s.xlat.walks ++ [w] } })

/-- Look up every page of a list of addresses. -/
def tlbAll (s : State) (c fn : Nat) (vas : List Nat) : Bool × State :=
  vas.foldl (fun a va => let r := tlbLookup a.2 c fn va; (a.1 && r.1, r.2)) (true, s)

/-- Drop the translations of pages that meet a range from every TLB (03 R48). -/
def tlbDrop (x : Xlat) (fn va n : Nat) : Xlat :=
  let out (l : List (Nat × Nat)) := l.filter fun e => !(decide (e.1 = fn) && decide (va ≤ e.2) && decide (e.2 < va + n))
  { x with utlb := (x.utlb.map fun e => (e.1, out e.2)).filter fun e => !e.2.isEmpty,
           dtlb := (x.dtlb.map fun e => (e.1, out e.2)).filter fun e => !e.2.isEmpty,
           walks := x.walks.filter fun w => !(decide (w.fn = fn) && decide (va ≤ w.va) && decide (w.va < va + n)) }

/-! ### Scratchpad (03 R40 to R44) -/

/-- n bytes of a cluster's scratchpad from a physical offset. -/
def scrRead (k : Cluster) (o n : Nat) : List Byte := memRead k.scr o n

/-- Every line of a physical range is full (03 R44). -/
def linesFull (k : Cluster) (o n : Nat) : Bool := (upFrom (o / 128) ((o + n + 127) / 128 - o / 128)).all fun l => !spGet false k.empty l

/-- Set or clear the full bit of a physical line. -/
def setLine (full : Bool) (k : Cluster) (l : Nat) : Cluster := { k with empty := spSet false k.empty l (!full) }

/-- Lines of a physical range. -/
def linesOf (o n : Nat) : List Nat := upFrom (o / 128) ((o + n + 127) / 128 - o / 128)

/-- Write scratchpad bytes with poison changes by granule; rels: the releases that a read of them returns (03 R54, R56). -/
def scrWrite (k : Cluster) (o : Nat) (bytes : List Byte) (poison : List (Nat × Bool)) (rels : List Nat) : Cluster :=
  { k with scr := memWrite k.scr o bytes, scrPoison := poison.foldl (fun p g => spSet false p g.1 g.2) k.scrPoison,
           scrRel := setRels o bytes.length rels k.scrRel }

/-- Poison of the granule of a physical offset. -/
def scrPoisonAt (k : Cluster) (o : Nat) : Bool := spGet false k.scrPoison (o / 64)

/-! ### The page walkers (03 R48) -/

/-- The walks of a die that have a walker: the 64 oldest; the others wait for one in arrival order. -/
def walking (x : Xlat) (d : Nat) : List Walk := (x.walks.filter fun w => w.die = d).take 64

/-- One of a die's walkers, a free one of those at work, finishes its walk: the die TLB and the cluster's micro-TLB receive the page,
where it is still mapped. -/
def walkOne (s : State) (d : Nat) : State :=
  let (i, s) := takeFree s
  let l := walking s.xlat d
  match l[i % l.length]? with
  | none => s
  | some w =>
    let x := { s.xlat with walks := s.xlat.walks.erase w }
    match findPage x w.fn w.va with
    | none => { s with xlat := x }
    | some p =>
      let e := (w.fn, p.va)
      { s with xlat := { x with dtlb := spSet [] x.dtlb d (tlbAdd 16384 e (dtlbOf x d)),
                                utlb := spSet [] x.utlb w.cluster (tlbAdd 256 e (utlbOf x w.cluster)) } }

end Sys2Proof.Machine
end

