-- ==== Sys2Proof/Machine/Time.lean ====
section
/-! DEFINITION. Module time (26 R372, 15 R212). -/

namespace Sys2Proof.Machine

open Sys2Proof

/-- What the clock shows, in nanoseconds. -/
def Ptp.now (p : Ptp) : Nat := p.secs.toNat * 10 ^ 9 + p.nsec

/-- Module time in nanoseconds. -/
def timeNs (s : State) : Nat := s.ptp.now

/-- The clock advances by nanoseconds. -/
def advance (p : Ptp) (n : Nat) : Ptp :=
  let m := p.nsec + n
  { p with secs := p.secs + BitVec.ofNat 48 (m / 10 ^ 9), nsec := m % 10 ^ 9 }

/-- n nanoseconds pass: at half rate while a large backward offset is being removed; else a part of the offset, up to 100 ppm, is
slewed away (R372). part: how much of what may be slewed is. -/
def runClock (p : Ptp) (n part : Nat) : Ptp :=
  if p.half then
    let lost := Nat.min (n / 2) p.offset.natAbs
    let q := advance { p with offset := p.offset + lost } (n - lost)
    { q with half := decide (q.offset < 0) }
  else
    let most := Nat.min (n / 10000) p.offset.natAbs
    let k := part % (most + 1)
    if p.offset < 0 then advance { p with offset := p.offset + k } (n - k) else advance { p with offset := p.offset - k } (n + k)

/-- n nanoseconds pass: two seconds after the last Sync, locked time is in holdover (R372). -/
def passBy (p : Ptp) (n part : Nat) : Ptp :=
  let q := runClock p n part
  let q := { q with since := p.since + n }
  if q.sync = 1 && decide (2 * 10 ^ 9 ≤ q.since) then { q with sync := 2 } else q

/-- Time passes, by an amount that is free (log entry 2). -/
def passTime (s : State) : State :=
  let (n, s) := takeFree s
  let (k, s) := takeFree s
  { s with ptp := passBy s.ptp n k }

/-- A correction of the clock: the offset to remove, forward or backward (R372). -/
def correct (p : Ptp) (offset : Int) : Ptp :=
  if offset.natAbs ≤ 10 ^ 6 then { p with offset := offset, half := false }
  else if 0 < offset then { advance p offset.natAbs with offset := 0, half := false }
  else { p with offset := offset, half := true }

end Sys2Proof.Machine
end

