-- ==== Sys2Proof/Machine/Float.lean ====
section
/-! DEFINITION. Number formats (04): exact values, decoding, rounding (R70, R71), and the arithmetic that rounds once. -/

namespace Sys2Proof.Machine

open Sys2Proof

/-! ### Formats (04 R60, R61) -/

/-- Which codes of a format are special. -/
inductive Specials where
  | ieee      -- infinity at E all ones, M = 0; NaN at E all ones, M not 0
  | nanOnly   -- E4M3: NaN at all ones only
  | none      -- no infinity, no NaN
  deriving DecidableEq, Repr

/-- A floating format: exponent width, mantissa width, bias, special codes (04 R61). -/
structure FFmt where
  ew : Nat
  mw : Nat
  bias : Nat
  sp : Specials
  deriving DecidableEq, Repr

/-- FP32. -/
def fp32 : FFmt := { ew := 8, mw := 23, bias := 127, sp := .ieee }
/-- BF16. -/
def bf16 : FFmt := { ew := 8, mw := 7, bias := 127, sp := .ieee }
/-- FP16. -/
def fp16 : FFmt := { ew := 5, mw := 10, bias := 15, sp := .ieee }
/-- FP8 E4M3. -/
def e4m3 : FFmt := { ew := 4, mw := 3, bias := 7, sp := .nanOnly }
/-- FP8 E5M2. -/
def e5m2 : FFmt := { ew := 5, mw := 2, bias := 15, sp := .ieee }
/-- FP6 E3M2. -/
def e3m2 : FFmt := { ew := 3, mw := 2, bias := 3, sp := .none }
/-- FP6 E2M3. -/
def e2m3 : FFmt := { ew := 2, mw := 3, bias := 1, sp := .none }
/-- FP4 E2M1. -/
def e2m1 : FFmt := { ew := 2, mw := 1, bias := 1, sp := .none }

/-- The floating format of a format code (04 R60), if it is a floating one. -/
def floatFmt : Nat → Option FFmt
  | 0 => some fp32
  | 1 => some bf16
  | 2 => some fp16
  | 3 => some e4m3
  | 4 => some e5m2
  | 5 => some e3m2
  | 6 => some e2m3
  | 7 => some e2m1
  | _ => none

/-- Bits per element in storage (04 R60, R65). -/
def fmtWidth : Nat → Nat
  | 0 => 32
  | 1 => 16
  | 2 => 16
  | 7 => 4
  | 10 => 4
  | 11 => 4
  | 13 => 4
  | _ => 8

/-- c of a format in the matrix engine (04 R60). -/
def fmtC : Nat → Nat
  | 0 => 1
  | 1 => 4
  | 2 => 4
  | 7 => 16
  | 10 => 16
  | 11 => 16
  | 13 => 16
  | _ => 8

/-- Range of an integer format (04 R66): minimum and maximum; 0 stands for INT32 where a drain names it. -/
def intRange : Nat → Int × Int
  | 8 => (-128, 127)
  | 9 => (0, 255)
  | 10 => (-8, 7)
  | 11 => (0, 15)
  | 12 => (0, 255)
  | 13 => (0, 15)
  | _ => (-2147483648, 2147483647)

/-! ### Exact values -/

/-- A value: NaN, an infinity, or (−1)^neg × m × 2^e. -/
inductive Val where
  | nan
  | inf (neg : Bool)
  | fin (neg : Bool) (m : Nat) (e : Int)
  deriving DecidableEq, Repr

/-- All-ones exponent field. -/
def FFmt.emax (f : FFmt) : Nat := 2 ^ f.ew - 1

/-- Width of a code. -/
def FFmt.width (f : FFmt) : Nat := 1 + f.ew + f.mw

/-- The exponent of the least significant bit of a subnormal. -/
def FFmt.elow (f : FFmt) : Int := 1 - (f.bias : Int) - (f.mw : Int)

/-- The value of a code (04 R61). -/
def decodeF (f : FFmt) (code : Nat) : Val :=
  let s := code.testBit (f.ew + f.mw)
  let e := bitsOf code f.mw f.ew
  let m := bitsOf code 0 f.mw
  if f.sp = .ieee ∧ e = f.emax then (if m = 0 then .inf s else .nan)
  else if f.sp = .nanOnly ∧ e = f.emax ∧ m = 2 ^ f.mw - 1 then .nan
  else if e = 0 then .fin s m f.elow
  else .fin s (2 ^ f.mw + m) (f.elow + (e : Int) - 1)

/-- The canonical NaN of a format (04 R63); +0 where there is none (04 R71). -/
def nanCode (f : FFmt) : Nat :=
  match f.sp with
  | .ieee => f.emax * 2 ^ f.mw + 2 ^ (f.mw - 1)
  | .nanOnly => 2 ^ (f.ew + f.mw) - 1
  | .none => 0

/-- The sign bit of a code. -/
def signBit (f : FFmt) (neg : Bool) : Nat := if neg then 2 ^ (f.ew + f.mw) else 0

/-- The code of the largest finite magnitude. -/
def maxCode (f : FFmt) : Nat :=
  match f.sp with
  | .ieee => f.emax * 2 ^ f.mw - 1
  | .nanOnly => 2 ^ (f.ew + f.mw) - 2
  | .none => 2 ^ (f.ew + f.mw) - 1

/-- The code of infinity where the format has one. -/
def infCode (f : FFmt) : Nat := f.emax * 2 ^ f.mw

/-! ### Rounding (04 R70) -/

/-- Whether a magnitude is rounded away from zero: mode, sign, odd quotient, remainder compared with half. -/
def roundsUp (rm : Nat) (neg odd exact tie above : Bool) : Bool :=
  match rm with
  | 0 => above || (tie && odd)
  | 1 => false
  | 2 => neg && !exact
  | _ => !neg && !exact

/-- Round m × 2^e (plus a sticky fraction of one unit) to an integer multiple of 2^q. -/
def roundShift (rm : Nat) (neg : Bool) (m : Nat) (e : Int) (sticky : Bool) (q : Int) : Nat :=
  if q ≤ e then
    let k := m <<< (e - q).toNat
    if roundsUp rm neg (k % 2 == 1) (!sticky) false false then k + 1 else k
  else
    let sh := (q - e).toNat
    let k := m >>> sh
    let r := m % 2 ^ sh
    let h := 2 ^ (sh - 1)
    let exact := r == 0 && !sticky
    let tie := r == h && !sticky
    let above := decide (h < r) || (r == h && sticky)
    if roundsUp rm neg (k % 2 == 1) exact tie above then k + 1 else k

/-- The magnitude code of k × 2^q, where k has at most mw + 1 bits or is 2^(mw+1), or none on overflow. -/
def magCode (f : FFmt) (k : Nat) (q : Int) : Option Nat :=
  let (k, q) := if k = 2 ^ (f.mw + 1) then (2 ^ f.mw, q + 1) else (k, q)
  let code := if k < 2 ^ f.mw then k else ((q - f.elow).toNat + 1) * 2 ^ f.mw + (k - 2 ^ f.mw)
  if maxCode f < code then none else some code

/-- What an overflowed result becomes (04 R71): sat saturates; nanMode is E4M3's NaN mode. -/
def overflowCode (f : FFmt) (rm : Nat) (sat nanMode neg : Bool) : Nat :=
  match f.sp with
  | .nanOnly => if nanMode then nanCode f else signBit f neg + maxCode f
  | .none => signBit f neg + maxCode f
  | .ieee =>
    let toMax := sat || rm == 1 || (rm == 2 && !neg) || (rm == 3 && neg)
    signBit f neg + (if toMax then maxCode f else infCode f)

/-- Round an exact magnitude (with a sticky fraction of one unit in its last place) into a format (04 R70). -/
def roundF (f : FFmt) (rm : Nat) (sat nanMode neg : Bool) (m : Nat) (e : Int) (sticky : Bool) : Nat :=
  if m = 0 ∧ sticky = false then signBit f neg
  else
    let q := max (e + (Nat.log2 m : Int) - (f.mw : Int)) f.elow
    let k := roundShift rm neg m e sticky q
    match magCode f k q with
    | some c => signBit f neg + c
    | none => overflowCode f rm sat nanMode neg

/-- Convert a value into a format (04 R70, R71). -/
def convertF (f : FFmt) (rm : Nat) (sat nanMode : Bool) : Val → Nat
  | .nan => nanCode f
  | .inf neg =>
    match f.sp with
    | .ieee => signBit f neg + (if sat then maxCode f else infCode f)
    | .nanOnly => if nanMode then nanCode f else signBit f neg + maxCode f
    | .none => signBit f neg + maxCode f
  | .fin neg m e => roundF f rm sat nanMode neg m e false

/-- Round a magnitude to an integer, with its sign. -/
def roundInt (rm : Nat) (neg : Bool) (m : Nat) (e : Int) (sticky : Bool) : Int :=
  let k := roundShift rm neg m e sticky 0
  if neg then -(k : Int) else (k : Int)

/-- Convert a value to an integer range (04 R71, 08 R150). -/
def convertInt (lo hi : Int) (rm : Nat) : Val → Int
  | .nan => 0
  | .inf neg => if neg then lo else hi
  | .fin neg m e => clampInt lo hi (roundInt rm neg m e false)

/-! ### Exact arithmetic -/

/-- The sign of a value. -/
def Val.neg? : Val → Bool
  | .nan => false
  | .inf n => n
  | .fin n _ _ => n

/-- Invert the sign. -/
def Val.negate : Val → Val
  | .nan => .nan
  | .inf n => .inf (!n)
  | .fin n m e => .fin (!n) m e

/-- A signed integer times 2^e as a value; z is the sign of a zero. -/
def valOfInt (z : Bool) (x : Int) (e : Int) : Val := if x = 0 then .fin z 0 e else .fin (x < 0) x.natAbs e

/-- The exact sum; a zero sum takes the sign 08 R144 gives it. -/
def Val.add (rm : Nat) : Val → Val → Val
  | .nan, _ => .nan
  | _, .nan => .nan
  | .inf a, .inf b => if a = b then .inf a else .nan
  | .inf a, _ => .inf a
  | _, .inf b => .inf b
  | .fin na ma ea, .fin nb mb eb =>
    let e := min ea eb
    let a : Int := (ma <<< (ea - e).toNat : Nat)
    let b : Int := (mb <<< (eb - e).toNat : Nat)
    let s := (if na then -a else a) + (if nb then -b else b)
    let z := if ma = 0 ∧ mb = 0 ∧ na = nb then na else rm == 2
    valOfInt z s e

/-- The exact product. -/
def Val.mul : Val → Val → Val
  | .nan, _ => .nan
  | _, .nan => .nan
  | .inf a, .inf b => .inf (a != b)
  | .inf a, .fin b m _ => if m = 0 then .nan else .inf (a != b)
  | .fin a m _, .inf b => if m = 0 then .nan else .inf (a != b)
  | .fin a ma ea, .fin b mb eb => .fin (a != b) (ma * mb) (ea + eb)

/-- Multiply by a power of two. -/
def Val.scale (k : Int) : Val → Val
  | .fin n m e => .fin n m (e + k)
  | v => v

/-- Compare two finite or infinite values: -1, 0 or 1. Zeros of either sign are equal. -/
def Val.cmp : Val → Val → Int
  | .inf a, .inf b => if a = b then 0 else if a then -1 else 1
  | .inf a, _ => if a then -1 else 1
  | _, .inf b => if b then 1 else -1
  | .fin na ma ea, .fin nb mb eb =>
    let e := min ea eb
    let a : Int := (ma <<< (ea - e).toNat : Nat)
    let b : Int := (mb <<< (eb - e).toNat : Nat)
    let x := if na then -a else a
    let y := if nb then -b else b
    if x < y then -1 else if y < x then 1 else 0
  | _, _ => 0

/-- Is the value a NaN? -/
def Val.isNan : Val → Bool
  | .nan => true
  | _ => false

/-! ### Rounded operations on codes -/

/-- x + y rounded once (08 R144). -/
def fAdd (f : FFmt) (rm x y : Nat) : Nat := convertF f rm false false (Val.add rm (decodeF f x) (decodeF f y))

/-- x × y rounded once (08 R144). -/
def fMul (f : FFmt) (rm x y : Nat) : Nat := convertF f rm false false (Val.mul (decodeF f x) (decodeF f y))

/-- x × y + z, exact before its one rounding (08 R144). -/
def fFma (f : FFmt) (rm x y z : Nat) : Nat :=
  convertF f rm false false (Val.add rm (Val.mul (decodeF f x) (decodeF f y)) (decodeF f z))

/-- Invert the sign bit of a code (06 R108). -/
def fNeg (f : FFmt) (x : Nat) : Nat := x ^^^ 2 ^ (f.ew + f.mw)

/-- x − y rounded once. -/
def fSub (f : FFmt) (rm x y : Nat) : Nat :=
  convertF f rm false false (Val.add rm (decodeF f x) (Val.negate (decodeF f y)))

/-- FMIN and FMAX (08 R145). -/
def fMinMax (f : FFmt) (wantMax : Bool) (x y : Nat) : Nat :=
  let a := decodeF f x
  let b := decodeF f y
  match a.isNan, b.isNan with
  | true, true => nanCode f
  | true, false => y
  | false, true => x
  | false, false =>
    let c := Val.cmp a b
    let lessX := c < 0 || (c = 0 && a.neg? && !b.neg?)
    if lessX != wantMax then x else y

/-- Comparisons (08 R142): equal, less, less or equal, unordered. -/
def fCmpEq (x y : Nat) : Bool :=
  let a := decodeF fp32 x
  let b := decodeF fp32 y
  !a.isNan && !b.isNan && decide (Val.cmp a b = 0)

/-- Ordered less. -/
def fCmpLt (x y : Nat) : Bool :=
  let a := decodeF fp32 x
  let b := decodeF fp32 y
  !a.isNan && !b.isNan && decide (Val.cmp a b < 0)

/-- Ordered less or equal. -/
def fCmpLe (x y : Nat) : Bool :=
  let a := decodeF fp32 x
  let b := decodeF fp32 y
  !a.isNan && !b.isNan && decide (Val.cmp a b ≤ 0)

/-- Unordered. -/
def fCmpUn (x y : Nat) : Bool := (decodeF fp32 x).isNan || (decodeF fp32 y).isNan

/-- Round an FP32 code to an integral value (08 R148): modes 0 nearest even, 1 towards zero, 2 down, 3 up. -/
def fIntegral (rm x : Nat) : Nat :=
  match decodeF fp32 x with
  | .nan => nanCode fp32
  | .inf _ => x
  | .fin neg m e =>
    if m = 0 ∨ 0 ≤ e then x
    else roundF fp32 0 false false neg (roundShift rm neg m e false 0) 0 false

/-! ### Block scales and packed conversions (04 R64, R67, R68, R72, R73) -/

/-- Widen one element of a floating format with an E8M0 scale e, rounding once into FP32 (04 R72, R73). -/
def widenE8 (f : FFmt) (rm scale code : Nat) : Nat :=
  if scale = 255 then nanCode fp32
  else convertF fp32 rm false false (Val.scale ((scale : Int) - 127) (decodeF f code))

/-- The exact value of an integer-format element. -/
def intElem (fmt code : Nat) : Int :=
  match fmt with
  | 8 => signedOf 8 code
  | 10 => signedOf 4 code
  | 11 => (bitsOf code 0 4 : Nat)
  | _ => (bitsOf code 0 8 : Nat)

/-- The exact value of s × (q − z) for an AQ element (04 R68); a zero takes the sign of the scale. -/
def aqVal (s z q : Nat) : Val :=
  match decodeF fp16 s with
  | .fin neg m e =>
    let d : Int := (q : Int) - (z : Int)
    .fin (if d = 0 then neg else neg != decide (d < 0)) (m * d.natAbs) e
  | _ => .nan

/-- Is an AQ scale zero, infinite or NaN? -/
def aqBad (s : Nat) : Bool :=
  match decodeF fp16 s with
  | .fin _ m _ => m == 0
  | _ => true

/-- The zero point that a scale operand or record holds for AQ8 (12) or AQ4 (13) (04 R73). -/
def aqZero (fmt sc : Nat) : Nat := if fmt = 12 then bitsOf sc 16 8 else bitsOf sc 16 4

/-- Widen one element of any format code (04 R72, R73; 08 R155). -/
def widenElem (fmt rm sc code : Nat) : Nat :=
  if fmt = 12 ∨ fmt = 13 then
    let s := bitsOf sc 0 16
    if aqBad s then nanCode fp32 else convertF fp32 rm false false (aqVal s (aqZero fmt sc) code)
  else
    let scale := bitsOf sc 0 8
    match floatFmt fmt with
    | some f => widenE8 f rm scale (bitsOf code 0 f.width)
    | none =>
      if scale = 255 then nanCode fp32
      else convertF fp32 rm false false (valOfInt false (intElem fmt code) ((scale : Int) - 127))

/-- x / s rounded once to an integer (04 R73), for finite x and finite nonzero s. -/
def quotInt (rm : Nat) (nx : Bool) (mx : Nat) (ex : Int) (ns : Bool) (ms : Nat) (es : Int) : Int :=
  let e := ex - es
  let num := if 0 ≤ e then mx <<< e.toNat else mx
  let den := if 0 ≤ e then ms else ms <<< (-e).toNat
  let q := num / den
  let r := num % den
  let exact := r == 0
  let up := roundsUp rm (nx != ns) (q % 2 == 1) exact (2 * r == den) (decide (den < 2 * r))
  let k := if up then q + 1 else q
  if nx != ns then -(k : Int) else (k : Int)

/-- Narrow one FP32 code to an element code of any format (04 R71, R73; 08 R154). -/
def narrowElem (fmt rm : Nat) (sat nanMode : Bool) (sc x : Nat) : Nat :=
  let v := decodeF fp32 x
  if fmt = 12 ∨ fmt = 13 then
    let s := bitsOf sc 0 16
    let z := aqZero fmt sc
    let top : Int := if fmt = 12 then 255 else 15
    if aqBad s then z
    else
      match v, decodeF fp16 s with
      | .inf nx, .fin ns _ _ => if nx != ns then 0 else top.toNat
      | .fin nx mx ex, .fin ns ms es => (clampInt 0 top (quotInt rm nx mx ex ns ms es + (z : Int))).toNat
      | _, _ => z
  else
    let scale := bitsOf sc 0 8
    let w := if scale = 255 then Val.nan else Val.scale (127 - (scale : Int)) v
    match floatFmt fmt with
    | some f => convertF f rm sat nanMode w
    | none =>
      let r := intRange fmt
      ((convertInt r.1 r.2 rm w) % (2 ^ fmtWidth fmt : Nat)).toNat

end Sys2Proof.Machine
end

