-- ==== Sys2Proof/Machine/Report.lean ====
section
/-! DEFINITION. Teams and their work, completion records (23 R330, R332), error-log entries (23 R343) and machine-check events
(25 R364). -/

namespace Sys2Proof.Machine

open Sys2Proof

/-! ### Teams, wefts, strands -/

/-- A resident team. -/
def getTeam (s : State) (tid : Nat) : Option Team := s.teams.find? fun t => t.tid = tid

/-- Change a resident team. -/
def updTeam (s : State) (tid : Nat) (f : Team → Team) : State := { s with teams := updFirst (fun t => t.tid = tid) f s.teams }

/-- A weft of a team. -/
def Team.weft? (t : Team) (wid : Nat) : Option Weft := t.wefts.find? fun w => w.wid = wid

/-- Change a weft. -/
def updWeft (s : State) (tid wid : Nat) (f : Weft → Weft) : State :=
  updTeam s tid fun t => { t with wefts := updFirst (fun w => w.wid = wid) f t.wefts }

/-- Change a team's hart. -/
def updHart (s : State) (tid : Nat) (f : Hart → Hart) : State := updTeam s tid fun t => { t with hart := t.hart.map f }

/-- The die a team runs on. -/
def Team.die (t : Team) : Nat := dieOf t.place.cluster

/-- TEAM of a team: a task's and a stage's is 0 (02 R18, 19, 21 R310). -/
def TeamRef.number : TeamRef → Nat
  | .launch _ _ n => n
  | _ => 0

/-- The object of a handle. -/
def getObj (s : State) (h : Nat) : Option Obj := s.loom.objs.find? fun o => o.handle = h

/-- A launch of a function. -/
def getLaunch (s : State) (fn lid : Nat) : Option Launch := s.loom.launches.find? fun l => decide (l.fn = fn) && decide (l.lid = lid)

/-- Change a launch. -/
def updLaunch (s : State) (fn lid : Nat) (f : Launch → Launch) : State :=
  { s with loom := { s.loom with launches := updFirst (fun l => decide (l.fn = fn) && decide (l.lid = lid)) f s.loom.launches } }

/-- An enqueued, running or held task. -/
def getTask (s : State) (fn tcb : Nat) : Option Task := s.tasks.tasks.find? fun t => decide (t.fn = fn) && decide (t.tcb = tcb)

/-- Change a task. -/
def updTask (s : State) (fn tcb : Nat) (f : Task → Task) : State :=
  { s with tasks := { s.tasks with tasks := updFirst (fun t => decide (t.fn = fn) && decide (t.tcb = tcb)) f s.tasks.tasks } }

/-- A stage by its place. -/
def getStage (s : State) (i : Nat) : Option Stage := s.heddle.stages[i]?

/-- A pipeline by its handle: a live one where the handle was used again. -/
def getPipeline (s : State) (pid : Nat) : Option Pipeline :=
  match s.heddle.pipelines.find? fun p => decide (p.pid = pid) && !p.ended with
  | some p => some p
  | none => s.heddle.pipelines.find? fun p => p.pid = pid

/-! ### Queues (23 R329, R330) -/

/-- A queue's counts. -/
def getQueue (s : State) (q : Nat) : Queue := spGet Queue.reset s.loom.queues q

/-- Replace a queue's counts. -/
def setQueue (s : State) (q : Nat) (x : Queue) : State :=
  { s with loom := { s.loom with queues := spSet Queue.reset s.loom.queues q x } }

/-- Change a queue's counts. -/
def updQueue (s : State) (q : Nat) (f : Queue → Queue) : State := setQueue s q (f (getQueue s q))

/-- The block of a queue in the control area. -/
def blockOf (q : Nat) : Nat := 0x40000 * q

/-- Write bytes of the control area. -/
def ctlWrite (s : State) (a : Nat) (b : List Byte) : State := { s with loom := { s.loom with ctl := memWrite s.loom.ctl a b } }

/-- The function a queue belongs to (23 R344). -/
def fnOfQueue (s : State) (q : Nat) : Option Nat :=
  [0, 1, 2, 3].find? fun f =>
    match spGet none s.loom.funcs f with
    | some x => decide (x.qlo ≤ q) && decide (q ≤ x.qhi)
    | none => false

/-- An assigned function. -/
def getFunc (s : State) (fn : Nat) : Option Func := spGet none s.loom.funcs fn

/-- The bytes of a completion record (23 R332). -/
def Record.bytes (r : Record) : List Byte :=
  leBytes 2 r.opc.toNat ++ leBytes 2 r.status.toNat ++ leBytes 4 r.ctag.toNat ++ leBytes 8 r.seq.toNat ++ leBytes 16 r.result.toNat

/-- A command's effects, as writes in transit that its completion releases (23 R335). -/
def noteEffects (s : State) (q : Nat) (seq : W32) (ids : List Nat) : State :=
  updQueue s q fun k => { k with pending := updFirst (fun p => p.seq = seq) (fun p => { p with rel := inTransit s.mem (p.rel ++ ids) }) k.pending }

/-- The writes made between two states are a command's effects (23 R335). -/
def noteNew (before s : State) (q : Nat) (seq : W32) : State :=
  noteEffects s q seq (upFrom before.nextId (s.nextId - before.nextId))

/-- The command processor that serves a queue, numbered as the die it stands on (23 R328). -/
def cpDie (q : Nat) : Nat := q % 4

/-- A queue's command processor does not answer any more: its queue is served by no one (25 R360). -/
def cpDead (s : State) (q : Nat) : Bool := spGet false s.loom.deadCp (cpDie q)

/-- A command has completed: its effects are released (23 R335), and it no longer stands as taken. -/
def Queue.drop (m : MemSys) (k : Queue) (seq : W32) : Queue :=
  let done := (k.pending.filter fun p => p.seq = seq).flatMap (·.rel)
  { k with pending := k.pending.filter fun p => p.seq ≠ seq, rel := inTransit m ((k.rel ++ done).foldl (fun a i => insNat i a) []) }

/-- Write a record at the slot its count names, raise CPROD; the command then counts as completed (23 R330). -/
def putRecord (s : State) (q : Nat) (r : Record) : State :=
  let k := getQueue s q
  let s := ctlWrite s (blockOf q + 0x20000 + 32 * (k.cprod.toNat % 1024)) r.bytes
  setQueue s q ({ k with cprod := k.cprod + 1 }.drop s.mem (r.seq.setWidth 32))

/-- A command finishes: its record is written, held back while the completion ring is full or the queue's processor does not answer (25 R360), or not written at all where QUIET is
set and the status is 0 (23 R330, R331). -/
def finish (s : State) (q : Nat) (p : Pending) (status : Nat) (result : Nat) : State :=
  let k := getQueue s q
  if p.flags.getLsbD 1 && decide (status = 0) then
    setQueue s q (k.drop s.mem p.seq)
  else
    let r : Record := { opc := p.opc, status := BitVec.ofNat 16 status, ctag := p.ctag, seq := p.seq.zeroExtend 64,
                        result := BitVec.ofNat 128 result }
    if k.cprod - k.ccons = 1024 || !k.backlog.isEmpty || cpDead s q then
      setQueue s q { k with backlog := k.backlog ++ [r],
                            pending := if k.pending.any fun x => x.seq = p.seq then k.pending else k.pending ++ [p] }
    else putRecord s q r

/-- Write held-back records while the ring has room, in the order in which their commands finished (23 R330). -/
def drainBacklog (s : State) (q : Nat) : List Record → State
  | [] => s
  | r :: t =>
    let k := getQueue s q
    if k.cprod - k.ccons = 1024 || cpDead s q then s
    else drainBacklog (putRecord (setQueue s q { k with backlog := t }) q r) q t

/-! ### The error log (23 R343) -/

/-- The bytes of an entry. -/
def Entry.bytes (e : Entry) (num : Nat) : List Byte :=
  leBytes 4 num ++ leBytes 1 0 ++ leBytes 1 (ofBool e.replayable + 2 * ofBool e.heldTeam) ++ leBytes 2 e.kind ++
    leBytes 4 (e.cause + 65536 * e.reason) ++ leBytes 4 (e.cluster + 256 * e.core + 1024 * e.channel) ++ leBytes 4 e.lid ++
    leBytes 4 e.team ++ leBytes 8 e.lanes ++ leBytes 8 e.pc ++ leBytes 8 e.tcb ++ leBytes 8 e.tcb2 ++ leBytes 8 e.addr

/-- Write an entry to a queue's log; a full log drops it and raises DROPPED (23 R330). -/
def logTo (s : State) (q : Nat) (e : Entry) : State :=
  let k := getQueue s q
  if k.eprod - k.econs = 512 then setQueue s q { k with dropped := k.dropped + 1 }
  else
    let s := ctlWrite s (blockOf q + 0x28000 + 64 * (k.eprod.toNat % 512)) (e.bytes k.eprod.toNat)
    setQueue s q { k with eprod := k.eprod + 1 }

/-- The pipeline that answers for a stage: its own, or a prefix's current owner (21 R317). -/
def stagePid (g : Stage) : Nat := if g.isPrefix then g.owner else g.creator

/-- STG of a stage (23 R343). -/
def stgOf (g : Stage) : Nat := 2 ^ 63 + 2 ^ 16 * g.index + stagePid g

/-- The queue that receives reports about a team (23 R343, R339; 19 R291; 21 R317). -/
def reportQueue (s : State) (t : Team) : Nat :=
  match t.ref with
  | .launch fn lid _ => match getLaunch s fn lid with | some l => l.queue | none => t.queue
  | .task fn tcb => match getTask s fn tcb with | some k => k.qid | none => t.queue
  | .stage i =>
    match getStage s i with
    | none => t.queue
    | some g => match getPipeline s (stagePid g) with | some p => p.qid | none => t.queue
  | .loom => 0

/-- Name a team in an entry (23 R343): a launch team by LID and TEAM, a task by TCB, a stage by TCB2. -/
def nameWork (s : State) (t : Team) (e : Entry) : Entry :=
  match t.ref with
  | .launch _ lid n => { e with lid := lid, team := n }
  | .task _ tcb => { e with tcb := tcb }
  | .stage i => match getStage s i with | some g => { e with tcb2 := stgOf g } | none => e
  | .loom => e

/-- The core that an entry names, where the entry counts from the team's first core: a hart exception of a redundant pair names the even
core (23 R343). -/
def coreNamed (t : Team) (e : Entry) : Nat :=
  if e.kind = 0x11 && t.partner.isSome then t.place.core / 2 * 2 else t.place.core + e.core

/-- Name a team and its place in an entry (23 R343). A copy fault names its own cluster. -/
def nameTeam (s : State) (t : Team) (e : Entry) : Entry :=
  nameWork s t (if e.kind = 0x12 then e else { e with cluster := t.place.cluster, core := coreNamed t e })

/-- Report an entry about a team on its queue. -/
def report (s : State) (t : Team) (e : Entry) : State := logTo s (reportQueue s t) (nameTeam s t e)

/-- A team that a fault would leave held for replay: a task that has not committed (19 R299). -/
def Team.replayable (t : Team) : Bool := match t.ref with | .task _ _ => !t.commit | _ => false

/-- Report a task-engine error (KIND 1 to 5): TCB names the TCB concerned and the issuing team stands in LID and TEAM or TCB2
(23 R343). -/
def issuerOf (s : State) (t : Team) (e : Entry) : Entry :=
  match t.ref with
  | .launch _ lid n => { e with lid := lid, team := n }
  | .task _ tcb => { e with tcb2 := tcb }
  | .stage i => match getStage s i with | some g => { e with tcb2 := stgOf g } | none => e
  | .loom => e

/-- The queues that hear of a machine-check event: queue 0, and the launch's where it concerns a team of a live launch (25 R364). -/
def checkQueues (s : State) (t : Option Team) : List Nat :=
  match t with
  | none => [0]
  | some t =>
    match t.ref with
    | .launch fn lid _ =>
      match getLaunch s fn lid with
      | some l => if l.queue = 0 then [0] else [0, l.queue]
      | none => [0]
    | _ => [0]

/-- The entry of a machine-check event, which names the team that it concerns (23 R343, 25 R364). -/
def checkEntry (s : State) (code : Nat) (t : Option Team) (e : Entry) : Entry :=
  let e := { e with kind := 0x20, cause := code }
  match t with
  | some t => nameWork s t e
  | none => e

/-- A machine-check event of a code that is not merged (25 R364). -/
def machineCheck (s : State) (code : Nat) (t : Option Team) (e : Entry) : State :=
  (checkQueues s t).foldl (fun s q => logTo s q (checkEntry s code t e)) s

/-- A request of a team cannot be delivered: code 0x0B, with the core or channel that made it (26 R377, 25 R364). -/
def undeliverable (s : State) (t : Team) (core channel addr : Nat) : State :=
  machineCheck s 0x0B (some t) { kind := 0x20, cluster := t.place.cluster, core := core, channel := channel, addr := addr }

/-- Count an event in the entry that its queue, code and die have for this millisecond; the first event's place, address and team stand in
it (25 R364; log entry 13). -/
def mergeIn (q code die : Nat) (e : Entry) (l : List Merged) : List Merged :=
  let mine (m : Merged) : Bool := decide (m.queue = q) && decide (m.code = code) && decide (m.die = die)
  if l.any mine then updFirst mine (fun m => { m with entry := { m.entry with lanes := m.entry.lanes + 1 } }) l
  else l ++ [{ queue := q, code := code, die := die, entry := { e with lanes := 1 } }]

/-- A corrected error, code 1 or 4: it is counted, and reported at the end of the millisecond (25 R364). -/
def correctedCheck (s : State) (code die : Nat) (t : Option Team) (e : Entry) : State :=
  let e := checkEntry s code t e
  { s with loom := { s.loom with merged := (checkQueues s t).foldl (fun l q => mergeIn q code die e l) s.loom.merged } }

/-- The end of a millisecond: one entry for the corrected errors of each code and die (25 R364). -/
def flushMerged (s : State) : State :=
  s.loom.merged.foldl (fun s m => logTo s m.queue m.entry) { s with loom := { s.loom with merged := [] } }

end Sys2Proof.Machine
end

