-- ==== Sys2Proof/Machine/MapCore.lean ====
section
/-! DEFINITION. Mapping and unmapping pages, quotas, placement and on-demand faults (03 R46 to R49, 23 R337). -/

namespace Sys2Proof.Machine

open Sys2Proof

/-! ### Chunks that reads need (05 R85) -/

/-- A chunk is resident in the store of an object's function and world. -/
def stored (s : State) (o : Obj) (i : Nat) : Bool :=
  match o.leaves[i]? with
  | none => false
  | some l => s.loom.chunks.any fun k => decide (k.fn = o.fn) && decide (k.secure = o.secure) && decide (k.leaf = l)

/-- The chunk of a loaded object that a read of an address needs and that is not resident: object, chunk. A DATA page is its chunk's until
something writes it (R85, R91). -/
def missingAt (s : State) (fn va : Nat) : Option (Nat × Nat) :=
  match (findPage s.xlat fn va).bind (·.obj) with
  | none => none
  | some h =>
    if spGet false s.mem.touched (gkey fn va / 4096) then none
    else
      match getObj s h with
      | none => none
      | some o =>
        match o.data.find? fun d => decide (d.1 ≤ va) && decide (va < d.1 + d.2.1) with
        | none => none
        | some d => let i := d.2.2 + (va - d.1) / 4096; if stored s o i then none else some (h, i)

/-- The first such chunk of some addresses. -/
def missingOf (s : State) (fn : Nat) (l : List Nat) : Option (Nat × Nat) := l.findSome? (missingAt s fn)

/-- The chunk of a team's object that holds a template and is not resident: the template is read at issue (18 R289). -/
def missingTemplate (s : State) (t : Team) (idx : Nat) : Option (Nat × Nat) :=
  match getObj s t.obj with
  | none => none
  | some o => let i := o.tbase + 64 * idx / 4096; if idx < o.templates.length && !stored s o i then some (o.handle, i) else none

/-! ### Pages and quotas -/

/-- The twelve page sizes, in the order of 03 R46. -/
def pageSizes : List Nat :=
  [0x1000, 0x4000, 0x10000, 0x40000, 0x100000, 0x200000, 0x400000, 0x1000000, 0x4000000, 0x10000000, 0x40000000, 0x100000000]

/-- A page of 1 GiB or 4 GiB: striped over the GDDR7 of all dies, never migrated (03 R47). -/
def striped (size : Nat) : Bool := decide (0x10000000 < size)

/-- Bytes of a function's pages in one kind of memory: base SRAM or GDDR7. A remote page is another module's memory and counts
against neither. -/
def mappedBytes (s : State) (fn : Nat) (sram : Bool) : Nat :=
  (s.xlat.pages.filter fun p => decide (p.fn = fn) && decide (p.home.sram = sram) && p.remote.isNone).foldl (fun a p => a + p.size) 0

/-- Quotas of a function in bytes: base SRAM and GDDR7. -/
def quotas (s : State) (fn : Nat) : Nat × Nat :=
  match getFunc s fn with
  | some f => (2 ^ 20 * f.squota, 2 ^ 20 * f.gquota)
  | none => (0, 0)

/-- New pages of n bytes in all, of which big bytes lie in striped pages, keep within the function's quotas (23 R337). -/
def quotaAllows (s : State) (fn n big : Nat) : Bool :=
  let (sq, gq) := quotas s fn
  let striped := (s.xlat.pages.filter fun p => decide (p.fn = fn) && striped p.size && p.remote.isNone).foldl (fun a p => a + p.size) 0
  decide (mappedBytes s fn true + mappedBytes s fn false + n ≤ sq + gq) && decide (striped + big ≤ gq)

/-- Bytes of a function's pages that hold one kind of memory: those that live there, and those under way there (03 R47). -/
def heldBytes (s : State) (fn : Nat) (sram : Bool) : Nat :=
  (s.xlat.pages.filter fun p => decide (p.fn = fn) && p.remote.isNone &&
    (decide (p.home.sram = sram) || p.migrating.any fun h => decide (h.sram = sram))).foldl (fun a p => a + p.size) 0

/-- The quota of one kind of memory, base SRAM or GDDR7, has room for more bytes of a function (R337). -/
def memoryRoom (s : State) (fn n : Nat) (sram : Bool) : Bool :=
  let (sq, gq) := quotas s fn
  decide (heldBytes s fn sram + n ≤ if sram then sq else gq)

/-- The placement engine gives up the moves of a function's pages that are under way. -/
def stopMoves (s : State) (fn : Nat) : State :=
  { s with xlat := { s.xlat with pages := s.xlat.pages.map fun p => if p.fn = fn then { p with migrating := none } else p } }

/-- The placement engine moves a function's pages out of one memory, where the other's quota has room for them, until the first has room for more
bytes (R337). -/
def makeRoom (s : State) (fn n : Nat) (sram : Bool) : State :=
  s.xlat.pages.foldl (fun s p =>
    if memoryRoom s fn n sram || p.fn ≠ fn || striped p.size || p.remote.isSome || p.home.sram ≠ sram || !memoryRoom s fn p.size (!sram) then s
    else { s with xlat := { s.xlat with
      pages := updFirst (fun q => decide (q.fn = p.fn) && decide (q.va = p.va)) (fun q => { q with home := { q.home with sram := !sram } }) s.xlat.pages } }) s

/-- The memory for a new page that the function's quotas allow: the one that its hint names where that memory's quota has room, else the other,
else one in which moves have made room (R337, 03 R46). DESIGN CHOICE (log entry 104): where neither can have room for the whole page, it goes to
the first all the same. -/
def roomFor (s : State) (fn size hint : Nat) : Bool × State :=
  let first := decide (hint ≠ 2) && !striped size
  if memoryRoom s fn size first then (first, s)
  else if !striped size && memoryRoom s fn size (!first) then (!first, s)
  else
    let s := makeRoom (stopMoves s fn) fn size first
    if striped size || memoryRoom s fn size first then (first, s)
    else
      let s := makeRoom s fn size (!first)
      (if memoryRoom s fn size (!first) then !first else first, s)

/-- The receiving memory's quota has room for a page that moves there (R337). -/
def quotaRoom (s : State) (p : Page) (sram : Bool) : Bool := decide (p.home.sram = sram) || memoryRoom s p.fn p.size sram

/-- The hint that a page takes when it is mapped: the last kept hint that meets it, else the mapping's own (05 R92). -/
def hintFor (s : State) (fn va size hint die : Nat) : Nat × Nat :=
  match (s.xlat.hints.filter fun h => decide (h.fn = fn) && overlap h.va h.size va size).getLast? with
  | some h => (h.hint, h.die)
  | none => (hint, die)

/-- A page meets a range of a function. -/
def Page.meets (p : Page) (fn va n : Nat) : Bool := decide (p.fn = fn) && overlap p.va p.size va n

/-- Map one page, zero-filled. -/
def addPage (s : State) (p : Page) : State :=
  let (h, d) := hintFor s p.fn p.va p.size p.hint p.hintDie
  let (sram, s) := if p.remote.isSome then (false, s) else roomFor s p.fn p.size h
  let p := { p with hint := h, hintDie := d, home := { die := if h = 3 then d % 4 else 0, sram := sram } }
  let s := zeroAll s (gkey p.fn p.va) p.size
  { s with xlat := { s.xlat with pages := s.xlat.pages ++ [p] } }

/-- Map a run of pages from an address. -/
def addPages (s : State) (p : Page) : Nat → State
  | 0 => s
  | n + 1 => addPages (addPage s p) { p with va := p.va + p.size, remote := p.remote.map fun r => (r.1, r.2.1, r.2.2 + p.size) } n

/-- Remove the pages of a range: their bytes, translations and hints go with them. -/
def removePages (s : State) (fn va n : Nat) : State :=
  let s := zeroAll s (gkey fn va) n
  { s with xlat := tlbDrop { s.xlat with pages := s.xlat.pages.filter fun p => !p.meets fn va n } fn va n }

/-- Map the page of an address that lies in a range declared on demand, where the quota has room (03 R49, 23 R337). -/
def mapOnDemand (s : State) (fn va : Nat) : Option State :=
  match s.xlat.onDemand.find? fun r => decide (r.fn = fn) && decide (r.va ≤ va) && decide (va < r.va + r.size) with
  | none => none
  | some r =>
    let at' := va / r.psz * r.psz
    if at' < r.va || r.va + r.size < at' + r.psz || !quotaAllows s fn r.psz (if striped r.psz then r.psz else 0) then none
    else some (addPage s { fn := fn, va := at', size := r.psz, r := r.r, w := r.w, x := r.x, secure := r.secure, hint := r.hint,
                           hintDie := r.hintDie, home := { die := 0, sram := false }, migrating := none, remote := none, obj := none })

end Sys2Proof.Machine
end

