-- ==== Sys2Proof/Machine/MatrixCore.lean ====
section
/-! DEFINITION. The matrix engine as data: operand maps (15 R236 to R238), contexts and their counters (16 R244 to R246), slots
and checksums (16 R247, R252 to R254), block sums (04 R75), chains (16 R256, 17 R276), retirement (16 R251). -/

namespace Sys2Proof.Machine

open Sys2Proof

/-! ### Operand maps (15 R236, R237, R238) -/

/-- BASE. -/
def OMap.base (m : OMap) : Nat := bitsOf m.oma.toNat 0 20
/-- Row pitch in bytes. -/
def OMap.rowp (m : OMap) : Nat := 16 * bitsOf m.oma.toNat 24 16
/-- Segment pitch in bytes. -/
def OMap.tilep (m : OMap) : Nat := 16 * bitsOf m.oma.toNat 40 16
/-- FMT. -/
def OMap.fmt (m : OMap) : Nat := bitsOf m.omb.toNat 0 4
/-- GS. -/
def OMap.gs (m : OMap) : Nat := bitsOf m.omb.toNat 4 2
/-- GAX. -/
def OMap.gax (m : OMap) : Bool := m.omb.toNat.testBit 6
/-- ROT. -/
def OMap.rot (m : OMap) : Nat := bitsOf m.omb.toNat 8 3
/-- STAB. -/
def OMap.stab (m : OMap) : Nat := bitsOf m.omb.toNat 16 20
/-- SPITCH. -/
def OMap.spitch (m : OMap) : Nat := bitsOf m.omb.toNat 40 12

/-- Elements per group: 1 where there is none, so that divisions mean nothing. -/
def OMap.group (m : OMap) : Nat := match m.gs with | 0 => 1 | 1 => 32 | 2 => 64 | _ => 128

/-- Bytes per scale or record. -/
def OMap.es (m : OMap) : Nat := if m.fmt = 12 || m.fmt = 13 then 4 else 1

/-- Elements of a k-segment of a format. -/
def segElems (fmt : Nat) : Nat := 64 * fmtC fmt

/-- Team-relative offset of element (i, j) (15 R238). -/
def OMap.addr (m : OMap) (i j : Nat) : Nat :=
  let e := segElems m.fmt
  m.base + i * m.rowp + (j / e) * m.tilep + 128 * ((i * m.rot) % 8) + ((j % e) * fmtWidth m.fmt) / 8

/-- Team-relative offset of the scale or record of element (i, j) (15 R238). -/
def OMap.scaleAddr (m : OMap) (i j : Nat) : Nat :=
  if m.gax then m.stab + j * m.spitch + (i / m.group) * m.es else m.stab + i * m.spitch + (j / m.group) * m.es

/-- Bytes that hold one element. -/
def OMap.elemBytes (m : OMap) : Nat := if fmtWidth m.fmt ≤ 8 then 1 else fmtWidth m.fmt / 8

/-- Whether a map passes 15 R239, but for the bound. -/
def OMap.ok (m : OMap) : Bool :=
  decide (bitsOf m.oma.toNat 56 8 = 0) && decide (bitsOf m.oma.toNat 20 4 = 0) && decide (m.base % 16 = 0) &&
  decide (bitsOf m.omb.toNat 52 12 = 0) && decide (bitsOf m.omb.toNat 36 4 = 0) && decide (bitsOf m.omb.toNat 11 5 = 0) &&
  !m.omb.toNat.testBit 7 && decide (m.fmt < 14) &&
  (match m.fmt with
   | 5 | 6 | 7 => decide (m.gs = 1)
   | 12 | 13 => decide (m.gs ≠ 0)
   | _ => decide (m.gs = 0)) &&
  (if m.gs = 0 then decide (m.stab = 0) && decide (m.spitch = 0)
   else decide (m.stab % m.es = 0) && decide (m.spitch % m.es = 0))

/-! ### Reading operands from scratchpad -/

/-- Where a context's operands live: the cluster and the team's allocation; the whole scratchpad for the system context. -/
structure Where where
  cluster : Nat
  base : Nat
  size : Nat
  deriving DecidableEq, Repr

/-- The code of an element of width w at bit position (j · w) mod 8 of its first byte. -/
def pickCode (w j : Nat) (bytes : List Byte) : Nat := if w = 4 then bitsOf (leNat bytes) (4 * (j % 2)) 4 else leNat bytes

/-- One element of a map: code, scale or record, and poison (16 R255). -/
def fetchElem (k : Cluster) (w : Where) (m : OMap) (i j : Nat) : Nat × Nat × Bool :=
  let a := w.base + m.addr i j
  let code := pickCode (fmtWidth m.fmt) j (scrRead k a m.elemBytes)
  if m.gs = 0 then (code, 0, scrPoisonAt k a)
  else
    let sa := w.base + m.scaleAddr i j
    (code, leNat (scrRead k sa m.es), scrPoisonAt k a || scrPoisonAt k sa)

/-- The lines an element's fetch reads are full (16 R242). -/
def elemFull (k : Cluster) (w : Where) (m : OMap) (i j : Nat) : Bool :=
  linesFull k (w.base + m.addr i j) m.elemBytes && (decide (m.gs = 0) || linesFull k (w.base + m.scaleAddr i j) m.es)

/-- A row of elements along k: (i, κ), or (κ, i) where the map is transposed (17 R262). -/
def OMap.at (m : OMap) (r κ : Nat) : Nat × Nat := if m.t then (κ, r) else (r, κ)

/-- The operands of a k-segment of one row or column. -/
def fetchRun (k : Cluster) (w : Where) (m : OMap) (r : Nat) (ks : List Nat) : List (Nat × Nat × Bool) :=
  ks.map fun κ => fetchElem k w m (m.at r κ).1 (m.at r κ).2

/-- Every line of a run is full. -/
def runFull (k : Cluster) (w : Where) (m : OMap) (r : Nat) (ks : List Nat) : Bool :=
  ks.all fun κ => elemFull k w m (m.at r κ).1 (m.at r κ).2

/-- The positions of a k-segment that lie below k (16 R241). -/
def segRange (fmt k seg : Nat) : List Nat := upFrom (seg * segElems fmt) (Nat.min (segElems fmt) (k - seg * segElems fmt))

/-! ### Block sums (04 R67, R68, R75) -/

/-- Which arithmetic a pairing uses (04 R74). -/
inductive Pairing where
  | floating | integer | aq
  deriving DecidableEq, Repr

/-- The family of a format. -/
def fmtFamily (f : Nat) : Pairing := if f = 12 || f = 13 then .aq else if 8 ≤ f && f ≤ 11 then .integer else .floating

/-- The value of a floating operand with its E8M0 scale where its format has one (04 R67). -/
def operandVal (fmt : Nat) (o : Nat × Nat × Bool) : Val :=
  match floatFmt fmt with
  | none => .nan
  | some f =>
    let v := decodeF f (bitsOf o.1 0 f.width)
    if fmt = 5 || fmt = 6 || fmt = 7 then
      if o.2.1 = 255 then .nan else Val.scale ((o.2.1 : Int) - 127) v
    else v

/-- Sum of exact values: the special cases of 04 R75; a zero sum is +0 unless every product is −0. -/
def exactSum (l : List Val) : Val :=
  if l.any (·.isNan) then .nan
  else
    let pos := l.any fun v => match v with | .inf n => !n | _ => false
    let neg := l.any fun v => match v with | .inf n => n | _ => false
    if pos && neg then .nan
    else if pos then .inf false
    else if neg then .inf true
    else
      let fin := l.filterMap fun v => match v with | .fin n m e => some (n, m, e) | _ => none
      let e := fin.foldl (fun a v => min a v.2.2) 0
      let sum := fin.foldl (fun (a : Int) v =>
        let x : Int := ((v.2.1 <<< (v.2.2 - e).toNat : Nat) : Int); if v.1 then a - x else a + x) 0
      let z := !fin.isEmpty && fin.all fun v => v.1 && decide (v.2.1 = 0)
      valOfInt z sum e

/-- A record is rejected, or its scale is infinite or NaN (04 R68). -/
def recordNan (fmt rec : Nat) : Bool :=
  decide (bitsOf rec 24 8 ≠ 0) || (decide (fmt = 13) && decide (bitsOf rec 20 4 ≠ 0)) ||
  match decodeF fp16 (bitsOf rec 0 16) with
  | .fin _ _ _ => false
  | _ => true

/-- The sum of one AQ group: the exact integer sum times both scales, rounded once by RNE into FP32 (04 R75). -/
def aqGroup (fmt : Nat) (ps : List ((Nat × Nat × Bool) × (Nat × Nat × Bool))) : Val :=
  match ps with
  | [] => .fin false 0 0
  | (a, b) :: _ =>
    if recordNan fmt a.2.1 || recordNan fmt b.2.1 then .nan
    else
      let za := aqZero fmt a.2.1
      let zb := aqZero fmt b.2.1
      let n : Int := ps.foldl (fun acc p => acc + ((p.1.1 : Int) - (za : Int)) * ((p.2.1 : Int) - (zb : Int))) 0
      let v := Val.mul (valOfInt false n 0) (Val.mul (decodeF fp16 (bitsOf a.2.1 0 16)) (decodeF fp16 (bitsOf b.2.1 0 16)))
      decodeF fp32 (convertF fp32 0 false false v)

/-- A zero is +0. -/
def plusZero (v : Val) : Val := match v with | .fin _ 0 _ => .fin false 0 0 | v => v

/-- The exact k-block of a floating or AQ pairing. fa, fb: formats; g: elements per AQ group. An AQ product is an integer, never −0, so a
zero block of AQ terms is +0 (04 R75). -/
def blockVal (fa fb g : Nat) (a b : List (Nat × Nat × Bool)) : Val :=
  match fmtFamily fa with
  | .aq => plusZero (exactSum ((chunksOf g (a.length + 1) (a.zip b)).map (aqGroup fa)))
  | _ => exactSum ((a.zip b).map fun p => Val.mul (operandVal fa p.1) (operandVal fb p.2))

/-- The k-block of an integer pairing. -/
def blockInt (fa fb : Nat) (a b : List (Nat × Nat × Bool)) : Int :=
  (a.zip b).foldl (fun acc p => acc + intElem fa p.1.1 * intElem fb p.2.1) 0

/-- Some operand of a block is poisoned (16 R255). -/
def runPoison (l : List (Nat × Nat × Bool)) : Bool := l.any (·.2.2)

/-! ### Slots (16 R247, R252) -/

/-- A slot's element. -/
def Slot.at (x : Slot) (i j : Nat) : Elem := spGet { val := 0, poison := false } x.elems (64 * i + j)

/-- Set a slot's element. -/
def Slot.put (x : Slot) (i j : Nat) (e : Elem) : Slot := { x with elems := spSet { val := 0, poison := false } x.elems (64 * i + j) e }

/-- Add an exact value to an FP32 word by RNE (04 R75 step 3). -/
def accF (w : W32) (v : Val) : W32 := BitVec.ofNat 32 (convertF fp32 0 false false (Val.add 0 (decodeF fp32 w.toNat) v))

/-- Add an integer to a word modulo 2^32. -/
def accI (w : W32) (v : Int) : W32 := w + BitVec.ofInt 32 v

/-- Add the absolute value of a block to a magnitude sum, rounded towards plus infinity (16 R252). -/
def accMag (w : W32) (v : Val) : W32 :=
  let a := match v with | .nan => Val.nan | .inf _ => .inf false | .fin _ m e => .fin false m e
  BitVec.ofNat 32 (convertF fp32 3 false false (Val.add 3 (decodeF fp32 w.toNat) a))

/-- Accumulate the floating k-blocks of slot row i, with checksums and magnitude sums (16 R252). DESIGN CHOICE (log entry 99): the k-blocks enter
the row's magnitude sum from column 0 upward. -/
def stepFloat (x : Slot) (i : Nat) (blocks : List (Val × Bool)) : Slot :=
  let x := (blocks.zip (upFrom 0 blocks.length)).foldl (fun x b =>
    let j := b.2
    let old := x.at i j
    let x := x.put i j { val := accF old.val b.1.1, poison := old.poison || b.1.2 }
    { x with crow := spSet 0 x.crow j (accF (spGet 0 x.crow j) b.1.1),
             mrow := spSet 0 x.mrow i (accMag (spGet 0 x.mrow i) b.1.1),
             mcol := spSet 0 x.mcol j (accMag (spGet 0 x.mcol j) b.1.1) }) x
  { x with ccol := spSet 0 x.ccol i (accF (spGet 0 x.ccol i) (exactSum (blocks.map (·.1)))), blocks := x.blocks + 1 }

/-- Accumulate the integer k-blocks of slot row i (16 R252). -/
def stepInt (x : Slot) (i : Nat) (blocks : List (Int × Bool)) : Slot :=
  let x := (blocks.zip (upFrom 0 blocks.length)).foldl (fun x b =>
    let j := b.2
    let old := x.at i j
    let x := x.put i j { val := accI old.val b.1.1, poison := old.poison || b.1.2 }
    { x with crow := spSet 0 x.crow j (accI (spGet 0 x.crow j) b.1.1) }) x
  { x with ccol := spSet 0 x.ccol i (accI (spGet 0 x.ccol i) (blocks.foldl (fun a b => a + b.1) 0)), blocks := x.blocks + 1 }

/-- One step of the array: row i of A against the latched columns (16 R241, 04 R75). g: elements per AQ group. -/
def stepSlot (x : Slot) (i fa fb g seg : Nat) (a : List (Nat × Nat × Bool)) (cols : List (List (Nat × Nat × Bool))) : Slot :=
  match fmtFamily fa with
  | .integer => stepInt x i (cols.map fun b => (blockInt fa fb a b, runPoison a || runPoison b))
  | .floating => stepFloat x i (cols.map fun b => (blockVal fa fb g a b, runPoison a || runPoison b))
  | .aq =>
    let sums := (chunksOf g (a.length + 1) a).zip (upFrom (seg * segElems fa / g) (a.length / g + 1))
    let x := sums.foldl (fun x c =>
      { x with gsums := spSet 0 x.gsums (65536 * i + c.2) (c.1.foldl (fun (n : Int) q => n + (q.1 : Int)) 0) }) x
    stepFloat x i (cols.map fun b => (blockVal fa fb g a b, runPoison a || runPoison b))

/-! ### Checksum comparison (16 R253, R254) -/

/-- A word that is neither NaN nor infinite. -/
def finiteWord (w : W32) : Bool := match decodeF fp32 w.toNat with | .fin _ _ _ => true | _ => false

/-- Whether a floating row or column matches: |S − C| ≤ (b + 64) × 2^−22 × M; not compared where a value is not finite. -/
def matchFloat (elems : List W32) (c m : W32) (b : Nat) : Bool :=
  if !(elems.all finiteWord) || !finiteWord c then true
  else
    let sum := exactSum (elems.map fun w => decodeF fp32 w.toNat)
    match Val.add 0 sum (Val.negate (decodeF fp32 c.toNat)), decodeF fp32 m.toNat with
    | .fin _ md ed, .fin _ mm em => decide (Val.cmp (.fin false md ed) (.fin false (mm * (b + 64)) (em - 22)) ≤ 0)
    | _, _ => true

/-- Whether an integer row or column matches. -/
def matchInt (elems : List W32) (c : W32) : Bool := elems.foldl (· + ·) 0 = c

/-- Rows of a slot. -/
def Slot.row (x : Slot) (i : Nat) : List Elem := (upFrom 0 64).map fun j => x.at i j
/-- Columns of a slot. -/
def Slot.col (x : Slot) (j : Nat) : List Elem := (upFrom 0 64).map fun i => x.at i j

/-- The rows that do not match. -/
def badRows (x : Slot) (integer : Bool) : List Nat :=
  (upFrom 0 64).filter fun i =>
    !(if integer then matchInt ((x.row i).map (·.val)) (spGet 0 x.ccol i)
      else matchFloat ((x.row i).map (·.val)) (spGet 0 x.ccol i) (spGet 0 x.mrow i) x.blocks)

/-- The columns that do not match. -/
def badCols (x : Slot) (integer : Bool) : List Nat :=
  (upFrom 0 64).filter fun j =>
    !(if integer then matchInt ((x.col j).map (·.val)) (spGet 0 x.crow j)
      else matchFloat ((x.col j).map (·.val)) (spGet 0 x.crow j) (spGet 0 x.mcol j) x.blocks)

/-- What a comparison found. -/
inductive Compared where
  | clean | corrected | poisoned
  deriving DecidableEq, Repr

/-- The corrected element (i, j) (16 R254). -/
def correctedElem (x : Slot) (integer : Bool) (i j : Nat) : Elem :=
  let others := ((x.row i).zip (upFrom 0 64)).filterMap fun e => if e.2 = j then none else some e.1
  let c := spGet 0 x.ccol i
  let v : W32 :=
    if integer then c - (others.map (·.val)).foldl (· + ·) 0
    else
      BitVec.ofNat 32 (convertF fp32 0 false false
        (Val.add 0 (decodeF fp32 c.toNat) (Val.negate (exactSum (others.map fun e => decodeF fp32 e.val.toNat)))))
  { val := v, poison := others.any (·.poison) }

/-- Set the poisoned-slot flag: every element's poison bit is set (16 R254). -/
def poisonSlot (x : Slot) : Slot :=
  let x := (upFrom 0 4096).foldl (fun x k => let e := x.at (k / 64) (k % 64); x.put (k / 64) (k % 64) { e with poison := true }) x
  { x with flag := true }

/-- Compare, and correct or set the flag (16 R253, R254). -/
def compareSlot (x : Slot) (integer : Bool) : Slot × Compared :=
  match badRows x integer, badCols x integer with
  | [], [] => (x, .clean)
  | [i], [j] => (x.put i j (correctedElem x integer i j), .corrected)
  | _, _ => (poisonSlot x, .poisoned)

/-! ### Contexts -/

/-- A context of a matrix engine. -/
def getCtx (m : Matrix) (i : Nat) : Ctx := spGet Ctx.reset m.ctxs i

/-- Change a context. -/
def updCtx (m : Matrix) (i : Nat) (f : Ctx → Ctx) : Matrix := { m with ctxs := spSet Ctx.reset m.ctxs i (f (getCtx m i)) }

/-- Change a context of a cluster. -/
def updCtxOf (s : State) (c i : Nat) (f : Ctx → Ctx) : State := updCluster s c fun k => { k with mx := updCtx k.mx i f }

/-- The timeline of a context: the largest number up to which every operation is counted or retired (01 R10, 16 R244). -/
def ctxCounter (c : Ctx) : Nat :=
  match c.ops with
  | [] => c.issued
  | o :: _ => o.num - 1

/-- The timeline of a channel (01 R10, 18 R280). -/
def chanCounter (c : Chan) : Nat :=
  match c.copies with
  | [] => c.issued
  | x :: _ => x.num - 1

/-- A channel of a cluster. -/
def getChan (s : State) (c ch : Nat) : Chan := spGet Chan.reset (getCluster s c).chans ch

/-- Change a channel. -/
def updChan (s : State) (c ch : Nat) (f : Chan → Chan) : State :=
  updCluster s c fun k => { k with chans := spSet Chan.reset k.chans ch (f (spGet Chan.reset k.chans ch)) }

/-- The slot of a context's number: its team's slots, or sys0 and sys1 at 64 and 65. -/
def slotIndex (s : State) (c : Ctx) (slot : Nat) : Nat :=
  match c.tid with
  | none => 64 + slot
  | some tid => match getTeam s tid with | some t => t.place.accBase + slot | none => slot

/-- A slot of a cluster. -/
def getSlot (k : Cluster) (i : Nat) : Slot := spGet Slot.reset k.mx.slots i

/-- Replace a slot. -/
def putSlot (k : Cluster) (i : Nat) (x : Slot) : Cluster := { k with mx := { k.mx with slots := spSet Slot.reset k.mx.slots i x } }

/-- A feed register. -/
def getFeed (k : Cluster) (i : Nat) : Feed := spGet Feed.reset k.mx.feeds i

/-- Replace a feed register. -/
def putFeed (k : Cluster) (i : Nat) (x : Feed) : Cluster := { k with mx := { k.mx with feeds := spSet Feed.reset k.mx.feeds i x } }

/-- Release every feed register a context holds; their contents are discarded (16 R248). -/
def releaseFeeds (k : Cluster) (i : Nat) : Cluster :=
  (upFrom 0 4).foldl (fun k f => if (getFeed k f).holder = some i then putFeed k f Feed.reset else k) k

/-- Where a context's maps point. -/
def whereOf (s : State) (c : Nat) (x : Ctx) : Where :=
  match x.tid with
  | none => { cluster := c, base := 0, size := 2 ^ 20 }
  | some tid =>
    match getTeam s tid with
    | some t => { cluster := c, base := t.place.scrBase, size := t.place.scrSize }
    | none => { cluster := c, base := 0, size := 0 }

/-! ### Chains (16 R256, 17 R275, R276) -/

/-- The identity of a chain: launch, head cluster, length, tag. -/
abbrev ChainId := Nat × Nat × Nat × Nat × W32

/-- The identity that a team's membership on a cluster has: chains are formed of teams of one launch (17 R275). -/
def chainOfTeam (c : Nat) (t : Option Team) (h : Chain) : Option ChainId :=
  match t with
  | some t => match t.ref with | .launch fn lid _ => some (fn, lid, c - h.pos, h.len, h.tag) | _ => none
  | none => none

/-- The identity that a membership of a resident team on a cluster has. -/
def chainIdOf (s : State) (c : Nat) (tid : Option Nat) (h : Chain) : Option ChainId := chainOfTeam c (tid.bind (getTeam s)) h

/-- The formed chain that a context is a member of. -/
def formedId (s : State) (c : Nat) (x : Ctx) : Option ChainId := x.formed.bind (chainIdOf s c x.tid)

/-- A west-form operation. -/
def MOp.isWest (o : MOp) : Bool := match o.kind with | .mmul _ (.west _) _ _ _ => true | _ => false

/-- An MEND. -/
def MOp.isMend (o : MOp) : Bool := match o.kind with | .mend => true | _ => false

/-- An operation of a dissolved chain that runs on: a head's MMUL runs unforwarded. -/
def MOp.unforward (o : MOp) : MOp := match o.kind with | .mmul b a m k _ => { o with kind := .mmul b a m k false } | _ => o

/-- The members of a formed chain, from the head: cluster, context. -/
def chainMembers (s : State) (id : ChainId) : List (Nat × Nat) :=
  (upFrom id.2.2.1 id.2.2.2.1).filterMap fun c =>
    ((upFrom 0 4).find? fun i => decide (formedId s c (getCtx (getCluster s c).mx i) = some id)).map fun i => (c, i)

/-- The operation at the head of a context. -/
def headOp (s : State) (c i : Nat) : Option MOp := (getCtx (getCluster s c).mx i).ops.head?

/-- A head's forwarded MMUL. -/
def forwardedOp (s : State) (c i : Nat) : Option (Binding × AForm × Nat) :=
  let x := getCtx (getCluster s c).mx i
  match x.formed, x.ops with
  | some h, ⟨_, .mmul b a m _ true, _, _⟩ :: _ => if h.pos = 0 then some (b, a, m) else none
  | _, _ => none

/-- A member's west form is paired with the head's operation and still to run. -/
def inStep (s : State) (hd m : Nat × Nat) : Bool :=
  let x := getCtx (getCluster s hd.1).mx hd.2
  let y := getCtx (getCluster s m.1).mx m.2
  decide (y.forwarded = x.forwarded) && match y.ops with | o :: _ => o.isWest | [] => false

/-- The head's forwarded operation has begun. -/
def begun (s : State) (hd : Nat × Nat) : Bool :=
  let x := getCtx (getCluster s hd.1).mx hd.2
  (forwardedOp s hd.1 hd.2).isSome && (decide (0 < x.steps) || decide (0 < x.latches))

/-- The rank of a context: the system context above class 3 (16 R246). -/
def rankOf (x : Ctx) (i : Nat) : Nat := if i = 4 then 4 else x.cls

/-- An operation of a context has been counted or retired: the round robin of its class goes on after it (16 R246). -/
def served (s : State) (c i : Nat) : State :=
  updCluster s c fun k => { k with mx := { k.mx with lastServed := spSet 4 k.mx.lastServed (rankOf (getCtx k.mx i) i) i } }

/-- What the dissolution of its chain leaves of a member (17 R276): the operations of the batch that are not paired lose their west forms,
and the chain state is cleared, but for a chain that a later batch has asked for. own: the member's own MEND dissolves it; running:
its operation is paired and has begun, and runs to its end. -/
def Ctx.dissolved (x : Ctx) (own running : Bool) : Ctx :=
  let n := if own then 0 else (x.ops.takeWhile fun o => !o.isMend).length
  let batch := x.ops.take n
  let later := decide (n < x.ops.length)
  let keep := if running then batch.take 1 else []
  let rest := if running then batch.drop 1 else batch
  let lost := !running && match batch with | o :: _ => o.isWest | [] => false
  { x with formed := if running then x.formed else none, closing := running, chain := if own || later then x.chain else none,
           forwarded := if running then x.forwarded else 0, retired := Nat.min 65535 (x.retired + (rest.filter (·.isWest)).length),
           steps := if lost then 0 else x.steps, latches := if lost then 0 else x.latches, stopped := !lost && x.stopped,
           ops := keep ++ (rest.filter fun o => !o.isWest).map (·.unforward) ++ x.ops.drop n }

/-- A context gives up the array. -/
def yieldArray (k : Cluster) (i : Nat) : Cluster :=
  if k.mx.running = some i then { k with mx := { k.mx with running := none, latch := none } } else k

/-- A member leaves a dissolved chain. A forwarded operation that has begun runs on unless a member's team has ended: then every member
stops, and no forwarded row comes any more (16 R256, 17 R276). -/
def leaveChain (s : State) (m : Nat × Nat) (own running ended : Bool) : State :=
  let y := getCtx (getCluster s m.1).mx m.2
  let west := y.ops.any (·.isWest)
  let headWest := match y.ops with | o :: _ => o.isWest | [] => false
  let s := updCtxOf s m.1 m.2 fun y =>
    let z := y.dissolved own running
    if ended && decide (0 < z.steps) then { z with stopped := true } else z
  let s := if ended || (headWest && !running) then updCluster s m.1 fun k => yieldArray k m.2 else s
  if west && !running then served s m.1 m.2 else s

/-- Dissolve the chain that a context is a member of, for every member (17 R276). own: by the member's MEND; else by the end of its
team. -/
def dissolveChain (s : State) (c i : Nat) (own : Bool) : State :=
  match formedId s c (getCtx (getCluster s c).mx i) with
  | none => s
  | some id =>
    match chainMembers s id with
    | [] => s
    | hd :: ms =>
      let go := own && begun s hd
      let l := (hd, go) :: ms.map fun m => (m, go && inStep s hd m)
      l.foldl (fun s e => leaveChain s e.1 (own && decide (e.1 = (c, i))) e.2 (!own)) s

/-- The cluster that an image's teams name. -/
def Image.home (m : Image) : Nat := match m.teams.head? with | some t => t.place.cluster | none => 0

/-- The chain that a context of an image is a member of. -/
def Image.chainAt (m : Image) (i : Nat) : Option ChainId :=
  let x := getCtx m.cluster.mx i
  x.formed.bind (chainOfTeam m.home (m.teams.find? fun t => some t.tid = x.tid))

/-- The members of a dissolved chain that stand in images leave it too (16 R256). -/
def dissolveImages (s : State) (id : ChainId) : State :=
  let leave (m : Image) (k : Cluster) (j : Nat) : Cluster :=
    if m.chainAt j = some id then { k with mx := updCtx k.mx j fun y => y.dissolved false false } else k
  { s with loom := { s.loom with images := s.loom.images.map fun m => { m with cluster := (upFrom 0 4).foldl (leave m) m.cluster } } }

/-- A team ends: its context's operations are retired, its slots zeroed, its feed registers and context released, and its chain
dissolved (16 R251). The timeline itself ends with the context. -/
def retireContext (s : State) (c i acc accBase : Nat) : State :=
  let id := formedId s c (getCtx (getCluster s c).mx i)
  let s := dissolveChain s c i false
  let s := if (getCtx (getCluster s c).mx i).ops.isEmpty then s else served s c i
  let s := match id with | some id => dissolveImages s id | none => s
  updCluster s c fun k =>
    let k := releaseFeeds k i
    let k := (upFrom accBase acc).foldl (fun k j => putSlot k j Slot.reset) k
    let m := updCtx k.mx i fun _ => Ctx.reset
    { k with mx := if m.running = some i then { m with running := none, latch := none } else m }

end Sys2Proof.Machine
end

