-- ==== Sys2Proof/Machine/CopyCore.lean ====
section
/-! DEFINITION. Copies (18): what a template addresses (R283), the checks at issue (R284), starting and finishing a copy (R285), the
decoder (R286), retirement (R288, R289). -/

namespace Sys2Proof.Machine

open Sys2Proof

/-- The fields of an aperture store (R280). -/
def storeIndex (v : W64) : Nat := bitsOf v.toNat 0 16
/-- DISP of an aperture store (R280). -/
def storeDisp (v : W64) : Int := signedOf 48 (bitsOf v.toNat 16 48)

/-- Elements of a template's shape. -/
def Template.elems (m : Template) : Nat := m.n.foldl (fun a k => a * (k + 1)) 1

/-- Total bytes of a template. -/
def Template.bytes (m : Template) : Nat := m.elems * m.esz

/-- The four indices of the element at a position in shape order. -/
def Template.index (m : Template) (e : Nat) : Nat × Nat × Nat × Nat :=
  let n0 := nthD 0 m.n 0 + 1
  let n1 := nthD 0 m.n 1 + 1
  let n2 := nthD 0 m.n 2 + 1
  (e % n0, e / n0 % n1, e / (n0 * n1) % n2, e / (n0 * n1 * n2))

/-- Source and destination are in scratchpad, or global, or the destination is the feed registers. -/
def Template.srcScratch (m : Template) : Bool := m.dir = 1 || m.dir = 2 || m.dir = 5
/-- Destination in scratchpad. -/
def Template.dstScratch (m : Template) : Bool := m.dir = 0 || m.dir = 2
/-- Destination in the feed registers. -/
def Template.dstFeed (m : Template) : Bool := m.dir = 4 || m.dir = 5

/-- A base as its side reads it: 56 bits global, 20 bits of scratchpad, 14 bits of feed stream (R281). -/
def sideBase (scratch feed : Bool) (v : W64) : Nat := if feed then bitsOf v.toNat 0 14 else bitsOf v.toNat 0 (if scratch then 20 else 56)

/-- sbase (R283). -/
def Template.sbase (m : Template) (disp : Int) : Int := sideBase m.srcScratch false m.src + (if m.dsel = 1 || m.dsel = 3 then disp else 0)
/-- dbase (R283). -/
def Template.dbase (m : Template) (disp : Int) : Int := sideBase m.dstScratch m.dstFeed m.dst + (if m.dsel = 2 || m.dsel = 3 then disp else 0)

/-- rot (R283). -/
def rotOf (q r : Nat) : Nat := 128 * ((r * q) % 8)

/-- sa (R283). -/
def Template.sa (m : Template) (disp : Int) (e : Nat) : Int :=
  let (i0, i1, i2, i3) := m.index e
  m.sbase disp + (i0 * m.esz : Nat) + i1 * nthD 0 m.ss 0 + i2 * nthD 0 m.ss 1 + i3 * nthD 0 m.ss 2 + rotOf m.srot i1

/-- da (R283); a feed destination is a stream in shape order. -/
def Template.da (m : Template) (disp : Int) (e : Nat) : Int :=
  if m.dstFeed then m.dbase disp + (m.esz * e : Nat)
  else
    let (i0, i1, i2, i3) := m.index e
    let (a, b) := if m.xp then (i1, i0) else (i0, i1)
    m.dbase disp + (a * m.esz : Nat) + b * nthD 0 m.ds 0 + i2 * nthD 0 m.ds 1 + i3 * nthD 0 m.ds 2 + rotOf m.drot b

/-- The first of n results from e on that is present. -/
def firstElem (f : Nat → Option Int) : Nat → Nat → Option Int
  | 0, _ => none
  | n + 1, e => match f e with | some r => some r | none => firstElem f n (e + 1)

/-- The first byte of an element that lies outside a half-open range. -/
def outside (lo hi : Int) (a : Int) (n : Nat) : Option Int := if a < lo then some a else if hi < a + n then some (max a hi) else none

/-- The first byte of an element that lies in the copy aperture. -/
def inAperture (a : Int) (n : Nat) : Option Int :=
  let b : Int := apertureBase
  if a + n ≤ b || b + 4096 ≤ a then none else some (max a b)

/-- The team count of a team's launch: a task or stage is a launch of one team. -/
def launchTeams (s : State) (t : Team) : Nat :=
  match t.ref with
  | .launch fn lid _ => match getLaunch s fn lid with | some l => l.teams | none => 1
  | _ => 1

/-- A feed stream is in range and touches only feed registers that the team's context holds (R284). -/
def feedOk (s : State) (t : Team) (first : Int) (n : Nat) : Bool :=
  match t.place.ctx with
  | none => false
  | some i =>
    0 ≤ first && first + n ≤ 16384 &&
    (upFrom (first.toNat / 4096) ((first.toNat + n + 4095) / 4096 - first.toNat / 4096)).all fun f =>
      (getFeed (getCluster s t.place.cluster) f).holder = some i

/-- A copy that is refused at issue: place in the table of R284, cause, memory reason, information. -/
structure CopyFault where
  order : Nat
  cause : Nat
  reason : Nat
  info : Int
  deriving DecidableEq, Repr

/-- The checks at issue, in table order (R284). -/
def copyCheck (s : State) (t : Team) (v : W64) : Option CopyFault :=
  match (getObj s t.obj).bind fun o => o.templates[storeIndex v]? with
  | none => some ⟨1, 1, 0, 0⟩
  | some m =>
    let d := storeDisp v
    let n := m.elems
    let gs := !m.srcScratch
    let gd := !m.dstScratch && !m.dstFeed
    let top : Int := 2 ^ 56
    let src (f : Int → Nat → Option Int) : Option Int :=
      if m.dec then f (m.sbase d) 1 else firstElem (fun e => f (m.sa d e) m.esz) n 0
    let dst (f : Int → Nat → Option Int) : Option Int := firstElem (fun e => f (m.da d e) m.esz) n 0
    let sides (a b : Option Int) : Option Int := match a with | some x => some x | none => b
    match sides (if gs then src (outside 0 top) else none) (if gd then dst (outside 0 top) else none) with
    | some a => some ⟨2, 6, 1, a⟩
    | none =>
      let off (b : Int) : Option Int := if b % m.esz ≠ 0 then some b else none
      match sides (if gs then off (m.sbase d) else none) (if gd then off (m.dbase d) else none) with
      | some a => some ⟨3, 6, 2, a⟩
      | none =>
        match sides (if gs then src inAperture else none) (if gd then dst inAperture else none) with
        | some a => some ⟨4, 6, 5, a⟩
        | none =>
          let top : Int := t.place.scrSize
          match sides (if m.srcScratch then src (outside 0 top) else none) (if m.dstScratch then dst (outside 0 top) else none) with
          | some a => some ⟨5, 5, 6, a⟩
          | none =>
            if m.dstFeed && !feedOk s t (m.dbase d) m.bytes then some ⟨6, 1, 0, 0⟩
            else if m.mcn ≠ 0 && launchTeams s t ≤ t.ref.number + m.mcn * m.mcs then some ⟨7, 1, 0, 0⟩
            else none

/-- The destination address of a byte of a copy, numbered in shape order. -/
def Template.byteAt (m : Template) (disp : Int) (i : Nat) : Nat := (m.da disp (i / m.esz)).toNat + i % m.esz

/-- Byte writes of n bytes from byte i on, by 64-byte granule of the destination. -/
def leftCounts (m : Template) (disp : Int) : Nat → Nat → Sp Nat → Sp Nat
  | 0, _, l => l
  | n + 1, i, l =>
    let g := m.byteAt disp i / 64
    leftCounts m disp n (i + 1) (spSet 0 l g (spGet 0 l g + 1))

/-- The allocations that a copy into a team's scratchpad writes: the team's, and its partner's where it is a member of a redundant
pair (25 R362). -/
def copyBases (s : State) (t : Team) : List Nat :=
  t.place.scrBase :: match t.partner.bind (getTeam s) with | some p => [p.place.scrBase] | none => []

/-- With EMP, every destination line of a copy is cleared when it is numbered (R285). -/
def emptyLines (s : State) (c : Nat) (bases : List Nat) (l : Sp Nat) : State :=
  updCluster s c fun k => bases.foldl (fun k base => l.foldl (fun k e => setLine false k ((base + 64 * e.1) / 128)) k) k

/-- Start a copy or a hop on a channel: it takes the next number (R280, R285, R287). -/
def numberCopy (s : State) (c ch : Nat) (bases : List Nat) (x : Copy) : State :=
  let l := if x.tmpl.dstScratch || x.tmpl.dstFeed then leftCounts x.tmpl x.disp x.tmpl.bytes 0 [] else []
  let s := if x.tmpl.emp && x.tmpl.dstScratch then emptyLines s c bases l else s
  updChan s c ch fun k => { k with issued := k.issued + 1, copies := k.copies ++ [{ x with num := k.issued + 1, left := l }] }

/-- An aperture store starts a copy (R280). acq: the writes in transit that the store releases to it (03 R57). -/
def startCopy (s : State) (t : Team) (acq : List Nat) (ch : Nat) (v : W64) : State :=
  match (getObj s t.obj).bind fun o => o.templates[storeIndex v]? with
  | none => s
  | some m =>
    let (i, s) := takeId s
    numberCopy s t.place.cluster ch (copyBases s t)
      { num := 0, root := i, tmpl := m, disp := storeDisp v, tid := t.tid,
        launch := match t.ref with | .launch fn lid n => some (fn, lid, n) | _ => none,
        dstTid := t.tid, prog := 0, ahead := [], fetched := [], halted := false, finished := false, table := [], tablePoison := false, bitpos := 0, hop := 0,
        carried := [], tile := [], left := [], dirty := [], acq := acq, wrote := [] }

/-- Room for one more uncounted copy (R280). -/
def channelRoom (s : State) (c ch n : Nat) : Bool := decide ((getChan s c ch).copies.length + n ≤ 256)

/-- Drop finished copies at the head of a channel: its counter passes them (01 R10), and their completions release what was released to
them at issue and what they wrote (03 R57, R290). -/
def Chan.pop (m : MemSys) (x : Chan) : Chan :=
  let done := (x.copies.takeWhile (·.finished)).map fun y => (y.num, y.acq ++ y.wrote)
  { x with copies := x.copies.dropWhile (·.finished),
           rel := ((x.rel ++ done).map fun e => (e.1, inTransit m e.2)).filter fun e => !e.2.isEmpty }

/-- Change some copies of a channel. -/
def updCopies (s : State) (c ch : Nat) (f : Copy → Copy) : State :=
  updChan s c ch fun x => Chan.pop s.mem { x with copies := x.copies.map f }

/-- Change one copy of a channel. -/
def updCopy (s : State) (c ch num : Nat) (f : Copy → Copy) : State := updCopies s c ch fun y => if y.num = num then f y else y

/-- A copy of a channel. -/
def findCopy (s : State) (c ch num : Nat) : Option Copy := (getChan s c ch).copies.find? fun x => decide (x.num = num)

/-- Finish a copy: it is counted when its channel's counter passes it; a hop still to come carries the tile as written (R287). -/
def finishCopy (s : State) (c ch : Nat) (x : Copy) : State :=
  let s := updCopy s c ch x.num fun _ => { x with finished := true }
  if x.hop < x.tmpl.mcn then
    updCluster s c fun k => { k with hops := k.hops ++ [(ch, { x with carried := if x.hop = 0 then (upFrom 0 x.tmpl.bytes).map (spGet (0, false) x.tile) else x.carried, tile := [] })] }
  else s

/-! ### The decoder (R286) -/

/-- Whether a table of lengths gives a code that does not over-subscribe the code space. -/
def tableOk (l : List Nat) : Bool :=
  (l.all fun b => b < 16) && l.any (· ≠ 0) && decide ((l.filter (· ≠ 0)).foldl (fun a n => a + 2 ^ (15 - n)) 0 ≤ 2 ^ 15)

/-- The canonical code of a byte value (RFC 1951, 3.2.2). -/
def codeOf (l : List Nat) (v : Nat) : Nat :=
  let len := nthD 0 l v
  let count (n : Nat) : Nat := if n = 0 then 0 else (l.filter fun x => decide (x = n)).length
  let first := (upFrom 1 len).foldl (fun a n => (a + count (n - 1)) * 2) 0
  first + ((l.take v).filter fun x => decide (x = len)).length

/-- The byte value of a code of a length. -/
def valueOf (l : List Nat) (len code : Nat) : Option Nat :=
  (upFrom 0 256).find? fun v => decide (nthD 0 l v = len) && decide (codeOf l v = code)

/-- Decode one value from a stream of bits: bits so far, their value, fuel; answers the value and the bits it took. -/
def decodeBits (l : List Nat) (bit : Nat → Option Bool) : Nat → Nat → Nat → Except Unit (Option (Nat × Nat))
  | 0, _, _ => .error ()
  | f + 1, n, code =>
    match bit n with
    | none => .ok none
    | some b =>
      let code := 2 * code + ofBool b
      match valueOf l (n + 1) code with
      | some v => .ok (some (v, n + 1))
      | none => decodeBits l bit f (n + 1) code

end Sys2Proof.Machine
end

