-- ==== Sys2Proof/Machine/Order.lean ====
section
/-! DEFINITION. The order of accesses (03 R51 to R58): which accesses of an agent come before which (R52, R53), what a read
synchronises with (R51, R54), and what each agent has done that still bears on order. -/

namespace Sys2Proof.Machine

open Sys2Proof

/-! ### Kinds of accesses -/

/-- The access reads memory. -/
def OpKind.reads : OpKind → Bool
  | .load _ | .atomic _ _ | .ldgs | .stag | .scrLoad _ | .scrAtomic _ _ => true
  | .store | .scrStore _ => false

/-- The access writes memory. -/
def OpKind.writes : OpKind → Bool
  | .store | .atomic _ _ | .ldgs | .scrStore _ | .scrAtomic _ _ => true
  | .load _ | .stag | .scrLoad _ => false

/-! ### Scopes (R51) -/

/-- The die of an agent of the module. -/
def Who.die? : Who → Option Nat
  | .strand _ _ c _ | .hart _ c | .engine c => some (dieOf c)
  | .dieEngine d => some d
  | .loom | .outside => none

/-- Both agents are on one die; else they share the module, or only the system. -/
def Who.far (a b : Who) : Nat :=
  match a, b with
  | .outside, _ | _, .outside => 5
  | _, _ => match a.die?, b.die? with
    | some x, some y => if x = y then 3 else 4
    | _, _ => 4

/-- The least scope of agent a that contains agent b (R51). Scopes are numbered weft 0 to system 5. A hart's weft scope contains the hart alone,
so that its cluster's engines lie in its team scope (15 R215). -/
def Who.near (a b : Who) : Nat :=
  match a, b with
  | .strand t _ c mates, .strand u i c' _ => if t = u then (if mates.contains i then 0 else 1) else if c = c' then 2 else a.far b
  | .strand t _ _ _, .hart u _ | .hart t _, .strand u _ _ _ => if t = u then 1 else a.far b
  | .hart t _, .hart u _ => if t = u then 0 else a.far b
  | .strand _ _ c _, .engine c' | .engine c, .strand _ _ c' _ | .engine c, .engine c' => if c = c' then 0 else a.far b
  | .hart _ c, .engine c' | .engine c, .hart _ c' => if c = c' then 1 else a.far b
  | _, _ => a.far b

/-- The least scope at which an agent's acquire of a release synchronises with it; none where the agent lies outside the release's
scope (R51, R54). -/
def Release.reach (r : Release) (w : Who) : Option Nat := if r.who.near w ≤ r.scp then some (w.near r.who) else none

/-! ### Order within an agent (R52, R53, R56) -/

/-- An access that an agent is about to make, as the order rules see it: its number, the bytes it touches, the scope at which it
is a release, whether it is another module's. -/
structure Next where
  id : Nat
  ranges : List (Bool × Nat × Nat)
  rel : Option Nat
  remote : Bool

/-- Two lists of ranges share a byte. -/
def shareByte (x y : List (Bool × Nat × Nat)) : Bool :=
  x.any fun a => y.any fun b => decide (a.1 = b.1) && overlap a.2.1 a.2.2 b.2.1 b.2.2

/-- From a number on. -/
def fromOn (m : Option Nat) (id : Nat) : Bool := match m with | some k => decide (k ≤ id) | none => false

/-- A scope is system scope. -/
def isSystem (r : Option Nat) : Bool := match r with | some k => decide (5 ≤ k) | none => false

/-- A scope is module scope or wider. -/
def isWide (r : Option Nat) : Bool := match r with | some k => decide (4 ≤ k) | none => false

/-- The widest of two scopes. -/
def widest : Option Nat → Option Nat → Option Nat
  | some a, some b => some (Nat.max a b)
  | some a, none => some a
  | none, b => b

/-- An earlier access orders before the next one by its own kind, by a fence, by a wait, or by a common byte (R52 cases 1, 2 and 4;
across modules at system scope or by a timeline wait only, R56). The scratchpad bytes of an LDGS are its cluster's, wherever its global bytes
are. -/
def leads (lead far : Option Nat) (remote : Bool) (ranges : List (Bool × Nat × Nat)) (n : Next) : Bool :=
  if remote || n.remote then fromOn far n.id || shareByte (ranges.filter (·.1)) n.ranges else fromOn lead n.id || shareByte ranges n.ranges

/-- An earlier access orders before the next one (R52; R56). -/
def ordersBefore (lead far : Option Nat) (remote : Bool) (ranges : List (Bool × Nat × Nat)) (n : Next) : Bool :=
  leads lead far remote ranges n || (if remote || n.remote then isSystem n.rel else n.rel.isSome)

/-- The union of sets of writes. -/
def unionIds (l : List (List Nat)) : List Nat := l.foldl (fun a x => x.foldl (fun b i => insNat i b) a) []

/-- What an agent has done before an access: the writes that happen before it, and those of them that hold it back on other dies. A
release narrower than module holds nothing back there: the litmus tables of 03 allow it (log entry 70). -/
def Hist.before (h : Hist) (start : List Nat) (n : Next) : List Nat × List Nat :=
  let all := unionIds (start :: (h.past.filter fun p => ordersBefore p.lead p.far p.remote p.ranges n).map (·.hb))
  (all, if isWide n.rel then all else unionIds (start :: (h.past.filter fun p => leads p.lead p.far p.remote p.ranges n).map (·.dep)))

/-- Everything an agent has done. -/
def Hist.all (h : Hist) : List Nat := unionIds (h.past.map (·.hb))

/-- Keep of a performed access the sets of writes that are in transit. -/
def Past.prune (m : MemSys) (p : Past) : Past :=
  { p with hb := inTransit m p.hb, dep := inTransit m p.dep,
           saw := (p.saw.map fun e => (e.1, inTransit m e.2)).filter fun e => !e.2.isEmpty }

/-- A performed access still bears on order. -/
def Past.bears (p : Past) : Bool := !(p.hb.isEmpty && p.dep.isEmpty && p.saw.isEmpty)

/-- Keep of a history what still bears on order. -/
def Hist.prune (m : MemSys) (h : Hist) : Hist := { h with past := (h.past.map fun p => p.prune m).filter fun p => p.bears }

/-- The lesser of a number that may be absent and a number. -/
def least (m : Option Nat) (k : Nat) : Option Nat := some (match m with | some j => Nat.min j k | none => k)

/-- A wait has ended that counts accesses as returned: accesses from a number on follow them (R52 case 4). -/
def Hist.waited (h : Hist) (m : Nat) (counts : Past → Bool) : Hist :=
  { h with past := h.past.map fun p => if counts p then { p with lead := least p.lead m } else p }

/-- An acquire fence at a scope: each earlier read is an acquire, before every access from a number on (R53). -/
def Hist.acquireFence (h : Hist) (m scp : Nat) : Hist :=
  { h with past := h.past.map fun p =>
      if !p.reads then p
      else
        let got := unionIds ((p.saw.filter fun e => e.1 ≤ scp).map (·.2))
        { p with lead := least p.lead m,
                 far := if scp < 5 then p.far else least p.far m,
                 hb := unionIds [p.hb, got], dep := unionIds [p.dep, got] } }

/-- Writes that an agent acquires at a step: accesses from a number on follow them. -/
def Hist.acquire (h : Hist) (m : Nat) (ids : List Nat) : Hist :=
  if ids.isEmpty then h
  else { h with past := h.past ++ [{ id := m, ranges := [], reads := false, remote := false, paths := [], flag := none, lead := some m,
                                     far := some m, hb := ids, dep := ids, saw := [] }] }

/-! ### Agents of a team -/

/-- The key of a hart among its team's agents. -/
def hartWho : Nat := 4096

/-- What an agent of a team has done. -/
def Team.hist (t : Team) (key : Nat) : Hist := spGet Hist.empty t.hists key

/-- Change what an agent of a team has done. -/
def updHist (s : State) (tid key : Nat) (f : Hist → Hist) : State :=
  updTeam s tid fun t => { t with hists := spSet Hist.empty t.hists key ((f (t.hist key)).prune s.mem) }

/-- Everything that some agents of a team have done, with what its start acquired. -/
def Team.done (t : Team) (keys : List Nat) : List Nat := unionIds (t.start :: keys.map fun k => (t.hist k).all)

/-- Everything that a team has done. -/
def Team.doneAll (t : Team) : List Nat := t.done (t.hists.map (·.1))

/-- The agents of a team that a weft holds. -/
def Weft.keys (w : Weft) : List Nat := w.strands.map (·.sid)

/-- A strand or a hart of a team, as scopes see it. -/
def Team.who (t : Team) (key : Nat) : Who :=
  if key = hartWho then .hart t.tid t.place.cluster
  else .strand t.tid key t.place.cluster (match t.wefts.find? fun w => w.strands.any fun x => x.sid = key with | some w => w.keys | none => [key])

/-- Agents of a team acquire a set of writes: it is applied on their die, and what they do from now on follows it (R54, R55). -/
def acquireIds (s : State) (t : Team) (keys ids : List Nat) : State :=
  match inTransit s.mem ids with
  | [] => s
  | ids =>
    let (m, s) := takeId (bring s t.die ids)
    keys.foldl (fun s k => updHist s t.tid k fun h => h.acquire m ids) s

/-! ### Reads and writes as agents (R54, R55) -/

/-- The releases that a read of global bytes returns on a die. -/
def seenAt (s : State) (d addr n : Nat) : List Nat := unionIds ((upFrom addr n).map fun a => spGet [] (viewOf s.mem d).rel a)

/-- The releases that a read of scratchpad bytes returns. -/
def seenScr (k : Cluster) (o n : Nat) : List Nat := unionIds ((upFrom o n).map fun a => spGet [] k.scrRel a)

/-- What an agent's acquire of some releases would acquire, by the least scope that would (R51, R54). -/
def syncsWith (s : State) (w : Who) (seen : List Nat) : List (Nat × List Nat) :=
  seen.filterMap fun i =>
    match s.mem.rels.find? fun r => r.id = i with
    | some r => match r.reach w with
      | some k => match inTransit s.mem r.hb with
        | [] => none
        | l => some (k, l)
      | none => none
    | none => none

/-- What an acquire at a scope acquires of what is offered. -/
def gotten (acq : Option Nat) (l : List (Nat × List Nat)) : List Nat :=
  match acq with
  | some k => unionIds ((l.filter fun e => e.1 ≤ k).map (·.2))
  | none => []

/-- Keep a release while it covers a write in transit. -/
def noteRelease (s : State) (r : Release) : State :=
  let l := (r :: s.mem.rels).map fun r => { r with hb := inTransit s.mem r.hb }
  { s with mem := { s.mem with rels := l.filter fun r => !r.hb.isEmpty } }

/-- One access of an agent of a team as it is performed: its agent, how it stands in order, its acquire scope. -/
structure Access where
  tid : Nat
  key : Nat
  next : Next
  reads : Bool
  acq : Option Nat
  lead : Option Nat
  far : Option Nat
  paths : List Nat
  flag : Option Nat

/-- What an access of an agent comes after when it is performed, of the releases that its read returns: what happens before it,
what holds its write back, what it saw. -/
structure Placed where
  hb : List Nat
  dep : List Nat
  saw : List (Nat × List Nat)

/-- Place an access in the order (R54). -/
def placeAccess (s : State) (t : Team) (a : Access) (seen : List Nat) : Placed :=
  let b := (t.hist a.key).before t.start a.next
  let saw := if seen.isEmpty then [] else syncsWith s (t.who a.key) seen
  let got := gotten a.acq saw
  { hb := unionIds [b.1, got], dep := unionIds [b.2, got], saw := saw }

/-- Keep a performed access in its agent's history. own: the write in transit that it made. -/
def notePast (s : State) (a : Access) (p : Placed) (own : List Nat) : State :=
  updHist s a.tid a.key fun h =>
    { h with past := h.past ++ [{ id := a.next.id, ranges := a.next.ranges, reads := a.reads, remote := a.next.remote, paths := a.paths, flag := a.flag,
                                  lead := a.lead, far := a.far, hb := unionIds [p.hb, own], dep := unionIds [p.dep, own], saw := p.saw }] }

/-- A read by an agent of a team. -/
def readAs (s : State) (t : Team) (a : Access) (seen : List Nat) : State := notePast s a (placeAccess s t a seen) []

/-- A write to global memory by an agent of a team; seen: the releases that a read-modify-write returns, which it extends (R54). own: the
write leaves the agent's own reservation standing. -/
def writeAs (s : State) (t : Team) (a : Access) (own : Bool) (addr : Nat) (bytes : List Byte) (poison : List (Nat × Bool)) (seen : List Nat) :
    State :=
  let p := placeAccess s t a seen
  let i := s.nextId
  let rels := seen ++ (if a.next.rel.isSome then [i] else [])
  let s := if own then writeOwn s t.die t.tid addr bytes poison p.dep rels else writeBytes s t.die addr bytes poison p.dep rels
  let s := match a.next.rel with
    | some k => noteRelease s { id := i, who := t.who a.key, scp := k, hb := unionIds [p.hb, [i]] }
    | none => s
  notePast s a p [i]

/-- A write to scratchpad or to the tag entries by an agent of a team: the releases that a read of it returns, and the state after. -/
def releaseAs (s : State) (t : Team) (a : Access) (seen : List Nat) : List Nat × State :=
  let p := placeAccess s t a seen
  match a.next.rel with
  | none => (seen, notePast s a p [])
  | some k =>
    let (i, s) := takeId s
    (seen ++ [i], notePast (noteRelease s { id := i, who := t.who a.key, scp := k, hb := p.hb }) a p [])

/-- A release to global memory by an engine or the Loom, at a scope: the write follows a set of writes in transit, and a read that acquires it
acquires them (R54, R57). -/
def releaseBytes (s : State) (w : Who) (scp d addr : Nat) (bytes : List Byte) (poison : List (Nat × Bool)) (acq : List Nat) : State :=
  let i := s.nextId
  noteRelease (writeBytes s d addr bytes poison acq [i]) { id := i, who := w, scp := scp, hb := unionIds [acq, [i]] }

/-- The releases that an agent's acquire of global bytes on a die synchronises with, as writes in transit: the location's last write,
wherever it was applied, has been brought (R54, R55). -/
def acquiredAt (s : State) (w : Who) (scp d addr n : Nat) : List Nat :=
  gotten (some scp) (syncsWith s w (seenAt { s with mem := catchUp s.mem d addr n } d addr n))

/-- A fence of agents of a team at a scope (R53). -/
def fenceAs (s : State) (t : Team) (keys : List Nat) (acq rel : Bool) (scp : Nat) : State :=
  let (m, s) := takeId s
  let s := keys.foldl (fun s k => updHist s t.tid k fun h =>
    let h := if acq then h.acquireFence m scp else h
    if rel then { h with rel := widest h.rel (some scp) } else h) s
  if !acq then s
  else
    { s with vops := s.vops.map fun o =>
        if o.tid ≠ t.tid then o
        else { o with accs := o.accs.map fun a =>
          if keys.contains a.sid && !a.done && o.kind.reads then
            { a with acq := widest a.acq (some scp), lead := least a.lead m,
                     far := if scp < 5 then a.far else least a.far m }
          else a } }

/-- A wait has ended that counts accesses of agents of a team as returned (R52 case 4). -/
def waitAs (s : State) (t : Team) (keys : List Nat) (counts : Past → Bool) : State :=
  let (m, s) := takeId s
  keys.foldl (fun s k => updHist s t.tid k fun h => h.waited m counts) s

end Sys2Proof.Machine
end

