-- ==== Sys2Proof/Machine/CopyMove.lean ====
section
/-! DEFINITION. How a copy's bytes move (18 R285 to R288): what it reads, the decoder's input, where a byte lands, and what stops it. -/

namespace Sys2Proof.Machine

open Sys2Proof

/-- Why a copy cannot move its next byte (18 R288). -/
inductive CopyStop where
  | page (va : Nat)
  | access (reason va : Nat)
  | chunk (obj chunk : Nat)
  | unlinked
  | decode (bit : Nat)
  | poisoned
  deriving DecidableEq, Repr

/-- What another module answers to a copy: the base of its bytes' free values (25 R355), or that the request could not be delivered, so that
the data is poisoned (26 R377). -/
structure Remote where
  free : Nat
  lost : Bool

/-- Bytes of global memory as a copy's team reads them, with their poison: a page fault or a right that is missing stops it (18 R288), and it waits for a
chunk that is not resident (05 R85), and for a port that takes its request (26 R377). -/
def copyRead (s : State) (rm : Remote) (t : Team) (a n : Nat) : Except CopyStop (List (Byte × Bool)) :=
  match checkAccess s t.fn t.secure (a : Int) n false [.read] with
  | some 3 => .error (.page a)
  | some c => .error (.access c a)
  | none =>
    match missingOf s t.fn (upFrom a n) with
    | some (h, i) => .error (.chunk h i)
    | none => if !rm.lost && !linked s && (upFrom a n).any (isRemote s t.fn) then .error .unlinked else .ok ((upFrom a n).map fun b =>
      if isRemote s t.fn b then (Config.freeByte (rm.free + b), rm.lost || Config.freeBit (rm.free + b / 64))
      else (memGet (viewOf s.mem t.die).mem (gkey t.fn b), poisonAt s t.die (gkey t.fn b)))

/-- One bit of a stream, with the poison of its granule (18 R286). -/
def streamBit (s : State) (rm : Remote) (t : Team) (base n : Nat) : Except CopyStop (Bool × Bool) :=
  match copyRead s rm t (base + n / 8) 1 with
  | .error e => .error e
  | .ok l => .ok (match l with | (b, p) :: _ => (b.getLsbD (n % 8), p) | [] => (false, false))

/-- Decode one byte value from a bit position: the value, the poison of its code's bits, and the next position (18 R286). -/
def decodeByte (s : State) (rm : Remote) (t : Team) (table : List Nat) (base start : Nat) :
    Nat → Nat → Nat → Bool → Except CopyStop (Byte × Bool × Nat)
  | 0, _, _, _ => .error (.decode start)
  | f + 1, n, code, p =>
    match streamBit s rm t base n with
    | .error e => .error e
    | .ok (b, q) =>
      let code := 2 * code + ofBool b
      match valueOf table (n + 1 - start) code with
      | some v => .ok (BitVec.ofNat 8 v, p || q, n + 1)
      | none => decodeByte s rm t table base start f (n + 1) code (p || q)

/-- The code table of a copy, read once (18 R286). -/
def loadTable (s : State) (rm : Remote) (t : Team) (x : Copy) : Except CopyStop Copy :=
  if !x.tmpl.dec || !x.table.isEmpty then .ok x
  else
    let bytes := (upFrom 0 256).foldl (fun (acc : Except CopyStop (List (Byte × Bool))) i =>
      match acc with
      | .error e => .error e
      | .ok l => match copyRead s rm t (x.tmpl.ctab + i) 1 with | .error e => .error e | .ok b => .ok (l ++ b)) (.ok [])
    match bytes with
    | .error e => .error e
    | .ok l =>
      let lens := l.map fun b => b.1.toNat
      if tableOk lens then .ok { x with table := lens, tablePoison := l.any (·.2) } else .error (.decode 0)

/-- Byte i of a copy's source in shape order, with its poison, and the decoder's next position. -/
def sourceByte (s : State) (rm : Remote) (t : Team) (x : Copy) (i : Nat) : Except CopyStop ((Byte × Bool) × Nat) :=
  let sa := (x.tmpl.sa x.disp (i / x.tmpl.esz)).toNat + i % x.tmpl.esz
  if x.hop ≠ 0 then .ok (nthD (0, false) x.carried i, 0)
  else if x.tmpl.dec then
    match decodeByte s rm t x.table (x.tmpl.sbase x.disp).toNat x.bitpos 15 x.bitpos 0 false with
    | .error e => .error e
    | .ok (v, p, pos) => .ok ((v, p || x.tablePoison), pos)
  else if x.tmpl.srcScratch then
    let k := getCluster s t.place.cluster
    .ok ((memGet k.scr (t.place.scrBase + sa), scrPoisonAt k (t.place.scrBase + sa)), 0)
  else match copyRead s rm t sa 1 with
    | .error e => .error e
    | .ok l => .ok (l.headD (0, false), 0)

/-- Every byte of a destination granule is written by some element of a copy. -/
def granuleWhole (m : Template) (disp : Int) (g : Nat) : Bool :=
  (upFrom (64 * g) 64).all fun b => (upFrom 0 m.elems).any fun e =>
    let a := m.da disp e
    decide (a ≤ b) && decide ((b : Int) < a + m.esz)

/-- A byte of a copy lands in a team's scratchpad: the byte, poison, and the full bit of its line once every byte that the copy writes to it
is written (18 R285). left and dirty as they are after it. -/
def landScratch (x : Copy) (base a : Nat) (b : Byte × Bool) (left : Sp Nat) (dirty : Sp Bool) (k : Cluster) : Cluster :=
  let done (g : Nat) : Bool := decide (spGet 0 left g = 0)
  let g := a / 64
  let l := a / 128
  let pz := if b.2 then [(base / 64 + g, true)]
    else if done g && !spGet false dirty g && granuleWhole x.tmpl x.disp g then [(base / 64 + g, false)]
    else []
  let k := scrWrite k (base + a) [b.1] pz []
  if done (2 * l) && done (2 * l + 1) then setLine true k (base / 128 + l) else k

/-- A byte of a copy lands in the feed registers at a stream offset: a row is full when all its 64 bytes are written (16 R248, R255). DESIGN
CHOICE (log entry 100): a poisoned row keeps its poison until the register is released. -/
def landFeed (a : Nat) (b : Byte × Bool) (k : Cluster) : Cluster :=
  let f := a / 4096
  let o := a % 4096
  let r := getFeed k f
  let have' := spSet false r.written o true
  putFeed k f { r with bytes := memSet r.bytes o b.1, written := have',
                       pois := if b.2 then spSet false r.pois (o / 64) true else r.pois,
                       full := if (upFrom (64 * (o / 64)) 64).all (spGet false have') then spSet false r.full (o / 64) true else r.full }

/-- Check the destination of a copy's byte. -/
def destStop (s : State) (t : Team) (x : Copy) (a : Nat) (p : Bool) : Option CopyStop :=
  if x.tmpl.dstScratch || x.tmpl.dstFeed then none
  else match checkAccess s t.fn t.secure (a : Int) 1 false [.write] with
    | some 3 => some (.page a)
    | some c => some (.access c a)
    | none => if !isRemote s t.fn a then none else if p then some .poisoned else if linked s then none else some .unlinked

/-- Clear the poison of the global granules that a finished copy has written whole with clean bytes (10 R172). -/
def clearGlobal (s : State) (t : Team) (x : Copy) : State :=
  if x.tmpl.dstScratch || x.tmpl.dstFeed then s
  else
    let gs := coveredGranules ((upFrom 0 x.tmpl.elems).map fun e => ((x.tmpl.da x.disp e).toNat, x.tmpl.esz))
    (gs.filter fun g => !spGet false x.dirty g && !isRemote s t.fn (64 * g)).foldl (fun s g =>
      if poisonAt s t.die (gkey t.fn (64 * g)) then
        writeBytes s t.die (gkey t.fn (64 * g)) [] [((gkey t.fn (64 * g)) / 64, false)] x.wrote []
      else s) s

/-- A byte of a copy that is read and not yet written. -/
def Copy.got (x : Copy) (i : Nat) : Option Fetched := x.fetched.find? fun f => f.idx = i

/-- A byte of a copy is written. -/
def Copy.landed (x : Copy) (i : Nat) : Bool := decide (i < x.prog) || x.ahead.contains i

/-- PROG and the bytes beyond it, once some of those stand at PROG: at most n of them. -/
def closeUp : Nat → Nat → List Nat → Nat × List Nat
  | 0, p, l => (p, l)
  | n + 1, p, l => if l.contains p then closeUp n (p + 1) (l.filter fun i => i ≠ p) else (p, l)

/-- The bytes that a copy has still to read, in shape order. -/
def Copy.unread (x : Copy) : List Nat := (upFrom x.prog (x.tmpl.bytes - x.prog)).filter fun i => !x.landed i && (x.got i).isNone

/-- A copy halts: bytes that it has read and not written are read again when it goes on (18 R288, R289). -/
def Copy.settle (x : Copy) : Copy :=
  { x with bitpos := match x.got x.prog with | some f => f.start | none => x.bitpos, fetched := [] }

/-- The byte that a copy reads for a byte that it is to write: the decoder yields its values one after another (18 R286). -/
def Copy.source (x : Copy) (i : Nat) : Nat := if x.hop = 0 && x.tmpl.dec then x.prog + x.ahead.length + x.fetched.length else i

/-- A copy reads a byte. lost: what it asks of another module cannot be delivered. -/
def fetchByte (s : State) (lost : Bool) (t : Team) (x : Copy) (i : Nat) : Except (CopyStop × Copy) (Copy × State) :=
  let (free, s) := takeFree s
  let rm : Remote := { free := free, lost := lost }
  match loadTable s rm t x with
  | .error w => .error (w, x)
  | .ok x =>
    match sourceByte s rm t x i with
    | .error w => .error (w, x)
    | .ok (b, pos) => .ok ({ x with fetched := x.fetched ++ [{ idx := i, byte := b.1, poison := b.2, start := x.bitpos }], bitpos := pos }, s)

/-- Writes that are made for a team join what its launch's completion releases (23 R335). -/
def noteWrites (s : State) (t : Team) (ids : List Nat) : State :=
  match t.ref with
  | .launch fn lid _ => updLaunch s fn lid fun l => { l with rel := inTransit s.mem (unionIds [l.rel, ids]) }
  | _ => s

/-- A copy writes a byte that it has read: each byte of a tile becomes new on its own (03 R59). -/
def landByte (s : State) (c ch : Nat) (t : Team) (x : Copy) (f : Fetched) : State :=
  let a := x.tmpl.byteAt x.disp f.idx
  let b : Byte × Bool := (f.byte, f.poison)
  let counted := x.tmpl.dstScratch || x.tmpl.dstFeed
  let left := if counted then spSet 0 x.left (a / 64) (spGet 0 x.left (a / 64) - 1) else x.left
  let dirty := if b.2 then spSet false x.dirty (a / 64) true else x.dirty
  let global := !counted && !isRemote s t.fn a
  let own := s.nextId
  let s :=
    if x.tmpl.dstScratch then
      match getTeam s x.dstTid with
      | some d => (copyBases s d).foldl (fun s base => updCluster s c (landScratch x base a b left dirty)) s
      | none => s
    else if x.tmpl.dstFeed then updCluster s c (landFeed a b)
    else if global then
      noteWrites (writeBytes s t.die (gkey t.fn a) [b.1] (if b.2 then [(gkey t.fn a / 64, true)] else []) x.acq []) t [own]
    else s
  let p := closeUp (x.ahead.length + 1) x.prog (f.idx :: x.ahead)
  let x' : Copy := { x with prog := p.1, ahead := p.2, fetched := x.fetched.filter fun g => g.idx ≠ f.idx, left := left, dirty := dirty,
                            tile := if x.hop < x.tmpl.mcn && x.hop = 0 then spSet (0, false) x.tile f.idx b else [],
                            wrote := if global then inTransit s.mem (x.wrote ++ [own]) else x.wrote }
  let s := updCopy s c ch x.num fun _ => x'
  if x'.prog < x.tmpl.bytes then s else finishCopy (clearGlobal s t x') c ch x'

/-- One step of a copy for a byte: the byte is read, or, once it and every byte before it is read, it is written, after an earlier one for the
same place (18 R285); that none of them stops is what lets a halt find exactly the bytes before PROG written (18 R288). -/
def stepAt (s : State) (lost : Bool) (c ch : Nat) (t : Team) (x : Copy) (i : Nat) : Except (CopyStop × Copy) State :=
  let read (k : Nat) : Except (CopyStop × Copy) State :=
    match fetchByte s lost t x (x.source k) with
    | .error e => .error e
    | .ok (y, s) => .ok (updCopy s c ch x.num fun _ => y)
  let rest := (upFrom x.prog (i + 1 - x.prog)).filter fun k => !x.landed k
  match rest.find? fun k => (x.got k).isNone with
  | some k => read (if (x.got i).isNone then i else k)
  | none =>
    match rest.findSome? fun k => destStop s t x (x.tmpl.byteAt x.disp k) (match x.got k with | some f => f.poison | none => false) with
    | some w => .error (w, x)
    | none =>
      match (rest.find? fun k => x.tmpl.byteAt x.disp k = x.tmpl.byteAt x.disp i).bind x.got with
      | some f => .ok (landByte s c ch t x f)
      | none => .ok s

/-- A step of a copy, or why it stops: it goes on with any of the bytes that are still to be written, for it reads and writes them in no stated
order (03 R57, 18 R285); with the first of them where that one cannot go on, or where its cluster is to stop. -/
def stepByte (s : State) (lost : Bool) (c ch : Nat) (t : Team) (x : Copy) : Except (CopyStop × Copy) State :=
  let (n, s) := takeFree s
  let i := if (getCluster s c).preempt = .none then x.prog + n % (x.tmpl.bytes - x.prog) else x.prog
  match stepAt s lost c ch t x (if x.landed i then x.prog else i) with
  | .ok s => .ok s
  | .error _ => stepAt s lost c ch t x x.prog

/-- The team whose space and rights a copy uses: the issuer's, a hop's receiver's. -/
def copyTeam (s : State) (x : Copy) : Option Team := getTeam s (if x.hop = 0 then x.tid else x.dstTid)

/-- A copy is at an element boundary. -/
def Copy.atBoundary (x : Copy) : Bool := decide (x.prog % x.tmpl.esz = 0)

/-- The bytes of a copy that are still to be written of elements of which some are. -/
def Copy.torn (x : Copy) : List Nat :=
  (((x.prog :: x.ahead).map (· / x.tmpl.esz)).eraseDups.flatMap fun e =>
    let l := upFrom (e * x.tmpl.esz) x.tmpl.esz
    if l.any x.landed then l.filter fun i => !x.landed i else [])

/-- Write one byte of a copy that is to stop, reading what that needs: at most n bytes. -/
def writeOut (c ch num i : Nat) : Nat → State → State
  | 0, s => s
  | n + 1, s =>
    match findCopy s c ch num with
    | none => s
    | some x =>
      if x.landed i || x.finished || x.halted then s
      else match copyTeam s x with
        | none => s
        | some t =>
          match x.got i with
          | some f => if (destStop s t x (x.tmpl.byteAt x.disp i) f.poison).isNone then landByte s c ch t x f else s
          | none =>
            match fetchByte s false t x (x.source i) with
            | .error _ => s
            | .ok (y, s) => writeOut c ch num i n (updCopy s c ch num fun _ => y)

/-- A copy that is to stop goes on to element boundaries (R289). -/
def toBoundary (c ch num : Nat) (s : State) : State :=
  match findCopy s c ch num with
  | none => s
  | some x => x.torn.foldl (fun s i => writeOut c ch num i 17 s) s

/-- The hops of retired copies that have not started are dropped, wherever they wait, and none follows a hop that runs (R288, R289). -/
def dropHops (roots : List Nat) (k : Cluster) : Cluster :=
  let cut (y : Copy) : Copy := if roots.contains y.root then { y with tmpl := { y.tmpl with mcn := y.hop } } else y
  { k with hops := k.hops.filter fun e => !roots.contains e.2.root,
           chans := k.chans.map fun e => (e.1, { e.2 with copies := e.2.copies.map cut }) }

/-- Drop the unstarted hops of retired copies on every cluster and in every image. -/
def dropAllHops (s : State) (roots : List Nat) : State :=
  { s with clusters := s.clusters.map fun e => (e.1, dropHops roots e.2),
           loom := { s.loom with images := s.loom.images.map fun m => { m with cluster := dropHops roots m.cluster } } }

/-- A hop whose team ends writes nothing more, and forwards at once (R287). -/
def passHops (s : State) (c ch tid : Nat) : State :=
  ((getChan s c ch).copies.filter fun y => decide (y.hop ≠ 0) && decide (y.dstTid = tid) && !y.finished).foldl (fun s y => finishCopy s c ch y) s

/-- Retire every uncounted copy that a team issued on its cluster, at its next element boundary, with its hops that have not started; hops
numbered on other clusters run on (R289), and those that its team receives pass it by. -/
def retireCopies (s : State) (c tid : Nat) : State :=
  (upFrom 0 16).foldl (fun s ch =>
    let s := passHops s c ch tid
    let own := (getChan s c ch).copies.filter fun y => y.tid = tid
    if own.isEmpty then s
    else
      let s := own.foldl (fun s y => toBoundary c ch y.num s) s
      let s := updCopies s c ch fun y => if y.tid = tid then { y with finished := true } else y
      dropAllHops s (own.map (·.root))) s

end Sys2Proof.Machine
end

