-- ==== Sys2Proof/Machine/Hash.lean ====
section
/-! DEFINITION. SHA-384, by which the manual names objects, chunks, stages, patches and checkpoints (05 R77, 21 R313, 23 R347,
R349). -/

namespace Sys2Proof.Machine

open Sys2Proof

/-- The words of 64 bits of a constant, n of them, most significant first. -/
def packedWords (n v : Nat) : List W64 := (upFrom 0 n).map fun i => BitVec.ofNat 64 (v >>> (64 * (n - 1 - i)))

/-- The constants of the 80 rounds of SHA-384, ten to a number: of each of the first 80 primes, the first 64 bits of the fractional part of
its cube root (FIPS 180-4). -/
def sha512K : List W64 :=
  packedWords 10 0x428a2f98d728ae227137449123ef65cdb5c0fbcfec4d3b2fe9b5dba58189dbbc3956c25bf348b53859f111f1b605d019923f82a4af194f9bab1c5ed5da6d8118d807aa98a303024212835b0145706fbe ++
  packedWords 10 0x243185be4ee4b28c550c7dc3d5ffb4e272be5d74f27b896f80deb1fe3b1696b19bdc06a725c71235c19bf174cf692694e49b69c19ef14ad2efbe4786384f25e30fc19dc68b8cd5b5240ca1cc77ac9c65 ++
  packedWords 10 0x2de92c6f592b02754a7484aa6ea6e4835cb0a9dcbd41fbd476f988da831153b5983e5152ee66dfaba831c66d2db43210b00327c898fb213fbf597fc7beef0ee4c6e00bf33da88fc2d5a79147930aa725 ++
  packedWords 10 0x06ca6351e003826f142929670a0e6e7027b70a8546d22ffc2e1b21385c26c9264d2c6dfc5ac42aed53380d139d95b3df650a73548baf63de766a0abb3c77b2a881c2c92e47edaee692722c851482353b ++
  packedWords 10 0xa2bfe8a14cf10364a81a664bbc423001c24b8b70d0f89791c76c51a30654be30d192e819d6ef5218d69906245565a910f40e35855771202a106aa07032bbd1b819a4c116b8d2d0c81e376c085141ab53 ++
  packedWords 10 0x2748774cdf8eeb9934b0bcb5e19b48a8391c0cb3c5c95a634ed8aa4ae3418acb5b9cca4f7763e373682e6ff3d6b2b8a3748f82ee5defb2fc78a5636f43172f6084c87814a1f0ab728cc702081a6439ec ++
  packedWords 10 0x90befffa23631e28a4506cebde82bde9bef9a3f7b2c67915c67178f2e372532bca273eceea26619cd186b8c721c0c207eada7dd6cde0eb1ef57d4f7fee6ed17806f067aa72176fba0a637dc5a2c898a6 ++
  packedWords 10 0x113f9804bef90dae1b710b35131c471b28db77f523047d8432caab7b40c724933c9ebe0a15c9bebc431d67c49c100d4c4cc5d4becb3e42b6597f299cfc657e2a5fcb6fab3ad6faec6c44198c4a475817

/-- The words that SHA-384 starts from: of the ninth to the sixteenth prime, the same bits of the square root. -/
def sha384Init : List W64 :=
  packedWords 8 0xcbbb9d5dc1059ed8629a292a367cd5079159015a3070dd17152fecd8f70e593967332667ffc00b318eb44a8768581511db0c2e0d64f98fa747b5481dbefa4fa4

/-- A 64-bit word of 8 bytes, most significant first. -/
def beWord (b : List Byte) : W64 := b.foldl (fun a x => (a <<< 8) ||| x.zeroExtend 64) 0

/-- The bytes of a number, most significant first. -/
def beBytes (n v : Nat) : List Byte := (leBytes n v).reverse

/-- The number of bytes given most significant first. -/
def beNat (b : List Byte) : Nat := leNat b.reverse

/-- The message padded to whole blocks of 128 bytes. -/
def shaPad (m : List Byte) : List Byte :=
  let z := (240 - (m.length + 1) % 128) % 128
  m ++ (0x80 : Byte) :: List.replicate z 0 ++ beBytes 16 (8 * m.length)

/-- The exclusive or of a word rotated right by each of some amounts, and of a start. -/
def spin (start x : W64) (by' : List Nat) : W64 := by'.foldl (fun a n => a ^^^ x.rotateRight n) start

/-- The message schedule: the last 16 words, newest first, and n more words to make; answers all words made, newest first. -/
def shaSchedule : Nat → List W64 → List W64
  | 0, w => w
  | n + 1, w =>
    let old := nthD 0 w 14
    let late := nthD 0 w 1
    shaSchedule n ((nthD 0 w 15 + nthD 0 w 6 + spin (old >>> 7) old [1, 8] + spin (late >>> 6) late [19, 61]) :: w)

/-- One round. -/
def shaRound (st : List W64) (kw : W64) : List W64 :=
  match st with
  | [a, b, c, d, e, f, g, h] =>
    let pick := g ^^^ (e &&& (f ^^^ g))
    let most := (a &&& b) ||| (c &&& (a ||| b))
    let up := h + kw + pick + spin 0 e [14, 18, 41]
    [up + most + spin 0 a [28, 34, 39], a, b, c, d + up, e, f, g]
  | st => st

/-- One block. -/
def shaBlock (st : List W64) (block : List Byte) : List W64 :=
  let w := (shaSchedule 64 ((chunksOf 8 17 block).map beWord).reverse).reverse
  let st' := ((sha512K.zip w).map fun p => p.1 + p.2).foldl shaRound st
  (st.zip st').map fun p => p.1 + p.2

/-- SHA-384. -/
def sha384 (m : List Byte) : List Byte :=
  let p := shaPad m
  let st := (chunksOf 128 (p.length + 1) p).foldl shaBlock sha384Init
  (st.take 6).flatMap fun x => beBytes 8 x.toNat

end Sys2Proof.Machine
end

