-- ==== Sys2Proof/Machine/HeddleCore.lean ====
section
/-! DEFINITION. Pipes, attachments and pipelines as the Heddle keeps them (21 R307 to R309, R313 to R318): what publishing,
releasing, closing and ending do to its counts. -/

namespace Sys2Proof.Machine

open Sys2Proof

/-- The smallest of a list of numbers. -/
def minOf : List Nat → Option Nat
  | [] => none
  | a :: t => some (t.foldl Nat.min a)

/-- The largest n from a start such that the list holds every number from the start to n − 1; fuel bounds the run. -/
def gapless (l : List Nat) : Nat → Nat → Nat
  | 0, n => n
  | f + 1, n => if l.contains n then gapless l f (n + 1) else n

/-- A pipe by its place. -/
def getPipe (s : State) (i : Nat) : Option Pipe := s.heddle.pipes[i]?

/-- Change a pipe. -/
def updPipe (s : State) (i : Nat) (f : Pipe → Pipe) : State :=
  { s with heddle := { s.heddle with pipes := updAt f i s.heddle.pipes } }

/-- Change a stage. -/
def updStage (s : State) (i : Nat) (f : Stage → Stage) : State :=
  { s with heddle := { s.heddle with stages := updAt f i s.heddle.stages } }

/-- Change a pipeline. -/
def updPipeline (s : State) (pid : Nat) (f : Pipeline → Pipeline) : State :=
  { s with heddle := { s.heddle with pipelines := updFirst (fun p => decide (p.pid = pid) && !p.ended) f s.heddle.pipelines } }

/-- A pipe has an attachment left. -/
def Pipe.attached (p : Pipe) : Bool := p.attaches.any fun a => !a.removed

/-- A stage's live attachment to its input pipe. -/
def Pipe.attachOf (p : Pipe) (stage : Nat) : Option Attach := p.attaches.find? fun a => decide (a.stage = stage) && !a.removed

/-- Change a stage's live attachment. -/
def Pipe.updAttach (p : Pipe) (stage : Nat) (f : Attach → Attach) : Pipe :=
  { p with attaches := updFirst (fun a => decide (a.stage = stage) && !a.removed) f p.attaches }

/-- The slot of record q is free for reuse (R308). -/
def Pipe.slotFree (p : Pipe) (q : Nat) : Bool := p.attaches.all fun a => a.removed || decide (q < a.j) || decide (q < a.rel)

/-- The records held by strands of a set. -/
def heldBy (hs : List (Nat × Nat)) (sids : List Nat) : List Nat := (hs.filter fun h => sids.contains h.2).map (·.1)

/-- The address of a record's slot (R307). -/
def Pipe.slotAddr (p : Pipe) (r : Nat) : Nat := p.ring + p.rsz * (r % p.nslot)

/-- Some granule of a record is poisoned, as a die sees it (R321). -/
def recordPoisoned (s : State) (d : Nat) (p : Pipe) (r : Nat) : Bool := anyPoison s d (gkey p.fn (p.slotAddr r)) p.rsz

/-- Records are published: PUB passes every gapless run, and the holders are cleared (R321). rel: the writes in transit that the
publication releases. -/
def publishRecords (s : State) (pi : Nat) (rs rel : List Nat) : State :=
  updPipe s pi fun p =>
    let l := p.published ++ rs
    let pub := gapless l (l.length + 1) p.pub
    { p with pub := pub, published := l.filter fun r => pub ≤ r, holders := p.holders.filter fun h => !rs.contains h.1,
             pubs := (p.pubs.map fun e => (e.1, inTransit s.mem e.2)).filter (fun e => !e.2.isEmpty) ++
               (if rel.isEmpty then [] else rs.map fun r => (r, rel)) }

/-- An attachment releases records: REL passes every gapless run (R323). -/
def releaseRecords (s : State) (pi stage : Nat) (rs rel : List Nat) : State :=
  updPipe s pi fun p => p.updAttach stage fun a =>
    let l := a.released ++ rs
    let n := gapless l (l.length + 1) a.rel
    { a with rel := n, released := l.filter fun r => n ≤ r, holders := a.holders.filter fun h => !rs.contains h.1,
             rels := (a.rels.map fun e => (e.1, inTransit s.mem e.2)).filter (fun e => !e.2.isEmpty) ++
               (if rel.isEmpty then [] else rs.map fun r => (r, rel)) }

/-- What the publications of the records up to r cover (R325). -/
def Pipe.pubsUpTo (p : Pipe) (r : Nat) : List Nat := ((p.pubs.filter fun e => e.1 ≤ r).flatMap (·.2))

/-- What the releases of a record by every attachment cover (R325). -/
def Pipe.relsOf (p : Pipe) (r : Nat) : List Nat := p.attaches.flatMap fun a => (a.rels.filter fun e => e.1 = r).flatMap (·.2)

/-- A pipeline's private stages (R317). -/
def privateStages (s : State) (p : Pipeline) : List Nat :=
  p.stages.filter fun i => match getStage s i with | some g => decide (g.creator = p.pid) && !g.isPrefix | none => false

/-- Every one of a list of stages has ended. -/
def allEnded (s : State) (l : List Nat) : Bool := l.all fun i => match getStage s i with | some g => g.ended | none => true

/-- Remove a stage's attachment to its input pipe: it counts as having released every record (R308). -/
def removeAttach (s : State) (i : Nat) : State :=
  match getStage s i with
  | some g => match g.inp with | some pi => updPipe s pi fun p => p.updAttach i fun a => { a with removed := true } | none => s
  | none => s

/-- A stage's team ends: its output pipe closes at its PUB, and its own attachment goes, but for the first private stage of a
pipeline that has not ended, whose attachment goes with the pipeline (R317, R318). -/
def endStage (s : State) (i : Nat) (detached : Bool) : State :=
  match getStage s i with
  | none => s
  | some g =>
    let s := updStage s i fun g => { g with ended := true, tid := none }
    let s := match g.out with
      | some pi => updPipe s pi fun p => { p with closed := true, published := [], holders := [] }
      | none => s
    let keep := !detached && !g.isPrefix &&
      match getPipeline s g.creator with
      | some p => !p.ended && decide ((privateStages s p).head? = some i) && !allEnded s (privateStages s p)
      | none => false
    if keep then s else removeAttach s i

/-- A pipeline is still attached to a stage: from the stage on, each prefix stage on its path, and the first private one, whose attachment stays
until the pipeline ends, consumes the records of the one before it (R317). -/
def attachedBy (s : State) (p : Pipeline) (i : Nat) : Bool :=
  let path := (p.stages.dropWhile (· ≠ i)).tail
  let toFirst := path.take ((path.takeWhile fun j => !(privateStages s p).contains j).length + 1)
  p.stages.contains i && toFirst.all fun j =>
    match getStage s j with
    | some g => match g.inp.bind (getPipe s) with | some q => (q.attachOf j).isSome | none => false
    | none => false

/-- Mark every pipeline whose private stages have all ended as ended, remove its first private stage's attachment, and pass the
ownership of its prefixes to the attached pipeline whose bind came earliest (R317). -/
def endPipelines (s : State) : State :=
  s.heddle.pipelines.foldl (fun s p0 =>
    match getPipeline s p0.pid with
    | none => s
    | some p =>
      if p.ended || !allEnded s (privateStages s p) then s
      else
        let s := updPipeline s p.pid fun p => { p with ended := true }
        let s := match (privateStages s p).head? with | some i => removeAttach s i | none => s
        { s with heddle := { s.heddle with stages :=
          (s.heddle.stages.zip (upFrom 0 s.heddle.stages.length)).map fun (g, i) =>
            if g.owner = p.pid && g.isPrefix then
              match s.heddle.pipelines.find? fun o => !o.ended && attachedBy s o i with
              | some o => { g with owner := o.pid }
              | none => g
            else g } }) s

/-- The first stage whose team has not ended and whose output pipe has lost its last attachment (R317). -/
def detachedStage (s : State) : Option Nat :=
  (upFrom 0 s.heddle.stages.length).find? fun i =>
    match getStage s i with
    | some g => !g.ended && (match g.out with | some pi => (match getPipe s pi with | some p => !p.attached | none => false) | none => false)
    | none => false

/-! ### Sharing (R313 to R315) -/

/-- The identity of a stage: SHA-384 of its 144-byte block (R313). -/
def stageIdent (root : List Byte) (vent : Nat) (cent : W32) (args : List W32) (srch : List Byte) (domain : Nat) : List Byte :=
  sha384 (root ++ leBytes 4 vent ++ leBytes 4 cent.toNat ++ (args.flatMap fun a => leBytes 4 a.toNat) ++ srch ++
    leBytes 4 domain ++ [0, 0, 0, 0])

/-- Is a pipe open to one more joiner (R314, R315)? -/
def Pipe.joinable (p : Pipe) (start : Bool) : Bool :=
  decide ((p.attaches.filter fun a => !a.removed).length < 16) && (!start || decide (p.pub = 0) || decide (p.acq ≤ p.rwin))

/-- The chains of live stages that are the same as the first stages of a new pipeline, each feeding the next: extended by one
more stage (R314). same: identity, function, world and RSZ. -/
def extendChains (s : State) (same : Stage → Bool) (chains : List (List Nat)) : List (List Nat) :=
  chains.flatMap fun c =>
    (upFrom 0 s.heddle.stages.length).filterMap fun i =>
      match getStage s i with
      | some g =>
        if g.ended || !same g then none
        else match c.getLast? with
          | none => if g.inp.isNone then some [i] else none
          | some j =>
            match getStage s j with
            | some h => if h.out.isSome && decide (h.out = g.inp) then some (c ++ [i]) else none
            | none => none
      | none => none

end Sys2Proof.Machine
end

