-- ==== Sys2Proof/Machine/OpCore.lean ====
section
/-! DEFINITION. Outstanding vector operations: the order in which their elements may be performed (03 R52, R53), performing one
element (10 R176, R177, R183), landing its result (06 R103, 02 R27), and path counters (03 R50). -/

namespace Sys2Proof.Machine

open Sys2Proof

/-! ### Registers of strands -/

/-- A clear element. -/
def Elem.zero : Elem := { val := 0, poison := false }

/-- A strand's register element. -/
def Strand.reg (x : Strand) (r : Nat) : Elem := spGet Elem.zero x.regs r

/-- Set a strand's register element. -/
def Strand.setReg (x : Strand) (r : Nat) (e : Elem) : Strand := { x with regs := spSet Elem.zero x.regs r e }

/-- Change the strand of a SID. -/
def Weft.updStrand (w : Weft) (sid : Nat) (f : Strand → Strand) : Weft :=
  { w with strands := updFirst (fun x => x.sid = sid) f w.strands }

/-- The weft of a team that holds a strand. -/
def Team.weftOfSid (t : Team) (sid : Nat) : Option Weft := t.wefts.find? fun w => w.strands.any fun x => x.sid = sid

/-- Change one operation. -/
def updOp (s : State) (op : Nat) (f : VOp → VOp) : State := { s with vops := updFirst (fun o => o.id = op) f s.vops }

/-- An operation by its number. -/
def getOp (s : State) (op : Nat) : Option VOp := s.vops.find? fun o => o.id = op

/-- Change the accesses of one operation at a place. -/
def updAcc (s : State) (op idx : Nat) (f : Acc → Acc) : State := updOp s op fun o => { o with accs := updAt f idx o.accs }

/-! ### Order within a strand (03 R52) -/

/-- Where tag entry i stands among the locations of a cluster: beyond every scratchpad byte (10 R182). -/
def tagPlace (i : Nat) : Nat := 2 ^ 32 + 16 * i

/-- The byte ranges an access touches: (scratchpad or tag?, address, size). A tag word looks every entry up (10 R182). -/
def touched (k : OpKind) (size : Nat) (addr : Nat) (data : W64) : List (Bool × Nat × Nat) :=
  match k with
  | .load _ | .store | .atomic _ _ => [(false, addr, size)]
  | .ldgs => [(false, addr, 4), (true, data.toNat, 4)]
  | .stag => [(true, tagPlace 0, 16 * 256)]
  | .scrLoad _ | .scrStore _ | .scrAtomic _ _ => [(true, addr, size)]

/-- Some earlier access of the same strand must still be performed first (R52). -/
def blocked (s : State) (tid sid : Nat) (n : Next) : Bool :=
  s.vops.any fun o =>
    decide (o.tid = tid) && decide (o.id < n.id) && o.accs.any fun a =>
      decide (a.sid = sid) && !a.done && ordersBefore a.lead a.far a.remote (touched o.kind o.size a.addr a.data) n

/-- An element of an operation as a next access. -/
def VOp.next (o : VOp) (a : Acc) : Next :=
  { id := o.id, ranges := touched o.kind o.size a.addr a.data, rel := a.rel, remote := a.remote }

/-! ### Performing one element -/

/-- The new value of an atomic (10 R183). -/
def atomicNew (aop : Nat) (old d e : W32) : W32 :=
  match aop with
  | 0 => d
  | 1 => if old = e then d else old
  | 2 => old + d
  | 3 => old &&& d
  | 4 => old ||| d
  | 5 => old ^^^ d
  | 6 => if old.toInt ≤ d.toInt then old else d
  | 7 => if old.toInt ≤ d.toInt then d else old
  | 8 => if old.toNat ≤ d.toNat then old else d
  | 9 => if old.toNat ≤ d.toNat then d else old
  | _ => BitVec.ofNat 32 (fAdd fp32 0 old.toNat d.toNat)

/-- Poison changes that an element's write makes: poisoned data sets its granules; a granule that the word's clean stores cover
whole is cleared with the last of them, unless poisoned data touches it too (10 R172; log entry 15). base: from an access to
its address. -/
def poisonChanges (base : Acc → Nat) (size : Nat) (accs : List Acc) (idx : Nat) (a : Acc) (poison : Bool) : List (Nat × Bool) :=
  let gs := granulesOf (base a) size
  if poison then gs.map fun g => (g, true)
  else
    let covered := coveredGranules ((accs.filter fun x => !x.poison).map fun x => (base x, size))
    gs.filterMap fun g =>
      let meets (x : Acc) : Bool := overlap (base x) size (64 * g) 64
      let others := (accs.zip (upFrom 0 accs.length)).filter fun x => decide (x.2 ≠ idx) && meets x.1
      if covered.contains g && others.all fun x => x.1.done && !x.1.poison then some (g, false) else none

/-- The value of an aperture load: ISSUED or the counter of a channel (18 R279). -/
def apertureRead (s : State) (c off : Nat) : Nat :=
  if off < 0x100 then (getChan s c ((off - 0x80) / 8)).issued else chanCounter (getChan s c ((off - 0x100) / 8))

/-- The paths that count an access to this module's memory: its kind's (10 R173, R183). -/
def OpKind.paths : OpKind → List Nat
  | .load _ => [0]
  | .store => [1]
  | .atomic _ nr => if nr then [1] else [0, 1]
  | .ldgs => [2]
  | .stag | .scrLoad _ | .scrStore _ | .scrAtomic _ _ => []

/-- The paths that count one access of an operation: P3 where it is another module's. -/
def VOp.pathsOf (o : VOp) (a : Acc) : List Nat := if o.kind.paths.isEmpty then [] else if a.remote then [3] else o.kind.paths

/-- The paths an operation counts on (10 R173). -/
def VOp.paths (o : VOp) : List Nat :=
  if o.kind.paths.isEmpty then []
  else (if o.accs.isEmpty || o.accs.any (fun a => !a.remote) then o.kind.paths else []) ++ (if o.accs.any (·.remote) then [3] else [])

/-- An element of an operation as an access of its strand. -/
def VOp.access (o : VOp) (a : Acc) : Access :=
  { tid := o.tid, key := a.sid, next := o.next a, reads := o.kind.reads, acq := a.acq, lead := a.lead, far := a.far, paths := o.pathsOf a,
    flag := o.flag }

/-- Find the place of the valid entry that holds a tag. -/
def findTag (l : List TagEntry) (g : BitVec 48) : Option Nat := l.findIdx? fun e => e.valid && decide (e.tag = g)

/-- Perform element idx of an operation: its access to memory, with the result kept in the access. -/
def performAcc (s : State) (t : Team) (o : VOp) (idx : Nat) (a : Acc) : State :=
  let d := t.die
  let ga (x : Acc) : Nat := gkey t.fn x.addr
  let so (x : Acc) : Nat := t.place.scrBase + x.addr
  let c := t.place.cluster
  let x := o.access a
  let ret (s : State) (v : W64) (p : Bool) : State := updAcc s o.id idx fun a => { a with done := true, result := v, resPoison := p }
  match o.kind with
  | .load _ =>
    if apertureBase ≤ a.addr then ret s (BitVec.ofNat 64 (apertureRead s c (a.addr - apertureBase))) false
    else
      let v := a.given.getD (BitVec.ofNat 64 (readNat s d (ga a) o.size), poisonAt s d (ga a))
      ret (readAs s t x (seenAt s d (ga a) o.size)) v.1 v.2
  | .store => ret (writeAs s t x false (ga a) (leBytes o.size a.data.toNat) (poisonChanges ga o.size o.accs idx a a.poison) []) 0 false
  | .atomic aop _ =>
    let s := { s with mem := catchUp s.mem d (ga a) 4 }
    let old : W32 := BitVec.ofNat 32 (readNat s d (ga a) 4)
    let p := poisonAt s d (ga a)
    let s := writeAs s t x false (ga a) (leBytes 4 (atomicNew aop old (a.data.setWidth 32) a.data2).toNat) [] (seenAt s d (ga a) 4)
    ret s (old.setWidth 64) p
  | .ldgs =>
    let v := a.given.getD (BitVec.ofNat 64 (readNat s d (ga a) 4), poisonAt s d (ga a))
    let dst (x : Acc) : Nat := t.place.scrBase + x.data.toNat
    let accs := updAt (fun (x : Acc) => { x with poison := v.2 }) idx o.accs
    let (rels, s) := releaseAs s t x []
    let s := if a.remote || a.given.isSome then s else readAs s t x (seenAt s d (ga a) 4)
    let s := updCluster s c fun k => scrWrite k (dst a) (leBytes 4 v.1.toNat) (poisonChanges dst 4 accs idx a v.2) rels
    updAcc s o.id idx fun a => { a with done := true, result := v.1, resPoison := v.2, poison := v.2 }
  | .scrStore fill =>
    let (rels, s) := releaseAs s t x []
    let s := updCluster s c fun k =>
      let k := scrWrite k (so a) (leBytes o.size a.data.toNat) (poisonChanges so o.size o.accs idx a a.poison) rels
      if fill && ((o.accs.zip (upFrom 0 o.accs.length)).all fun x =>
          decide (x.2 = idx) || x.1.done || decide ((so x.1) / 128 ≠ (so a) / 128)) then setLine true k ((so a) / 128) else k
    ret s 0 false
  | .scrAtomic aop _ =>
    let k := getCluster s c
    let old : W32 := BitVec.ofNat 32 (leNat (scrRead k (so a) 4))
    let p := scrPoisonAt k (so a)
    let (rels, s) := releaseAs s t x (seenScr k (so a) 4)
    let s := updCluster s c fun k =>
      scrWrite k (so a) (leBytes 4 (atomicNew aop old (a.data.setWidth 32) a.data2).toNat) [] rels
    ret s (old.setWidth 64) p
  | .scrLoad _ =>
    let k := getCluster s c
    ret (readAs s t x (seenScr k (so a) o.size)) (BitVec.ofNat 64 (leNat (scrRead k (so a) o.size))) (scrPoisonAt k (so a))
  | .stag =>
    let e := (findTag t.tags (a.data.setWidth 48)).bind (t.tags[·]?)
    ret (readAs s t x (unionIds (t.tags.map (·.rel)))) (match e with | some e => e.slot.setWidth 64 | none => 0xFFFFFFFF) a.poison

/-- Stores of earlier lanes to a byte of an element come first: of one word's accesses only stores to a common byte, and the landing of
LDGS bytes, are ordered by lane; atomics of one word to one location are applied by lane (03 R52, 10 R177, R184). -/
def laneReady (o : VOp) (idx : Nat) (a : Acc) : Bool :=
  !o.kind.writes ||
  let lands (x : Acc) : List (Bool × Nat × Nat) :=
    match o.kind with
    | .ldgs => [(true, x.data.toNat, 4)]
    | _ => touched o.kind o.size x.addr x.data
  (o.accs.take idx).all fun x => x.done || !shareByte (lands x) (lands a)

/-- An element may be performed: it has not been, and nothing that comes first is still to come. -/
def mayPerform (s : State) (o : VOp) (idx : Nat) (a : Acc) : Bool := !a.done && laneReady o idx a && !blocked s o.tid a.sid (o.next a)

/-- Perform one element where the order rules let it (03 R52). Nothing where it is done, waits for another module, or must wait. -/
def performOne (s : State) (op idx : Nat) : State :=
  match getOp s op with
  | none => s
  | some o =>
    match o.accs[idx]?, getTeam s o.tid with
    | some a, some t => if a.remote || !mayPerform s o idx a then s else performAcc s t o idx a
    | _, _ => s

/-- The elements of an operation that are performed in one step with an element: of a load, those of the same address. 03 R52 leaves them
unordered; by 22 R327 the lanes of a load of one word find one value there (log entry 89). -/
def VOp.together (o : VOp) (idx : Nat) : List Nat :=
  match o.kind, o.accs[idx]? with
  | .load _, some a => (upFrom 0 o.accs.length).filter fun i => match o.accs[i]? with | some x => decide (x.addr = a.addr) | none => false
  | _, _ => [idx]

/-- Perform an element, and those that go with it. -/
def performElem (s : State) (op idx : Nat) : State :=
  match getOp s op with
  | none => s
  | some o => (o.together idx).foldl (fun s i => performOne s op i) s

/-- Perform every element, in lane order. -/
def performAll (s : State) (op : Nat) : State :=
  match getOp s op with
  | none => s
  | some o => (upFrom 0 o.accs.length).foldl (fun s i => performElem s op i) s

/-! ### Landing results (06 R103, 02 R27) -/

/-- Sign-extend or zero-extend an n-byte value to 32 bits. -/
def extend32 (n : Nat) (sext : Bool) (v : Nat) : W32 :=
  if sext then BitVec.ofInt 32 (signedOf (8 * n) v) else BitVec.ofNat 32 v

/-- The register elements an access writes when it returns: register and element. -/
def VOp.results (o : VOp) (a : Acc) : List (Nat × Elem) :=
  let r := o.vd.toNat
  match o.kind with
  | .load sext | .scrLoad sext =>
    if o.size = 8 then [(r, ⟨a.result.setWidth 32, a.resPoison⟩), (r + 1, ⟨(a.result >>> 32).setWidth 32, a.resPoison⟩)]
    else [(r, ⟨extend32 o.size sext a.result.toNat, a.resPoison⟩)]
  | .atomic _ nr | .scrAtomic _ nr => if nr then [] else [(r, ⟨a.result.setWidth 32, a.resPoison⟩)]
  | .stag => [(r, ⟨a.result.setWidth 32, a.resPoison⟩)]
  | .store | .ldgs | .scrStore _ => []

/-- The registers an operation writes. -/
def VOp.dests (o : VOp) : List Nat :=
  let r := o.vd.toNat
  match o.kind with
  | .load _ | .scrLoad _ => if o.size = 8 then [r, r + 1] else [r]
  | .atomic _ nr | .scrAtomic _ nr => if nr then [] else [r]
  | .stag => [r]
  | .store | .ldgs | .scrStore _ => []

/-- A redundant pair's access whose values wait for the other member to make it (25 R362). -/
def unmatched (s : State) (o : VOp) : Bool :=
  match getTeam s o.tid with
  | some t => t.pairLoads.any (fun e => e.op = o.id) && (t.partner.bind (getTeam s)).isSome
  | none => false

/-- Put a performed element's result into its strand's registers, in whatever weft the strand now sits; a result for a strand
that has exited or a register that was freed is discarded. -/
def landElem (s : State) (op idx : Nat) : State :=
  match getOp s op with
  | none => s
  | some o =>
    match o.accs[idx]? with
    | none => s
    | some a =>
      if !a.done || a.landed || unmatched s o then s
      else
        let s := updTeam s o.tid fun t =>
          match t.weftOfSid a.sid with
          | none => t
          | some w =>
            let put (w : Weft) (e : Nat × Elem) : Weft :=
              if o.discard.contains (a.sid, e.1) || !w.alloc.getLsbD e.1 then w
              else w.updStrand a.sid fun x => x.setReg e.1 e.2
            { t with wefts := updFirst (fun x => x.wid = w.wid) (fun w => (o.results a).foldl put w) t.wefts }
        updAcc s op idx fun a => { a with landed := true }

/-- Land every performed element. -/
def landAll (s : State) (op : Nat) : State :=
  match getOp s op with
  | none => s
  | some o => (upFrom 0 o.accs.length).foldl (fun s i => landElem s op i) s

/-! ### Paths and completion (03 R50) -/

/-- Drop returned operations at the head of a path: the counter falls in issue order. -/
def popReturned : List (Nat × Bool) → List (Nat × Bool)
  | [] => []
  | (i, r) :: t => if r then popReturned t else (i, r) :: t

/-- The value of a team's path counter. -/
def Team.pathCount (t : Team) (p : Nat) : Nat := (nthD [] t.paths p).length

/-- Raise a path's counter at issue. -/
def Team.raise (t : Team) (p op : Nat) : Team := { t with paths := updAt (fun l => l ++ [(op, false)]) p t.paths }

/-- An operation has returned on its paths. -/
def Team.returned (t : Team) (op : Nat) : Team :=
  { t with paths := t.paths.map fun l => popReturned (l.map fun e => if e.1 = op then (e.1, true) else e) }

/-- An operation completes: its paths return and its flag no longer counts it (06 R102). -/
def completeOp (s : State) (o : VOp) : State :=
  let s := updTeam s o.tid fun t => t.returned o.id
  { s with vops := s.vops.filter fun x => x.id ≠ o.id }

/-- An operation without accesses completes only after the earlier operations of its weft on its paths (10 R173). -/
def emptyReady (s : State) (o : VOp) : Bool :=
  !(s.vops.any fun x => decide (x.tid = o.tid) && decide (x.id < o.id) && x.owners.any o.owners.contains && x.paths.any o.paths.contains)

/-- Return an operation: perform what may be performed, and where all of it is done, land the results and complete. -/
def returnOp (s : State) (op : Nat) : State :=
  let s := performAll s op
  match getOp s op with
  | none => s
  | some o =>
    if !(o.accs.all (·.done)) || unmatched s o || (o.accs.isEmpty && !emptyReady s o) then s
    else
      let s := landAll s op
      completeOp s o

/-- Flag f of a weft reads as set (07 R128). -/
def flagSet (s : State) (tid wid f : Nat) : Bool :=
  s.vops.any fun o => decide (o.tid = tid) && o.owners.contains wid && decide (o.flag = some f)

/-- The operations of a weft that have not completed. -/
def weftOps (s : State) (tid wid : Nat) : List VOp := s.vops.filter fun o => decide (o.tid = tid) && o.owners.contains wid

end Sys2Proof.Machine
end

