-- ==== Sys2Proof/Machine/TaskCore.lean ====
section
/-! DEFINITION. Task control blocks and the task engine (19): enqueueing, decrements, commits, ends and fates, job cards. -/

namespace Sys2Proof.Machine

open Sys2Proof

/-- The little-endian number at an offset of a structure. -/
def leAt (b : List Byte) (off n : Nat) : Nat := leNat ((b.drop off).take n)

/-- The TCB of 128 bytes as the engine reads it (R291, R292). -/
def tcbTask (fn : Nat) (secure : Bool) (die tcb : Nat) (b : List Byte) : Task :=
  { fn := fn, tcb := tcb, secure := secure, obj := leAt b 0 4, vent := leAt b 4 4, cent := BitVec.ofNat 32 (leAt b 8 4),
    nstr := leAt b 0x0C 2, cls := leAt b 0x0E 1, nsucc := leAt b 0x0F 1, scrsize := leAt b 0x10 4, qid := leAt b 0x14 2 % 1024,
    slist := leAt b 0x38 8, args := (upFrom 0 8).map fun i => BitVec.ofNat 32 (leAt b (0x60 + 4 * i) 4),
    dep := BitVec.ofNat 32 (leAt b 0x18 4), seq := 0, state := leAt b 0x1C 1, runs := leAt b 0x1F 1, die := die, acq := [] }

/-- CENT as a launch, a task and a stage use it: all ones takes the object's CENTRY (R291). -/
def centryOf (o : Obj) (c : W32) : W32 := if c = 0xFFFFFFFF then o.centry else c

/-- CENT is acceptable: the object's own, or 4-byte aligned within its control text (R292). -/
def centOk (o : Obj) (c : W32) : Bool := decide (c = 0xFFFFFFFF) || (decide (c.toNat % 4 = 0) && decide (c.toNat < 4 * o.ctext.length))

/-- VENT is a recorded clause header (05 R81). -/
def ventOk (o : Obj) (v : Nat) : Bool := o.headers.contains v

/-- NSTR and SCRSIZE are in range for an object (R291, 03 R40). -/
def sizesOk (o : Obj) (nstr scr : Nat) : Bool :=
  decide (1 ≤ nstr) && decide (nstr ≤ o.decl.nstrMax) && decide (scr % 4096 = 0) && decide (scr ≤ 2 ^ 20) && decide (o.decl.scrMin ≤ scr)

/-- The object that a function and world may name by a handle. -/
def ownObj (s : State) (fn : Nat) (secure : Bool) (h : Nat) : Option Obj :=
  match getObj s h with
  | some o => if o.fn = fn && o.secure = secure then some o else none
  | none => none

/-- A TCB meets R292. class3: the enqueuer may give class 3. -/
def tcbOk (s : State) (k : Task) (b : List Byte) (class3 : Bool) : Bool :=
  decide (leAt b 0x40 32 = 0) && decide (leAt b 0x1E 1 = 0) && decide (leAt b 0x16 2 = 0) && decide (leAt b 0x14 2 < 1024) &&
  decide (leAt b 0x1D 1 < 2) && decide (leAt b 0x28 8 < 2 ^ 20) && decide (k.cls < 4) && (class3 || decide (k.cls < 3)) &&
  (decide (k.nsucc = 0) || (decide (k.slist % 8 = 0) && decide (k.slist < 2 ^ 56))) &&
  match ownObj s k.fn k.secure k.obj with
  | some o => ventOk o k.vent && centOk o k.cent && sizesOk o k.nstr k.scrsize
  | none => false

/-! ### Structures in memory

What the engine reads of another module's memory is free, as what a hart loads from there is (R301, 03 R50 P3, 25 R355). -/

/-- One look of the task engine at memory: the free number that what it reads of other modules comes from, and whether a request to them is
lost, so that what it reads is poisoned (26 R377). -/
structure Look where
  seed : Nat
  lost : Bool
  deriving DecidableEq, Repr

/-- A look at memory now. -/
def lookNow (s : State) : Look × State := let (k, s) := takeFree s; ({ seed := k, lost := !linked s }, s)

/-- n bytes of a function from an address on, as a die's engine reads them. -/
def lookBytes (s : State) (l : Look) (die fn a n : Nat) : List Byte :=
  if isRemote s fn a then (upFrom a n).map fun b => Config.freeByte (l.seed + b) else readBytes s die (gkey fn a) n

/-- Some of them lie in a poisoned granule. -/
def lookPoison (s : State) (l : Look) (die fn a n : Nat) : Bool :=
  if isRemote s fn a then l.lost || (granulesOf a n).any fun g => Config.freeBit (l.seed + g) else anyPoison s die (gkey fn a) n

/-- Write a field of a TCB back, where its page is still mapped: a release at module scope of what the engine acts for (R304). What is written
to another module's memory is not the model's. -/
def tcbWrite (s : State) (die fn tcb : Nat) (acq : List Nat) (off n v : Nat) : State :=
  if (findPage s.xlat fn (tcb + off)).isSome && !isRemote s fn (tcb + off) then releaseBytes s (.dieEngine die) 4 die (gkey fn (tcb + off)) (leBytes n v) [] acq else s

/-- Tasks that a die's engine holds (R294). -/
def engineLoad (s : State) (die : Nat) : Nat := (s.tasks.tasks.filter fun t => decide (t.die = die) && decide (t.state ≤ 3)).length

/-- STATE as the engine knows it: its own record of an enqueued task, else the byte in memory. -/
def stateOf (s : State) (k : Task) : Nat := match getTask s k.fn k.tcb with | some e => e.state | none => k.state

/-- What enqueueing would answer: 0 performed, 2 TCBBAD, 3 TCBBUSY, 4 QFULL (R301). -/
def enqStatus (s : State) (k : Task) (b : List Byte) (class3 : Bool) : Nat :=
  if !tcbOk s k b class3 then 2
  else if !(stateOf s k = 0 || stateOf s k = 4 || stateOf s k = 6) then 3
  else if engineLoad s k.die ≥ 65536 then 4
  else 0

/-- DEP of a TCB in memory, the last value in its coherence order (R293). -/
def depInMemory (s : State) (l : Look) (die fn tcb : Nat) : Nat :=
  if isRemote s fn tcb then leNat (lookBytes s l die fn (tcb + 0x18) 4)
  else readNat { s with mem := catchUp s.mem die (gkey fn (tcb + 0x18)) 4 } die (gkey fn (tcb + 0x18)) 4

/-- A TCB as read for an enqueue; none where it cannot be read or lies in a poisoned granule (R301, R303). -/
def readTcb (s : State) (l : Look) (die fn : Nat) (secure : Bool) (tcb : Nat) : Option (Task × List Byte) :=
  if tcb % 128 ≠ 0 || (checkAccess s fn secure tcb 128 true [.read]).isSome || lookPoison s l die fn tcb 128 then none
  else
    let b := lookBytes s l die fn tcb 128
    some ({ tcbTask fn secure die tcb b with dep := BitVec.ofNat 32 (depInMemory s l die fn tcb) }, b)

/-- Enqueue a task: SEQ, COMMIT and STATE are written, the sequence counter advances (R294, R301). acq: the writes in transit
that the enqueue releases; with them go those of the decrements that memory holds (R304). -/
def enqueue (s : State) (k : Task) (acq : List Nat) : State :=
  let acq := unionIds [acq, acquiredAt s (.dieEngine k.die) 4 k.die (gkey k.fn (k.tcb + 0x18)) 4]
  let st := if k.dep = 0 then 2 else 1
  let seq := s.tasks.seq
  let s := tcbWrite s k.die k.fn k.tcb acq 0x20 8 seq.toNat
  let s := tcbWrite s k.die k.fn k.tcb acq 0x1D 1 0
  let s := tcbWrite s k.die k.fn k.tcb acq 0x1C 1 st
  { s with tasks := { s.tasks with seq := seq + 1, tasks := s.tasks.tasks ++ [{ k with seq := seq, state := st, acq := acq }] } }

/-- Log a task-engine error on the queue of a TCB, or of the team where no TCB can be read (R295). -/
def taskError (s : State) (code : Nat) (q : Nat) (team : Option Team) (tcb pc cluster : Nat) : State :=
  let e : Entry := { kind := code, tcb := tcb, pc := pc, cluster := cluster }
  logTo s q (match team with | some t => issuerOf s t e | none => e)

/-- QID of a TCB, where it can be read: it cannot where it lies in a poisoned granule (R295). -/
def qidOf (s : State) (l : Look) (die fn : Nat) (secure : Bool) (tcb : Nat) : Option Nat :=
  match getTask s fn tcb with
  | some k => some k.qid
  | none =>
    if (checkAccess s fn secure (tcb + 0x14) 2 true [.read]).isSome || lookPoison s l die fn (tcb + 0x14) 2 then none
    else some (leNat (lookBytes s l die fn (tcb + 0x14) 2) % 1024)

/-- One decrement of a TCB's counter (R293). Answers the counter before. acq: the writes in transit that it releases (R304); q: the
signaller's queue; pc and cluster as the entry names them. -/
def decrement (s : State) (l : Look) (t : Team) (acq : List Nat) (die tcb q pc cluster : Nat) : Nat × State :=
  let under (s : State) : State :=
    let own := (qidOf s l die t.fn t.secure tcb).getD q
    let s := taskError s 1 own (some t) tcb pc cluster
    if own = q then s else taskError s 1 q (some t) tcb pc cluster
  match getTask s t.fn tcb with
  | some k =>
    let d := k.dep.toNat
    if d = 0 then (0, under s)
    else
      let ready := decide (d = 1) && decide (k.state = 1)
      let s := updTask s t.fn tcb fun k =>
        { k with dep := k.dep - 1, state := if ready then 2 else k.state, acq := unionIds [inTransit s.mem k.acq, acq] }
      let s := tcbWrite s die t.fn tcb acq 0x18 4 (d - 1)
      (d, if ready then tcbWrite s die t.fn tcb acq 0x1C 1 2 else s)
  | none =>
    let d := depInMemory s l die t.fn tcb
    let all := unionIds [acq, acquiredAt s (.dieEngine die) 4 die (gkey t.fn (tcb + 0x18)) 4]
    if d = 0 then (0, under s) else (d, tcbWrite s die t.fn tcb all 0x18 4 (d - 1))

/-! ### Job cards (R302, R303) -/

/-- A card of 64 bytes. -/
def parseCard (s : State) (t : Team) (b : List Byte) : Card :=
  { id := 0, acq := [], fn := t.fn, secure := t.secure, issuerQueue := reportQueue s t, cls := t.cls, tcb := leAt b 0 8,
    die := leAt b 0x12 1 % 4, remote := (leAt b 0x12 1).testBit 7, modid := leAt b 0x18 4, port := leAt b 0x1C 4, tiles := [],
    lid := (issuerOf s t { kind := 5 }).lid, team := (issuerOf s t { kind := 5 }).team,
    tcb2 := BitVec.ofNat 64 (issuerOf s t { kind := 5 }).tcb2 }

/-- The tile list of a card: none where an entry cannot be read, lies in a poisoned granule or breaks R302. -/
def cardTiles (s : State) (l : Look) (die fn : Nat) (secure remote : Bool) (tlist n : Nat) : Option (List (Nat × Nat × Nat)) :=
  (upFrom 0 n).foldl (fun acc i =>
    match acc with
    | none => none
    | some ts =>
      let a := tlist + 32 * i
      if (checkAccess s fn secure a 32 true [.read]).isSome || lookPoison s l die fn a 32 then none
      else
        let b := lookBytes s l die fn a 32
        let src := leAt b 0 8
        let dst := leAt b 8 8
        let size := leAt b 0x10 8
        if leAt b 0x18 8 ≠ 0 || src % 4096 ≠ 0 || size % 4096 ≠ 0 || (!remote && dst ≠ 0) then none else some (ts ++ [(src, dst, size)])) (some [])

/-- A card's own fields meet R302. -/
def cardFieldsOk (b : List Byte) : Bool :=
  let remote := (leAt b 0x12 1).testBit 7
  decide (leAt b 0x20 32 = 0) && decide (leAt b 0x13 5 = 0) && decide (bitsOf (leAt b 0x12 1) 2 5 = 0) &&
  (remote || (decide (leAt b 0x18 4 = 0) && decide (leAt b 0x1C 4 = 0))) && decide (leAt b 0x10 2 ≤ 256) && decide (leAt b 8 8 % 32 = 0)

/-- A card as it is read from an address; none where it lies in a poisoned granule, or cannot be read any more (R301). -/
def readCard (s : State) (l : Look) (t : Team) (die card : Nat) : Option (Card × List Byte) :=
  if (checkAccess s t.fn t.secure card 64 true [.read]).isSome || lookPoison s l die t.fn card 64 then none
  else let b := lookBytes s l die t.fn card 64; some (parseCard s t b, b)

/-- What TCARD answers for a card that has been read, and the card with its tiles: 0, 2 TCBBAD, 3 TCBBUSY or 4 QFULL (R301, R302). -/
def checkCard (s : State) (l : Look) (t : Team) (die : Nat) (c : Card) (b : List Byte) : Nat × Card :=
  if !cardFieldsOk b then (2, c)
  else
    match cardTiles s l die t.fn t.secure c.remote (leAt b 8 8) (leAt b 0x10 2), readTcb s l die t.fn t.secure c.tcb with
    | some tiles, some (k, tb) =>
      let st := if c.remote then (if stateOf s k = 0 || stateOf s k = 4 || stateOf s k = 6 then 0 else 3)
                else enqStatus s { k with die := c.die } tb (decide (t.cls = 3))
      let st := if c.remote && !tcbOk s k tb (decide (t.cls = 3)) then 2 else st
      (st, { c with tiles := tiles })
    | _, _ => (2, c)

/-- Hand a card to the Shuttle (R303), with the writes in transit that it releases. -/
def sendCard (s : State) (acq : List Nat) (c : Card) : State :=
  let (i, s) := takeId s
  { s with tasks := { s.tasks with cards := s.tasks.cards ++ [{ c with id := i, acq := acq }] } }

/-! ### Commit (R298) -/

/-- The queue that learns of a task-engine error of a TCB: its QID as the engine has it, else the issuing team's queue (R292, R295). -/
def errorQueue (s : State) (l : Look) (t : Team) (die tcb : Nat) : Nat := (qidOf s l die t.fn t.secure tcb).getD (reportQueue s t)

/-- The engine's request for a structure at an address is lost, where it lies in another module that no port reaches (26 R377). -/
def lostLook (s : State) (l : Look) (t : Team) (a : Nat) : State :=
  if l.lost && isRemote s t.fn a then undeliverable s t t.place.core 0 a else s

/-- Perform one piece of deferred work: refusals are logged (R298, R301); a card refused for want of room could not be delivered (R294). acq:
the writes in transit that it releases. -/
def performDeferred (s : State) (t : Team) (acq : List Nat) (die : Nat) (d : Deferred) : State :=
  let (l, s) := lookNow s
  match d with
  | .tenq tcb =>
    let s := lostLook s l t tcb
    match readTcb s l die t.fn t.secure tcb with
    | none => taskError s 2 (errorQueue s l t die tcb) (some t) tcb 0 0
    | some (k, b) =>
      match enqStatus s k b (decide (t.cls = 3)) with
      | 0 => enqueue s k acq
      | c => taskError s c (errorQueue s l t die tcb) (some t) tcb 0 0
  | .tcard card =>
    let s := lostLook s l t card
    match readCard s l t die card with
    | none => taskError s 2 (reportQueue s t) (some t) card 0 0
    | some (c, b) =>
      match checkCard s l t die c b with
      | (0, c) => sendCard s acq c
      | (code, c) => taskError s (if code = 4 then 5 else code) (errorQueue s l t die c.tcb) (some t) c.tcb 0 0

/-- A commit event of a team: an uncommitted task commits, and its deferred work is performed in issue order (R298). -/
def commitEvent (s : State) (tid : Nat) : State :=
  match getTeam s tid with
  | none => s
  | some t =>
    match t.ref with
    | .task fn tcb =>
      if t.commit then s
      else
        let acq := inTransit s.mem t.doneAll
        let s := updTeam s tid fun t => { t with commit := true, deferred := [] }
        let s := tcbWrite s t.die fn tcb acq 0x1D 1 1
        t.deferred.foldl (fun s w => performDeferred s t acq t.die w) s
    | _ => s

/-- Every access that a team has made has been performed. -/
def teamPerformed (s : State) (t : Team) : Bool :=
  !(s.vops.any fun o => decide (o.tid = t.tid) && o.accs.any fun a => !a.done) && (match t.hart with | some h => h.stores.isEmpty | none => true)

/-- A commit event need not wait: deferred work releases the team's earlier accesses, which must have been performed (R298, R304). -/
def commitReady (s : State) (t : Team) : Bool := t.deferred.isEmpty || teamPerformed s t

/-! ### Ends of tasks (R296, R299) -/

/-- One successor of an ending task (R296). -/
def successor (s : State) (t : Team) (acq : List Nat) (k : Task) (i : Nat) : State :=
  let a := k.slist + 8 * i
  let skip (s : State) (v : Nat) : State :=
    logTo s k.qid { kind := 2, tcb := v, tcb2 := k.tcb }
  let (l, s) := lookNow s
  let s := lostLook s l t a
  if (checkAccess s t.fn t.secure a 8 true [.read]).isSome || lookPoison s l t.die t.fn a 8 then skip s a
  else
    let v := leNat (lookBytes s l t.die t.fn a 8)
    if v % 128 ≠ 0 || (checkAccess s t.fn t.secure (v + 0x18) 4 true [.write]).isSome then skip s v
    else (decrement s l t acq t.die v k.qid 0 0).2

/-- A task's team ends normally: deferred work, one decrement of each successor, STATE 4 (R296, R298). -/
def endTaskNormally (s : State) (t : Team) (fn tcb : Nat) : State :=
  let s := commitEvent s t.tid
  match getTask s fn tcb with
  | none => s
  | some k =>
    let acq := inTransit s.mem t.doneAll
    let s := (upFrom 0 k.nsucc).foldl (fun s i => successor s t acq k i) s
    let s := tcbWrite s t.die fn tcb acq 0x1C 1 4
    { s with tasks := { s.tasks with tasks := s.tasks.tasks.filter fun e => !(decide (e.fn = fn) && decide (e.tcb = tcb)) } }

/-- A task's team is ended by a fault: held for replay where it has not committed and the cause allows it, else failed (R299).
Answers whether it is replayable. -/
def endTaskFaulted (s : State) (t : Team) (fn tcb finfo faddr : Nat) (mayReplay : Bool) : Bool × State :=
  let replay := mayReplay && !t.commit
  let st := if replay then 5 else 6
  let acq := inTransit s.mem t.doneAll
  let s := tcbWrite s t.die fn tcb acq 0x28 8 finfo
  let s := tcbWrite s t.die fn tcb acq 0x30 8 faddr
  let s := tcbWrite s t.die fn tcb acq 0x1C 1 st
  (replay,
   if replay then updTask s fn tcb fun k => { k with state := 5 }
   else { s with tasks := { s.tasks with tasks := s.tasks.tasks.filter fun e => !(decide (e.fn = fn) && decide (e.tcb = tcb)) } })

end Sys2Proof.Machine
end

