-- ==== Sys2Proof/Machine/Ends.lean ====
section
/-! DEFINITION. How a team ends (15 R221): the report, what happens to its outstanding operations, its engine work, its task,
launch and stage, and the ends that follow from it (21 R317, 23 R338, 25 R363). -/

namespace Sys2Proof.Machine

open Sys2Proof

/-- Why a team ends. entry: what the error log receives, if anything; cause, reason and addr: what a task's FINFO and FADDR
receive; mayReplay: the cause lets an uncommitted task be replayed (19 R299). -/
structure EndCause where
  normal : Bool
  entry : Option Entry
  cause : Nat
  reason : Nat
  addr : Nat
  mayReplay : Bool
  detached : Bool
  deriving DecidableEq, Repr

/-- A normal end. -/
def EndCause.ok : EndCause :=
  { normal := true, entry := none, cause := 0, reason := 0, addr := 0, mayReplay := false, detached := false }

/-- An end without an entry: FUNCTION.RESET and the commands that end a team for the host (23 R346). -/
def EndCause.silent : EndCause := { EndCause.ok with normal := false, mayReplay := true }

/-- A hart's store as an access. -/
def HStore.access (t : Team) (x : HStore) (remote : Bool) : Access :=
  { tid := t.tid, key := hartWho, reads := false, acq := none, lead := none, far := none, paths := [], flag := none,
    next := { id := x.num, ranges := [(false, x.addr.toNat, x.bytes.length)], rel := x.rel, remote := remote } }

/-- Put a store of a hart into memory. -/
def applyHStore (s : State) (t : Team) (x : HStore) : State :=
  let a := gkey t.fn x.addr.toNat
  if isRemote s t.fn x.addr.toNat then s
  else writeAs s t (HStore.access t x (isRemote s t.fn x.addr.toNat)) true a x.bytes (if x.poison then (granulesOf a x.bytes.length).map fun g => (g, true) else []) []

/-- What an ending team leaves outstanding: each access is performed or is not, and nothing returns (R221). -/
def settleOps (s : State) (tid : Nat) : State :=
  let s := (s.vops.filter fun o => o.tid = tid && o.kind.writes).foldl (fun s o =>
    (upFrom 0 o.accs.length).foldl (fun s i =>
      let (c, s) := takeFree s
      if c % 2 = 0 then performElem s o.id i else s) s) s
  let s := match getTeam s tid with
    | none => s
    | some t => match t.hart with
      | none => s
      | some h => h.stores.foldl (fun s x => let (c, s) := takeFree s; if c % 2 = 0 then applyHStore s t x else s) s
  { s with vops := s.vops.filter fun o => o.tid ≠ tid }

/-- The launches completed with a launch: itself, or every member of its gang (23 R338). -/
def membersOf (s : State) (l : Launch) : List Launch :=
  match l.gang with
  | none => [l]
  | some g => s.loom.launches.filter fun x => x.gang = some g

/-- A launch whose teams have all ended, with the rest of its gang, completes (23 R338); what aborts one completes it (R342). -/
def completeLaunch (s : State) (fn lid : Nat) : State :=
  match getLaunch s fn lid with
  | none => s
  | some l =>
    let ms := membersOf s l
    if l.aborted || !(ms.all fun m => m.ended ≥ m.teams) then s
    else
      let faulted : Nat := ms.foldl (fun (a : Nat) m => a + m.faulted) 0
      let teams : Nat := ms.foldl (fun (a : Nat) m => a + m.teams) 0
      let s := noteEffects s l.queue l.cmdSeq (ms.flatMap (·.rel))
      let s := { s with loom := { s.loom with
        launches := s.loom.launches.filter fun x => !(ms.any fun m => m.fn = x.fn && m.lid = x.lid) } }
      let p : Pending := { opc := l.opc, ctag := l.ctag, flags := l.flags, seq := l.cmdSeq, lid := l.lid, addr := 0, value := 0, acq := [], rel := [] }
      finish s l.queue p (if faulted = 0 then 0 else 6) (faulted + 2 ^ 32 * teams)

/-- What a team has done joins what its launch's completion releases (23 R335). -/
def noteTeam (s : State) (t : Team) : State := noteWrites s t t.doneAll

/-- One team of a launch has ended. -/
def countEnd (s : State) (fn lid : Nat) (fault : Bool) : State :=
  let s := updLaunch s fn lid fun l => { l with ended := l.ended + 1, faulted := l.faulted + ofBool fault }
  completeLaunch s fn lid

/-- A team saved in a cluster image (02 R37). -/
def imageOf (s : State) (tid : Nat) : Option Image := s.loom.images.find? fun m => m.teams.any fun t => t.tid = tid

/-- A team, resident or in an image. -/
def anyTeam (s : State) (tid : Nat) : Option Team :=
  match getTeam s tid with
  | some t => some t
  | none => (imageOf s tid).bind fun m => m.teams.find? fun t => t.tid = tid

/-- Act on an image's teams as if the image stood on its cluster; an image whose teams have all ended is dropped. What stands on the cluster
meanwhile is kept beside the 160 clusters, so that what the end does to hops reaches it (18 R289). -/
def onImage (s : State) (m : Image) (f : State → State) : State :=
  let c := match m.teams.head? with | some t => t.place.cluster | none => 0
  let kept := getCluster s c
  let ids := m.teams.map (·.tid)
  let s := f { setCluster (setCluster s 160 kept) c { m.cluster with hops := kept.hops } with teams := s.teams ++ m.teams, vops := s.vops ++ m.ops }
  let rest := s.teams.filter fun t => ids.contains t.tid
  let m' := { m with cluster := { getCluster s c with hops := [] }, teams := rest, ops := s.vops.filter fun o => ids.contains o.tid }
  let kept := { getCluster s 160 with hops := (getCluster s c).hops }
  let s := { setCluster (setCluster s 160 Cluster.reset) c kept with teams := s.teams.filter fun t => !ids.contains t.tid,
                                                                     vops := s.vops.filter fun o => !ids.contains o.tid }
  { s with loom := { s.loom with
      images := if rest.isEmpty then s.loom.images.filter fun x => x.id ≠ m.id else updFirst (fun x => x.id = m.id) (fun _ => m') s.loom.images } }

/-- End one team: report, settle its outstanding work, free what it holds (R221, 16 R251, 18 R289). shadow: the partner of a
redundant pair, whose end is counted and reported with the other member's. -/
def endResident (s : State) (tid : Nat) (c : EndCause) (shadow : Bool) : State :=
  match getTeam s tid with
  | none => s
  | some t =>
    let q := reportQueue s t
    let s := if c.normal then s else settleOps s tid
    let (replay, s) :=
      match t.ref with
      | .task fn tcb =>
        if c.normal then (false, endTaskNormally s t fn tcb)
        else endTaskFaulted s t fn tcb (c.cause + 65536 * c.reason) c.addr c.mayReplay
      | _ => (false, s)
    let s := match c.entry with
      | some e => if shadow then s else logTo s q (nameTeam s t { e with replayable := replay })
      | none => s
    let s := retireCopies s t.place.cluster tid
    let s := match t.place.ctx with
      | some i => retireContext s t.place.cluster i t.place.acc t.place.accBase
      | none => s
    let s := noteTeam (setResv s t.die tid none) ((getTeam s tid).getD t)
    let s := { s with teams := s.teams.filter fun x => x.tid ≠ tid, vops := s.vops.filter fun o => o.tid ≠ tid }
    match t.ref with
    | .launch fn lid _ => if shadow then s else countEnd s fn lid (!c.normal)
    | .task _ _ => s
    | .stage i => endStage s i c.detached
    | .loom => s

/-- End one team, resident or in an image. -/
def endOne (s : State) (tid : Nat) (c : EndCause) (shadow : Bool) : State :=
  match getTeam s tid, imageOf s tid with
  | none, some m => onImage s m fun s => endResident s tid c shadow
  | _, _ => endResident s tid c shadow

/-- End a team, and with it the other member of its pair where the end is not normal; a member that ends normally leaves the
count to the member that ends last (25 R361, R363). -/
def endWithPartner (s : State) (tid : Nat) (c : EndCause) : State :=
  match anyTeam s tid with
  | none => s
  | some t =>
    match t.partner with
    | none => endOne s tid c false
    | some p =>
      let live := (anyTeam s p).isSome
      if c.normal then endOne s tid c live
      else endOne (if live then endOne s p c true else s) tid c false

/-- End every stage that lost its last attachment, upstream stage by stage, and every pipeline whose private stages have ended
(21 R317). -/
def settleHeddle (silent : Bool) : Nat → State → State
  | 0, s => s
  | f + 1, s =>
    let s := endPipelines s
    match detachedStage s with
    | none => s
    | some i =>
      match getStage s i with
      | none => s
      | some g =>
        let e : Entry := { kind := 0x16, tcb2 := stgOf g }
        let s := match g.tid with
          | some tid =>
            endOne s tid { EndCause.silent with entry := if silent then none else some { kind := 0x16 }, detached := true } false
          | none =>
            let q := match getPipeline s (stagePid g) with | some p => p.qid | none => 0
            endStage (if silent then s else logTo s q e) i true
        settleHeddle silent f s

/-- The end of a team with everything that follows from it. -/
def endTeam (s : State) (tid : Nat) (c : EndCause) : State :=
  let s := endWithPartner s tid c
  settleHeddle false (s.heddle.stages.length + 1) s

/-- A team ends normally when its last weft has ceased and its hart has ended (R221). -/
def checkTeamEnd (s : State) (tid : Nat) : State :=
  match getTeam s tid with
  | none => s
  | some t =>
    let hartDone := match t.hart with | some h => h.ended | none => true
    if t.wefts.isEmpty && hartDone then endTeam s tid EndCause.ok else s

end Sys2Proof.Machine
end

