-- ==== Sys2Proof/Machine/Legal.lean ====
section
/-! DEFINITION. Which operands an instruction admits (06 R106 to R117, and the entries of 08 to 11, 15, 17, 19, 21). An
instruction that fails one of these checks raises ILLEGAL at its word. -/

namespace Sys2Proof.Machine

open Sys2Proof

/-! ### Source codes (06 R106) -/

/-- A v register. -/
def isV (c : BitVec 7) : Bool := c.toNat < 0x40
/-- A k register. -/
def isK (c : BitVec 7) : Bool := decide (0x40 ≤ c.toNat) && decide (c.toNat < 0x60)
/-- The uniform queue. -/
def isQ (c : BitVec 7) : Bool := c.toNat = 0x60
/-- ZERO or an inline integer. -/
def isConst (c : BitVec 7) : Bool := decide (c.toNat = 0x68) || decide (0x70 ≤ c.toNat)
/-- An assigned source code. -/
def srcOk (c : BitVec 7) : Bool := !(decide (0x69 ≤ c.toNat) && decide (c.toNat < 0x70))
/-- A source that is read as a 64-bit pair or value (10 R169): v63 and k31 have no partner. -/
def wideOk (c : BitVec 7) : Bool := srcOk c && decide (c.toNat ≠ 0x3F) && decide (c.toNat ≠ 0x5F)
/-- A last-read and a hold bit on an operand (06 R113). -/
def freeOk (c : BitVec 7) (l h : Bool) : Bool := !(l && h) && (!(l || h) || isV c)
/-- A source operand with its last-read and hold bits. -/
def operandOk (c : BitVec 7) (l h : Bool) : Bool := srcOk c && freeOk c l h

/-! ### The modifier word (08 R134) -/

/-- Modifier letters: X, N, R, S, Z of 08 R134; n2 says whether NY is among N. -/
structure Accepts where
  x : Bool := false
  n : Bool := false
  n2 : Bool := false
  r : Bool := false
  s : Bool := false
  z : Bool := false
  deriving DecidableEq, Repr

/-- A modifier word against what its member accepts. -/
def modsOk (a : Accepts) (sx : BitVec 7) (m : Mods) : Bool :=
  (if a.x then decide (m.xm.toNat ≤ 5) && (decide (m.xm = 0) || isV sx) else decide (m.xm = 0) && decide (m.xk = 0)) &&
  (a.n || !m.nx) && (a.n2 || !m.ny) && (a.r || decide (m.rm = 0)) && (a.s || !m.sat) &&
  (if a.z then operandOk m.sz m.lz m.hz else decide (m.sz = 0) && !m.lz && !m.hz)

/-- The optional modifier word: a member that accepts none of its fields may carry it too, with every field 0 (06 R108; log entry 88). -/
def extOk (a : Accepts) (sx : BitVec 7) : Option Mods → Bool
  | none => true
  | some m => modsOk a sx m

/-- A V3 word. -/
def v3Ok (a : Accepts) (o : V3) : Bool := operandOk o.sx o.lx o.hx && operandOk o.sy o.ly o.hy && extOk a o.sx o.ext

/-- A comparison word. -/
def vcmpOk (a : Accepts) (o : VCmp) : Bool := operandOk o.sx o.lx o.hx && operandOk o.sy o.ly o.hy && extOk a o.sx o.ext

/-- A one-source word. -/
def vuOk (a : Accepts) (o : VU) : Bool := operandOk o.sx o.lx o.hx && extOk a o.sx o.ext

/-- SEL: SZ is a mask code, which has neither a last-read nor a hold bit (08 R141). -/
def selOk (o : V3) : Bool :=
  operandOk o.sx o.lx o.hx && operandOk o.sy o.ly o.hy &&
  match o.ext with
  | none => true
  | some m => decide (m.sz.toNat ≤ 7) && !m.lz && !m.hz && modsOk { x := true } o.sx { m with sz := 0 }

/-- IADDI (08 R137). -/
def vaddiOk (o : VAddi) : Bool := operandOk o.sx o.lx o.hx

/-- Bits of a packed element: 16, 8 or 4; 0 for FP32 and the reserved codes (08 R152). -/
def packWidth (fmt : BitVec 4) : Nat :=
  match fmt.toNat with
  | 0 => 0 | 1 => 16 | 2 => 16 | 7 => 4 | 10 => 4 | 11 => 4 | 13 => 4 | 14 => 0 | 15 => 0 | _ => 8

/-- The legal combinations of width, count and group (08 R152). -/
def groupOk (fmt : BitVec 4) (n : Nat) (grp : BitVec 3) : Bool :=
  decide (packWidth fmt ≠ 0) && decide ((grp.toNat + 1) * n * packWidth fmt ≤ 32)

/-- An AQ format needs a scale: SZ may not be ZERO (08 R153). -/
def aqScaleOk (fmt : BitVec 4) (e : Option Mods) : Bool :=
  !(decide (fmt = 12) || decide (fmt = 13)) || match e with | none => true | some m => decide (m.sz ≠ 0x68)

/-- NRWn (08 R152, R153). -/
def nrwOk (n : Nat) (o : VPack) : Bool :=
  groupOk o.fmt n o.grp && decide (o.sx.toNat + n ≤ 64) && operandOk o.sx o.lx o.hx && aqScaleOk o.fmt o.ext &&
  extOk { n := true, n2 := decide (o.fmt = 3), r := true, s := true, z := true } o.sx o.ext

/-- WDNn (08 R152, R153). -/
def wdnOk (n : Nat) (o : VPack) : Bool :=
  groupOk o.fmt n o.grp && decide (o.vd.toNat + n ≤ 64) && operandOk o.sx o.lx o.hx && aqScaleOk o.fmt o.ext &&
  extOk { r := true, z := true } o.sx o.ext

/-! ### Lanes (09) -/

/-- MAND and MOR accept N only (09 R158). -/
def vmaskOk (o : VMask) : Bool := extOk { n := true, n2 := true } 0 o.ext

/-- BCAST: SY is not a v register (09 R159). -/
def bcastOk (o : VBcast) : Bool :=
  operandOk o.sx o.lx o.hx && srcOk o.sy && !isV o.sy && extOk {} o.sx o.ext

/-- BALLOT (09 R161). -/
def ballotOk (o : VBallot) : Bool := operandOk o.sx o.lx o.hx && extOk {} o.sx o.ext

/-- SCAN and RED (09 R162). -/
def scanOk (o : VScan) : Bool := operandOk o.sx o.lx o.hx && extOk {} o.sx o.ext

/-- FSCAN and FRED (09 R162). -/
def fscanOk (o : VScan) : Bool :=
  operandOk o.sx o.lx o.hx && decide (o.opc.toNat ≤ 2) && extOk { r := true } o.sx o.ext &&
  (decide (o.opc = 0) || match o.ext with | none => true | some m => decide (m.rm = 0))

/-! ### Memory words (10 R169 to R186) -/

/-- ORD and SCP of an access (10 R174): SCP is 0 when relaxed. -/
def orderOk (acq rel : Bool) (e : MExt) : Bool :=
  decide (e.scp.toNat ≤ 5) &&
  match e.ord.toNat with
  | 0 => decide (e.scp = 0)
  | 1 => acq
  | 2 => rel
  | _ => acq && rel

/-- A load or store with an optional index. wide: a global base; pair: VD, VD + 1; nt: whether bit 1 has a meaning. -/
def vmOk (wide pair acq rel nt : Bool) (o : VM) : Bool :=
  (if wide then wideOk o.sx else srcOk o.sx) && (!o.lx || isV o.sx) && (!pair || decide (o.vd.toNat ≠ 63)) && (nt || !o.nt) &&
  match o.ext with
  | none => true
  | some e => operandOk e.sz e.lz e.hz && decide (e.aop = 0) && orderOk acq rel e

/-- An atomic (10 R183). -/
def atomOk (wide : Bool) (o : VM) : Bool :=
  (if wide then wideOk o.sx else srcOk o.sx) && (!o.lx || isV o.sx) &&
  match o.ext with
  | none => false
  | some e =>
    operandOk e.sz e.lz e.hz && decide (e.aop.toNat ≤ 10) && orderOk true true e &&
    (decide (e.aop ≠ 1) || decide (o.vd.toNat ≠ 63))

/-- SFULL and SEMPTY (10 R180). -/
def lineOk (o : VLine) : Bool :=
  srcOk o.sx && (!o.lx || isV o.sx) &&
  match o.ext with
  | none => true
  | some e => operandOk e.sz e.lz e.hz && decide (e.aop = 0) && decide (e.ord = 0) && decide (e.scp = 0)

/-- STAG and STINV (10 R182). -/
def tagOk (o : VTag) : Bool :=
  wideOk o.sx && (!o.lx || isV o.sx) &&
  match o.ext with
  | none => true
  | some e => decide (e = { sz := 0, lz := false, hz := false, ord := 0, scp := 0, aop := 0 })

/-- STSET (10 R182). -/
def stsetOk (o : VM) : Bool :=
  wideOk o.sx && (!o.lx || isV o.sx) && decide (o.ofs = 0) && !o.nt &&
  match o.ext with
  | none => false
  | some e => operandOk e.sz e.lz e.hz && decide (e.aop = 0) && decide (e.ord = 0) && decide (e.scp = 0)

/-- FENCE (10 R185). -/
def fenceOk (o : VFence) : Bool := decide (o.ord ≠ 0) && decide (o.scp.toNat ≤ 5)

/-- A k register, ZERO or an inline integer. -/
def uniformOk (c : BitVec 7) : Bool := isK c || isConst c

/-! ### Control words (11 R188 to R204, 21 R319) -/

/-- BRU (11 R190). -/
def bruOk (o : VBranch) : Bool := operandOk o.sx o.lx false && decide (o.disp.toNat % 4 = 0)

/-- BRK (11 R191): k, QH, ZERO, inline, WID, TEAM, NSTR, WW, PT. -/
def brkOk (o : VBranch) : Bool :=
  (uniformOk o.sx || isQ o.sx || (decide (0x63 ≤ o.sx.toNat) && decide (o.sx.toNat ≤ 0x67))) && !o.lx &&
  decide (o.disp.toNat % 4 = 0)

/-- TWAIT, but for AUX 16 without a context (11 R198). -/
def twaitOk (scp : BitVec 3) (sx : BitVec 7) (tl : BitVec 5) (lx : Bool) : Bool :=
  decide (scp.toNat ≤ 5) && decide (tl.toNat ≤ 16) && wideOk sx && (!lx || isV sx)

/-! ### Hart words -/

/-- LR, SC and AMO carry no restriction beyond their encoding. A timeline code of TLRD or TLWAIT (15 R231). -/
def tlOk (tl : BitVec 6) : Bool := tl.toNat ≤ 17

/-- RV64I and M operations: forms that exist, shift amounts and even offsets (15 R211). -/
def rvOk : RvOp → Bool
  | .lui _ _ => true
  | .auipc _ _ => true
  | .jal _ off => decide (off.toNat % 2 = 0)
  | .jalr _ _ _ => true
  | .branch _ _ _ off => decide (off.toNat % 2 = 0)
  | .aluImm op _ _ imm =>
    match op with
    | .add | .slt | .sltu | .xor | .or | .and => true
    | .sll | .srl | .sra => decide (imm.toNat < 64)
    | _ => false
  | .aluImmW op _ _ imm =>
    match op with
    | .add => true
    | .sll | .srl | .sra => decide (imm.toNat < 32)
    | _ => false
  | .alu _ _ _ _ => true
  | .aluW op _ _ _ =>
    match op with
    | .add | .sub | .sll | .srl | .sra | .mul | .div | .divu | .rem | .remu => true
    | _ => false
  | .mret => true

/-- A map register: even, x2 to x30 (17 R259). -/
def mapRegOk (r : BitVec 5) : Bool := decide (r.toNat % 2 = 0) && decide (r ≠ 0)

/-! ### Every instruction -/

/-- Accepted letters of 08 R136 to R149 for two-source words. -/
def accXNS : Accepts := { x := true, n := true, n2 := true, s := true }
/-- X and N. -/
def accXN : Accepts := { x := true, n := true, n2 := true }
/-- X, N, S and Z. -/
def accXNSZ : Accepts := { x := true, n := true, n2 := true, s := true, z := true }
/-- X only. -/
def accX : Accepts := { x := true }
/-- X and Z. -/
def accXZ : Accepts := { x := true, z := true }
/-- X, N and R. -/
def accXNR : Accepts := { x := true, n := true, n2 := true, r := true }
/-- X, N, R and Z. -/
def accXNRZ : Accepts := { x := true, n := true, n2 := true, r := true, z := true }
/-- One-source X and N. -/
def accU : Accepts := { x := true, n := true }
/-- One-source X and S. -/
def accUS : Accepts := { x := true, s := true }
/-- One-source X, N and R. DEDUCED (log entry 92): of N, NX alone is a field of these words; NY is an unused one. -/
def accUR : Accepts := { x := true, n := true, r := true }
/-- One-source X and R. -/
def accUXR : Accepts := { x := true, r := true }
/-- One-source X, N, R and S. -/
def accURS : Accepts := { x := true, n := true, r := true, s := true }

/-- Legal operands of an instruction whatever the state. Hart words whose faults are exceptions of the state, frames and
events are judged by their meanings. -/
def legal : Instr → Bool
  | .iadd o => v3Ok accXNS o | .isub o => v3Ok accXNS o | .imul o => v3Ok accXNS o
  | .imulh o => v3Ok accXN o | .imulhu o => v3Ok accXN o | .imad o => v3Ok accXNSZ o
  | .imin o => v3Ok accXN o | .imax o => v3Ok accXN o | .umin o => v3Ok accXN o | .umax o => v3Ok accXN o
  | .and o => v3Ok accX o | .or o => v3Ok accX o | .xor o => v3Ok accX o | .andn o => v3Ok accX o
  | .shl o => v3Ok accX o | .shr o => v3Ok accX o | .sra o => v3Ok accX o | .rotl o => v3Ok accX o
  | .bfx o => v3Ok accX o | .bfxs o => v3Ok accX o | .bfi o => v3Ok accXZ o | .perm o => v3Ok accXZ o | .sel o => selOk o
  | .cmpeq o => vcmpOk accXN o | .cmpne o => vcmpOk accXN o | .cmplt o => vcmpOk accXN o | .cmple o => vcmpOk accXN o
  | .cmpltu o => vcmpOk accXN o | .cmpleu o => vcmpOk accXN o | .fcmpeq o => vcmpOk accXN o | .fcmplt o => vcmpOk accXN o
  | .fcmple o => vcmpOk accXN o | .fcmpun o => vcmpOk accXN o
  | .fadd o => v3Ok accXNR o | .fsub o => v3Ok accXNR o | .fmul o => v3Ok accXNR o | .ffma o => v3Ok accXNRZ o
  | .fmin o => v3Ok accXN o | .fmax o => v3Ok accXN o
  | .hadd2 o => v3Ok accXNR o | .hmul2 o => v3Ok accXNR o | .hfma2 o => v3Ok accXNRZ o
  | .badd2 o => v3Ok accXNR o | .bmul2 o => v3Ok accXNR o | .bfma2 o => v3Ok accXNRZ o
  | .movi _ => true | .iaddi o => vaddiOk o
  | .cvtfi o => vuOk accUR o | .cvtfu o => vuOk accUR o | .cvtif o => vuOk accUXR o | .cvtuf o => vuOk accUXR o
  | .nrw2 o => nrwOk 2 o | .nrw4 o => nrwOk 4 o | .nrw8 o => nrwOk 8 o
  | .wdn2 o => wdnOk 2 o | .wdn4 o => wdnOk 4 o | .wdn8 o => wdnOk 8 o
  | .mov o => vuOk accX o | .not o => vuOk accX o | .neg o => vuOk accUS o | .iabs o => vuOk accUS o
  | .popc o => vuOk accX o | .clz o => vuOk accX o | .ctz o => vuOk accX o | .brev o => vuOk accX o
  | .fabs o => vuOk accX o | .fneg o => vuOk accX o
  | .rcp o => vuOk accUR o | .rsq o => vuOk accUR o | .sqrt o => vuOk accUR o | .exp2 o => vuOk accUR o
  | .log2 o => vuOk accUR o | .sin o => vuOk accUR o | .cos o => vuOk accUR o
  | .flr o => vuOk accU o | .ceil o => vuOk accU o | .trunc o => vuOk accU o | .rnde o => vuOk accU o
  | .cvthf o => vuOk accX o | .cvtbf o => vuOk accX o | .cvtfh o => vuOk accURS o | .cvtfb o => vuOk accURS o
  | .ldg8 o => vmOk true false true false true o | .ldg8s o => vmOk true false true false true o
  | .ldg16 o => vmOk true false true false true o | .ldg16s o => vmOk true false true false true o
  | .ldg32 o => vmOk true false true false true o | .ldg64 o => vmOk true true true false true o
  | .stg8 o => vmOk true false false true true o | .stg16 o => vmOk true false false true true o
  | .stg32 o => vmOk true false false true true o | .stg64 o => vmOk true true false true true o
  | .ldgs o => vmOk true false false false true o | .atomg o => atomOk true o
  | .fence o => fenceOk o | .waitp o => uniformOk o.sx
  | .lds8 o => vmOk false false true false false o | .lds16 o => vmOk false false true false false o
  | .lds32 o => vmOk false false true false false o | .lds64 o => vmOk false true true false false o
  | .sts8 o => vmOk false false false true true o | .sts16 o => vmOk false false false true true o
  | .sts32 o => vmOk false false false true true o | .sts64 o => vmOk false true false true true o
  | .ldsC o => vmOk false false false false false o
  | .sfull o => lineOk o | .sempty o => lineOk o
  | .stag o => tagOk o | .stset o => stsetOk o | .stinv o => tagOk o && decide (o.vd = 0) | .atoms o => atomOk false o
  | .shfl o => v3Ok {} o | .shflup o => v3Ok {} o | .shfldn o => v3Ok {} o | .shflx o => v3Ok {} o | .bcast o => bcastOk o
  | .vany o => vuOk {} o | .vall o => vuOk {} o | .ballot o => ballotOk o
  | .scan o => scanOk o | .fscan o => fscanOk o | .red o => scanOk o && !o.ex | .fred o => fscanOk o && !o.ex
  | .mand o => vmaskOk o | .mor o => vmaskOk o | .regroup _ => true | .ungroup _ => true
  | .bru o => bruOk o | .brk o => brkOk o | .call _ disp => decide (disp.toNat % 4 = 0)
  | .ret sx lx => (isV sx || isK sx) && (!lx || isV sx)
  | .exit => true | .bar => true | .nbar sx _ => uniformOk sx | .kown => true | .kfree => true
  | .kwr _ sx lx => operandOk sx lx false
  | .twait scp sx tl lx => twaitOk scp sx tl lx | .yield => true
  | .veer _ sx => isK sx || decide (0x70 ≤ sx.toNat) || decide (sx.toNat = 0x67) | .veerMay _ => true
  | .trap _ => true | .bkpt => true | .tret _ => true
  | .pacq vd => decide (vd.toNat ≤ 61) | .prel => true | .pget vd => decide (vd.toNat ≤ 61) | .pdone => true
  | .clauseStart _ => true | .chunkPageIn _ _ => true | .loadReturn _ => true | .storeApplied _ => true
  | .atomicReturn _ => true | .ldgsComplete _ => true | .remoteAcknowledge _ _ => true | .coreMoveComplete _ _ => true
  | .idleCoreMove _ _ _ => true | .weftCease => true | .teamDispatch => true | .clusterPreemptStop => true
  | .imageSave => true | .imageRestore _ _ => true | .pageMigration _ _ _ _ => true | .homeSwitch _ _ => true
  | .pageWalk => true | .copyStep _ _ _ => true | .multicastHop _ _ _ => true | .weightLatch => true
  | .matrixStep => true | .quiescentStop => true | .drainWrite => true | .taskMigration _ _ _ => true
  | .cardDelivery _ => true | .pairCompare _ => true
  | .hend => true | .hpause => true | .uqpush _ => true | .uqtry _ _ => true | .tlrd _ _ tl => tlOk tl
  | .tlwait _ _ scp tl => decide (scp.toNat ≤ 5) && tlOk tl | .xfence ord scp => decide (ord ≠ 0) && decide (scp.toNat ≤ 5)
  | .hartLoad _ _ _ _ => true | .hartStore wd _ _ _ => decide (wd = .b) || decide (wd = .h) || decide (wd = .w) || decide (wd = .d)
  | .hartAmo _ _ _ _ _ _ _ => true | .lr _ _ _ _ _ => true | .sc _ _ _ _ _ _ => true | .hartFence _ _ _ => true
  | .fenceI => true | .wfi => true | .ecall => true | .ebreak => true | .csrAccess _ _ _ _ _ => true
  | .rv64Instruction op => rvOk op | .hartMemoryReturn => true | .mModeInterrupt => true
  | .mmulMap _ ra _ => mapRegOk ra | .mmulFeed _ _ _ => true | .mmulWest _ _ => true | .mldw _ ra _ => mapRegOk ra
  | .mdrain _ ra _ => mapRegOk ra | .mzero _ _ => true | .mstat _ => true | .mbegin _ _ => true | .mend _ => true
  | .mchain _ _ len pos => decide (len ≠ 0) && decide (pos ≤ len) | .tenq _ _ => true | .tsig _ _ => true | .tcard _ _ => true
  | .doorbell _ _ => true | .cconsWrite _ _ => true | .econsWrite _ _ => true | .rstctlReset _ => true
  | .registerWrite _ _ _ => true | .frameUnknownOpc _ => true | .queueReset _ => true | .map _ => true | .unmap _ => true
  | .protect _ => true | .place _ => true | .portBind _ => true | .objLoad _ => true | .objUnload _ => true
  | .launch _ => true | .gangLaunch _ => true | .taskEnq _ => true | .taskReplay _ => true | .taskCancel _ => true
  | .teamResume _ => true | .teamEnd _ => true | .pipeBind _ => true | .fenceCommand _ => true | .signal _ => true
  | .wait _ => true | .waitSatisfied _ => true | .partition _ => true | .functionReset _ => true | .resetScrub _ => true
  | .preempt _ => true | .resume _ => true | .checkpoint _ => true | .restore _ => true | .debugStop _ => true
  | .debugResume _ => true | .debugPlant _ => true | .debugRemove _ => true | .debugRead _ => true | .powerSet _ => true
  | .telemetrySet _ => true | .patchLoad _ => true | .attest _ => true
  | .eccCorrected _ => true | .eccUncorrectable _ => true | .unpoisonedStateError _ => true | .patrolScrub _ _ => true
  | .waitPeriodExpiry _ => true | .clusterPeriodCheck _ _ => true | .heartbeat _ _ _ => true | .selfReset => true
  | .functionTagDrop _ _ _ => true | .vaneSample _ => true | .telemetryRecord _ _ => true | .ptpSync _ => true
  | .ptpFollowUp _ => true | .ptpDelayResp _ _ => true | .ptpHoldover => true | .flitCheckFail => true
  | .weaveRequest _ => true | .undeliverableTimeout _ => true | .hostWindowAccess _ => true | .powerOn => true
  | .chunkEviction _ _ => true | .hartStoreApplied _ _ => true | .portTrainingComplete => true

end Sys2Proof.Machine
end

