-- ==== Sys2Proof/Machine/Ops.lean ====
section
/-! DEFINITION. The shared operations of the vector engine and of the control core: register allocation (07 R119 to R122), the
prologue and the end of a word, waits (02 R36), traps (07 R129, R130, 11 R201), terminations, page faults (03 R49), hart registers
and hart exceptions (15 R213, R217). -/

namespace Sys2Proof.Machine

open Sys2Proof

/-! ### Points and cores (02 R21) -/

/-- W at a point. -/
def widthOf (pt : BitVec 2) : Nat := if pt = 0 then 16 else if pt = 1 then 32 else 64

/-- Issue slots at a point. -/
def slotsOf (pt : BitVec 2) : Nat := if pt = 2 then 3 else 4

/-- A core of a cluster. -/
def getCore (s : State) (c i : Nat) : Core := spGet Core.reset (getCluster s c).cores i

/-- Change a core. -/
def updCore (s : State) (c i : Nat) (f : Core → Core) : State :=
  updCluster s c fun k => { k with cores := spSet Core.reset k.cores i (f (spGet Core.reset k.cores i)) }

/-- The point of a team. -/
def pointOf (s : State) (t : Team) : BitVec 2 := (getCore s t.place.cluster t.place.core).pt

/-- W of a team. -/
def teamWidth (s : State) (t : Team) : Nat := widthOf (pointOf s t)

/-- The core a strand lives on: SIDs from 1,024 live on the odd core of a pair (02 R19). -/
def Team.coreOf (t : Team) (sid : Nat) : Nat := t.place.core + (if t.place.pair && decide (1024 ≤ sid) then 1 else 0)

/-- The core of a weft: its strands', or where it has none left that of the strands it had. -/
def weftCore (t : Team) (w : Weft) : Nat :=
  match w.strands with
  | x :: _ => t.coreOf x.sid
  | [] => t.coreOf w.anchor

/-- A team runs on a core. -/
def Team.on (t : Team) (c core : Nat) : Bool :=
  decide (t.place.cluster = c) && (decide (t.place.core = core) || (t.place.pair && decide (t.place.core + 1 = core)))

/-- Teams with wefts on a core. -/
def teamsOn (s : State) (c core : Nat) : List Team := s.teams.filter fun t => t.on c core

/-! ### The register pool (06, 07 R119 to R122) -/

/-- Registers allocated in a weft. -/
def allocCount (a : BitVec 64) : Nat := ((upFrom 0 64).filter fun i => a.getLsbD i).length

/-- FLOOR of a team's object. -/
def floorOf (s : State) (t : Team) : Nat := match getObj s t.obj with | some o => o.decl.floor | none => 0

/-- Physical registers taken on a core: W × max(allocated, floor) for each weft (02 R26). -/
def regsTaken (s : State) (c core : Nat) : Nat :=
  (teamsOn s c core).foldl (fun a t =>
    let wd := teamWidth s t
    (t.wefts.filter fun w => weftCore t w = core).foldl (fun a w => a + wd * Nat.max (allocCount w.alloc) (floorOf s t)) a) 0

/-- Bits of a list of registers. -/
def regBits (l : List Nat) : BitVec 64 := l.foldl (fun a r => a ||| ((1 : BitVec 64) <<< r)) 0

/-- A weft may allocate the registers of a list at once: within the floor, or from the pool (07 R122). -/
def poolAllows (s : State) (t : Team) (w : Weft) (l : List Nat) : Bool :=
  let wd := teamWidth s t
  let n := allocCount (w.alloc ||| regBits l)
  let have' := Nat.max (allocCount w.alloc) (floorOf s t)
  decide (n ≤ have') || decide (regsTaken s t.place.cluster (weftCore t w) + wd * (n - have') ≤ 65536)

/-- Allocate registers: a new register holds 0 with poison clear (07 R120). -/
def Weft.allocate (w : Weft) (l : List Nat) : Weft := { w with alloc := w.alloc ||| regBits l }

/-- Free registers: their elements are gone in every strand (07 R121). -/
def Weft.release (w : Weft) (l : List Nat) : Weft :=
  { w with alloc := w.alloc &&& ~~~(regBits l),
           strands := w.strands.map fun x => { x with regs := l.foldl (fun m r => spDrop r m) x.regs } }

/-! ### Strands and masks (07 R123) -/

/-- The active strands. -/
def Weft.active' (w : Weft) : List Strand := w.strands.filter (·.em)

/-- The strand at a lane. -/
def Weft.at (w : Weft) (l : Nat) : Option Strand := w.strands.find? fun x => x.lane = l

/-- A weft bit-vector of strands that meet a test. -/
def Weft.bits (w : Weft) (p : Strand → Bool) : Nat := w.strands.foldl (fun a x => if p x then a + 2 ^ x.lane else a) 0

/-- em as a weft bit-vector. -/
def Weft.emBits (w : Weft) : Nat := w.bits (·.em)

/-- Mask i of a strand: em is 0, m1 to m7 follow (06 R107). -/
def Strand.mask (x : Strand) (i : Nat) : Bool := if i = 0 then x.em else x.m.getLsbD (i - 1)

/-- Write mask i of a strand. -/
def Strand.setMask (x : Strand) (i : Nat) (b : Bool) : Strand :=
  if i = 0 then { x with em := b }
  else { x with m := if b then x.m ||| ((1 : BitVec 7) <<< (i - 1)) else x.m &&& ~~~((1 : BitVec 7) <<< (i - 1)) }

/-! ### Text (06 R100, R101) -/

/-- The launch of a team. -/
def launchOf (s : State) (t : Team) : Option Launch := match t.ref with | .launch fn lid _ => getLaunch s fn lid | _ => none

/-- A launch's private copy of the chunk that a vector-text offset lies in (05 R86). -/
def copyAt (l : Launch) (o : Obj) (off : Nat) : Option PrivateCopy := l.copies.find? fun p => p.chunk = o.vbase + off / 4096

/-- The word of vector text that a weft fetches at a byte offset: its launch's private copy has BKPT at a planted word, and the weft fetches the
replaced word for the one execution that DEBUG.RESUME gives (05 R86, 23 R348). -/
def vtextWord (s : State) (t : Team) (w : Weft) (off : Nat) : Option W32 :=
  match getObj s t.obj with
  | none => none
  | some o =>
    if off % 4 ≠ 0 then none
    else match o.vtext[off / 4]? with
      | none => none
      | some x =>
        match launchOf s t with
        | some l => if w.once then some x else
          match copyAt l o off with
          | some p => p.words[off % 4096 / 4]?
          | none => some x
        | none => some x

/-- The header of a weft's clause. -/
def clauseHeader (s : State) (t : Team) (w : Weft) : W32 := (vtextWord s t w w.pos.clause).getD 0

/-- CNT of a header. -/
def headerCnt (h : W32) : Nat := (h.extractLsb' 0 4).toNat

/-- The byte offset of the word at a position. -/
def Pos.offset (p : Pos) : Nat := if p.started then p.clause + 4 * (1 + p.word) else p.clause

/-- The start of a clause. -/
def Pos.atClause (off : Nat) : Pos := { clause := off, word := 0, started := false }

/-- The position after n words of a clause of cnt words (11 R189). -/
def Pos.after (p : Pos) (cnt n : Nat) : Pos :=
  if p.word + n < cnt then { p with word := p.word + n } else Pos.atClause (p.clause + 4 * (1 + cnt))

/-! ### Waits and active sets (02 R36) -/

/-- Reasons of a retry wait. rearrive: a weft that was saved at a rendezvous is to arrive there again (02 R25, 09 R168). data: a read needs a
chunk of an object that is not resident (05 R85). remote: a task instruction has asked another module for the structure at an address, a request
that is lost where it cannot be delivered (19 R301, 26 R377). -/
inductive Why where
  | flags | registers | queue | path | timeline | line | kown | order | walk | channel | slot | record | chunk | yieldTurn | rearrive
  | data (obj chunk : Nat)
  | remote (addr : Nat) (lost : Bool)
  deriving DecidableEq, Repr

/-- The number of a reason. -/
def Why.code : Why → Nat
  | .flags => 1 | .registers => 2 | .queue => 3 | .path => 4 | .timeline => 5 | .line => 6 | .kown => 7 | .order => 8
  | .walk => 9 | .channel => 10 | .slot => 11 | .record => 12 | .chunk => 13 | .yieldTurn => 14 | .rearrive => 15
  | .data o i => 16 + 2 ^ 32 * o + i
  | .remote a l => 2 ^ 96 + 2 * a + ofBool l

/-- The wefts of a core's slot: team, weft. -/
def slotWefts (s : State) (c core slot : Nat) : List (Team × Weft) :=
  (teamsOn s c core).flatMap fun t =>
    (t.wefts.filter fun w => decide (w.slot = slot) && decide (weftCore t w = core)).map fun w => (t, w)

/-- A weft that was saved at a rendezvous is to arrive there again. -/
def Weft.rearrives (w : Weft) : Bool := decide (w.wait = .retry Why.rearrive.code)

/-- A wait goes on as another: it is the same, or a rendezvous at which the weft arrives again (25 R358). -/
def Weft.waitsOn (w : Weft) (wt : Wait) : Bool :=
  decide (w.wait = wt) || (w.rearrives && match wt with | .veer _ _ _ | .regroup _ _ _ _ | .retry _ => true | _ => false)

/-- Take a weft out of its active set; hold latches are discarded (06 R113), and each wait has a timer of its own (25 R358). -/
def swapOut (s : State) (tid wid : Nat) (wt : Wait) : State :=
  let (i, s) := takeId s
  updWeft s tid wid fun w =>
    { w with wait := wt, active := false, holds := [], readyAt := if w.waitsOn wt then w.readyAt else i,
             expiries := if w.waitsOn wt then w.expiries else 0 }

/-- The wait of a weft whose word does not issue yet: one that is to arrive again at a rendezvous stays so. -/
def Weft.retries (w : Weft) (y : Why) : Wait := if w.rearrives then w.wait else .retry y.code

/-- A word waits before issue and is tried again at the weft's next turn. DESIGN CHOICE (log entry 101): such a wait ends at the turn at which
the weft finds its word free to go on, so that the order in which waiting wefts become ready is that of their turns. Safe: every order of turns
is allowed. -/
def retryWord (s : State) (tid wid : Nat) (y : Why) : Result :=
  .next (swapOut s tid wid (match (getTeam s tid).bind (·.weft? wid) with | some w => w.retries y | none => .retry y.code))

/-- Room in a weft's active set of 8. -/
def activeRoom (s : State) (t : Team) (w : Weft) : Bool :=
  decide (((slotWefts s t.place.cluster (weftCore t w) w.slot).filter fun x => x.2.active).length < 8)

/-- A pending weft may enter: there is room, and no pending weft of its slot became ready before it. -/
def mayEnter (s : State) (t : Team) (w : Weft) : Bool :=
  activeRoom s t w &&
  (slotWefts s t.place.cluster (weftCore t w) w.slot).all fun x =>
    x.2.active || decide (x.2.wait ≠ .none) || decide (w.readyAt ≤ x.2.readyAt)

/-- Another pending weft of the slot is ready. -/
def pendingReady (s : State) (t : Team) (w : Weft) : Bool :=
  (slotWefts s t.place.cluster (weftCore t w) w.slot).any fun x =>
    !x.2.active && decide (x.2.wait = .none) && !(decide (x.1.tid = t.tid) && decide (x.2.wid = w.wid))

/-- A weft's wait is over: it is ready now, and active where its set has room and no pending weft was ready before it (02 R36). -/
def wake (s : State) (tid wid : Nat) : State :=
  match getTeam s tid with
  | none => s
  | some t => match t.weft? wid with
    | none => s
    | some w =>
      if w.wait = .none then s
      else
        let room := w.active || (activeRoom s t w && !pendingReady s t w)
        let (i, s) := takeId s
        updWeft s tid wid fun w => { w with wait := .none, expiries := 0, active := room, readyAt := i }

/-- A weft that waits outside its active set for a word or a header to go on: its turn only finds out whether it may (02 R36). A held
scratchpad load is served where it is (10 R179), and one that was saved at a rendezvous arrives there where it is (02 R25). -/
def Weft.polls (w : Weft) : Bool :=
  !w.active && match w.wait with | .retry k => decide (k ≠ Why.line.code) && decide (k ≠ Why.rearrive.code) | _ => false

/-- A weft still waits to go on in an answer. -/
def stillWaits (r : Result) (tid wid : Nat) : Bool :=
  match r with
  | .next s => match (getTeam s tid).bind (·.weft? wid) with
    | some w => match w.wait with | .retry _ => true | _ => false
    | none => false
  | _ => false

/-- The answer to a weft's turn: one that waits outside its active set, and need not wait any more, becomes ready and goes on when it is
active; r is what its word or header would do now. -/
def pollOr (s : State) (t : Team) (w : Weft) (r : Result) : Result :=
  if w.polls && !stillWaits r t.tid w.wid then .next (wake s t.tid w.wid) else r

/-! ### Ends and traps of wefts -/

/-- POISONED: the whole team ends (25 R355). core: that of the agent, from the team's first. -/
def poisonedEnd (s : State) (tid : Nat) (pc lanes core : Nat) : State :=
  endTeam s tid { EndCause.silent with entry := some { kind := 0x10, cause := 9, pc := pc, lanes := lanes, core := core }, cause := 9, mayReplay := false }

/-- The core of a weft, from its team's first (23 R343). -/
def coreIndex (s : State) (t : Team) (w : Weft) : Nat := weftCore t w - t.place.core

/-- XPC of a word at a position (07 R129). -/
def Pos.xpc (p : Pos) : Nat := 2 ^ 32 * p.clause + p.offset

/-- POISONED at a weft's word. -/
def poisonWord (s : State) (t : Team) (w : Weft) (lanes : Nat) : Result := .next (poisonedEnd s t.tid w.pos.xpc lanes (coreIndex s t w))

/-- The handler of a cause: its own entry or the default entry (05 R88). -/
def handlerOf (o : Obj) (cause : Nat) : Option Nat :=
  match o.traps.find? fun e => e.1 = cause with
  | some e => some e.2
  | none => (o.traps.find? fun e => e.1 = 0xFFFF).map (·.2)

/-- The trap record in v57 to v63 (11 R201). -/
def trapRecord (x : Strand) (cause : W32) (clause word info mask : Nat) : Strand :=
  [(57, cause), (58, BitVec.ofNat 32 word), (59, BitVec.ofNat 32 clause), (60, BitVec.ofNat 32 info),
   (61, BitVec.ofNat 32 (info / 2 ^ 32)), (62, BitVec.ofNat 32 mask), (63, BitVec.ofNat 32 (mask / 2 ^ 32))].foldl
    (fun (x : Strand) e => x.setReg e.1 { val := e.2, poison := false }) x

/-- A trap that the program handler takes, at clause and word offsets: the trap registers and record are written and the weft
goes to its handler; while a trap is being handled, or without a handler, the team ends (07 R129, 05 R88, 11 R201). DESIGN CHOICE (log entry 90): a
trap met while another is being handled is reported as one without a handler is, with its own code. -/
def trapAt (s : State) (t : Team) (w : Weft) (cause reason info mask clause word : Nat) : Result :=
  let pc := 2 ^ 32 * clause + word
  let ended : State := endTeam s t.tid
    { EndCause.silent with
      entry := some { kind := 0x10, cause := cause, reason := reason, addr := info, pc := pc, lanes := mask,
                      core := coreIndex s t w },
      cause := cause, reason := reason, addr := info }
  if w.trap.xv then .next ended
  else
    match (getObj s t.obj).bind (handlerOf · cause) with
    | none => .next ended
    | some entry =>
      if !poolAllows s t w [57, 58, 59, 60, 61, 62, 63] then retryWord s t.tid w.wid .registers
      else
        let s := wake s t.tid w.wid
        let tr : TrapRegs := { clause := BitVec.ofNat 32 clause, word := BitVec.ofNat 32 word, xv := true, mem := BitVec.ofNat 4 reason,
                               cause := BitVec.ofNat 16 cause, info := BitVec.ofNat 64 info, mask := BitVec.ofNat 64 mask }
        let xc : W32 := BitVec.ofNat 32 (2 ^ 31 + 65536 * reason + cause)
        .next (updWeft s t.tid w.wid fun w =>
          let w := w.allocate [57, 58, 59, 60, 61, 62, 63]
          { w with trap := tr, holds := [], pos := Pos.atClause entry, once := false,
                   strands := w.strands.map fun x => trapRecord x xc clause word info mask })

/-- A trap at the weft's current word. -/
def trapWord (s : State) (t : Team) (w : Weft) (cause reason info mask : Nat) : Result :=
  trapAt s t w cause reason info mask w.pos.clause w.pos.offset

/-- ILLEGAL at the current word: raised by the weft as a whole, so XMASK equals em (06 R117, 07 R129). -/
def illegalWord (s : State) (t : Team) (w : Weft) : Result := trapWord s t w 1 0 0 w.emBits

/-- The other member of a redundant pair has taken a page fault: this one waits at its own access until that is repaired (25 R363). -/
def partnerFaults (s : State) (t : Team) : Bool :=
  match t.partner.bind (getTeam s) with
  | some p => match p.held with | some (.weftFault _ _) | some (.hartFault _) => true | _ => false
  | none => false

/-- A PAGEFAULT of a weft: the trap discards its hold latches (06 R113); the Loom maps an on-demand page and the word is tried again; otherwise
it is reported and the team is held (03 R49); a redundant pair takes it once (25 R363). -/
def pageFaultWord (s : State) (t : Team) (w : Weft) (va mask : Nat) : Result :=
  match mapOnDemand s t.fn va with
  | some s => .next (updWeft s t.tid w.wid fun w => { w with holds := [] })
  | none => if partnerFaults s t then retryWord s t.tid w.wid .order else
    let e : Entry := { kind := 0x13, cause := 8, reason := 3, replayable := t.replayable, heldTeam := true, addr := va, pc := w.pos.xpc, lanes := mask,
                       core := coreIndex s t w }
    let s := if t.held.isSome then s else report s t e
    let s := updTeam s t.tid fun t => { t with held := some (t.held.getD (.weftFault w.wid va)) }
    .next (swapOut s t.tid w.wid .pageFault)

/-- The trap of a memory reason code (03 R49). -/
def memTrap (s : State) (t : Team) (w : Weft) (code info mask : Nat) : Result :=
  match code with
  | 3 => pageFaultWord s t w info mask
  | 6 => trapWord s t w 5 6 info mask
  | c => trapWord s t w 6 c info mask

/-! ### The prologue and the end of a word (06 R102, R103, R106, R113) -/

/-- What a word names: source codes, v registers read, last-read registers, registers held, v destinations, words. -/
structure Uses where
  codes : List (BitVec 7)
  frees : List Nat
  holds : List Nat
  dests : List Nat
  len : Nat
  deriving DecidableEq, Repr

/-- A word of some words that names no register and no source. -/
def usesNone (len : Nat) : Uses := { codes := [], frees := [], holds := [], dests := [], len := len }

/-- A weft that executes a word: the state after the prologue, the team and weft in it, W, the k registers as this weft reads
them, and the uniform-queue entry at its read position. -/
structure VCtx where
  s : State
  t : Team
  w : Weft
  wd : Nat
  k : List W32
  qh : W64

/-- The k registers as a weft reads them: its own writes at once; of another weft's writes that it need not see yet, the old or
the new value, freely (07 R126). -/
def kView (s : State) (t : Team) (w : Weft) : List W32 × State :=
  t.uni.kpend.foldl (fun acc e =>
    if w.strands.any fun x => e.2.2.contains x.sid then acc
    else
      let (c, s) := takeFree acc.2
      (if c % 2 = 0 then updAt (fun _ => e.2.1) e.1 acc.1 else acc.1, s)) (t.uni.k, s)

/-- For every element of an outstanding operation of the weft that returns into one of these registers: it may have returned
already (06 R103). -/
def mayLand (s : State) (t : Team) (w : Weft) (regs : List Nat) : State :=
  (weftOps s t.tid w.wid).foldl (fun s o =>
    if o.dests.any regs.contains then
      (upFrom 0 o.accs.length).foldl (fun s i =>
        let (c, s) := takeFree s
        if c % 2 = 0 then landElem (performElem s o.id i) o.id i else s) s
    else s) s

/-- Registers that are last-read while a result for them is in flight: the result is discarded (06 R103). -/
def discardInFlight (s : State) (t : Team) (w : Weft) (frees : List Nat) : State :=
  { s with vops := s.vops.map fun o =>
      if o.tid = t.tid && o.owners.contains w.wid && o.dests.any frees.contains then
        { o with discard := o.discard ++ (w.strands.flatMap fun x => (o.dests.filter frees.contains).map fun r => (x.sid, r)) }
      else o }

/-- The v register of a source code. -/
def vReg (c : BitVec 7) : Option Nat := if c.toNat < 64 then some c.toNat else none

/-- The current agent's team and weft; a word that no weft executes stops the machine. -/
def withWeft (s : State) (f : Team → Weft → Result) : Result :=
  match s.cur with
  | .weft tid wid =>
    match getTeam s tid with
    | some t => match t.weft? wid with
      | some w => f t w
      | none => .fault .noAgent
    | none => .fault .noAgent
  | _ => .fault .noAgent

/-- Words introduced in Parfen 3.2 (09 R156, 11 R188, 21 R319). -/
def needs32 : Instr → Bool
  | .regroup _ | .ungroup _ | .veer _ _ | .veerMay _ | .pacq _ | .pget _ | .prel | .pdone => true
  | _ => false

/-- The word is newer than the version that the team's object requires (05 R78). -/
def tooNew (i : Instr) (s : State) (t : Team) : Bool :=
  needs32 i && match getObj s t.obj with | some o => decide (o.vmin < 2) | none => false

/-- The prologue of a word that issues: results in flight may have landed, the k registers are read as the weft sees them, and
the queue entry at the weft's read position is at hand (06 R103, 07 R126, R127). -/
def prologue (s : State) (t : Team) (w : Weft) (u : Uses) : Option VCtx :=
  let v := kView (mayLand s t w (u.codes.filterMap vReg ++ u.frees ++ u.dests)) t w
  match getTeam v.2 t.tid with
  | none => none
  | some t => match t.weft? w.wid with
    | none => none
    | some w => some { s := v.2, t := t, w := w, wd := teamWidth v.2 t, k := v.1, qh := spGet 0 t.uni.uq (w.rpos.toNat % 64) }

/-- The word may issue: its encoding is an instruction of the object's version, an entry is there where it reads the uniform
queue, and the registers it writes are allocated or can be (06 R117, 07 R122, R127). -/
def issues (i : Instr) (s : State) (t : Team) (w : Weft) (u : Uses) : Bool :=
  legal i && !tooNew i s t && !(u.codes.contains 0x60 && decide (w.rpos = t.uni.tail)) && poolAllows s t w u.dests

/-- Execute a word: its encoding is checked; an empty uniform queue and missing registers make it wait before issue. -/
def runWord (i : Instr) (s : State) (u : Uses) (body : VCtx → Result) : Result :=
  withWeft s fun t w => pollOr s t w <|
    if !legal i || tooNew i s t then illegalWord s t w
    else if u.codes.contains 0x60 && w.rpos = t.uni.tail then retryWord s t.tid w.wid .queue
    else if !poolAllows s t w u.dests then retryWord s t.tid w.wid .registers
    else
      match prologue s t w u with
      | none => .fault .noAgent
      | some c => body c

/-- A weft reads entry RPOS and advances; the read acquires at team scope (07 R127, 15 R230). -/
def takeEntry (s : State) (tid wid : Nat) : State :=
  match getTeam s tid with
  | none => s
  | some t => match t.weft? wid with
    | none => s
    | some w =>
      updWeft (acquireIds s t w.keys (spGet [] t.uni.uqRel (w.rpos.toNat % 64))) tid wid fun w => { w with rpos := w.rpos + 1 }

/-- A weft goes on at a position; at a clause's end the header's YLD swaps it out where a pending weft is ready (06 R100,
02 R36). -/
def goTo (s : State) (tid wid : Nat) (p : Pos) : State :=
  match getTeam s tid with
  | none => s
  | some t => match t.weft? wid with
    | none => s
    | some w =>
      let h := clauseHeader s t w
      let s := updWeft s tid wid fun w => { w with pos := p, once := false }
      if !p.started && h.getLsbD 27 && pendingReady s t w then
        let (i, s) := takeId s
        updWeft s tid wid fun w => { w with active := false, holds := [], readyAt := i }
      else s

/-- The position after a word of n words (11 R189). -/
def followPos (s : State) (t : Team) (w : Weft) (n : Nat) : Pos := w.pos.after (headerCnt (clauseHeader s t w)) n

/-- A weft goes on after a word of n words. -/
def stepOver (s : State) (tid wid n : Nat) : State :=
  match getTeam s tid with
  | none => s
  | some t => match t.weft? wid with
    | none => s
    | some w => goTo s tid wid (followPos s t w n)

/-- Finish a word but for the weft's position: destinations are allocated, f writes the weft's results, last-read registers are
freed, the queue entry is taken. s: the state, which may hold the word's other effects. -/
def settleWord (s : State) (tid wid : Nat) (u : Uses) (f : Weft → Weft) : State :=
  let frees := u.frees.filter fun r => !u.dests.contains r
  let s := if u.codes.contains 0x60 then takeEntry s tid wid else s
  let s := match getTeam s tid with
    | some t => match t.weft? wid with | some w => discardInFlight s t w frees | none => s
    | none => s
  let s := updWeft s tid wid fun w =>
    let w := (f (w.allocate u.dests)).release frees
    { w with holds := w.holds.filter (fun r => !frees.contains r) ++ u.holds }
  wake s tid wid

/-- Finish a word: the weft goes on to the next word. -/
def finishWord (s : State) (tid wid : Nat) (u : Uses) (f : Weft → Weft) : State :=
  stepOver (settleWord s tid wid u f) tid wid u.len

/-- Finish a branch: the weft goes on at a clause. -/
def finishAt (s : State) (tid wid : Nat) (u : Uses) (f : Weft → Weft) (clause : Nat) : State :=
  goTo (settleWord s tid wid u f) tid wid (Pos.atClause clause)

/-- Finish the word of a context. -/
def VCtx.done (c : VCtx) (u : Uses) (f : Weft → Weft) : Result := .next (finishWord c.s c.t.tid c.w.wid u f)

/-- Write register elements: for each active strand, registers and elements. -/
def writeStrands (g : Strand → List (Nat × Elem)) (w : Weft) : Weft :=
  { w with strands := w.strands.map fun x => if x.em then (g x).foldl (fun (x : Strand) e => x.setReg e.1 e.2) x else x }

/-! ### Harts (15 R213, R217, R220) -/

/-- The Loom's M-mode work on a hart of a cluster, as a team: it holds the system context with sys0 and sys1, and the whole physical
scratchpad (15 R223, 17 R263, R278). -/
def machineTeam (s : State) (tid c n : Nat) : Team :=
  { tid := tid, ref := .loom, fn := 0, secure := false, cls := 4, obj := 0, nstr := 0, queue := 0,
    place := { cluster := c, core := 0, pair := false, scrBase := 0, scrSize := 2 ^ 20, ctx := some 4, acc := 2, accBase := 64 },
    uni := { k := [], kpend := [], kowner := none, krel := [], uq := [], uqRel := [], tail := 0 }, paths := [], nbars := [], tags := [],
    wefts := [], hart := some { (spGet (Hart.reset, none) (getCluster s c).machine n).1 with num := n }, held := none, stopped := false,
    commit := false, deferred := [], partner := none, visible := [], pairLoads := [], hists := [], start := [] }

/-- The key of the reservation that M-mode code holds on a hart, apart from those of teams (15 R216). -/
def machineKey (t : Team) : Nat := 2 ^ 64 + 16 * t.place.cluster + match t.hart with | some h => h.num | none => 0

/-- A team does the Loom's work in M-mode. -/
def Team.inM (t : Team) : Bool := decide (t.ref = .loom)

/-- Keep what an instruction of the Loom's M-mode code has left in its hart; one that waits is held at its instruction. -/
def dropMachine (s : State) (tid c n : Nat) : State :=
  match (getTeam s tid).bind (·.hart) with
  | none => s
  | some h =>
    let keep (e : Hart × Option Instr) : Hart × Option Instr :=
      match h.wait with
      | .none => (h, none)
      | _ => ({ h with wait := .none }, e.2)
    updCluster { s with teams := s.teams.filter fun t => t.tid ≠ tid } c fun k =>
      { k with machine := spSet (Hart.reset, none) k.machine n (keep (spGet (Hart.reset, none) k.machine n)) }

/-- The Loom's M-mode code executes one instruction on a hart that no team has (15 R223). -/
def asMachine (s : State) (c n : Nat) (f : State → Team → Hart → Result) : Result :=
  if (s.teams.any fun t => decide (t.place.cluster = c) && match t.hart with | some h => decide (h.num = n) | none => false) then
    .fault .noAgent
  else
    let (tid, s) := takeId s
    let t := machineTeam s tid c n
    match t.hart with
    | none => .fault .noAgent
    | some h => match f { s with teams := s.teams ++ [t] } t h with
      | .next s => .next (dropMachine s tid c n)
      | r => r

/-- The hart that executes: a team's in U-mode, or one that the Loom uses in M-mode. -/
def withHart (s : State) (f : State → Team → Hart → Result) : Result :=
  match s.cur with
  | .hart tid =>
    match getTeam s tid with
    | some t => match t.hart with
      | some h => f s t h
      | none => .fault .noAgent
    | none => .fault .noAgent
  | .machine c n => asMachine s c n f
  | _ => .fault .noAgent

/-- The instructions of the Loom's M-mode code whose effects the spec gives: those on registers and CSRs, on the system context and its
timeline, and on memory (15 R211, R223, R231, 17 R278), and those that M-mode may not use (19 R301, 23). What the instructions of a team's
hart, UQPUSH, UQTRY, HEND and HPAUSE, do there, the spec leaves out (log entry 73). -/
def machineRuns : Instr → Bool
  | .rv64Instruction _ | .csrAccess _ _ _ _ _ | .fenceI | .wfi | .ecall | .ebreak | .tlrd _ _ _ | .tlwait _ _ _ _ | .mldw _ _ _
  | .mmulMap _ _ _ | .mmulFeed _ _ _ | .mmulWest _ _ | .mdrain _ _ _ | .mzero _ _ | .mstat _ | .mbegin _ _ | .mend _ | .mchain _ _ _ _
  | .tenq _ _ | .tsig _ _ | .tcard _ _ | .hartFence _ _ _ | .xfence _ _ | .hartLoad _ _ _ _ | .hartStore _ _ _ _
  | .hartAmo _ _ _ _ _ _ _ | .lr _ _ _ _ _ | .sc _ _ _ _ _ _ => true
  | _ => false

/-- An x register; x0 reads 0. -/
def Hart.rd (h : Hart) (r : BitVec 5) : W64 := if r = 0 then 0 else nthD 0 h.x r.toNat

/-- The poison bit of an x register; x0 has none. -/
def Hart.pd (h : Hart) (r : BitVec 5) : Bool := r ≠ 0 && h.pois.getLsbD r.toNat

/-- Write an x register and its poison bit; x0 discards. -/
def Hart.wr (h : Hart) (r : BitVec 5) (v : W64) (p : Bool) : Hart :=
  if r = 0 then h
  else { h with x := updAt (fun _ => v) r.toNat h.x,
                pois := if p then h.pois ||| ((1 : BitVec 32) <<< r.toNat) else h.pois &&& ~~~((1 : BitVec 32) <<< r.toNat) }

/-- Retire an instruction: the pc moves, instret and cycle advance; a turn lasts one clock or more (15 R212, R220). -/
def retire (s : State) (tid : Nat) (pc : W64) (f : Hart → Hart) : State :=
  let (c, s) := takeFree s
  updHart s tid fun h =>
    let h := f h
    { h with pc := pc, instret := h.instret + 1, cycle := h.cycle + 1 + BitVec.ofNat 64 c, wait := .none, expiries := 0 }

/-- Retire an instruction and go on to the next. -/
def retireNext (s : State) (t : Team) (h : Hart) (f : Hart → Hart) : Result := .next (retire s t.tid (h.pc + 4) f)

/-- A hart waits. Each wait has a timer of its own (25 R358). -/
def hartWait (s : State) (t : Team) (w : HWait) : Result :=
  .next (updHart s t.tid fun h => { h with wait := w, expiries := if h.wait = w then h.expiries else 0 })

/-- A hart waits; its instruction is tried again at its next turn. -/
def hartRetry (s : State) (t : Team) (y : Why) : Result := hartWait s t (.retry y.code)

/-- CAUSE of a hart exception (15 R213). code 0: no trap is named. -/
def hartCause (mcause code : Nat) : Nat := if code = 0 then 0x8000 + mcause else code

/-- Enter the Loom: mepc, mcause and mtval are set, and a reservation is lost (15 R213, R216). -/
def enterLoom (s : State) (t : Team) (mcause mtval : Nat) : State :=
  updHart (setResv s t.die (if t.inM then machineKey t else t.tid) none) t.tid fun h =>
    { h with mepc := h.pc, mcause := BitVec.ofNat 64 mcause, mtval := BitVec.ofNat 64 mtval }

/-- mstatus once an exception of M-mode code has been taken: MPIE holds MIE, MIE is 0 and MPP is M (15 R211). -/
def trapStatus (v : W64) : W64 := (v &&& ~~~(0x1888 : W64)) ||| ((v <<< 4) &&& 0x80) ||| 0x1800

/-- mstatus after MRET: MIE holds MPIE, MPIE is 1 and MPP is U; a return to another mode than M clears MPRV (15 R211). -/
def returnStatus (v : W64) : W64 :=
  let v' := (v &&& ~~~(0x1888 : W64)) ||| ((v >>> 4) &&& 8) ||| 0x80
  if v &&& 0x1800 = 0x1800 then v' else v' &&& ~~~(0x20000 : W64)

/-- An exception that a hart takes in U-mode, and its fate in the Loom (15 R213). code and reason: the trap that it is reported
as; mismatch: a chunk that failed its second hash. A task's replay follows 19 R299, to which R213 leaves it, and not the table's
'non-replayable' (log entry 74). One that the Loom's own code takes goes to its handler and ends no team (17 R263; log entry 73). -/
def hartException (s : State) (t : Team) (h : Hart) (mcause mtval code reason : Nat) (mismatch : Bool) : Result :=
  let s := enterLoom s t mcause mtval
  let cause := hartCause mcause code
  if t.inM then .next (updHart s t.tid fun h =>
    { h with pc := spGet 0 h.csrs 0x305 &&& ~~~3, csrs := spSet 0 h.csrs 0x300 (trapStatus (spGet 0 h.csrs 0x300)) })
  else if mcause = 3 then
    let s := report s t { kind := 0x14, cause := 0x0A, heldTeam := true, pc := h.pc.toNat }
    let s := updHart s t.tid fun h => { h with wait := .bkpt }
    .next (updTeam s t.tid fun t => { t with held := some .breakpoint })
  else if mcause = 13 || mcause = 15 then
    match mapOnDemand s t.fn mtval with
    | some s => .next s
    | none => if partnerFaults s t then hartRetry s t .order else
      let s := if t.held.isSome then s
        else report s t { kind := 0x13, cause := cause, reason := reason, replayable := t.replayable, heldTeam := true, addr := mtval, pc := h.pc.toNat }
      let s := updHart s t.tid fun h => { h with wait := .fault }
      .next (updTeam s t.tid fun t => { t with held := some (t.held.getD (.hartFault mtval)) })
  else
    .next (endTeam s t.tid
      { EndCause.silent with
        entry := some { kind := if mismatch then 0x17 else 0x11, cause := cause, reason := reason, addr := mtval, pc := h.pc.toNat },
        cause := cause, reason := reason, addr := mtval, mayReplay := !mismatch })

/-- The illegal-instruction exception: reported as ILLEGAL (15 R213, R227). -/
def hartIllegal (s : State) (t : Team) (h : Hart) (mtval : Nat) : Result := hartException s t h 2 mtval 1 0 false

/-- POISONED at a hart's instruction: the team ends (15 R217). -/
def poisonHart (s : State) (t : Team) (h : Hart) : Result := .next (poisonedEnd s t.tid h.pc.toNat 0 0)

/-- The exception of a memory reason code of a hart access: mcause 4 to 7, 13 or 15 (15 R213). -/
def hartMemFault (s : State) (t : Team) (h : Hart) (store : Bool) (code : Nat) (addr : W64) : Result :=
  let st (l r : Nat) : Nat := if store then r else l
  match code with
  | 2 => hartException s t h (st 4 6) addr.toNat 6 2 false
  | 3 => hartException s t h (st 13 15) addr.toNat 8 3 false
  | c => hartException s t h (st 5 7) addr.toNat 6 c false

/-- A hart still waits for its instruction to go on in an answer. -/
def hartStillWaits (r : Result) (tid : Nat) : Bool :=
  match r with
  | .next s => match (getTeam s tid).bind (·.hart) with
    | some h => match h.wait with | .retry _ | .hend => true | _ => false
    | none => false
  | _ => false

/-- A hart waits for a structure that a task instruction has asked another module for: with the answer the instruction goes on (19 R301). -/
def HWait.asked : HWait → Bool
  | .retry k => decide (2 ^ 96 ≤ k)
  | _ => false

/-- The answer to the turn of a hart that waits to go on: it only finds out whether it may, and where it may it is ready and issues at its
place in the round robin (15 R220); r is what its instruction would do now. -/
def hartPoll (s : State) (t : Team) (h : Hart) (r : Result) : Result :=
  match h.wait with
  | .retry _ | .hend => if hartStillWaits r t.tid || h.wait.asked then r else .next (updHart s t.tid fun h => { h with wait := .none, expiries := 0 })
  | _ => r

/-- Execute a hart instruction of Xpfn or of RV64: its encoding is checked first. -/
def runHart (i : Instr) (s : State) (body : State → Team → Hart → Result) : Result :=
  withHart s fun s t h => hartPoll s t h <|
    if t.inM && !machineRuns i then .fault .noAgent else if legal i then body s t h else hartIllegal s t h 0

end Sys2Proof.Machine
end

