-- ==== Sys2Proof/Machine/Operands.lean ====
section
/-! DEFINITION. Operand forms of the vector engine: source codes (06 R106), the cross-lane fetch (R118), negation (R108), 64-bit
values and addresses (10 R169, R170), and the shared shapes of register words (08 R133 to R135). -/

namespace Sys2Proof.Machine

open Sys2Proof

/-- How a source is read (08 R133). -/
inductive Kind where
  | i | f | h | b
  deriving DecidableEq, Repr

/-- An integer as a source of a kind delivers it (06 R106). -/
def constOf (k : Kind) (n : Int) : W32 :=
  let v := valOfInt false n 0
  match k with
  | .i => BitVec.ofInt 32 n
  | .f => BitVec.ofNat 32 (convertF fp32 0 false false v)
  | .h => BitVec.ofNat 32 (convertF fp16 0 false false v * 65537)
  | .b => BitVec.ofNat 32 (convertF bf16 0 false false v * 65537)

/-- The integer of an inline code. -/
def inlineInt (c : BitVec 7) : Int := (c.extractLsb' 0 4).toInt

/-- Execution identity of a strand (02 R18). -/
def identity (c : VCtx) (code : Nat) (x : Strand) : Nat :=
  match code with
  | 0x61 => x.sid
  | 0x62 => x.lane
  | 0x63 => c.w.wid
  | 0x64 => c.t.ref.number
  | 0x65 => c.t.nstr
  | 0x66 => c.wd
  | _ => (pointOf c.s c.t).toNat

/-- rd: the value and poison bit of a 32-bit source (06 R106, R118). -/
def VCtx.rd (c : VCtx) (k : Kind) (code : BitVec 7) (x : Strand) : Elem :=
  let n := code.toNat
  if n < 0x40 then x.reg n
  else if n < 0x60 then { val := nthD 0 c.k (n - 0x40), poison := false }
  else if n = 0x60 then { val := c.qh.setWidth 32, poison := false }
  else if n < 0x68 then { val := BitVec.ofNat 32 (identity c n x), poison := false }
  else if n < 0x70 then { val := 0, poison := false }
  else { val := constOf k (inlineInt code), poison := false }

/-- The modifier word of a word without one (06 R108). -/
def Mods.none : Mods := { sz := 0, lz := false, hz := false, xm := 0, xk := 0, rm := 0, sat := false, nx := false, ny := false }

/-- The lane that a cross-lane mode names for a lane, where it lies in the weft (06 R118). -/
def crossLane (m : Mods) (wd l : Nat) : Option Nat :=
  let k := m.xk.toNat
  match m.xm.toNat with
  | 1 => if k ≤ l then some (l - k) else Option.none
  | 2 => if l + k < wd then some (l + k) else Option.none
  | 3 => if l ^^^ k < wd then some (l ^^^ k) else Option.none
  | 4 => if k < wd then some k else Option.none
  | 5 => some ((l + k) % wd)
  | _ => some l

/-- xsrc: SX under the cross-lane mode (06 R118). -/
def VCtx.xsrc (c : VCtx) (m : Mods) (k : Kind) (code : BitVec 7) (x : Strand) : Elem :=
  if m.xm = 0 then c.rd k code x
  else
    match (crossLane m c.wd x.lane).bind c.w.at with
    | some y => c.rd k code y
    | Option.none => Elem.zero

/-- Negation under NX or NY (06 R108). -/
def negateAs (k : Kind) (e : Elem) : Elem :=
  match k with
  | .i => { e with val := -e.val }
  | .f => { e with val := e.val ^^^ 0x80000000 }
  | .h | .b => { e with val := e.val ^^^ 0x80008000 }

/-- SX after the cross-lane fetch and negation. -/
def VCtx.srcX (c : VCtx) (m : Mods) (k : Kind) (code : BitVec 7) (x : Strand) : Elem :=
  if m.nx then negateAs k (c.xsrc m k code x) else c.xsrc m k code x

/-- SY after negation. -/
def VCtx.srcY (c : VCtx) (m : Mods) (k : Kind) (code : BitVec 7) (x : Strand) : Elem :=
  if m.ny then negateAs k (c.rd k code x) else c.rd k code x

/-- The 64-bit reading of a source and its poison bit (10 R169). -/
def VCtx.rd64 (c : VCtx) (code : BitVec 7) (x : Strand) : W64 × Bool :=
  let n := code.toNat
  if n < 0x40 then
    let lo := x.reg n
    let hi := x.reg (n + 1)
    (hi.val.setWidth 64 <<< 32 ||| lo.val.setWidth 64, lo.poison || hi.poison)
  else if n < 0x60 then ((nthD 0 c.k (n - 0x3F)).setWidth 64 <<< 32 ||| (nthD 0 c.k (n - 0x40)).setWidth 64, false)
  else if n = 0x60 then (c.qh, false)
  else if n < 0x68 then (BitVec.ofNat 64 (identity c n x), false)
  else if n < 0x70 then (0, false)
  else (BitVec.ofInt 64 (inlineInt code), false)

/-- The registers of a 64-bit reading (10 R169). -/
def wideRegs (code : BitVec 7) : List Nat := if code.toNat < 0x40 then [code.toNat, code.toNat + 1] else []

/-- The codes of a 64-bit reading, for the prologue. -/
def wideCodes (code : BitVec 7) : List (BitVec 7) := if code.toNat < 0x3F then [code, code + 1] else [code]

/-- The register of a last-read or hold bit. -/
def markReg (code : BitVec 7) (b : Bool) : List Nat := if b && code.toNat < 0x40 then [code.toNat] else []

/-! ### Shapes of register words -/

/-- Words of a V3 or VU word. -/
def wordsOf (e : Option Mods) : Nat := match e with | some _ => 2 | none => 1

/-- What a V3 word names. z: the member reads SZ (08 R134); dests: its destinations. -/
def usesV3 (o : V3) (z : Bool) (dests : List Nat) : Uses :=
  let m := o.ext.getD Mods.none
  { codes := [o.sx, o.sy] ++ (if z then [m.sz] else []),
    frees := markReg o.sx o.lx ++ markReg o.sy o.ly ++ (if z then markReg m.sz m.lz else []),
    holds := markReg o.sx o.hx ++ markReg o.sy o.hy ++ (if z then markReg m.sz m.hz else []),
    dests := dests, len := wordsOf o.ext }

/-- What a one-source word names. -/
def usesVU (o : VU) (dests : List Nat) : Uses :=
  { codes := [o.sx], frees := markReg o.sx o.lx, holds := markReg o.sx o.hx, dests := dests, len := wordsOf o.ext }

/-- The skeleton of a word with two or three sources: for each active strand the result of op with the OR of the sources' poison
(06 R118, 08 R135). -/
def aluWord (i : Instr) (o : V3) (z : Bool) (k : Kind) (op : Mods → W32 → W32 → W32 → W32) (s : State) : Result :=
  let m := o.ext.getD Mods.none
  let u := usesV3 o z [o.vd.toNat]
  runWord i s u fun c =>
    c.done u (writeStrands fun x =>
      let a := c.srcX m k o.sx x
      let b := c.srcY m k o.sy x
      let d := if z then c.rd k m.sz x else Elem.zero
      [(o.vd.toNat, { val := op m a.val b.val d.val, poison := a.poison || b.poison || d.poison })])

/-- The skeleton of a word with one source. -/
def unaryWord (i : Instr) (o : VU) (k : Kind) (op : Mods → W32 → W32) (s : State) : Result :=
  let m := o.ext.getD Mods.none
  let u := usesVU o [o.vd.toNat]
  runWord i s u fun c =>
    c.done u (writeStrands fun x =>
      let a := c.srcX m k o.sx x
      [(o.vd.toNat, { val := op m a.val, poison := a.poison })])

/-- The rounding mode of a modifier word. -/
def rmOf (m : Mods) : Nat := m.rm.toNat

/-! ### Addresses (10 R169, R170) -/

/-- The extension word of a memory word without one. -/
def MExt.none : MExt := { sz := 0x68, lz := false, hz := false, ord := 0, scp := 0, aop := 0 }

/-- What a memory word names: base, index, data read, registers freed, destinations. -/
def usesVM (o : VM) (wide : Bool) (data dests : List Nat) : Uses :=
  let e := o.ext.getD MExt.none
  { codes := (if wide then wideCodes o.sx else [o.sx]) ++ [e.sz] ++ data.map fun r => BitVec.ofNat 7 r,
    frees := (if o.lx then (if wide then wideRegs o.sx else markReg o.sx true) else []) ++ markReg e.sz e.lz,
    holds := markReg e.sz e.hz, dests := dests, len := match o.ext with | some _ => 2 | Option.none => 1 }

/-- A strand's address operand: the exact sum, and the OR of base and index poison. -/
structure AddrOf where
  sum : Int
  poison : Bool
  deriving DecidableEq, Repr

/-- gaddr: a strand's global address (10 R169). DEDUCED (log entry 93): the base counts as an unsigned number in the exact sum. -/
def VCtx.gaddr (c : VCtx) (sx : BitVec 7) (ofs : BitVec 9) (sz : BitVec 7) (size : Nat) (x : Strand) : AddrOf :=
  let b := c.rd64 sx x
  let n := c.rd .i sz x
  { sum := (b.1.toNat : Int) + n.val.toNat + ofs.toInt * size, poison := b.2 || n.poison }

/-- A strand's team-relative offset (10 R170). -/
def VCtx.saddr (c : VCtx) (sx : BitVec 7) (ofs : BitVec 9) (sz : BitVec 7) (size : Nat) (x : Strand) : AddrOf :=
  let b := c.rd .i sx x
  let n := c.rd .i sz x
  { sum := (b.val.toNat : Int) + n.val.toNat + ofs.toInt * size, poison := b.poison || n.poison }

end Sys2Proof.Machine
end

