-- ==== Sys2Proof/Machine/Flags.lean ====
section
/-! DEFINITION. Everything that a word computes as a condition: comparisons and mask writes (08 R142, R143, 06 R107), the
completion flag that a clause gives an operation (06 R102), poison that ends a team (25 R355), and fences (03 R53). -/

namespace Sys2Proof.Machine

open Sys2Proof

/-- The lanes of active strands that meet a test, as a weft bit-vector. -/
def VCtx.lanes (c : VCtx) (p : Strand → Bool) : Nat := c.w.bits fun x => x.em && p x

/-- Write a mask in every active strand. -/
def writeMask (md : Nat) (g : Strand → Bool) (w : Weft) : Weft :=
  { w with strands := w.strands.map fun x => if x.em then x.setMask md (g x) else x }

/-- What a comparison names. -/
def usesCmp (o : VCmp) : Uses :=
  { codes := [o.sx, o.sy], frees := markReg o.sx o.lx ++ markReg o.sy o.ly, holds := markReg o.sx o.hx ++ markReg o.sy o.hy,
    dests := [], len := wordsOf o.ext }

/-- A comparison word: poison in an active strand's operand ends the team, else each active strand's bit is written (08 R142,
R143). -/
def cmpWord (i : Instr) (o : VCmp) (k : Kind) (op : W32 → W32 → Bool) (s : State) : Result :=
  let m := o.ext.getD Mods.none
  let u := usesCmp o
  runWord i s u fun c =>
    let bad := c.lanes fun x => (c.srcX m k o.sx x).poison || (c.srcY m k o.sy x).poison
    if bad ≠ 0 then poisonWord c.s c.t c.w bad
    else c.done u (writeMask o.md.toNat fun x => op (c.srcX m k o.sx x).val (c.srcY m k o.sy x).val)

/-- FA of a clause header. -/
def headerFa (h : W32) : Nat := (h.extractLsb' 19 4).toNat
/-- FB of a clause header. -/
def headerFb (h : W32) : Nat := (h.extractLsb' 23 4).toNat

/-- A flag field names a flag. -/
def namesFlag (f : Nat) : Option Nat := if f < 12 then some f else none

/-- The flag an operation sets (06 R102): loads and STAG set FA; stores, atomics and LDGS set FB, or FA where FB is none. -/
def flagFor (h : W32) (isLoad : Bool) : Option Nat :=
  if headerFb h = 0xF || isLoad then namesFlag (headerFa h) else namesFlag (headerFb h)

/-- The flags of a wait mask that are set in a weft. -/
def waitFlags (s : State) (tid wid : Nat) (wm : BitVec 12) : Bool := (upFrom 0 12).any fun f => wm.getLsbD f && flagSet s tid wid f

/-- A fence of every live strand of a weft (03 R53, 10 R185). -/
def fenceWeft (s : State) (t : Team) (w : Weft) (ord : BitVec 2) (scp : Nat) : State :=
  fenceAs s t w.keys (ord.getLsbD 0) (ord.getLsbD 1) scp

/-- A weft's k writes are seen by every weft from now on (07 R126). -/
def publishK (t : Team) (w : Weft) : Team :=
  { t with uni := { t.uni with kpend := t.uni.kpend.filter fun e => !(w.strands.any fun x => e.2.2.contains x.sid) } }

end Sys2Proof.Machine
end

