-- ==== Sys2Proof/Machine/Layout.lean ====
section
/-! DEFINITION. Where a team's strands sit: the canonical layout (02 R19), REGROUP's (09 R166), footprints (02 R26), and what a change
of layout keeps and changes (02 R27 to R30, 09 R167). -/

namespace Sys2Proof.Machine

open Sys2Proof

/-- A target for a strand: weft and lane. -/
abbrev Seat := Nat × Nat

/-- The canonical seat (02 R19). -/
def canonical (wd sid : Nat) : Seat := (sid / wd, sid % wd)

/-- Insert a number in rising order, keeping repeats. -/
def insertUp (a : Nat) : List Nat → List Nat
  | [] => [a]
  | b :: t => if a ≤ b then a :: b :: t else b :: insertUp a t

/-- A team's live SIDs, rising. -/
def Team.sids (t : Team) : List Nat := (t.wefts.flatMap fun w => w.strands.map (·.sid)).foldr insertUp []

/-- The seat that REGROUP gives a strand: packed in SID order within its core; the odd core's wefts follow the even core's
(09 R166). -/
def packed (t : Team) (wd sid : Nat) : Seat :=
  let even := t.sids.filter fun i => t.coreOf i = t.place.core
  let odd := t.sids.filter fun i => t.coreOf i ≠ t.place.core
  if even.contains sid then
    let i := (even.filter fun j => j < sid).length
    (i / wd, i % wd)
  else
    let i := (odd.filter fun j => j < sid).length
    ((even.length + wd - 1) / wd + i / wd, i % wd)

/-- The wefts of a team that still have a live strand. -/
def Team.live (t : Team) : List Weft := t.wefts.filter fun w => !w.strands.isEmpty

/-- Weft numbers of a layout, rising. -/
def seatWids (t : Team) (f : Nat → Seat) : List Nat := t.sids.foldl (fun a i => insNat (f i).1 a) []

/-- The old wefts that contribute strands to a new weft. -/
def contributors (t : Team) (f : Nat → Seat) (wid : Nat) : List Weft :=
  t.live.filter fun w => w.strands.any fun x => (f x.sid).1 = wid

/-- The allocated set of a new weft: the union of its contributors' (02 R26). -/
def unionAlloc (l : List Weft) : BitVec 64 := l.foldl (fun a w => a ||| w.alloc) 0

/-- Put a strand in lane order. -/
def insertLane (x : Strand) : List Strand → List Strand
  | [] => [x]
  | y :: t => if x.lane ≤ y.lane then x :: y :: t else y :: insertLane x t

/-- A new weft: its strands with their registers and masks; the trap registers, progress index, position and slot of its
lowest-numbered contributor (log entry 16). What each strand has done that bears on order stays with the strand (02 R27, R30). -/
def newWeft (t : Team) (f : Nat → Seat) (wid : Nat) : Option Weft :=
  let cs := contributors t f wid
  match cs with
  | [] => none
  | c :: _ =>
    let xs := (cs.flatMap (·.strands)).filter fun x => (f x.sid).1 = wid
    some { c with wid := wid, alloc := unionAlloc cs, holds := [], anchor := ((xs.head?).map (·.sid)).getD c.anchor,
                  strands := (xs.map fun x => { x with lane := (f x.sid).2 }).foldr insertLane [] }

/-- Relay a team out: new wefts in rising number; a weft without live strands keeps its registers until it ceases, under a number
that no word can name; operations follow their strands (02 R27 to R29). -/
def relayout (s : State) (tid : Nat) (f : Nat → Seat) : State :=
  match getTeam s tid with
  | none => s
  | some t =>
    let wids := seatWids t f
    let fresh := wids.filterMap (newWeft t f)
    let ceasing := t.wefts.filter fun w => w.strands.isEmpty
    let ceased := (ceasing.zip (upFrom 0 ceasing.length)).map fun p => (p.1.wid, 4096 + p.2)
    let moved (old : Nat) : List Nat :=
      (wids.filter fun n => (contributors t f n).any fun w => w.wid = old) ++
        (ceased.filter fun p => decide (p.1 = old) && ceasing.any fun w => w.wid = old).map (·.2)
    let s := updTeam s tid fun t =>
      { t with wefts := fresh ++ (ceasing.zip ceased).map fun p => { p.1 with wid := p.2.2 } }
    { s with vops := s.vops.map fun o =>
        if o.tid = tid then { o with owners := (o.owners.flatMap moved).foldl (fun a i => insNat i a) [] } else o }

/-- Weft count and register count of allocated sets at a width and floor (02 R26). -/
def footprint (wd floor : Nat) (allocs : List (BitVec 64)) : Nat × Nat :=
  (allocs.length, allocs.foldl (fun a b => a + wd * Nat.max (allocCount b) floor) 0)

/-- The allocated sets of a team's new wefts on a core, with more registers allocated in each. -/
def newAllocs (t : Team) (f : Nat → Seat) (core : Nat) (more : List Nat) : List (BitVec 64) :=
  (seatWids t f).filterMap fun n =>
    let cs := contributors t f n
    if cs.any fun w => w.strands.any fun x => (f x.sid).1 = n && t.coreOf x.sid = core then some (unionAlloc cs ||| regBits more) else none

/-- The footprint of other teams on a core as they stand: their wefts with live strands (02 R26). -/
def othersFootprint (s : State) (c core tid : Nat) : Nat × Nat :=
  ((teamsOn s c core).filter fun t => t.tid ≠ tid).foldl (fun a t =>
    let wd := teamWidth s t
    let fp := footprint wd (floorOf s t) ((t.live.filter fun w => weftCore t w = core).map (·.alloc))
    (a.1 + fp.1, a.2 + fp.2)) (0, 0)

/-- The cores of a team. -/
def Team.cores (t : Team) : List Nat := if t.place.pair then [t.place.core, t.place.core + 1] else [t.place.core]

/-- Give a status to every strand of a weft in VD, and go on after the word. -/
def resumeWith (s : State) (tid wid : Nat) (vd : Nat) (st : W32) : State :=
  let s := updWeft s tid wid fun w =>
    let w := w.allocate [vd]
    { w with strands := w.strands.map fun x => x.setReg vd { val := st, poison := false } }
  stepOver (wake s tid wid) tid wid 1

/-- Resume every live weft of a team. -/
def resumeTeam (s : State) (tid vd : Nat) (st : W32) : State :=
  match getTeam s tid with
  | none => s
  | some t => t.live.foldl (fun s w => resumeWith s tid w.wid vd st) s

/-! ### The REGROUP rendezvous (09 R165, R166) -/

/-- A weft waits at the same REGROUP or UNGROUP. -/
def sameRegroup (w : Weft) (un : Bool) (addr word : Nat) : Bool :=
  match w.wait with
  | .regroup u _ a k => u = un && a = addr && k = word
  | _ => false

/-- The rendezvous completes where every live weft of the team waits at the same word (R166). -/
def tryRegroup (s : State) (tid wid : Nat) : State :=
  match getTeam s tid with
  | none => s
  | some t =>
    match (match t.weft? wid with | some w => w.wait | none => Wait.none) with
    | .regroup un vd addr word =>
      if !(t.live.all fun w => sameRegroup w un addr word) then s
      else
        let wd := teamWidth s t
        let f := if un then canonical wd else packed t wd
        let r := vd.toNat
        if t.live.all fun w => w.strands.all fun x => f x.sid = (w.wid, x.lane) then resumeTeam s tid r 1
        else
          let fits := t.cores.all fun core =>
            let o := othersFootprint s t.place.cluster core tid
            let n := footprint wd (floorOf s t) (newAllocs t f core [r])
            decide (o.1 + n.1 ≤ 64) && decide (o.2 + n.2 ≤ 65536)
          if !fits then resumeTeam s tid r 4
          else resumeTeam (relayout s tid f) tid r 0
    | _ => s

end Sys2Proof.Machine
end

