-- ==== Sys2Proof/Machine/VecCtrl.lean ====
section
/-! DEFINITION. Control, barriers, k ownership, timeline waits, the curve and system words (11), the check of a clause header
(06 R101), weft ends (11 R193) and core moves (02 R22 to R29). -/

namespace Sys2Proof.Machine

open Sys2Proof

/-- A strand that no lane holds: what a uniform operand is read for. -/
def noStrand : Strand := { sid := 0, lane := 0, em := false, m := 0, regs := [] }

/-- A control word that names only source codes. -/
def usesCtl (codes : List (BitVec 7)) (frees dests : List Nat) (len : Nat) : Uses :=
  { codes := codes, frees := frees, holds := [], dests := dests, len := len }

/-- The lowest of a list of strands by SID. -/
def lowestSid : List Strand → Option Nat
  | [] => none
  | x :: t => some (t.foldl (fun a y => Nat.min a y.sid) x.sid)

/-! ### Branches (R189 to R192) -/

/-- The offset of the clause that follows a weft's own (R189). -/
def nextClause (c : VCtx) : Nat := c.w.pos.clause + 4 * (1 + headerCnt (clauseHeader c.s c.t c.w))

/-- The target of a displacement (R189), modulo 2^32. -/
def dispTarget (c : VCtx) (disp : W32) : Nat := (BitVec.ofNat 32 c.w.pos.clause + disp).toNat

/-- Take a branch: a target that no header was recorded at raises ILLEGALCLAUSE, naming the branch (06 R101). -/
def branchTo (c : VCtx) (u : Uses) (f : Weft → Weft) (target : Nat) : Result :=
  match getObj c.s c.t.obj with
  | none => illegalWord c.s c.t c.w
  | some o =>
    if ventOk o target then .next (finishAt c.s c.t.tid c.w.wid u f target)
    else trapWord c.s c.t c.w 2 0 0 c.w.emBits

/-- Take a branch or fall through. -/
def branchIf (c : VCtx) (u : Uses) (taken : Bool) (disp : W32) : Result :=
  if taken then branchTo c u id (dispTarget c disp) else .next (finishAt c.s c.t.tid c.w.wid u id (nextClause c))

/-- BRU (R190). -/
def execBru (o : VBranch) (s : State) : Result :=
  let u := usesCtl [o.sx] (markReg o.sx o.lx) [] 2
  runWord (.bru o) s u fun c =>
    let holds (x : Strand) : Bool := decide ((c.rd .i o.sx x).val ≠ 0) != o.inv
    let bad := c.lanes fun x => (c.rd .i o.sx x).poison
    let yes := c.lanes holds
    if bad ≠ 0 then poisonWord c.s c.t c.w bad
    else if yes ≠ 0 && yes ≠ c.w.emBits then trapWord c.s c.t c.w 3 0 0 yes
    else branchIf c u (decide (yes ≠ 0)) o.disp

/-- BRK (R191). -/
def execBrk (o : VBranch) (s : State) : Result :=
  let u := usesCtl [o.sx] [] [] 2
  runWord (.brk o) s u fun c => branchIf c u (decide ((c.rd .i o.sx noStrand).val ≠ 0) != o.inv) o.disp

/-- CALL (R192): every live strand receives the offset of the clause that follows. -/
def execCall (vd : BitVec 6) (disp : W32) (s : State) : Result :=
  let u := usesCtl [] [] [vd.toNat] 2
  runWord (.call vd disp) s u fun c =>
    branchTo c u (fun w =>
      { w with strands := w.strands.map fun x => x.setReg vd.toNat { val := BitVec.ofNat 32 (nextClause c), poison := false } })
      (dispTarget c disp)

/-- RET (R192): the common value of the live strands. -/
def execRet (sx : BitVec 7) (lx : Bool) (s : State) : Result :=
  let u := usesCtl [sx] (markReg sx lx) [] 1
  runWord (.ret sx lx) s u fun c =>
    let v (x : Strand) : Elem := c.rd .i sx x
    match c.w.strands with
    | [] => .next (finishAt c.s c.t.tid c.w.wid u id (nextClause c))
    | x :: t =>
      let low := t.foldl (fun (a : Strand) y => if y.lane < a.lane then y else a) x
      let bad := c.w.bits fun y => (v y).poison
      let differ := c.w.bits fun y => decide ((v y).val ≠ (v low).val)
      if bad ≠ 0 then poisonWord c.s c.t c.w bad
      else if differ ≠ 0 then trapWord c.s c.t c.w 3 0 0 differ
      else branchTo c u id (v low).val.toNat

/-! ### EXIT and the end of a weft (R193, 21 R324) -/

/-- The accesses of a weft to this module's memory that have not been performed. -/
def ownUndone (s : State) (tid wid : Nat) : Bool := (weftOps s tid wid).any fun o => o.accs.any fun a => !a.done && !a.remote

/-- The stage of a team. -/
def stageOf (s : State) (t : Team) : Option (Nat × Stage) :=
  match t.ref with
  | .stage i => (getStage s i).map fun g => (i, g)
  | _ => none

/-- The output records that strands hold: pipe, records (21 R320). -/
def outHeld (s : State) (t : Team) (sids : List Nat) : Option (Nat × Pipe × List Nat) :=
  match stageOf s t with
  | some (_, g) => match g.out with
    | some pi => (getPipe s pi).map fun p => (pi, p, (heldBy p.holders sids).foldl (fun a r => insNat r a) [])
    | none => none
  | none => none

/-- The input records that strands hold: stage, pipe, records. -/
def inHeld (s : State) (t : Team) (sids : List Nat) : Option (Nat × Nat × List Nat) :=
  match stageOf s t with
  | some (i, g) => match g.inp with
    | some pi => match (getPipe s pi).bind (·.attachOf i) with
      | some a => some (i, pi, (heldBy a.holders sids).foldl (fun l r => insNat r l) [])
      | none => none
    | none => none
  | none => none

/-- Publish the output records that strands hold: a commit event and a release of module scope by every live strand of their weft (21
R321). -/
def publishHeld (s : State) (t : Team) (w : Weft) (sids : List Nat) : State :=
  match outHeld s t sids with
  | some (pi, _, r :: rs) =>
    let s := commitEvent s t.tid
    publishRecords s pi (r :: rs) (inTransit s.mem (t.done w.keys))
  | _ => s

/-- Release the input records that strands hold: a release of module scope by every live strand of their weft (21 R323). -/
def releaseHeld (s : State) (t : Team) (w : Weft) (sids : List Nat) : State :=
  match inHeld s t sids with
  | some (i, pi, r :: rs) => releaseRecords s pi i (r :: rs) (inTransit s.mem (t.done w.keys))
  | _ => s

/-- Some output record that strands hold is poisoned (21 R321). -/
def heldPoison (s : State) (t : Team) (sids : List Nat) : Bool :=
  match outHeld s t sids with
  | some (_, p, rs) => rs.any fun r => recordPoisoned s t.die p r
  | none => false

/-- Strands hold some record. -/
def holdsRecord (s : State) (t : Team) (sids : List Nat) : Bool :=
  (match outHeld s t sids with | some (_, _, rs) => !rs.isEmpty | none => false) ||
  (match inHeld s t sids with | some (_, _, rs) => !rs.isEmpty | none => false)

/-- Ownership when strands exit (07 R125). -/
def uniformAfterExit (u : Uniform) (gone : List Nat) : Uniform :=
  { u with kowner := match u.kowner with | some o => if gone.contains o then none else some o | none => none }

/-- EXIT (R193). -/
def execExit (s : State) : Result :=
  let u := usesCtl [] [] [] 1
  runWord .exit s u fun c =>
    let gone := c.w.active'.map (·.sid)
    if holdsRecord c.s c.t gone && (ownUndone c.s c.t.tid c.w.wid || !commitReady c.s c.t) then retryWord c.s c.t.tid c.w.wid .order
    else if heldPoison c.s c.t gone then poisonWord c.s c.t c.w c.w.emBits
    else
      let s := releaseHeld (publishHeld c.s c.t c.w gone) c.t c.w gone
      let s := updTeam s c.t.tid fun t => { t with uni := uniformAfterExit t.uni gone }
      .next (finishAt s c.t.tid c.w.wid u (fun w => { w with strands := w.strands.filter fun x => !x.em }) (nextClause c))

/-- WEFT_CEASE: a weft without live strands ceases once its operations have completed; with the last weft and the hart the team
ends (R193, 15 R221). -/
def execWeftCease (s : State) : Result :=
  withWeft s fun t w =>
    if !w.strands.isEmpty || !(weftOps s t.tid w.wid).isEmpty then .next s
    else
      let s := updTeam s t.tid fun t => { t with wefts := t.wefts.filter fun x => x.wid ≠ w.wid }
      .next (checkTeamEnd s t.tid)

/-! ### Barriers (R194, R195) -/

/-- Wefts that complete a barrier together resume: every arrival's release synchronises with every other's acquire (R194). -/
def resumeAll (s : State) (tid : Nat) (l : List Weft) : State :=
  match getTeam s tid with
  | none => s
  | some t =>
    let keys := l.flatMap (·.keys)
    l.foldl (fun s w => stepOver (wake s tid w.wid) tid w.wid 1) (acquireIds s t keys (t.done keys))

/-- The team barrier completes where every weft with a live strand waits at a BAR and what they did before it is performed
(R194). -/
def tryBar (s : State) (tid : Nat) : State :=
  match getTeam s tid with
  | none => s
  | some t =>
    if t.live.all fun w => decide (w.wait = .bar) && !ownUndone s tid w.wid then resumeAll s tid t.live else s

/-- BAR (R194). -/
def execBar (s : State) : Result :=
  runWord .bar s (usesCtl [] [] [] 1) fun c =>
    let s := fenceWeft c.s c.t c.w 3 1
    let s := updTeam s c.t.tid fun t => publishK t c.w
    .next (tryBar (swapOut s c.t.tid c.w.wid .bar) c.t.tid)

/-- The wefts that wait at a named barrier. -/
def Team.atNbar (t : Team) (id : Nat) : List Weft :=
  t.live.filter fun w => match w.wait with | .nbar i _ => decide (i = id) | _ => false

/-- A named barrier completes, and becomes idle, where the waiting wefts hold its count of live strands (R195). -/
def tryNbar (s : State) (tid id : Nat) : State :=
  match getTeam s tid with
  | none => s
  | some t =>
    let n := spGet 0 t.nbars id
    let l := t.atNbar id
    if n = 0 || l.foldl (fun a w => a + w.strands.length) 0 < n then s
    else resumeAll (updTeam s tid fun t => { t with nbars := spSet 0 t.nbars id 0 }) tid l

/-- NBAR (R195). The weft arrives once what it did before in its own module is performed (log entry 44). -/
def execNbar (sx : BitVec 7) (id : BitVec 4) (s : State) : Result :=
  runWord (.nbar sx id) s (usesCtl [sx] [] [] 1) fun c =>
    let n := (c.rd .i sx noStrand).val.toNat
    let open' := spGet 0 c.t.nbars id.toNat
    if n = 0 || 2048 < n then illegalWord c.s c.t c.w
    else if open' ≠ 0 && open' ≠ n then trapWord c.s c.t c.w 3 0 0 c.w.emBits
    else if ownUndone c.s c.t.tid c.w.wid then retryWord c.s c.t.tid c.w.wid .order
    else
      let s := fenceWeft c.s c.t c.w 3 1
      let s := updTeam s c.t.tid fun t => { t with nbars := spSet 0 t.nbars id.toNat n }
      .next (tryNbar (swapOut s c.t.tid c.w.wid (.nbar id.toNat n)) c.t.tid id.toNat)

/-! ### k ownership (R196, R197, 07 R125, R126) -/

/-- The weft holds the owning strand. -/
def ownsK (t : Team) (w : Weft) : Bool := match t.uni.kowner with | some o => w.strands.any fun x => x.sid = o | none => false

/-- KOWN (R196). -/
def execKown (s : State) : Result :=
  let u := usesCtl [] [] [] 1
  runWord .kown s u fun c =>
    match lowestSid c.w.active' with
    | none => c.done u id
    | some sid =>
      if ownsK c.t c.w then c.done u id
      else if c.t.uni.kowner.isSome then retryWord c.s c.t.tid c.w.wid .kown
      else
        let s := updTeam c.s c.t.tid fun t => { t with uni := { t.uni with kowner := some sid } }
        .next (finishWord (acquireIds s c.t c.w.keys c.t.uni.krel) c.t.tid c.w.wid u id)

/-- KFREE (R196): by the owning weft a team-scope release, which waits for the weft's earlier accesses. -/
def execKfree (s : State) : Result :=
  let u := usesCtl [] [] [] 1
  runWord .kfree s u fun c =>
    if !ownsK c.t c.w then c.done u id
    else if ownUndone c.s c.t.tid c.w.wid then retryWord c.s c.t.tid c.w.wid .order
    else
      let s := updTeam c.s c.t.tid fun t =>
        let t := publishK t c.w
        { t with uni := { t.uni with kowner := none, krel := inTransit c.s.mem (t.done c.w.keys) } }
      .next (finishWord s c.t.tid c.w.wid u id)

/-- KWR (R197): other wefts may read the value replaced until they synchronise; what an earlier owner left unseen of this register is gone
(07 R126). -/
def execKwr (kd : BitVec 5) (sx : BitVec 7) (lx : Bool) (s : State) : Result :=
  let u := usesCtl [sx] (markReg sx lx) [] 1
  runWord (.kwr kd sx lx) s u fun c =>
    if !ownsK c.t c.w then trapWord c.s c.t c.w 7 0 kd.toNat c.w.emBits
    else
      match c.w.active' with
      | [] => c.done u id
      | x :: t =>
        let low := t.foldl (fun (a : Strand) y => if y.lane < a.lane then y else a) x
        let v := c.rd .i sx low
        if v.poison then poisonWord c.s c.t c.w (2 ^ low.lane)
        else
          let s := updTeam c.s c.t.tid fun t =>
            let own (e : Nat × W32 × List Nat) : Bool := e.2.2.any c.w.keys.contains
            { t with uni := { t.uni with k := updAt (fun _ => v.val) kd.toNat t.uni.k,
                                         kpend := (t.uni.kpend.filter fun e => decide (e.1 ≠ kd.toNat) || own e) ++
                                           [(kd.toNat, nthD 0 t.uni.k kd.toNat, c.w.keys)] } }
          .next (finishWord s c.t.tid c.w.wid u id)

/-! ### Timelines and yielding (R198, R199) -/

/-- The counter that a timeline code names to a team: a channel, or the team's context (15 R232). DEDUCED (log entry 98): M-mode, which has no
team's context, may not name it. -/
def timelineOf (s : State) (t : Team) (tl : Nat) : Option Nat :=
  if tl < 16 then some (chanCounter (getChan s t.place.cluster tl))
  else if tl = (if t.inM then 17 else 16) then t.place.ctx.map fun i => ctxCounter (getCtx (getCluster s t.place.cluster).mx i)
  else none

/-- What the completions of the operations numbered n or below release to one who waits on a timeline (03 R57). An engine of the cluster is
within every scope of its strands, so that a strand's wait excludes none (R51). -/
def timelineRel (s : State) (t : Team) (tl n : Nat) : List Nat :=
  let k := getCluster s t.place.cluster
  let l := if tl < 16 then (spGet Chan.reset k.chans tl).rel
    else match t.place.ctx with | some i => (getCtx k.mx i).rel | none => []
  (l.filter fun e => e.1 ≤ n).flatMap (·.2)

/-- TWAIT (R198). -/
def execTwait (scp : BitVec 3) (sx : BitVec 7) (tl : BitVec 5) (lx : Bool) (s : State) : Result :=
  let u := usesCtl (wideCodes sx) (if lx then wideRegs sx else []) [] 1
  runWord (.twait scp sx tl lx) s u fun c =>
    match timelineOf c.s c.t tl.toNat with
    | none => illegalWord c.s c.t c.w
    | some n =>
      let a := c.w.active'
      let bad := c.lanes fun x => (c.rd64 sx x).2
      if a.isEmpty then c.done u id
      else if bad ≠ 0 then poisonWord c.s c.t c.w bad
      else
        let target := a.foldl (fun m x => Nat.max m (c.rd64 sx x).1.toNat) 0
        if n < target then retryWord c.s c.t.tid c.w.wid .timeline
        else .next (finishWord (acquireIds c.s c.t c.w.keys (timelineRel c.s c.t tl.toNat target)) c.t.tid c.w.wid u id)

/-- YIELD (R199). -/
def execYield (s : State) : Result :=
  let u := usesCtl [] [] [] 1
  runWord .yield s u fun c =>
    let s := finishWord c.s c.t.tid c.w.wid u id
    if pendingReady s c.t c.w then
      let (i, s) := takeId s
      .next (updWeft s c.t.tid c.w.wid fun w => { w with active := false, holds := [], readyAt := i })
    else .next s

/-! ### The curve (R200, 02 R24 to R29) -/

/-- The cores that move with a team's core: both of a pair that a spread team or a redundant pair holds (02 R22). DESIGN CHOICE (log entry
75): a redundant pair one of whose members has ended still holds both cores to one point until the other ends. Unsafe. -/
def coresWith (s : State) (c core : Nat) : List Nat :=
  let even := core / 2 * 2
  let both := [even, even + 1]
  if s.teams.any fun t => decide (t.place.cluster = c) && both.contains t.place.core && (t.place.pair || t.partner.isSome) then both
  else [core]

/-- The teams on a set of cores of a cluster. -/
def teamsOnAny (s : State) (c : Nat) (cores : List Nat) : List Team :=
  s.teams.filter fun t => cores.any fun i => t.on c i

/-- A weft waits at a VEER of a clause. -/
def atVeer (w : Weft) (addr : Nat) : Bool := match w.wait with | .veer _ _ a => decide (a = addr) | _ => false

/-- The target that wefts waiting at a clause named. -/
def veerTarget (l : List Team) (addr : Nat) : Option (Option Nat) :=
  (l.flatMap (·.wefts)).findSome? fun w => match w.wait with | .veer _ tgt a => if a = addr then some tgt else none | _ => none

/-- The footprint of teams on a core at a width fits: the wefts that live strands map to (02 R26). -/
def fitsAt (s : State) (c core wd : Nat) : Bool :=
  let fp := (teamsOn s c core).foldl (fun (a : Nat × Nat) t =>
    let n := footprint wd (floorOf s t) (newAllocs t (canonical wd) core [])
    (a.1 + n.1, a.2 + n.2)) (0, 0)
  decide (fp.1 ≤ 64) && decide (fp.2 ≤ 65536)

/-- The Vane's answer to a rendezvous, from the flags of the current window (26 R371): the point to go to, or none where it refuses. After the
100th sample a window has ended, and the next one has no flag. -/
def vaneAnswer (s : State) (cur : Nat) (tgt : Option Nat) : Option Nat :=
  let now := decide (s.vane.samples.length < 100)
  let up := now && (s.vane.rise || s.vane.ceil)
  let down := now && s.vane.fall
  match tgt with
  | some t => if (decide (t < cur) && up) || (decide (cur < t) && down) then none else some t
  | none =>
    if !s.loom.power.pmode.getLsbD 1 then some cur
    else if up then some (Nat.min 3 (cur + 1))
    else if down then some (cur - 1)
    else some cur

/-- Every weft that waits at the rendezvous receives a status and resumes. -/
def resumeVeer (s : State) (l : List Team) (st : W32) : State :=
  l.foldl (fun s t =>
    match getTeam s t.tid with
    | none => s
    | some t => t.live.foldl (fun s w => match w.wait with | .veer vd _ _ => resumeWith s t.tid w.wid vd.toNat st | _ => s) s) s

/-- The rendezvous at a weft's clause completes where every live weft of the teams on its cores waits there (02 R24). -/
def tryVeer (s : State) (tid wid : Nat) : State :=
  match getTeam s tid with
  | none => s
  | some t =>
    match (match t.weft? wid with | some w => w.wait | none => Wait.none) with
    | .veer _ tgt addr =>
      let c := t.place.cluster
      let cores := (t.cores.flatMap (coresWith s c)).foldl (fun a i => insNat i a) []
      let l := teamsOnAny s c cores
      if (getCore s c t.place.core).moving.isSome || !(l.all fun t => t.live.all fun w => atVeer w addr) then s
      else
        let cur := (getCore s c t.place.core).pt.toNat
        match vaneAnswer s cur tgt with
        | none => resumeVeer s l 3
        | some p =>
          if p = cur then resumeVeer s l 1
          else if !(cores.all fun i => fitsAt s c i (widthOf (BitVec.ofNat 2 p))) then resumeVeer s l 4
          else cores.foldl (fun s i => updCore s c i fun k => { k with moving := some (BitVec.ofNat 2 p) }) s
    | _ => s

/-- Discard a weft's hold latches (06 R113). -/
def Weft.dropHolds (w : Weft) : Weft := { w with holds := [] }

/-- Arrive at a VEER or VEER.MAY (02 R24): the word issues there, so its destination is allocated (07 R120; log entry 71). DESIGN CHOICE
(log entry 72): XINFO 2 compares the read position with the wefts that wait at the same clause address. Safe: wefts that wait at
different clause addresses never complete (02 R25), so the choice decides only whether the weft traps or waits until its watchdog. -/
def veerWord (i : Instr) (vd : BitVec 6) (target : VCtx → Option Nat) (codes : List (BitVec 7)) (s : State) : Result :=
  let u := usesCtl codes [] [vd.toNat] 1
  runWord i s u fun c =>
    let addr := c.w.pos.clause
    let marked := match getObj c.s c.t.obj with | some o => o.veer.contains addr | none => false
    if !marked then c.done u fun w => (writeStrands (fun _ => [(vd.toNat, { val := 2, poison := false })]) w).dropHolds
    else
      let tgt := target c
      let cores := (c.t.cores.flatMap (coresWith c.s c.t.place.cluster)).foldl (fun a i => insNat i a) []
      let l := teamsOnAny c.s c.t.place.cluster cores
      let info :=
        if c.w.strands.any fun x => !x.em then 1
        else if c.t.live.any fun w => atVeer w addr && decide (w.rpos ≠ c.w.rpos) then 2
        else if (match tgt with | some p => decide (3 < p) | none => false) then 3
        else match veerTarget l addr with | some q => if q = tgt then 0 else 3 | none => 0
      if info ≠ 0 then trapWord c.s c.t c.w 4 0 info c.w.emBits
      else
        let s := updWeft c.s c.t.tid c.w.wid fun w => w.allocate [vd.toNat]
        .next (tryVeer (swapOut s c.t.tid c.w.wid (.veer vd tgt addr)) c.t.tid c.w.wid)

/-- VEER (R200). -/
def execVeer (vd : BitVec 6) (sx : BitVec 7) (s : State) : Result :=
  veerWord (.veer vd sx) vd (fun c => some (c.rd .i sx noStrand).val.toNat) [sx] s

/-- VEER.MAY (R200). -/
def execVeerMay (vd : BitVec 6) (s : State) : Result := veerWord (.veerMay vd) vd (fun _ => none) [] s

/-- After a move, wefts are reassigned to slots in order of team dispatch and then WID (02 R36). -/
def reassignSlots (s : State) (c core : Nat) : State :=
  let n := slotsOf (getCore s c core).pt
  let l := (teamsOn s c core).flatMap fun t =>
    (t.wefts.filter fun w => weftCore t w = core).map fun w => (t.tid, w.wid)
  (l.zip (upFrom 0 l.length)).foldl (fun s p => updWeft s p.1.1 p.1.2 fun w => { w with slot := p.2 % n }) s

/-- CORE_MOVE_COMPLETE: the core, and the core that moves with it, run at the new point; resident teams take the canonical layout
there and resume with status 0 (02 R22, R27 to R29). -/
def execCoreMoveComplete (cluster core : Nat) (s : State) : Result :=
  match (getCore s cluster core).moving with
  | none => .next s
  | some p =>
    let cores := (coresWith s cluster core).filter fun i => (getCore s cluster i).moving = some p
    let l := teamsOnAny s cluster cores
    let s := cores.foldl (fun s i => updCore s cluster i fun k => { k with pt := p, moving := none }) s
    let s := l.foldl (fun s t => relayout s t.tid (canonical (widthOf p))) s
    let s := cores.foldl (fun s i => reassignSlots s cluster i) s
    .next (resumeVeer s l 0)

/-! ### System words (R201 to R204) -/

/-- TRAP (R202). -/
def execTrap (n : BitVec 5) (s : State) : Result :=
  runWord (.trap n) s (usesCtl [] [] [] 1) fun c => trapWord c.s c.t c.w (0x100 + n.toNat) 0 0 c.w.emBits

/-- BKPT: the weft stops and the team is held for the debug service (R203). DESIGN CHOICE (log entry 97): a debugger that holds the launch finds
the same entry. -/
def execBkpt (s : State) : Result :=
  runWord .bkpt s (usesCtl [] [] [] 1) fun c =>
    let s := report c.s c.t { kind := 0x14, cause := 0x0A, heldTeam := true, pc := c.w.pos.xpc, lanes := c.w.emBits,
                                  core := coreIndex c.s c.t c.w }
    let s := updTeam s c.t.tid fun t => { t with held := some (t.held.getD .breakpoint) }
    .next (swapOut s c.t.tid c.w.wid .bkpt)

/-- The position of a word at an offset within a clause. -/
def posAt (clause word : Nat) : Pos :=
  if word = clause then Pos.atClause clause else { clause := clause, word := (word - clause) / 4 - 1, started := true }

/-- TRET (R204). -/
def execTret (skip : Bool) (s : State) : Result :=
  runWord (.tret skip) s (usesCtl [] [] [] 1) fun c =>
    let tr := c.w.trap
    let last := decide (headerCnt (clauseHeader c.s c.t c.w) ≤ c.w.pos.word + 1)
    if !tr.xv || !last || (skip && tr.word = tr.clause) then illegalWord c.s c.t c.w
    else
      let p := posAt tr.clause.toNat tr.word.toNat
      let text (off : Nat) : W32 := match getObj c.s c.t.obj with | some o => (o.vtext[off / 4]?).getD 0 | none => 0
      let p := if skip then p.after (headerCnt (text tr.clause.toNat)) (if wordExt' (text tr.word.toNat) then 2 else 1) else p
      let s := updWeft c.s c.t.tid c.w.wid fun w => { w with trap := { w.trap with xv := false } }
      .next (goTo (wake s c.t.tid c.w.wid) c.t.tid c.w.wid p)
where
  /-- E of a word (06 R104). -/
  wordExt' (w : W32) : Bool := w.getLsbD 0

/-! ### Clause headers (06 R100 to R102) -/

/-- The class of a major (06 R114). -/
def classOf (op : Nat) : Nat :=
  if op < 0x30 then 0 else if op < 0x3E then 4 else if op = 0x3E then 0 else if op = 0x3F then 4
  else if op < 0x50 then 1 else if op < 0x60 then 5 else if op < 0x70 then 2 else 3

/-- The words of a clause pass 06 R101: class, extension words inside the clause, branches last, a VEER-group word alone. -/
def clauseWordsOk (cls cnt : Nat) : List (Option W32) → Bool
  | [] => true
  | none :: _ => false
  | some w :: t =>
    let op := (w.extractLsb' 25 7).toNat
    decide (classOf op = cls) && (decide (op ≠ 0x7C) || decide (cnt = 1)) &&
    (if w.getLsbD 0 then
      match t with
      | [] => false
      | _ :: t' => (!(decide (0x70 ≤ op) && decide (op ≤ 0x74)) || t'.isEmpty) && clauseWordsOk cls cnt t'
     else (!(decide (0x70 ≤ op) && decide (op ≤ 0x74)) || t.isEmpty) && clauseWordsOk cls cnt t)

/-- A flag field is 0 to 11 or none. -/
def flagFieldOk (f : Nat) : Bool := decide (f < 12) || decide (f = 15)

/-- A header and its words pass 06 R101. -/
def clauseOk (h : Header) (words : List (Option W32)) : Bool :=
  decide (h.resv = 0) && flagFieldOk h.fa.toNat && flagFieldOk h.fb.toNat && (h.fa.toNat ≠ 15 || h.fb.toNat = 15) &&
  decide (h.cls.toNat < 6) && decide (h.cnt ≠ 0) && clauseWordsOk h.cls.toNat h.cnt.toNat words

/-- The words of a weft's clause as the object has them: a planted word counts as the word it replaced (23 R348). -/
def clauseWords (s : State) (t : Team) (clause cnt : Nat) : List (Option W32) :=
  match getObj s t.obj with
  | none => []
  | some o => (upFrom 1 cnt).map fun i => o.vtext[clause / 4 + i]?

/-- ILLEGALCLAUSE at a weft's header (06 R101). -/
def illegalClause (s : State) (t : Team) (w : Weft) : Result := trapAt s t w 2 0 0 w.emBits w.pos.clause w.pos.clause

/-- CLAUSE_START: a weft whose wait flags are clear checks its header whole and begins the clause; waiting for a flag orders accesses
(06 R101, R102; 03 R52 case 4). -/
def execClauseStart (h : Header) (s : State) : Result :=
  withWeft s fun t w =>
    pollOr s t w <|
    if waitFlags s t.tid w.wid h.wm then retryWord s t.tid w.wid .flags
    else if !clauseOk h (clauseWords s t w.pos.clause h.cnt.toNat) then illegalClause s t w
    else
      let s := if h.wm = 0 then s else waitAs s t w.keys fun p => match p.flag with | some f => h.wm.getLsbD f | none => false
      .next (updWeft (wake s t.tid w.wid) t.tid w.wid fun w => { w with pos := { w.pos with word := 0, started := true } })

end Sys2Proof.Machine
end

