-- ==== Sys2Proof/WellFormed.lean ====
section
/-! DEFINITION. Which terms of Instr are instructions of the module: their operands meet Machine/Legal.lean, frames carry the
command's code, and header fields that the format has only in part are in range. -/

namespace Sys2Proof

open Sys2Proof.Machine

/-- The code of a frame (23 R331). -/
def Frame.opc (f : Frame) : BitVec 16 := f.extractLsb' 0 16

/-- The commands of 23 R336 and their codes. -/
def Instr.opc? : Instr → Option Nat
  | .queueReset _ => some 0x0001 | .map _ => some 0x0010 | .unmap _ => some 0x0011 | .protect _ => some 0x0012
  | .place _ => some 0x0013 | .portBind _ => some 0x0014 | .objLoad _ => some 0x0020 | .objUnload _ => some 0x0021
  | .launch _ => some 0x0030 | .gangLaunch _ => some 0x0031 | .taskEnq _ => some 0x0040 | .taskReplay _ => some 0x0041
  | .taskCancel _ => some 0x0042 | .teamResume _ => some 0x0043 | .teamEnd _ => some 0x0044 | .pipeBind _ => some 0x0050
  | .fenceCommand _ => some 0x0060 | .signal _ => some 0x0061 | .wait _ => some 0x0062 | .partition _ => some 0x0070
  | .functionReset _ => some 0x0071 | .preempt _ => some 0x0080 | .resume _ => some 0x0081 | .checkpoint _ => some 0x0082
  | .restore _ => some 0x0083 | .debugStop _ => some 0x0090 | .debugResume _ => some 0x0091 | .debugPlant _ => some 0x0092
  | .debugRemove _ => some 0x0093 | .debugRead _ => some 0x0094 | .powerSet _ => some 0x00A0 | .telemetrySet _ => some 0x00A1
  | .patchLoad _ => some 0x00B0 | .attest _ => some 0x00B1
  | _ => none

/-- The frame a command carries. -/
def Instr.frame? : Instr → Option Frame
  | .queueReset f | .map f | .unmap f | .protect f | .place f | .portBind f | .objLoad f | .objUnload f | .launch f
  | .gangLaunch f | .taskEnq f | .taskReplay f | .taskCancel f | .teamResume f | .teamEnd f | .pipeBind f
  | .fenceCommand f | .signal f | .wait f | .partition f | .functionReset f | .preempt f | .resume f | .checkpoint f
  | .restore f | .debugStop f | .debugResume f | .debugPlant f | .debugRemove f | .debugRead f | .powerSet f
  | .telemetrySet f | .patchLoad f | .attest f | .frameUnknownOpc f => some f
  | _ => none

/-- The codes that 23 R336 assigns. -/
def knownOpcs : List Nat :=
  [0x01, 0x10, 0x11, 0x12, 0x13, 0x14, 0x20, 0x21, 0x30, 0x31, 0x40, 0x41, 0x42, 0x43, 0x44, 0x50, 0x60, 0x61, 0x62, 0x70, 0x71, 0x80, 0x81,
   0x82, 0x83, 0x90, 0x91, 0x92, 0x93, 0x94, 0xA0, 0xA1, 0xB0, 0xB1]

/-- A well-formed instruction: its operands are legal, and a frame's code is its command's, or is no command's. -/
def Instr.wf (i : Instr) : Bool :=
  legal i &&
  match i.frame?, i.opc? with
  | some f, some c => decide (f.opc.toNat = c)
  | some f, none => !knownOpcs.contains f.opc.toNat
  | none, _ => true

end Sys2Proof
end

