-- ==== Sys2Proof/Decode.lean ====
section
/-! DEFINITION. Decoding of every encoding of the manual, total and rejecting by name, and the encoder written from the same
tables: vector words (06, 08 to 11, 21), hart words (15, 17, 19), clause headers (06 R100) and command frames (23). -/

namespace Sys2Proof

/-! ### Fields -/

/-- A bit of a word. -/
def wbit (w : W32) (i : Nat) : Bool := w.getLsbD i

/-- The major opcode of a vector word (06 R104). -/
def wordOp (w : W32) : BitVec 7 := w.extractLsb' 25 7
/-- Whether an extension word follows (06 R104). -/
def wordExt (w : W32) : Bool := wbit w 0
/-- VD. -/
def wordVd (w : W32) : BitVec 6 := w.extractLsb' 19 6
/-- SX. -/
def wordSx (w : W32) : BitVec 7 := w.extractLsb' 12 7
/-- SY. -/
def wordSy (w : W32) : BitVec 7 := w.extractLsb' 5 7

/-- Accept a field that must be zero. -/
def needZero (b : Bool) (r : Except DecodeErr Instr) : Except DecodeErr Instr := if b then r else .error .unusedField

/-- The modifier word of a V3 or VU word (06 R108); bits 8 to 0 are reserved. -/
def modsOf (x : W32) : Mods :=
  { sz := x.extractLsb' 25 7, lz := wbit x 24, hz := wbit x 23, xm := x.extractLsb' 20 3, xk := x.extractLsb' 14 6,
    rm := x.extractLsb' 12 2, sat := wbit x 11, nx := wbit x 10, ny := wbit x 9 }

/-- Whether the extension word of a V3 word, if there is one, has its reserved bits zero. -/
def modsZero (w x : W32) : Bool := !wordExt w || decide (x.extractLsb' 0 9 = 0)

/-- The optional modifier word. -/
def modsOpt (w x : W32) : Option Mods := if wordExt w then some (modsOf x) else none

/-- The extension word of a VM word (06 R111); bits 13 to 0 are reserved. -/
def mextOf (x : W32) : MExt :=
  { sz := x.extractLsb' 25 7, lz := wbit x 24, hz := wbit x 23, ord := x.extractLsb' 21 2, scp := x.extractLsb' 18 3,
    aop := x.extractLsb' 14 4 }

/-- Whether the extension word of a VM word, if there is one, has its reserved bits zero. -/
def mextZero (w x : W32) : Bool := !wordExt w || decide (x.extractLsb' 0 14 = 0)

/-- The optional extension word of a VM word. -/
def mextOpt (w x : W32) : Option MExt := if wordExt w then some (mextOf x) else none

/-! ### Vector formats -/

/-- Format V3 (06 R105). -/
def asV3 (c : V3 → Instr) (w x : W32) : Except DecodeErr Instr :=
  if modsZero w x then
    .ok (c { vd := wordVd w, sx := wordSx w, sy := wordSy w, lx := wbit w 4, ly := wbit w 3, hx := wbit w 2, hy := wbit w 1,
             ext := modsOpt w x })
  else .error .badExtension

/-- Format V3 with a mask destination (06 R107). -/
def asCmp (c : VCmp → Instr) (w x : W32) : Except DecodeErr Instr :=
  if w.extractLsb' 22 3 ≠ 0 then .error .badMask
  else if modsZero w x then
    .ok (c { md := w.extractLsb' 19 3, sx := wordSx w, sy := wordSy w, lx := wbit w 4, ly := wbit w 3, hx := wbit w 2,
             hy := wbit w 1, ext := modsOpt w x })
  else .error .badExtension

/-- One source; LY and HY are zero, and SY is what the caller has read (06 R110, 08 R150). -/
def asVU (c : VU → Instr) (w x : W32) : Except DecodeErr Instr :=
  if wbit w 3 || wbit w 1 then .error .unusedField
  else if modsZero w x then
    .ok (c { vd := wordVd w, sx := wordSx w, lx := wbit w 4, hx := wbit w 2, ext := modsOpt w x })
  else .error .badExtension

/-- One source with SY zero (08 R150, 09 R160). -/
def asVU0 (c : VU → Instr) (w x : W32) : Except DecodeErr Instr :=
  if wordSy w ≠ 0 then .error .unusedField else asVU c w x

/-- A packed conversion (06 R114). -/
def asPack (c : VPack → Instr) (w x : W32) : Except DecodeErr Instr :=
  if wbit w 3 || wbit w 1 then .error .unusedField
  else if modsZero w x then
    .ok (c { vd := wordVd w, sx := wordSx w, fmt := w.extractLsb' 8 4, grp := w.extractLsb' 5 3, lx := wbit w 4,
             hx := wbit w 2, ext := modsOpt w x })
  else .error .badExtension

/-- A mask operation (09 R158). -/
def asMask (c : VMask → Instr) (w x : W32) : Except DecodeErr Instr :=
  if w.extractLsb' 22 3 ≠ 0 || w.extractLsb' 15 4 ≠ 0 || w.extractLsb' 8 4 ≠ 0 then .error .badMask
  else if w.extractLsb' 1 4 ≠ 0 then .error .unusedField
  else if modsZero w x then
    .ok (c { md := w.extractLsb' 19 3, mx := w.extractLsb' 12 3, my := w.extractLsb' 5 3, ext := modsOpt w x })
  else .error .badExtension

/-- A scan or reduction (09 R162). -/
def asScan (c : VScan → Instr) (w x : W32) : Except DecodeErr Instr :=
  if wbit w 3 || wbit w 1 || w.extractLsb' 9 3 ≠ 0 then .error .unusedField
  else if modsZero w x then
    .ok (c { vd := wordVd w, sx := wordSx w, ex := wbit w 8, opc := w.extractLsb' 5 3, lx := wbit w 4, hx := wbit w 2,
             ext := modsOpt w x })
  else .error .badExtension

/-- BCAST (09 R159). -/
def asBcast (w x : W32) : Except DecodeErr Instr :=
  if wbit w 3 || wbit w 1 then .error .unusedField
  else if modsZero w x then
    .ok (.bcast { vd := wordVd w, sx := wordSx w, sy := wordSy w, lx := wbit w 4, hx := wbit w 2, ext := modsOpt w x })
  else .error .badExtension

/-- BALLOT (09 R161). -/
def asBallot (w x : W32) : Except DecodeErr Instr :=
  if wbit w 3 || wbit w 1 then .error .unusedField
  else if w.extractLsb' 6 6 ≠ 0x38 then .error .badSource
  else if modsZero w x then
    .ok (.ballot { vd := wordVd w, sx := wordSx w, half := wbit w 5, lx := wbit w 4, hx := wbit w 2, ext := modsOpt w x })
  else .error .badExtension

/-- Format VM (06 R111). -/
def asVM (c : VM → Instr) (w x : W32) : Except DecodeErr Instr :=
  if mextZero w x then
    .ok (c { vd := wordVd w, sx := wordSx w, ofs := w.extractLsb' 3 9, lx := wbit w 2, nt := wbit w 1, ext := mextOpt w x })
  else .error .badExtension

/-- SFULL and SEMPTY (10 R180). -/
def asLine (c : VLine → Instr) (w x : W32) : Except DecodeErr Instr :=
  if wordVd w ≠ 0 || wbit w 1 then .error .unusedField
  else if mextZero w x then
    .ok (c { sx := wordSx w, ofs := w.extractLsb' 3 9, lx := wbit w 2, ext := mextOpt w x })
  else .error .badExtension

/-- STAG and STINV (10 R182): OFS and NT are zero. -/
def asTag (c : VTag → Instr) (w x : W32) : Except DecodeErr Instr :=
  if w.extractLsb' 3 9 ≠ 0 || wbit w 1 then .error .unusedField
  else if mextZero w x then .ok (c { vd := wordVd w, sx := wordSx w, lx := wbit w 2, ext := mextOpt w x })
  else .error .badExtension

/-- FENCE (10 R185). -/
def asFence (w x : W32) : Except DecodeErr Instr :=
  if !wordExt w then .error .needsExtension
  else if w.extractLsb' 1 24 ≠ 0 || x.extractLsb' 23 9 ≠ 0 || x.extractLsb' 0 18 ≠ 0 then .error .unusedField
  else .ok (.fence { ord := x.extractLsb' 21 2, scp := x.extractLsb' 18 3 })

/-- WAITP (10 R186). -/
def asWaitp (w : W32) : Except DecodeErr Instr :=
  if w.extractLsb' 21 4 ≠ 0 || w.extractLsb' 0 12 ≠ 0 then .error .unusedField
  else .ok (.waitp { path := w.extractLsb' 19 2, sx := wordSx w })

/-! ### Control words (06 R112, 11 R188) -/

/-- FN. -/
def wordFn (w : W32) : BitVec 4 := w.extractLsb' 8 4
/-- AUX. -/
def wordAux (w : W32) : BitVec 5 := w.extractLsb' 3 5

/-- Which fields of a VC word may be nonzero: VD, SX, FN, AUX and LX. Bit 1 is reserved. -/
def vcZero (w : W32) (vd sx aux lx : Bool) : Bool :=
  (vd || decide (wordVd w = 0)) && (sx || decide (wordSx w = 0)) && (aux || decide (wordAux w = 0)) && (lx || !wbit w 2) &&
  !wbit w 1

/-- BRU and BRK (11 R190, R191). -/
def asBranch (c : VBranch → Instr) (w x : W32) : Except DecodeErr Instr :=
  if !wordExt w then .error .needsExtension
  else if vcZero w false true true true && decide (wordFn w = 0) && decide (w.extractLsb' 4 4 = 0) then
    .ok (c { sx := wordSx w, inv := wbit w 3, lx := wbit w 2, disp := x })
  else .error .unusedField

/-- A control word without an extension word whose FN is zero or selects it. -/
def asCtl (w : W32) (fn : Nat) (vd sx aux lx : Bool) (i : Instr) : Except DecodeErr Instr :=
  if vcZero w vd sx aux lx && decide (wordFn w = fn) && !wordExt w then .ok i else .error .unusedField

/-- The control majors 0x70 to 0x7F (06 R114, R116; 11 R188; 21 R319). -/
def decodeCtl (w x : W32) : Except DecodeErr Instr :=
  match (wordOp w).toNat with
  | 0x70 => asBranch .bru w x
  | 0x71 => asBranch .brk w x
  | 0x72 =>
    if !wordExt w then .error .needsExtension
    else if vcZero w true false false false && decide (wordFn w = 0) then .ok (.call (wordVd w) x) else .error .unusedField
  | 0x73 => asCtl w 0 false true false true (.ret (wordSx w) (wbit w 2))
  | 0x74 => asCtl w 0 false false false false .exit
  | 0x75 => asCtl w 0 false false false false .bar
  | 0x76 => needZero (!wbit w 7) (asCtl w 0 false true true false (.nbar (wordSx w) (w.extractLsb' 3 4)))
  | 0x77 => asCtl w 0 false false false false .kown
  | 0x78 => asCtl w 0 false false false false .kfree
  | 0x79 => needZero (!wbit w 24) (asCtl w 0 true true false true (.kwr (w.extractLsb' 19 5) (wordSx w) (wbit w 2)))
  | 0x7A =>
    needZero (decide (w.extractLsb' 22 3 = 0))
      (asCtl w 0 true true true true (.twait (w.extractLsb' 19 3) (wordSx w) (wordAux w) (wbit w 2)))
  | 0x7B => asCtl w 0 false false false false .yield
  | 0x7C =>
    match (wordFn w).toNat with
    | 0 => asCtl w 0 true true false false (.veer (wordVd w) (wordSx w))
    | 1 => asCtl w 1 true false false false (.veerMay (wordVd w))
    | _ => .error .unassigned
  | 0x7D =>
    match (wordFn w).toNat with
    | 0 => asCtl w 0 false false true false (.trap (wordAux w))
    | 1 => asCtl w 1 false false false false .bkpt
    | 2 => needZero (decide (w.extractLsb' 4 4 = 0)) (asCtl w 2 false false true false (.tret (wbit w 3)))
    | _ => .error .unassigned
  | 0x7F =>
    match (wordFn w).toNat with
    | 0 => asCtl w 0 true false false false (.pacq (wordVd w))
    | 1 => asCtl w 1 false false false false .prel
    | 2 => asCtl w 2 true false false false (.pget (wordVd w))
    | 3 => asCtl w 3 false false false false .pdone
    | _ => .error .unassigned
  | _ => .error .unassigned

/-- The unary ALU group (06 R115). -/
def decodeUnaryAlu (w x : W32) : Except DecodeErr Instr :=
  match (wordSy w).toNat with
  | 0x00 => asVU .mov w x
  | 0x01 => asVU .not w x
  | 0x02 => asVU .neg w x
  | 0x03 => asVU .iabs w x
  | 0x04 => asVU .popc w x
  | 0x05 => asVU .clz w x
  | 0x06 => asVU .ctz w x
  | 0x07 => asVU .brev w x
  | 0x08 => asVU .fabs w x
  | 0x09 => asVU .fneg w x
  | 0x0A => asVU .rcp w x
  | 0x0B => asVU .rsq w x
  | 0x0C => asVU .sqrt w x
  | 0x0D => asVU .exp2 w x
  | 0x0E => asVU .log2 w x
  | 0x0F => asVU .sin w x
  | 0x10 => asVU .cos w x
  | 0x11 => asVU .flr w x
  | 0x12 => asVU .ceil w x
  | 0x13 => asVU .trunc w x
  | 0x14 => asVU .rnde w x
  | _ => .error .unassigned

/-- The unary CONV group (06 R115). -/
def decodeUnaryConv (w x : W32) : Except DecodeErr Instr :=
  match (wordSy w).toNat with
  | 0x00 => asVU .cvthf w x
  | 0x01 => asVU .cvtbf w x
  | 0x02 => asVU .cvtfh w x
  | 0x03 => asVU .cvtfb w x
  | _ => .error .unassigned

/-- The ALU and CONV majors 0x00 to 0x3F (06 R114). -/
def decodeAlu (w x : W32) : Except DecodeErr Instr :=
  match (wordOp w).toNat with
  | 0x00 => asV3 .iadd w x
  | 0x01 => asV3 .isub w x
  | 0x02 => asV3 .imul w x
  | 0x03 => asV3 .imulh w x
  | 0x04 => asV3 .imulhu w x
  | 0x05 => asV3 .imad w x
  | 0x06 => asV3 .imin w x
  | 0x07 => asV3 .imax w x
  | 0x08 => asV3 .umin w x
  | 0x09 => asV3 .umax w x
  | 0x0A => asV3 .and w x
  | 0x0B => asV3 .or w x
  | 0x0C => asV3 .xor w x
  | 0x0D => asV3 .andn w x
  | 0x0E => asV3 .shl w x
  | 0x0F => asV3 .shr w x
  | 0x10 => asV3 .sra w x
  | 0x11 => asV3 .rotl w x
  | 0x12 => asV3 .bfx w x
  | 0x13 => asV3 .bfxs w x
  | 0x14 => asV3 .bfi w x
  | 0x15 => asV3 .perm w x
  | 0x16 => asV3 .sel w x
  | 0x17 => asCmp .cmpeq w x
  | 0x18 => asCmp .cmpne w x
  | 0x19 => asCmp .cmplt w x
  | 0x1A => asCmp .cmple w x
  | 0x1B => asCmp .cmpltu w x
  | 0x1C => asCmp .cmpleu w x
  | 0x1D => asCmp .fcmpeq w x
  | 0x1E => asCmp .fcmplt w x
  | 0x1F => asCmp .fcmple w x
  | 0x20 => asCmp .fcmpun w x
  | 0x21 => asV3 .fadd w x
  | 0x22 => asV3 .fsub w x
  | 0x23 => asV3 .fmul w x
  | 0x24 => asV3 .ffma w x
  | 0x25 => asV3 .fmin w x
  | 0x26 => asV3 .fmax w x
  | 0x27 => asV3 .hadd2 w x
  | 0x28 => asV3 .hmul2 w x
  | 0x29 => asV3 .hfma2 w x
  | 0x2A => asV3 .badd2 w x
  | 0x2B => asV3 .bmul2 w x
  | 0x2C => asV3 .bfma2 w x
  | 0x2D =>
    if !wordExt w then .error .needsExtension
    else needZero (decide (w.extractLsb' 1 18 = 0)) (.ok (.movi { vd := wordVd w, imm := x }))
  | 0x2E =>
    if !wordExt w then .error .needsExtension
    else needZero (decide (wordSy w = 0) && !wbit w 3 && !wbit w 1)
      (.ok (.iaddi { vd := wordVd w, sx := wordSx w, lx := wbit w 4, hx := wbit w 2, imm := x }))
  | 0x30 => asVU0 .cvtfi w x
  | 0x31 => asVU0 .cvtfu w x
  | 0x32 => asVU0 .cvtif w x
  | 0x33 => asVU0 .cvtuf w x
  | 0x34 => asPack .nrw2 w x
  | 0x35 => asPack .nrw4 w x
  | 0x36 => asPack .nrw8 w x
  | 0x37 => asPack .wdn2 w x
  | 0x38 => asPack .wdn4 w x
  | 0x39 => asPack .wdn8 w x
  | 0x3E => decodeUnaryAlu w x
  | 0x3F => decodeUnaryConv w x
  | _ => .error .unassigned

/-- The MEM and SCR majors 0x40 to 0x5F (06 R114, 10). -/
def decodeMem (w x : W32) : Except DecodeErr Instr :=
  match (wordOp w).toNat with
  | 0x40 => asVM .ldg8 w x
  | 0x41 => asVM .ldg8s w x
  | 0x42 => asVM .ldg16 w x
  | 0x43 => asVM .ldg16s w x
  | 0x44 => asVM .ldg32 w x
  | 0x45 => asVM .ldg64 w x
  | 0x46 => asVM .stg8 w x
  | 0x47 => asVM .stg16 w x
  | 0x48 => asVM .stg32 w x
  | 0x49 => asVM .stg64 w x
  | 0x4A => asVM .ldgs w x
  | 0x4B => asVM .atomg w x
  | 0x4C => asFence w x
  | 0x4D => asWaitp w
  | 0x50 => asVM .lds8 w x
  | 0x51 => asVM .lds16 w x
  | 0x52 => asVM .lds32 w x
  | 0x53 => asVM .lds64 w x
  | 0x54 => asVM .sts8 w x
  | 0x55 => asVM .sts16 w x
  | 0x56 => asVM .sts32 w x
  | 0x57 => asVM .sts64 w x
  | 0x58 => asVM .ldsC w x
  | 0x5A => asLine .sfull w x
  | 0x5B => asLine .sempty w x
  | 0x5C => asTag .stag w x
  | 0x5D => asVM .stset w x
  | 0x5E => asTag .stinv w x
  | 0x5F => asVM .atoms w x
  | _ => .error .unassigned

/-- The XLANE majors 0x60 to 0x6F (06 R114, 09). -/
def decodeLane (w x : W32) : Except DecodeErr Instr :=
  match (wordOp w).toNat with
  | 0x60 => asV3 .shfl w x
  | 0x61 => asV3 .shflup w x
  | 0x62 => asV3 .shfldn w x
  | 0x63 => asV3 .shflx w x
  | 0x64 => asBcast w x
  | 0x65 => asVU0 .vany w x
  | 0x66 => asVU0 .vall w x
  | 0x67 => asBallot w x
  | 0x68 => asScan .scan w x
  | 0x69 => asScan .fscan w x
  | 0x6A => asScan .red w x
  | 0x6B => asScan .fred w x
  | 0x6C => asMask .mand w x
  | 0x6D => asMask .mor w x
  | 0x6E => needZero (decide (w.extractLsb' 0 19 = 0)) (.ok (.regroup (wordVd w)))
  | 0x6F => needZero (decide (w.extractLsb' 0 19 = 0)) (.ok (.ungroup (wordVd w)))
  | _ => .error .unassigned

/-- A vector word and the word after it (06 R104); the second is read only where the first has E set. -/
def decodeVector (w x : W32) : Except DecodeErr Instr :=
  if (wordOp w).toNat < 0x40 then decodeAlu w x
  else if (wordOp w).toNat < 0x60 then decodeMem w x
  else if (wordOp w).toNat < 0x70 then decodeLane w x
  else decodeCtl w x

/-- A clause header (06 R100). -/
def decodeHeader (w : W32) : Header :=
  { resv := w.extractLsb' 28 4, yld := wbit w 27, fb := w.extractLsb' 23 4, fa := w.extractLsb' 19 4,
    wm := w.extractLsb' 7 12, cls := w.extractLsb' 4 3, cnt := w.extractLsb' 0 4 }

/-! ### Hart words (15 R211, R225 to R235; 17 R259; 19 R301) -/

/-- RD. -/
def hRd (w : W32) : BitVec 5 := w.extractLsb' 7 5
/-- RS1. -/
def hRs1 (w : W32) : BitVec 5 := w.extractLsb' 15 5
/-- RS2. -/
def hRs2 (w : W32) : BitVec 5 := w.extractLsb' 20 5
/-- F3. -/
def hF3 (w : W32) : BitVec 3 := w.extractLsb' 12 3
/-- F7. -/
def hF7 (w : W32) : BitVec 7 := w.extractLsb' 25 7
/-- The I immediate. -/
def hImm (w : W32) : BitVec 12 := w.extractLsb' 20 12
/-- The S immediate. -/
def hImmS (w : W32) : BitVec 12 := w.extractLsb' 25 7 ++ w.extractLsb' 7 5
/-- The B offset. -/
def hImmB (w : W32) : BitVec 13 :=
  w.extractLsb' 31 1 ++ w.extractLsb' 7 1 ++ w.extractLsb' 25 6 ++ w.extractLsb' 8 4 ++ (0 : BitVec 1)
/-- The J offset. -/
def hImmJ (w : W32) : BitVec 21 :=
  w.extractLsb' 31 1 ++ w.extractLsb' 12 8 ++ w.extractLsb' 20 1 ++ w.extractLsb' 21 10 ++ (0 : BitVec 1)
/-- A 6-bit shift amount as an immediate. -/
def hSh6 (w : W32) : BitVec 12 := (0 : BitVec 6) ++ w.extractLsb' 20 6
/-- A 5-bit shift amount as an immediate. -/
def hSh5 (w : W32) : BitVec 12 := (0 : BitVec 7) ++ w.extractLsb' 20 5

/-- Accept a hart word when its fixed fields hold. -/
def hIf (b : Bool) (i : Instr) : Except DecodeErr Instr := if b then .ok i else .error .unassigned

/-- custom-0 (15 R226 to R235). -/
def decodeCustom0 (w : W32) : Except DecodeErr Instr :=
  match (hF3 w).toNat with
  | 0 =>
    match (hF7 w).toNat with
    | 0 => hIf (w = 0x0000000B) .hend
    | 1 => hIf (w = 0x0200000B) .hpause
    | _ => .error .unassigned
  | 1 =>
    match (hF7 w).toNat with
    | 0 => hIf (decide (hRs2 w = 0) && decide (hRd w = 0)) (.uqpush (hRs1 w))
    | 1 => hIf (decide (hRs2 w = 0)) (.uqtry (hRd w) (hRs1 w))
    | _ => .error .unassigned
  | 2 => hIf (decide (w.extractLsb' 27 5 = 0) && decide (hRs1 w = 0)) (.tlrd (hRd w) (wbit w 26) (w.extractLsb' 20 6))
  | 3 => hIf (decide (w.extractLsb' 29 3 = 0)) (.tlwait (hRd w) (hRs1 w) (w.extractLsb' 26 3) (w.extractLsb' 20 6))
  | 4 =>
    hIf (decide (w.extractLsb' 25 7 = 0) && decide (hRs1 w = 0) && decide (hRd w = 0))
      (.xfence (w.extractLsb' 20 2) (w.extractLsb' 22 3))
  | _ => .error .unassigned

/-- custom-1, the matrix instructions (17 R259). -/
def decodeCustom1 (w : W32) : Except DecodeErr Instr :=
  match (hF3 w).toNat with
  | 0 =>
    match (hF7 w).toNat with
    | 0 => .ok (.mmulMap (hRd w) (hRs1 w) (hRs2 w))
    | 1 => hIf (decide (w.extractLsb' 17 3 = 0)) (.mmulFeed (hRd w) (w.extractLsb' 15 2) (hRs2 w))
    | 2 => hIf (decide (hRs1 w = 0)) (.mmulWest (hRd w) (hRs2 w))
    | _ => .error .unassigned
  | 1 => hIf (decide (hF7 w = 0)) (.mldw (hRd w) (hRs1 w) (hRs2 w))
  | 2 => hIf (decide (hF7 w = 0)) (.mdrain (hRd w) (hRs1 w) (hRs2 w))
  | 3 =>
    match (hF7 w).toNat with
    | 0 => hIf (decide (hRs2 w = 0)) (.mzero (hRd w) (hRs1 w))
    | 1 => hIf (decide (hRs2 w = 0) && decide (hRs1 w = 0)) (.mstat (hRd w))
    | _ => .error .unassigned
  | 4 => hIf (decide (w.extractLsb' 24 8 = 0) && decide (hRs1 w = 0)) (.mbegin (hRd w) (w.extractLsb' 20 4))
  | 5 => hIf (decide (hImm w = 0) && decide (hRs1 w = 0)) (.mend (hRd w))
  | 6 =>
    hIf (decide (w.extractLsb' 24 8 = 0)) (.mchain (hRd w) (hRs1 w) (w.extractLsb' 22 2) (w.extractLsb' 20 2))
  | _ => .error .unassigned

/-- custom-2, the task instructions (19 R301). -/
def decodeCustom2 (w : W32) : Except DecodeErr Instr :=
  if hF7 w ≠ 0 || hRs2 w ≠ 0 then .error .unassigned
  else
    match (hF3 w).toNat with
    | 0 => .ok (.tenq (hRd w) (hRs1 w))
    | 1 => .ok (.tsig (hRd w) (hRs1 w))
    | 2 => .ok (.tcard (hRd w) (hRs1 w))
    | _ => .error .unassigned

/-- OP-IMM and OP-IMM-32. -/
def decodeOpImm (w : W32) : Except DecodeErr Instr :=
  match (hF3 w).toNat with
  | 0 => .ok (.rv64Instruction (.aluImm .add (hRd w) (hRs1 w) (hImm w)))
  | 1 => hIf (decide (w.extractLsb' 26 6 = 0)) (.rv64Instruction (.aluImm .sll (hRd w) (hRs1 w) (hSh6 w)))
  | 2 => .ok (.rv64Instruction (.aluImm .slt (hRd w) (hRs1 w) (hImm w)))
  | 3 => .ok (.rv64Instruction (.aluImm .sltu (hRd w) (hRs1 w) (hImm w)))
  | 4 => .ok (.rv64Instruction (.aluImm .xor (hRd w) (hRs1 w) (hImm w)))
  | 5 =>
    match (w.extractLsb' 26 6).toNat with
    | 0 => .ok (.rv64Instruction (.aluImm .srl (hRd w) (hRs1 w) (hSh6 w)))
    | 16 => .ok (.rv64Instruction (.aluImm .sra (hRd w) (hRs1 w) (hSh6 w)))
    | _ => .error .unassigned
  | 6 => .ok (.rv64Instruction (.aluImm .or (hRd w) (hRs1 w) (hImm w)))
  | _ => .ok (.rv64Instruction (.aluImm .and (hRd w) (hRs1 w) (hImm w)))

/-- OP-IMM-32. -/
def decodeOpImmW (w : W32) : Except DecodeErr Instr :=
  match (hF3 w).toNat with
  | 0 => .ok (.rv64Instruction (.aluImmW .add (hRd w) (hRs1 w) (hImm w)))
  | 1 => hIf (decide (hF7 w = 0)) (.rv64Instruction (.aluImmW .sll (hRd w) (hRs1 w) (hSh5 w)))
  | 5 =>
    match (hF7 w).toNat with
    | 0 => .ok (.rv64Instruction (.aluImmW .srl (hRd w) (hRs1 w) (hSh5 w)))
    | 32 => .ok (.rv64Instruction (.aluImmW .sra (hRd w) (hRs1 w) (hSh5 w)))
    | _ => .error .unassigned
  | _ => .error .unassigned

/-- The operation of an OP word by F7 and F3. -/
def rvAluOf (f7 f3 : Nat) : Option RvAlu :=
  match f7 with
  | 0 =>
    match f3 with
    | 0 => some .add | 1 => some .sll | 2 => some .slt | 3 => some .sltu | 4 => some .xor | 5 => some .srl | 6 => some .or
    | _ => some .and
  | 1 =>
    match f3 with
    | 0 => some .mul | 1 => some .mulh | 2 => some .mulhsu | 3 => some .mulhu | 4 => some .div | 5 => some .divu
    | 6 => some .rem | _ => some .remu
  | 32 => match f3 with | 0 => some .sub | 5 => some .sra | _ => none
  | _ => none

/-- The operation of an OP-32 word by F7 and F3. -/
def rvAluWOf (f7 f3 : Nat) : Option RvAlu :=
  match f7 with
  | 0 => match f3 with | 0 => some .add | 1 => some .sll | 5 => some .srl | _ => none
  | 1 => match f3 with | 0 => some .mul | 4 => some .div | 5 => some .divu | 6 => some .rem | 7 => some .remu | _ => none
  | 32 => match f3 with | 0 => some .sub | 5 => some .sra | _ => none
  | _ => none

/-- The condition of a branch by F3. -/
def rvCondOf : Nat → Option RvCond
  | 0 => some .eq | 1 => some .ne | 4 => some .lt | 5 => some .ge | 6 => some .ltu | 7 => some .geu | _ => none

/-- The width of a load by F3. -/
def rvLoadOf : Nat → Option RvWidth
  | 0 => some .b | 1 => some .h | 2 => some .w | 3 => some .d | 4 => some .bu | 5 => some .hu | 6 => some .wu | _ => none

/-- The width of a store by F3. -/
def rvStoreOf : Nat → Option RvWidth
  | 0 => some .b | 1 => some .h | 2 => some .w | 3 => some .d | _ => none

/-- The operation of an AMO by funct5. -/
def rvAmoOf : Nat → Option RvAmo
  | 0x01 => some .swap | 0x00 => some .add | 0x04 => some .xor | 0x0C => some .and | 0x08 => some .or | 0x10 => some .min
  | 0x14 => some .max | 0x18 => some .minu | 0x1C => some .maxu | _ => none

/-- The A extension. -/
def decodeAmo (w : W32) : Except DecodeErr Instr :=
  if !(hF3 w = 2 || hF3 w = 3) then .error .unassigned
  else
    match (w.extractLsb' 27 5).toNat with
    | 0x02 => hIf (decide (hRs2 w = 0)) (.lr (wbit w 12) (wbit w 26) (wbit w 25) (hRd w) (hRs1 w))
    | 0x03 => .ok (.sc (wbit w 12) (wbit w 26) (wbit w 25) (hRd w) (hRs1 w) (hRs2 w))
    | f =>
      match rvAmoOf f with
      | some op => .ok (.hartAmo op (wbit w 12) (wbit w 26) (wbit w 25) (hRd w) (hRs1 w) (hRs2 w))
      | none => .error .unassigned

/-- SYSTEM. -/
def decodeSystem (w : W32) : Except DecodeErr Instr :=
  match (hF3 w).toNat with
  | 0 =>
    if w = 0x00000073 then .ok .ecall
    else if w = 0x00100073 then .ok .ebreak
    else if w = 0x10500073 then .ok .wfi
    else if w = 0x30200073 then .ok (.rv64Instruction .mret)
    else .error .unassigned
  | 1 => .ok (.csrAccess .rw false (hImm w) (hRd w) (hRs1 w))
  | 2 => .ok (.csrAccess .rs false (hImm w) (hRd w) (hRs1 w))
  | 3 => .ok (.csrAccess .rc false (hImm w) (hRd w) (hRs1 w))
  | 5 => .ok (.csrAccess .rw true (hImm w) (hRd w) (hRs1 w))
  | 6 => .ok (.csrAccess .rs true (hImm w) (hRd w) (hRs1 w))
  | 7 => .ok (.csrAccess .rc true (hImm w) (hRd w) (hRs1 w))
  | _ => .error .unassigned

/-- An option as a decoded instruction. -/
def hOpt {α : Type} (o : Option α) (f : α → Instr) : Except DecodeErr Instr :=
  match o with
  | some a => .ok (f a)
  | none => .error .unassigned

/-- A hart word (15 R211, R226). -/
def decodeHart (w : W32) : Except DecodeErr Instr :=
  match (w.extractLsb' 0 7).toNat with
  | 0x0B => decodeCustom0 w
  | 0x2B => decodeCustom1 w
  | 0x5B => decodeCustom2 w
  | 0x37 => .ok (.rv64Instruction (.lui (hRd w) (w.extractLsb' 12 20)))
  | 0x17 => .ok (.rv64Instruction (.auipc (hRd w) (w.extractLsb' 12 20)))
  | 0x6F => .ok (.rv64Instruction (.jal (hRd w) (hImmJ w)))
  | 0x67 => hIf (decide (hF3 w = 0)) (.rv64Instruction (.jalr (hRd w) (hRs1 w) (hImm w)))
  | 0x63 => hOpt (rvCondOf (hF3 w).toNat) fun c => .rv64Instruction (.branch c (hRs1 w) (hRs2 w) (hImmB w))
  | 0x03 => hOpt (rvLoadOf (hF3 w).toNat) fun wd => .hartLoad wd (hRd w) (hRs1 w) (hImm w)
  | 0x23 => hOpt (rvStoreOf (hF3 w).toNat) fun wd => .hartStore wd (hRs1 w) (hRs2 w) (hImmS w)
  | 0x13 => decodeOpImm w
  | 0x1B => decodeOpImmW w
  | 0x33 =>
    hOpt (rvAluOf (hF7 w).toNat (hF3 w).toNat) fun op => .rv64Instruction (.alu op (hRd w) (hRs1 w) (hRs2 w))
  | 0x3B =>
    hOpt (rvAluWOf (hF7 w).toNat (hF3 w).toNat) fun op => .rv64Instruction (.aluW op (hRd w) (hRs1 w) (hRs2 w))
  | 0x0F =>
    match (hF3 w).toNat with
    | 0 => .ok (.hartFence (w.extractLsb' 28 4) (w.extractLsb' 24 4) (w.extractLsb' 20 4))
    | 1 => .ok .fenceI
    | _ => .error .unassigned
  | 0x2F => decodeAmo w
  | 0x73 => decodeSystem w
  | _ => .error .unassigned

/-! ### Command frames (23 R331, R336) -/

/-- A frame, by its code; an unknown code is the row FRAME_UNKNOWN_OPC (23 R333). -/
def decodeFrame (f : Frame) : Instr :=
  match f.opc.toNat with
  | 0x0001 => .queueReset f | 0x0010 => .map f | 0x0011 => .unmap f | 0x0012 => .protect f | 0x0013 => .place f
  | 0x0014 => .portBind f | 0x0020 => .objLoad f | 0x0021 => .objUnload f | 0x0030 => .launch f | 0x0031 => .gangLaunch f
  | 0x0040 => .taskEnq f | 0x0041 => .taskReplay f | 0x0042 => .taskCancel f | 0x0043 => .teamResume f | 0x0044 => .teamEnd f
  | 0x0050 => .pipeBind f | 0x0060 => .fenceCommand f | 0x0061 => .signal f | 0x0062 => .wait f | 0x0070 => .partition f
  | 0x0071 => .functionReset f | 0x0080 => .preempt f | 0x0081 => .resume f | 0x0082 => .checkpoint f | 0x0083 => .restore f
  | 0x0090 => .debugStop f | 0x0091 => .debugResume f | 0x0092 => .debugPlant f | 0x0093 => .debugRemove f
  | 0x0094 => .debugRead f | 0x00A0 => .powerSet f | 0x00A1 => .telemetrySet f | 0x00B0 => .patchLoad f | 0x00B1 => .attest f
  | _ => .frameUnknownOpc f

/-! ### The encoder -/

/-- A bit. -/
def eb (b : Bool) : BitVec 1 := BitVec.ofBool b

/-- The modifier word (06 R108). -/
def encMods (m : Mods) : W32 :=
  m.sz ++ eb m.lz ++ eb m.hz ++ m.xm ++ m.xk ++ m.rm ++ eb m.sat ++ eb m.nx ++ eb m.ny ++ (0 : BitVec 9)

/-- The extension word of VM (06 R111). -/
def encMExt (e : MExt) : W32 := e.sz ++ eb e.lz ++ eb e.hz ++ e.ord ++ e.scp ++ e.aop ++ (0 : BitVec 14)

/-- An optional modifier word. -/
def encModsL : Option Mods → List W32
  | none => []
  | some m => [encMods m]

/-- An optional VM extension word. -/
def encMExtL : Option MExt → List W32
  | none => []
  | some m => [encMExt m]

/-- Fields of V3 in order (06 R105). -/
def wordV3 (op : BitVec 7) (vd : BitVec 6) (sx sy : BitVec 7) (lx ly hx hy e : Bool) : W32 :=
  op ++ vd ++ sx ++ sy ++ eb lx ++ eb ly ++ eb hx ++ eb hy ++ eb e

/-- Fields of VM in order (06 R111). -/
def wordVM (op : BitVec 7) (vd : BitVec 6) (sx : BitVec 7) (ofs : BitVec 9) (lx nt e : Bool) : W32 :=
  op ++ vd ++ sx ++ ofs ++ eb lx ++ eb nt ++ eb e

/-- Fields of VC in order (06 R112). -/
def wordVC (op : BitVec 7) (vd : BitVec 6) (sx : BitVec 7) (fn : BitVec 4) (aux : BitVec 5) (lx e : Bool) : W32 :=
  op ++ vd ++ sx ++ fn ++ aux ++ eb lx ++ (0 : BitVec 1) ++ eb e

/-- V3. -/
def encV3 (op : BitVec 7) (o : V3) : List W32 :=
  wordV3 op o.vd o.sx o.sy o.lx o.ly o.hx o.hy o.ext.isSome :: encModsL o.ext

/-- V3 with a mask destination. -/
def encCmp (op : BitVec 7) (o : VCmp) : List W32 :=
  wordV3 op ((0 : BitVec 3) ++ o.md) o.sx o.sy o.lx o.ly o.hx o.hy o.ext.isSome :: encModsL o.ext

/-- One source, with SY given. -/
def encVU (op sy : BitVec 7) (o : VU) : List W32 :=
  wordV3 op o.vd o.sx sy o.lx false o.hx false o.ext.isSome :: encModsL o.ext

/-- A packed conversion. -/
def encPack (op : BitVec 7) (o : VPack) : List W32 :=
  wordV3 op o.vd o.sx (o.fmt ++ o.grp) o.lx false o.hx false o.ext.isSome :: encModsL o.ext

/-- A mask operation. -/
def encMask (op : BitVec 7) (o : VMask) : List W32 :=
  wordV3 op ((0 : BitVec 3) ++ o.md) ((0 : BitVec 4) ++ o.mx) ((0 : BitVec 4) ++ o.my) false false false false o.ext.isSome ::
    encModsL o.ext

/-- A scan or reduction. -/
def encScan (op : BitVec 7) (o : VScan) : List W32 :=
  wordV3 op o.vd o.sx ((0 : BitVec 3) ++ eb o.ex ++ o.opc) o.lx false o.hx false o.ext.isSome :: encModsL o.ext

/-- VM. -/
def encVM (op : BitVec 7) (o : VM) : List W32 :=
  wordVM op o.vd o.sx o.ofs o.lx o.nt o.ext.isSome :: encMExtL o.ext

/-- SFULL and SEMPTY. -/
def encLine (op : BitVec 7) (o : VLine) : List W32 :=
  wordVM op 0 o.sx o.ofs o.lx false o.ext.isSome :: encMExtL o.ext

/-- STAG and STINV. -/
def encTag (op : BitVec 7) (o : VTag) : List W32 :=
  wordVM op o.vd o.sx 0 o.lx false o.ext.isSome :: encMExtL o.ext

/-- BRU and BRK. -/
def encBranch (op : BitVec 7) (o : VBranch) : List W32 :=
  [wordVC op 0 o.sx 0 ((0 : BitVec 4) ++ eb o.inv) o.lx true, o.disp]

/-- Format XR (15 R225). -/
def encXR (opc : BitVec 7) (f3 : BitVec 3) (f7 : BitVec 7) (rd rs1 rs2 : BitVec 5) : List W32 :=
  [f7 ++ rs2 ++ rs1 ++ f3 ++ rd ++ opc]

/-- Format XI (15 R225), which is also RISC-V's I type. -/
def encXI (opc : BitVec 7) (f3 : BitVec 3) (rd rs1 : BitVec 5) (imm : BitVec 12) : List W32 :=
  [imm ++ rs1 ++ f3 ++ rd ++ opc]

/-- F3 of an immediate ALU operation. -/
def rvAluF3 : RvAlu → BitVec 3
  | .add => 0 | .sub => 0 | .sll => 1 | .slt => 2 | .sltu => 3 | .xor => 4 | .srl => 5 | .sra => 5 | .or => 6 | .and => 7
  | .mul => 0 | .mulh => 1 | .mulhsu => 2 | .mulhu => 3 | .div => 4 | .divu => 5 | .rem => 6 | .remu => 7

/-- F7 of a register ALU operation. -/
def rvAluF7 : RvAlu → BitVec 7
  | .add => 0 | .sub => 32 | .sll => 0 | .slt => 0 | .sltu => 0 | .xor => 0 | .srl => 0 | .sra => 32 | .or => 0 | .and => 0
  | .mul => 1 | .mulh => 1 | .mulhsu => 1 | .mulhu => 1 | .div => 1 | .divu => 1 | .rem => 1 | .remu => 1

/-- F3 of a branch. -/
def rvCondF3 : RvCond → BitVec 3
  | .eq => 0 | .ne => 1 | .lt => 4 | .ge => 5 | .ltu => 6 | .geu => 7

/-- F3 of a load or store. -/
def rvWidthF3 : RvWidth → BitVec 3
  | .b => 0 | .h => 1 | .w => 2 | .d => 3 | .bu => 4 | .hu => 5 | .wu => 6

/-- funct5 of an AMO. -/
def rvAmoF5 : RvAmo → BitVec 5
  | .swap => 1 | .add => 0 | .xor => 4 | .and => 12 | .or => 8 | .min => 16 | .max => 20 | .minu => 24 | .maxu => 28

/-- An arithmetic right shift sets bit 30. -/
def encShift (op : RvAlu) (imm : BitVec 12) : BitVec 12 := if op = .sra then imm ||| 0x400 else imm

/-- RV64I and M. -/
def encRv : RvOp → List W32
  | .lui rd imm => [imm ++ rd ++ (0x37 : BitVec 7)]
  | .auipc rd imm => [imm ++ rd ++ (0x17 : BitVec 7)]
  | .jal rd off =>
    [off.extractLsb' 20 1 ++ off.extractLsb' 1 10 ++ off.extractLsb' 11 1 ++ off.extractLsb' 12 8 ++ rd ++ (0x6F : BitVec 7)]
  | .jalr rd rs1 imm => encXI 0x67 0 rd rs1 imm
  | .branch c rs1 rs2 off =>
    [off.extractLsb' 12 1 ++ off.extractLsb' 5 6 ++ rs2 ++ rs1 ++ rvCondF3 c ++ off.extractLsb' 1 4 ++ off.extractLsb' 11 1 ++
      (0x63 : BitVec 7)]
  | .aluImm op rd rs1 imm => encXI 0x13 (rvAluF3 op) rd rs1 (encShift op imm)
  | .aluImmW op rd rs1 imm => encXI 0x1B (rvAluF3 op) rd rs1 (encShift op imm)
  | .alu op rd rs1 rs2 => encXR 0x33 (rvAluF3 op) (rvAluF7 op) rd rs1 rs2
  | .aluW op rd rs1 rs2 => encXR 0x3B (rvAluF3 op) (rvAluF7 op) rd rs1 rs2
  | .mret => [0x30200073]

/-- F3 of a CSR instruction. -/
def csrF3 (op : CsrOp) (imm : Bool) : BitVec 3 :=
  match op with
  | .rw => if imm then 5 else 1
  | .rs => if imm then 6 else 2
  | .rc => if imm then 7 else 3

/-- The words of a frame, lowest first. -/
def encFrame (f : Frame) : List W32 :=
  (List.range 32).map fun i => f.extractLsb' (32 * i) 32

/-- The words of a well-formed instruction; a step without an encoding has none. -/
def encode : Instr → List W32
  | .iadd o => encV3 0x00 o
  | .isub o => encV3 0x01 o
  | .imul o => encV3 0x02 o
  | .imulh o => encV3 0x03 o
  | .imulhu o => encV3 0x04 o
  | .imad o => encV3 0x05 o
  | .imin o => encV3 0x06 o
  | .imax o => encV3 0x07 o
  | .umin o => encV3 0x08 o
  | .umax o => encV3 0x09 o
  | .and o => encV3 0x0A o
  | .or o => encV3 0x0B o
  | .xor o => encV3 0x0C o
  | .andn o => encV3 0x0D o
  | .shl o => encV3 0x0E o
  | .shr o => encV3 0x0F o
  | .sra o => encV3 0x10 o
  | .rotl o => encV3 0x11 o
  | .bfx o => encV3 0x12 o
  | .bfxs o => encV3 0x13 o
  | .bfi o => encV3 0x14 o
  | .perm o => encV3 0x15 o
  | .sel o => encV3 0x16 o
  | .fadd o => encV3 0x21 o
  | .fsub o => encV3 0x22 o
  | .fmul o => encV3 0x23 o
  | .ffma o => encV3 0x24 o
  | .fmin o => encV3 0x25 o
  | .fmax o => encV3 0x26 o
  | .hadd2 o => encV3 0x27 o
  | .hmul2 o => encV3 0x28 o
  | .hfma2 o => encV3 0x29 o
  | .badd2 o => encV3 0x2A o
  | .bmul2 o => encV3 0x2B o
  | .bfma2 o => encV3 0x2C o
  | .shfl o => encV3 0x60 o
  | .shflup o => encV3 0x61 o
  | .shfldn o => encV3 0x62 o
  | .shflx o => encV3 0x63 o
  | .cmpeq o => encCmp 0x17 o
  | .cmpne o => encCmp 0x18 o
  | .cmplt o => encCmp 0x19 o
  | .cmple o => encCmp 0x1A o
  | .cmpltu o => encCmp 0x1B o
  | .cmpleu o => encCmp 0x1C o
  | .fcmpeq o => encCmp 0x1D o
  | .fcmplt o => encCmp 0x1E o
  | .fcmple o => encCmp 0x1F o
  | .fcmpun o => encCmp 0x20 o
  | .movi o => [wordV3 0x2D o.vd 0 0 false false false false true, o.imm]
  | .iaddi o => [wordV3 0x2E o.vd o.sx 0 o.lx false o.hx false true, o.imm]
  | .cvtfi o => encVU 0x30 0 o
  | .cvtfu o => encVU 0x31 0 o
  | .cvtif o => encVU 0x32 0 o
  | .cvtuf o => encVU 0x33 0 o
  | .nrw2 o => encPack 0x34 o
  | .nrw4 o => encPack 0x35 o
  | .nrw8 o => encPack 0x36 o
  | .wdn2 o => encPack 0x37 o
  | .wdn4 o => encPack 0x38 o
  | .wdn8 o => encPack 0x39 o
  | .mov o => encVU 0x3E 0x00 o
  | .not o => encVU 0x3E 0x01 o
  | .neg o => encVU 0x3E 0x02 o
  | .iabs o => encVU 0x3E 0x03 o
  | .popc o => encVU 0x3E 0x04 o
  | .clz o => encVU 0x3E 0x05 o
  | .ctz o => encVU 0x3E 0x06 o
  | .brev o => encVU 0x3E 0x07 o
  | .fabs o => encVU 0x3E 0x08 o
  | .fneg o => encVU 0x3E 0x09 o
  | .rcp o => encVU 0x3E 0x0A o
  | .rsq o => encVU 0x3E 0x0B o
  | .sqrt o => encVU 0x3E 0x0C o
  | .exp2 o => encVU 0x3E 0x0D o
  | .log2 o => encVU 0x3E 0x0E o
  | .sin o => encVU 0x3E 0x0F o
  | .cos o => encVU 0x3E 0x10 o
  | .flr o => encVU 0x3E 0x11 o
  | .ceil o => encVU 0x3E 0x12 o
  | .trunc o => encVU 0x3E 0x13 o
  | .rnde o => encVU 0x3E 0x14 o
  | .cvthf o => encVU 0x3F 0x00 o
  | .cvtbf o => encVU 0x3F 0x01 o
  | .cvtfh o => encVU 0x3F 0x02 o
  | .cvtfb o => encVU 0x3F 0x03 o
  | .ldg8 o => encVM 0x40 o
  | .ldg8s o => encVM 0x41 o
  | .ldg16 o => encVM 0x42 o
  | .ldg16s o => encVM 0x43 o
  | .ldg32 o => encVM 0x44 o
  | .ldg64 o => encVM 0x45 o
  | .stg8 o => encVM 0x46 o
  | .stg16 o => encVM 0x47 o
  | .stg32 o => encVM 0x48 o
  | .stg64 o => encVM 0x49 o
  | .ldgs o => encVM 0x4A o
  | .atomg o => encVM 0x4B o
  | .lds8 o => encVM 0x50 o
  | .lds16 o => encVM 0x51 o
  | .lds32 o => encVM 0x52 o
  | .lds64 o => encVM 0x53 o
  | .sts8 o => encVM 0x54 o
  | .sts16 o => encVM 0x55 o
  | .sts32 o => encVM 0x56 o
  | .sts64 o => encVM 0x57 o
  | .ldsC o => encVM 0x58 o
  | .stset o => encVM 0x5D o
  | .atoms o => encVM 0x5F o
  | .fence o =>
    [wordVM 0x4C 0 0 0 false false true, (0 : BitVec 9) ++ o.ord ++ o.scp ++ (0 : BitVec 18)]
  | .waitp o => [wordVM 0x4D ((0 : BitVec 4) ++ o.path) o.sx 0 false false false]
  | .sfull o => encLine 0x5A o
  | .sempty o => encLine 0x5B o
  | .stag o => encTag 0x5C o
  | .stinv o => encTag 0x5E o
  | .bcast o => wordV3 0x64 o.vd o.sx o.sy o.lx false o.hx false o.ext.isSome :: encModsL o.ext
  | .vany o => encVU 0x65 0 o
  | .vall o => encVU 0x66 0 o
  | .ballot o => wordV3 0x67 o.vd o.sx ((0x38 : BitVec 6) ++ eb o.half) o.lx false o.hx false o.ext.isSome :: encModsL o.ext
  | .scan o => encScan 0x68 o
  | .fscan o => encScan 0x69 o
  | .red o => encScan 0x6A o
  | .fred o => encScan 0x6B o
  | .mand o => encMask 0x6C o
  | .mor o => encMask 0x6D o
  | .regroup vd => [wordV3 0x6E vd 0 0 false false false false false]
  | .ungroup vd => [wordV3 0x6F vd 0 0 false false false false false]
  | .bru o => encBranch 0x70 o
  | .brk o => encBranch 0x71 o
  | .call vd disp => [wordVC 0x72 vd 0 0 0 false true, disp]
  | .ret sx lx => [wordVC 0x73 0 sx 0 0 lx false]
  | .exit => [wordVC 0x74 0 0 0 0 false false]
  | .bar => [wordVC 0x75 0 0 0 0 false false]
  | .nbar sx id => [wordVC 0x76 0 sx 0 ((0 : BitVec 1) ++ id) false false]
  | .kown => [wordVC 0x77 0 0 0 0 false false]
  | .kfree => [wordVC 0x78 0 0 0 0 false false]
  | .kwr kd sx lx => [wordVC 0x79 ((0 : BitVec 1) ++ kd) sx 0 0 lx false]
  | .twait scp sx tl lx => [wordVC 0x7A ((0 : BitVec 3) ++ scp) sx 0 tl lx false]
  | .yield => [wordVC 0x7B 0 0 0 0 false false]
  | .veer vd sx => [wordVC 0x7C vd sx 0 0 false false]
  | .veerMay vd => [wordVC 0x7C vd 0 1 0 false false]
  | .trap n => [wordVC 0x7D 0 0 0 n false false]
  | .bkpt => [wordVC 0x7D 0 0 1 0 false false]
  | .tret skip => [wordVC 0x7D 0 0 2 ((0 : BitVec 4) ++ eb skip) false false]
  | .pacq vd => [wordVC 0x7F vd 0 0 0 false false]
  | .prel => [wordVC 0x7F 0 0 1 0 false false]
  | .pget vd => [wordVC 0x7F vd 0 2 0 false false]
  | .pdone => [wordVC 0x7F 0 0 3 0 false false]
  | .clauseStart h => [h.resv ++ eb h.yld ++ h.fb ++ h.fa ++ h.wm ++ h.cls ++ h.cnt]
  | .hend => [0x0000000B]
  | .hpause => [0x0200000B]
  | .uqpush rs1 => encXR 0x0B 1 0 0 rs1 0
  | .uqtry rd rs1 => encXR 0x0B 1 1 rd rs1 0
  | .tlrd rd iss tl => encXI 0x0B 2 rd 0 ((0 : BitVec 5) ++ eb iss ++ tl)
  | .tlwait rd rs1 scp tl => encXI 0x0B 3 rd rs1 ((0 : BitVec 3) ++ scp ++ tl)
  | .xfence ord scp => encXI 0x0B 4 0 0 ((0 : BitVec 7) ++ scp ++ ord)
  | .hartLoad wd rd rs1 imm => encXI 0x03 (rvWidthF3 wd) rd rs1 imm
  | .hartStore wd rs1 rs2 imm =>
    [imm.extractLsb' 5 7 ++ rs2 ++ rs1 ++ rvWidthF3 wd ++ imm.extractLsb' 0 5 ++ (0x23 : BitVec 7)]
  | .hartAmo op dw aq rl rd rs1 rs2 =>
    encXR 0x2F ((1 : BitVec 2) ++ eb dw) (rvAmoF5 op ++ eb aq ++ eb rl) rd rs1 rs2
  | .lr dw aq rl rd rs1 => encXR 0x2F ((1 : BitVec 2) ++ eb dw) ((2 : BitVec 5) ++ eb aq ++ eb rl) rd rs1 0
  | .sc dw aq rl rd rs1 rs2 => encXR 0x2F ((1 : BitVec 2) ++ eb dw) ((3 : BitVec 5) ++ eb aq ++ eb rl) rd rs1 rs2
  | .hartFence fm pred succ => encXI 0x0F 0 0 0 (fm ++ pred ++ succ)
  | .fenceI => [0x0000100F]
  | .wfi => [0x10500073]
  | .ecall => [0x00000073]
  | .ebreak => [0x00100073]
  | .csrAccess op imm csr rd rs1 => encXI 0x73 (csrF3 op imm) rd rs1 csr
  | .rv64Instruction op => encRv op
  | .mmulMap rd rs1 rs2 => encXR 0x2B 0 0 rd rs1 rs2
  | .mmulFeed rd fd rs2 => encXR 0x2B 0 1 rd ((0 : BitVec 3) ++ fd) rs2
  | .mmulWest rd rs2 => encXR 0x2B 0 2 rd 0 rs2
  | .mldw rd rs1 rs2 => encXR 0x2B 1 0 rd rs1 rs2
  | .mdrain rd rs1 rs2 => encXR 0x2B 2 0 rd rs1 rs2
  | .mzero rd rs1 => encXR 0x2B 3 0 rd rs1 0
  | .mstat rd => encXR 0x2B 3 1 rd 0 0
  | .mbegin rd feeds => encXI 0x2B 4 rd 0 ((0 : BitVec 8) ++ feeds)
  | .mend rd => encXI 0x2B 5 rd 0 0
  | .mchain rd rs1 len pos => encXI 0x2B 6 rd rs1 ((0 : BitVec 8) ++ len ++ pos)
  | .tenq rd rs1 => encXR 0x5B 0 0 rd rs1 0
  | .tsig rd rs1 => encXR 0x5B 1 0 rd rs1 0
  | .tcard rd rs1 => encXR 0x5B 2 0 rd rs1 0
  | .queueReset f | .map f | .unmap f | .protect f | .place f | .portBind f | .objLoad f | .objUnload f | .launch f | .gangLaunch f | .taskEnq f | .taskReplay f
  | .taskCancel f | .teamResume f | .teamEnd f | .pipeBind f | .fenceCommand f | .signal f | .wait f | .partition f | .functionReset f | .preempt f | .resume f | .checkpoint f
  | .restore f | .debugStop f | .debugResume f | .debugPlant f | .debugRemove f | .debugRead f | .powerSet f | .telemetrySet f | .patchLoad f | .attest f | .frameUnknownOpc f => encFrame f
  | .chunkPageIn _ _ | .loadReturn _ | .storeApplied _ | .atomicReturn _ | .ldgsComplete _ | .remoteAcknowledge _ _
  | .coreMoveComplete _ _ | .idleCoreMove _ _ _ | .weftCease | .teamDispatch | .clusterPreemptStop | .imageSave
  | .imageRestore _ _ | .pageMigration _ _ _ _ | .homeSwitch _ _ | .pageWalk | .copyStep _ _ _ | .multicastHop _ _ _
  | .weightLatch | .matrixStep | .quiescentStop | .drainWrite | .taskMigration _ _ _ | .cardDelivery _
  | .pairCompare _ | .hartMemoryReturn | .mModeInterrupt | .doorbell _ _ | .cconsWrite _ _ | .econsWrite _ _
  | .rstctlReset _ | .registerWrite _ _ _ | .waitSatisfied _ | .resetScrub _ | .eccCorrected _ | .eccUncorrectable _
  | .unpoisonedStateError _ | .patrolScrub _ _ | .waitPeriodExpiry _ | .clusterPeriodCheck _ _ | .heartbeat _ _ _ | .selfReset
  | .functionTagDrop _ _ _ | .vaneSample _ | .telemetryRecord _ _ | .ptpSync _ | .ptpFollowUp _ | .ptpDelayResp _ _
  | .ptpHoldover | .flitCheckFail | .weaveRequest _ | .undeliverableTimeout _ | .hostWindowAccess _ | .powerOn
  | .chunkEviction _ _ | .hartStoreApplied _ _ | .portTrainingComplete => []

/-! ### One opcode-table row's bits -/

/-- An option from a decoded instruction. -/
def okOpt : Except DecodeErr Instr → Option Instr
  | .ok i => some i
  | .error _ => none

/-- The instruction that stands in the first bits of w, numbered as the opcode table numbers them: a frame where the row is
128 bytes; a hart word where the low bits name a custom space and the word is assigned there (every such word would name both
a last read and a hold in format V3 and so be illegal as a vector word); else a vector word with its extension word; else a
hart word. -/
def decodeTableWord (nbits w : Nat) : Option Instr :=
  if nbits = 1024 then some (decodeFrame (BitVec.ofNat 1024 w))
  else
    let a : W32 := BitVec.ofNat 32 w
    let b : W32 := BitVec.ofNat 32 (w / 2 ^ 32)
    let custom := a.extractLsb' 0 7 = 0x0B || a.extractLsb' 0 7 = 0x2B || a.extractLsb' 0 7 = 0x5B
    match custom, okOpt (decodeHart a) with
    | true, some i => some i
    | _, h =>
      match okOpt (decodeVector a b) with
      | some i => some i
      | none => h

end Sys2Proof
end

