-- ==== Sys2Proof/Machine/VecMem.lean ====
section
/-! DEFINITION. Memory, scratchpad, tag and atomic words, FENCE and WAITP (10), and the returns of outstanding operations. -/

namespace Sys2Proof.Machine

open Sys2Proof

/-! ### Shared checks (R171) -/

/-- One strand's access as a word forms it. -/
structure Cand where
  x : Strand
  sum : Int
  poison : Bool
  code : Option Nat
  data : W64
  data2 : W32
  dpoison : Bool
  remote : Bool
  deriving DecidableEq, Repr

/-- The cause of a memory reason code (03 R49). -/
def causeOf (code : Nat) : Nat := match code with | 3 => 8 | 6 => 5 | _ => 6

/-- The lowest reason code that any access meets, with the address of the lowest lane that meets it and the lanes that meet its cause
(R171, 07 R129). -/
def lowestCode (l : List Cand) : Option (Nat × Int × Nat) :=
  match minCode (l.filterMap (·.code)) with
  | none => none
  | some k =>
    let m := l.filter fun c => c.code = some k
    match m with
    | [] => none
    | c :: _ => some (k, (m.foldl (fun (a : Cand) b => if b.x.lane < a.x.lane then b else a) c).sum,
        (l.filter fun c => match c.code with | some j => decide (causeOf j = causeOf k) | none => false).foldl (fun a c => a + 2 ^ c.x.lane) 0)
where
  /-- The least of a list of codes. -/
  minCode : List Nat → Option Nat
    | [] => none
    | a :: t => some (t.foldl Nat.min a)

/-- Lanes of accesses that meet a test. -/
def candLanes (l : List Cand) (p : Cand → Bool) : Nat := l.foldl (fun a c => if p c then a + 2 ^ c.x.lane else a) 0

/-- XINFO of an address: 64-bit two's complement. -/
def infoOf (a : Int) : Nat := (BitVec.ofInt 64 a).toNat

/-- Address poison ends the team, then the memory checks trap (R171). -/
def checkCands (c : VCtx) (l : List Cand) (go : Result) : Result :=
  let bad := candLanes l (·.poison)
  if bad ≠ 0 then poisonWord c.s c.t c.w bad
  else
    match lowestCode l with
    | some (k, a, m) => memTrap c.s c.t c.w k (infoOf a) m
    | none => go

/-- An externally visible access of a pair's member waits for its comparison (25 R362). -/
def pairGate (s : State) (t : Team) (w : Weft) (kind : Nat) (data : List Nat) (go : State → Result) : Result :=
  match t.partner with
  | none => go s
  | some _ =>
    if w.granted then go s
    else
      let s := updTeam s t.tid fun t => { t with visible := t.visible ++ [{ who := w.wid, kind := kind, data := data }] }
      .next (swapOut s t.tid w.wid .pairAccess)

/-- The partner's record of an access with a place in its order. -/
def pairFind (s : State) (t : Team) (who seq : Nat) : Option PairLoad :=
  match t.partner.bind (getTeam s) with
  | some p => p.pairLoads.find? fun e => decide (e.who = who) && decide (e.seq = seq)
  | none => none

/-- Drop the partner's record once both members have made the access. -/
def pairDrop (s : State) (t : Team) (who seq : Nat) : State :=
  match t.partner with
  | some p => updTeam s p fun p => { p with pairLoads := p.pairLoads.filter fun e => !(decide (e.who = who) && decide (e.seq = seq)) }
  | none => s

/-- Keep a record for the partner. -/
def pairNote (s : State) (t : Team) (e : PairLoad) : State :=
  match t.partner with
  | some _ => updTeam s t.tid fun t => { t with pairLoads := t.pairLoads ++ [e] }
  | none => s

/-- A load whose addresses differ between the members delivers poison to both (25 R362): the first member's results are poisoned
where they stand, in the operation and, of LDGS, in its scratchpad. -/
def poisonFirst (s : State) (op : Nat) : State :=
  let s := updOp s op fun o => { o with accs := o.accs.map fun a => { a with resPoison := true } }
  match getOp s op with
  | none => s
  | some o =>
    match o.kind, getTeam s o.tid with
    | .ldgs, some t => updCluster s t.place.cluster fun k =>
        { k with scrPoison := (o.accs.flatMap fun a => granulesOf (t.place.scrBase + a.data.toNat) 4).foldl (fun l g => spSet false l g true) k.scrPoison }
    | _, _ => s

/-! ### Issue (06 R102, 03 R50) -/

/-- What a word issues. -/
structure Issue where
  kind : OpKind
  size : Nat
  vd : BitVec 6
  isLoad : Bool
  ord : BitVec 2
  scp : BitVec 3
  deriving DecidableEq, Repr

/-- The scope at which a write of a strand with an ORD and SCP is a release: its own, or that of an earlier release fence (03 R53). -/
def relOf (t : Team) (sid : Nat) (k : OpKind) (ord : BitVec 2) (scp : BitVec 3) : Option Nat :=
  if k.writes then widest (if ord.getLsbD 1 then some scp.toNat else none) (t.hist sid).rel else none

/-- The scope at which a read with an ORD and SCP is an acquire. -/
def acqOf (k : OpKind) (ord : BitVec 2) (scp : BitVec 3) : Option Nat := if k.reads && ord.getLsbD 0 then some scp.toNat else none

/-- Accesses of the candidates of an issue, in lane order. -/
def accsOf (t : Team) (i : Issue) (l : List Cand) : List Acc :=
  l.map fun c => { sid := c.x.sid, addr := c.sum.toNat, data := c.data, data2 := c.data2, poison := c.dpoison, result := 0,
                   resPoison := false, remote := c.remote, rel := relOf t c.x.sid i.kind i.ord i.scp, acq := acqOf i.kind i.ord i.scp,
                   lead := none, far := none, given := none, done := false, landed := false }

/-- An access under its operation's number: what an acquire comes before (03 R52 case 2; across modules at system scope, R56). -/
def Acc.numbered (a : Acc) (id : Nat) : Acc :=
  { a with lead := if a.acq.isSome then some (id + 1) else none, far := if isSystem a.acq then some (id + 1) else none }

/-- The accesses that a redundant pair makes once (25 R362). -/
def OpKind.isGlobal : OpKind → Bool
  | .load _ | .store | .atomic _ _ | .ldgs => true
  | .stag | .scrLoad _ | .scrStore _ | .scrAtomic _ _ => false

/-- Put an issued operation down: the weft goes on, then the operation takes its number, raises its paths and sets its flag. -/
def putOp (c : VCtx) (u : Uses) (i : Issue) (accs : List Acc) (shared : Bool) (s : State) : Nat × State :=
  let s := updWeft s c.t.tid c.w.wid fun w => { w with granted := false, loadSeq := w.loadSeq + ofBool shared }
  let s := finishWord s c.t.tid c.w.wid u fun w => w
  let (id, s) := takeId s
  let o : VOp :=
    { id := id, tid := c.t.tid, kind := i.kind, size := i.size, vd := i.vd, accs := accs.map fun a => a.numbered id, owners := [c.w.wid],
      flag := flagFor (clauseHeader c.s c.t c.w) i.isLoad, discard := [] }
  (id, updTeam { s with vops := s.vops ++ [o] } c.t.tid fun t => o.paths.foldl (fun t p => t.raise p id) t)

/-- The paths of an issue stand below 4,095 (03 R50). -/
def pathsRoom (c : VCtx) (i : Issue) (accs : List Acc) : Bool :=
  let o : VOp := { id := 0, tid := c.t.tid, kind := i.kind, size := i.size, vd := i.vd, accs := accs, owners := [], flag := none, discard := [] }
  o.paths.all fun p => decide (c.t.pathCount p < 4095)

/-- The values of a member's operation, where its accesses are all done. -/
def valuesOf (s : State) (op : Nat) : Option (List (W64 × Bool)) :=
  match getOp s op with
  | some x => if x.accs.all (·.done) then some (x.accs.map fun a => (a.result, a.resPoison)) else none
  | none => some []

/-- The second member's access takes the first one's value: an LDGS still writes it into its own allocation. -/
def Acc.give (k : OpKind) (a : Acc) (v : W64 × Bool) : Acc :=
  match k with
  | .ldgs => { a with given := some v }
  | _ => { a with done := true, result := v.1, resPoison := v.2 }

/-- Issue an operation (06 R102). A path at 4,095 makes the word wait (03 R50). Of a redundant pair the second member's global word
takes the values of the first one's; where the addresses differ, both receive poison (25 R362). -/
def issueOp (c : VCtx) (u : Uses) (i : Issue) (accs : List Acc) : Result :=
  if !pathsRoom c i accs then retryWord c.s c.t.tid c.w.wid .path
  else
    let shared := c.t.partner.isSome && i.kind.isGlobal
    let addrs := accs.map (·.addr)
    let key := c.w.loadSeq
    match if shared then pairFind c.s c.t c.w.wid key else none with
    | none =>
      let (id, s) := putOp c u i accs shared c.s
      .next (if shared then pairNote s c.t { who := c.w.wid, seq := key, addrs := addrs, op := id, results := none, differs := none } else s)
    | some e =>
      let s := performAll c.s e.op
      match valuesOf s e.op with
      | none => retryWord c.s c.t.tid c.w.wid .order
      | some r =>
        let differ := decide (e.addrs ≠ addrs)
        let s := pairDrop (if differ then poisonFirst s e.op else s) c.t c.w.wid key
        let given := (accs.zip (r ++ List.replicate accs.length (0, true))).map fun p => p.1.give i.kind (p.2.1, p.2.2 || differ)
        .next (putOp c u i given shared s).2

/-- A word that reads or writes scratchpad or the tag table at issue may do so where no earlier access of its strands must come first. -/
def mayNow (c : VCtx) (i : Issue) (l : List Cand) : Bool :=
  l.all fun a => !blocked c.s c.t.tid a.x.sid
    { id := c.s.nextId, ranges := touched i.kind i.size a.sum.toNat a.data, rel := relOf c.t a.x.sid i.kind i.ord i.scp, remote := false }

/-! ### Global words (R175 to R177, R183) -/

/-- An access that the copy aperture accepts (18 R279). -/
def apertureOk (kind : OpKind) (size : Nat) (a : Int) : Bool :=
  let b : Int := apertureBase
  size = 8 && a % 8 = 0 &&
  match kind with
  | .store => decide (b ≤ a) && decide (a < b + 0x80)
  | .load _ => decide (b + 0x80 ≤ a) && decide (a < b + 0x180)
  | _ => false

/-- The memory reason code of a global access of a word (03 R49, 18 R279). -/
def globalCode (c : VCtx) (kind : OpKind) (size : Nat) (a : Int) : Option Nat :=
  if apertureOk kind size a then none
  else
    checkAccess c.s c.t.fn c.t.secure a size true
      (match kind with | .store => [.write] | .atomic _ _ => [.write] | _ => [.read])

/-- The pair VD, VD + 1 or the single VD as store data, with its poison (R175). -/
def storeData (size : Nat) (vd : BitVec 6) (x : Strand) : W64 × Bool :=
  let lo := x.reg vd.toNat
  let hi := x.reg (vd.toNat + 1)
  if size = 8 then (hi.val.setWidth 64 <<< 32 ||| lo.val.setWidth 64, lo.poison || hi.poison)
  else (lo.val.setWidth 64, lo.poison)

/-- The aperture stores of a word, in lane order: channel and data. -/
def apertureStores (l : List Cand) : List (Nat × W64) :=
  (l.filter fun c => decide ((apertureBase : Int) ≤ c.sum)).map fun c => ((c.sum.toNat - apertureBase) / 8, c.data)

/-- The first copy fault in table order over the lanes of a word (18 R284): the fault with its information from the lowest lane that
meets it, and the lanes that do. -/
def wordCopyFault (c : VCtx) (l : List Cand) : Option (CopyFault × Nat) :=
  let fs := (l.filter fun a => decide ((apertureBase : Int) ≤ a.sum)).filterMap fun a => (copyCheck c.s c.t a.data).map fun f => (a, f)
  match fs with
  | [] => none
  | f :: t =>
    let k := t.foldl (fun n g => Nat.min n g.2.order) f.2.order
    match fs.filter fun g => g.2.order = k with
    | [] => none
    | g :: r =>
      let low := r.foldl (fun (a : Cand × CopyFault) b => if b.1.x.lane < a.1.x.lane then b else a) g
      some (low.2, (g :: r).foldl (fun n b => n + 2 ^ b.1.x.lane) 0)

/-- The number a pair compares an access's kind by. -/
def kindNo : OpKind → Nat
  | .load _ => 1 | .store => 2 | .atomic aop nr => 16 + 2 * aop + ofBool nr | .ldgs => 4 | .stag => 5 | .scrLoad _ => 6
  | .scrStore _ => 7 | .scrAtomic _ _ => 8


/-- Some access of a weft's active strands is still to be performed: an aperture store, a release of those strands, waits for it (03 R52,
R57). -/
def activeUndone (c : VCtx) (s : State) : Bool :=
  (weftOps s c.t.tid c.w.wid).any fun q => q.accs.any fun a => !a.done && c.w.active'.any fun x => decide (x.sid = a.sid)

/-- A global word: its checks, then its issue (R171 to R177). data: store or atomic operands of a strand. DESIGN CHOICE (log entry 94): a
memory fault is met before the poisoned data of a use that ends the team. -/
def globalWord (i : Instr) (o : VM) (it : Issue) (dests dataRegs : List Nat) (data : Strand → W64 × W32 × Bool) (s : State) : Result :=
  let e := o.ext.getD MExt.none
  let u := usesVM o true dataRegs dests
  let isStore := it.kind.writes
  runWord i s u fun c =>
    let cands := c.w.active'.map fun x =>
      let a := c.gaddr o.sx o.ofs e.sz it.size x
      let d := data x
      { x := x, sum := a.sum, poison := a.poison, code := globalCode c it.kind it.size a.sum, data := d.1, data2 := d.2.1,
        dpoison := d.2.2, remote := isRemote c.s c.t.fn a.sum.toNat : Cand }
    checkCands c cands <|
      let ap := if it.kind = .store then apertureStores cands else []
      let isAtomic := match it.kind with | .atomic _ _ => true | _ => false
      let bad := candLanes cands fun a =>
        a.dpoison && (isAtomic || it.ord.getLsbD 1 || a.remote || decide ((apertureBase : Int) ≤ a.sum))
      if isStore && bad ≠ 0 then poisonWord c.s c.t c.w bad
      else
        match ap.findSome? fun p => missingTemplate c.s c.t (storeIndex p.2) with
        | some (h, i) => retryWord c.s c.t.tid c.w.wid (.data h i)
        | none =>
        match (if ap.isEmpty then none else wordCopyFault c cands) with
        | some (f, m) => trapWord c.s c.t c.w f.cause f.reason (infoOf f.info) m
        | none =>
          let (ready, s) := tlbAll c.s c.t.place.cluster c.t.fn (cands.map fun a => a.sum.toNat)
          let c := { c with s := s }
          if !ready then retryWord s c.t.tid c.w.wid .walk
          else match (if it.kind.reads then missingOf s c.t.fn (cands.flatMap fun a => upFrom a.sum.toNat it.size) else none) with
          | some (h, i) => retryWord s c.t.tid c.w.wid (.data h i)
          | none =>
            let vis := isStore || cands.any fun a => decide ((apertureBase : Int) ≤ a.sum)
            let sig := [it.size, it.ord.toNat, it.scp.toNat] ++
              cands.flatMap fun a => [a.x.lane, a.sum.toNat, a.data.toNat, a.data2.toNat, ofBool a.dpoison]
            let gate (go : State → Result) : Result := if vis then pairGate s c.t c.w (kindNo it.kind) sig go else go s
            gate fun s =>
              let chans := ap.map (·.1)
              if !ap.isEmpty && activeUndone c s then retryWord s c.t.tid c.w.wid .order
              else if !(chans.all fun ch => channelRoom s c.t.place.cluster ch (chans.filter (· = ch)).length) then
                retryWord s c.t.tid c.w.wid .channel
              else
                let shadow := (pairFind s c.t c.w.wid c.w.loadSeq).isSome
                let started := if shadow then s else ap.foldl (fun s p => startCopy s c.t (inTransit s.mem (c.t.done (c.w.active'.map (·.sid)))) p.1 p.2) s
                let accs := (accsOf c.t it cands).map fun a => { a with done := it.kind = .store && decide (apertureBase ≤ a.addr) }
                match issueOp { c with s := started } u it accs with
                | .next s' => if ap.isEmpty || s'.vops.length ≠ s.vops.length then .next s' else issueOp { c with s := s } u it accs
                | r => r

/-- ORD and SCP of a word. -/
def ordOf (o : VM) : BitVec 2 := (o.ext.getD MExt.none).ord
/-- SCP of a word. -/
def scpOf (o : VM) : BitVec 3 := (o.ext.getD MExt.none).scp

/-- A global load (R175, R176). -/
def globalLoad (i : Instr) (o : VM) (size : Nat) (sext : Bool) (s : State) : Result :=
  globalWord i o { kind := .load sext, size := size, vd := o.vd, isLoad := true, ord := ordOf o, scp := scpOf o }
    (if size = 8 then [o.vd.toNat, o.vd.toNat + 1] else [o.vd.toNat]) [] (fun _ => (0, 0, false)) s

/-- A global store (R175, R176). -/
def globalStore (i : Instr) (o : VM) (size : Nat) (s : State) : Result :=
  globalWord i o { kind := .store, size := size, vd := o.vd, isLoad := false, ord := ordOf o, scp := scpOf o } []
    (if size = 8 then [o.vd.toNat, o.vd.toNat + 1] else [o.vd.toNat])
    (fun x => let d := storeData size o.vd x; (d.1, 0, d.2)) s

/-- LDG8 (R175). -/
def execLdg8 (o : VM) (s : State) : Result := globalLoad (.ldg8 o) o 1 false s
/-- LDG8S (R175). -/
def execLdg8s (o : VM) (s : State) : Result := globalLoad (.ldg8s o) o 1 true s
/-- LDG16 (R175). -/
def execLdg16 (o : VM) (s : State) : Result := globalLoad (.ldg16 o) o 2 false s
/-- LDG16S (R175). -/
def execLdg16s (o : VM) (s : State) : Result := globalLoad (.ldg16s o) o 2 true s
/-- LDG32 (R175). -/
def execLdg32 (o : VM) (s : State) : Result := globalLoad (.ldg32 o) o 4 false s
/-- LDG64 (R175). -/
def execLdg64 (o : VM) (s : State) : Result := globalLoad (.ldg64 o) o 8 false s
/-- STG8 (R175). -/
def execStg8 (o : VM) (s : State) : Result := globalStore (.stg8 o) o 1 s
/-- STG16 (R175). -/
def execStg16 (o : VM) (s : State) : Result := globalStore (.stg16 o) o 2 s
/-- STG32 (R175). -/
def execStg32 (o : VM) (s : State) : Result := globalStore (.stg32 o) o 4 s
/-- STG64 (R175, 18 R280). -/
def execStg64 (o : VM) (s : State) : Result := globalStore (.stg64 o) o 8 s

/-- The operands of an atomic: d in VD, e in VD + 1 for CAS (R183). -/
def atomData (aop : Nat) (vd : BitVec 6) (x : Strand) : W64 × W32 × Bool :=
  let d := x.reg vd.toNat
  let e := if aop = 1 then x.reg (vd.toNat + 1) else Elem.zero
  (d.val.setWidth 64, e.val, d.poison || e.poison)

/-- The registers an atomic reads. -/
def atomRegs (aop : Nat) (vd : BitVec 6) : List Nat := if aop = 1 then [vd.toNat, vd.toNat + 1] else [vd.toNat]

/-- AOP of a word. -/
def aopOf (o : VM) : Nat := (o.ext.getD MExt.none).aop.toNat

/-- A team is a task that has not committed (19 R297, R298). -/
def defersWork (t : Team) : Bool := match t.ref with | .task _ _ => !t.commit | _ => false

/-- A task that performs an atomic commits when the word issues (19 R298); deferred work waits for the team's earlier accesses (R304). -/
def execAtomg (o : VM) (s : State) : Result :=
  let it : Issue := { kind := .atomic (aopOf o) o.nt, size := 4, vd := o.vd, isLoad := false, ord := ordOf o, scp := scpOf o }
  let r := globalWord (.atomg o) o it (if o.nt then [] else [o.vd.toNat]) (atomRegs (aopOf o) o.vd) (atomData (aopOf o) o.vd) s
  match r with
  | .next s' =>
    match s.cur with
    | .weft tid wid =>
      let issued := decide (s.vops.length < s'.vops.length) &&
        match s'.vops.getLast? with | some q => !q.accs.isEmpty | none => false
      if !issued then .next s'
      else match getTeam s tid with
        | some t => if defersWork t && !commitReady s t then retryWord s tid wid .order else .next (commitEvent s' tid)
        | none => .next s'
    | _ => .next s'
  | r => r

/-- LDGS: 16 bytes for each active strand, as four accesses of four bytes (R177, 03 R53). DESIGN CHOICE (log entry 95): where the address and the
offset of the reported lane both meet the reason, XINFO holds the address. -/
def execLdgs (o : VM) (s : State) : Result :=
  let e := o.ext.getD MExt.none
  let u := usesVM o true [o.vd.toNat] []
  let it : Issue := { kind := .ldgs, size := 4, vd := o.vd, isLoad := false, ord := 0, scp := 0 }
  runWord (.ldgs o) s u fun c =>
    let cands := c.w.active'.map fun x =>
      let a := c.gaddr o.sx o.ofs e.sz 16 x
      let d := x.reg o.vd.toNat
      { x := x, sum := a.sum, poison := a.poison || d.poison, code := checkAccess c.s c.t.fn c.t.secure a.sum 16 true [.read],
        data := d.val.setWidth 64, data2 := 0, dpoison := false, remote := isRemote c.s c.t.fn a.sum.toNat : Cand }
    let offs := c.w.active'.map fun x =>
      let d := x.reg o.vd.toNat
      { x := x, sum := d.val.toNat, poison := false,
        code := if d.val.toNat % 16 ≠ 0 then some 2 else if c.t.place.scrSize < d.val.toNat + 16 then some 6 else none,
        data := 0, data2 := 0, dpoison := false, remote := false : Cand }
    let bad := candLanes cands (·.poison)
    if bad ≠ 0 then poisonWord c.s c.t c.w bad
    else
      let both := (cands.zip offs).map fun p =>
        match p.1.code, p.2.code with
        | some a, some b => if b < a then p.2 else p.1
        | none, some _ => p.2
        | _, _ => p.1
      match lowestCode both with
      | some (k, a, m) => memTrap c.s c.t c.w k (infoOf a) m
      | none =>
        let (ready, s) := tlbAll c.s c.t.place.cluster c.t.fn (cands.map fun a => a.sum.toNat)
        if !ready then retryWord s c.t.tid c.w.wid .walk
        else match missingOf s c.t.fn (cands.flatMap fun a => upFrom a.sum.toNat 16) with
        | some (h, i) => retryWord s c.t.tid c.w.wid (.data h i)
        | none =>
          let accs := (accsOf c.t it cands).flatMap fun a =>
            (upFrom 0 4).map fun j => { a with addr := a.addr + 4 * j, data := a.data + BitVec.ofNat 64 (4 * j) }
          issueOp { c with s := s } u it accs

/-! ### FENCE and WAITP (R185, R186) -/

/-- FENCE (R185). -/
def execFence (o : VFence) (s : State) : Result :=
  let u : Uses := { codes := [], frees := [], holds := [], dests := [], len := 2 }
  runWord (.fence o) s u fun c =>
    let rel := o.ord.getLsbD 1
    let s := fenceWeft c.s c.t c.w o.ord o.scp.toNat
    let s := if rel && decide (1 ≤ o.scp.toNat) then updTeam s c.t.tid fun t => publishK t c.w else s
    .next (finishWord s c.t.tid c.w.wid u fun w => w)

/-- WAITP: the weft waits until the path's counter is at most the threshold; its later accesses follow those that have returned (R186). -/
def execWaitp (o : VWaitp) (s : State) : Result :=
  let u : Uses := { codes := [o.sx], frees := [], holds := [], dests := [], len := 1 }
  runWord (.waitp o) s u fun c =>
    let t := (c.rd .i o.sx { sid := 0, lane := 0, em := false, m := 0, regs := [] }).val.toNat
    if t < c.t.pathCount o.path.toNat then retryWord c.s c.t.tid c.w.wid .path
    else
      let out := (nthD [] c.t.paths o.path.toNat).map (·.1)
      let s := waitAs c.s c.t c.w.keys fun p => p.paths.contains o.path.toNat && !out.contains p.id
      .next (finishWord s c.t.tid c.w.wid u fun w => w)

/-! ### Scratchpad words (R178 to R180, R183) -/

/-- The reason code of a scratchpad access (R170, R171). -/
def scrCode (t : Team) (size : Nat) (a : Int) : Option Nat :=
  if a % size ≠ 0 then some 2 else if a < 0 || (t.place.scrSize : Int) < a + size then some 6 else none

/-- The candidates of a scratchpad word. -/
def scrCands (c : VCtx) (o : VM) (size : Nat) (data : Strand → W64 × W32 × Bool) : List Cand :=
  let e := o.ext.getD MExt.none
  c.w.active'.map fun x =>
    let a := c.saddr o.sx o.ofs e.sz size x
    let d := data x
    { x := x, sum := a.sum, poison := a.poison, code := scrCode c.t size a.sum, data := d.1, data2 := d.2.1, dpoison := d.2.2,
      remote := false }

/-- A scratchpad load, and LDS.C, which empties the lines it read in the same step (R178, R179). It is held at an empty line only once nothing
else keeps it from reading, so that a fill finds it ready. -/
def scrLoadWord (i : Instr) (o : VM) (size : Nat) (take : Bool) (s : State) : Result :=
  let u := usesVM o false [] (if size = 8 then [o.vd.toNat, o.vd.toNat + 1] else [o.vd.toNat])
  let it : Issue := { kind := .scrLoad false, size := size, vd := o.vd, isLoad := true, ord := ordOf o, scp := scpOf o }
  runWord i s u fun c =>
    let cands := scrCands c o size fun _ => (0, 0, false)
    checkCands c cands <|
      let k := getCluster c.s c.t.place.cluster
      let lines := cands.map fun a => (c.t.place.scrBase + a.sum.toNat) / 128
      if !mayNow c it cands then retryWord c.s c.t.tid c.w.wid .order
      else if !(lines.all fun l => !spGet false k.empty l) then retryWord c.s c.t.tid c.w.wid .line
      else
        let (id, s) := putOp c u it (accsOf c.t it cands) false c.s
        let s := performAll s id
        .next (if take then updCluster s c.t.place.cluster fun k => lines.foldl (fun k l => setLine false k l) k else s)

/-- LDS8 (R178). -/
def execLds8 (o : VM) (s : State) : Result := scrLoadWord (.lds8 o) o 1 false s
/-- LDS16 (R178). -/
def execLds16 (o : VM) (s : State) : Result := scrLoadWord (.lds16 o) o 2 false s
/-- LDS32 (R178). -/
def execLds32 (o : VM) (s : State) : Result := scrLoadWord (.lds32 o) o 4 false s
/-- LDS64 (R178). -/
def execLds64 (o : VM) (s : State) : Result := scrLoadWord (.lds64 o) o 8 false s
/-- LDS.C (R178, R179). -/
def execLdsC (o : VM) (s : State) : Result := scrLoadWord (.ldsC o) o 4 true s

/-! ### Fills (R179) -/

/-- A scratchpad load that is held at a line: its weft, the word, what it names, its bytes, whether it is LDS.C, and the lines that it reads. -/
structure HeldLoad where
  wid : Nat
  since : Nat
  word : Instr
  o : VM
  size : Nat
  take : Bool
  lines : List Nat

/-- The word that a held weft waits to execute, as a scratchpad load: what it names, its bytes, and whether it is LDS.C. -/
def asScrLoad : Instr → Option (VM × Nat × Bool)
  | .lds8 o => some (o, 1, false)
  | .lds16 o => some (o, 2, false)
  | .lds32 o => some (o, 4, false)
  | .lds64 o => some (o, 8, false)
  | .ldsC o => some (o, 4, true)
  | _ => none

/-- The load at which a weft is held. -/
def heldLoad (s : State) (t : Team) (w : Weft) : Option HeldLoad :=
  if w.wait ≠ .retry Why.line.code then none
  else
    match vtextWord s t w w.pos.offset with
    | none => none
    | some a =>
      match decodeVector a ((vtextWord s t w (w.pos.offset + 4)).getD 0) with
      | .error _ => none
      | .ok i => (asScrLoad i).map fun (o, n, take) =>
        let c : VCtx := { s := s, t := t, w := w, wd := teamWidth s t, k := t.uni.k, qh := spGet 0 t.uni.uq (w.rpos.toNat % 64) }
        { wid := w.wid, since := w.readyAt, word := i, o := o, size := n, take := take,
          lines := w.active'.map fun x => (t.place.scrBase + (c.saddr o.sx o.ofs (o.ext.getD MExt.none).sz n x).sum.toNat) / 128 }

/-- Put a held load behind those that became held before it. -/
def insertHeld (h : HeldLoad) : List HeldLoad → List HeldLoad
  | [] => [h]
  | x :: l => if h.since ≤ x.since then h :: x :: l else x :: insertHeld h l

/-- A line of a cluster is full. -/
def lineFull (s : State) (c l : Nat) : Bool := !spGet false (getCluster s c).empty l

/-- The held loads of a team that read a line and whose lines are all full, in the order in which they became held. -/
def servable (s : State) (t : Team) (l : Nat) (take : Bool) : List HeldLoad :=
  ((t.wefts.filterMap (heldLoad s t)).filter fun h =>
    decide (h.take = take) && h.lines.contains l && h.lines.all (lineFull s t.place.cluster)).foldr insertHeld []

/-- A held load reads where it waits, and its weft is ready; it stays held where it still cannot issue. -/
def serveLoad (tid : Nat) (s : State) (h : HeldLoad) : State :=
  match scrLoadWord h.word h.o h.size h.take { s with cur := .weft tid h.wid } with
  | .next s' => if stillWaits (.next s') tid h.wid then s else { s' with cur := s.cur }
  | _ => s

/-- A fill of a line serves a team: every waiting plain load whose lines are then all full reads, then one waiting LDS.C takes the fill,
those that became held earlier first, in the step of the fill (R179; log entry 102). -/
def serveTeam (l tid : Nat) (s : State) : State :=
  match getTeam s tid with
  | none => s
  | some t =>
    let s := (servable s t l false).foldl (serveLoad tid) s
    (servable s t l true).foldl (fun s h => if lineFull s t.place.cluster l then serveLoad tid s h else s) s

/-- A fill of a line of a cluster, where it is still full. -/
def serveLine (c : Nat) (s : State) (l : Nat) : State :=
  if lineFull s c l then ((s.teams.filter fun t => t.place.cluster = c).map (·.tid)).foldl (fun s tid => serveTeam l tid s) s else s

/-- The lines of a cluster that a step has filled. -/
def filled (before after : Cluster) : List Nat :=
  (before.empty.map (·.1)).filter fun l => spGet false before.empty l && !spGet false after.empty l

/-- A step that may have filled lines of a cluster serves the loads that are held there (R179). -/
def serveFills (c : Nat) (before s : State) : State := (filled (getCluster before c) (getCluster s c)).foldl (serveLine c) s

/-- The loads of a team that are held although their lines are full, as after a pre-emption, are served (R44, R179). -/
def serveHeld (tid : Nat) (s : State) : State :=
  match getTeam s tid with
  | none => s
  | some t => ((t.wefts.filterMap (heldLoad s t)).flatMap (·.lines)).foldl (serveLine t.place.cluster) s

/-- A scratchpad store; NT is FL (R178, R174). A release store supplies no poisoned data (R172). -/
def scrStoreWord (i : Instr) (o : VM) (size : Nat) (s : State) : Result :=
  let u := usesVM o false (if size = 8 then [o.vd.toNat, o.vd.toNat + 1] else [o.vd.toNat]) []
  runWord i s u fun c =>
    let cands := scrCands c o size fun x => let d := storeData size o.vd x; (d.1, 0, d.2)
    checkCands c cands <|
      let bad := candLanes cands fun a => a.dpoison && (ordOf o).getLsbD 1
      if bad ≠ 0 then poisonWord c.s c.t c.w bad
      else
        let it : Issue := { kind := .scrStore o.nt, size := size, vd := o.vd, isLoad := false, ord := ordOf o, scp := scpOf o }
        issueOp c u it (accsOf c.t it cands)

/-- STS8 (R178). -/
def execSts8 (o : VM) (s : State) : Result := scrStoreWord (.sts8 o) o 1 s
/-- STS16 (R178). -/
def execSts16 (o : VM) (s : State) : Result := scrStoreWord (.sts16 o) o 2 s
/-- STS32 (R178). -/
def execSts32 (o : VM) (s : State) : Result := scrStoreWord (.sts32 o) o 4 s
/-- STS64 (R178). -/
def execSts64 (o : VM) (s : State) : Result := scrStoreWord (.sts64 o) o 8 s

/-- ATOMS (R183, R184). -/
def execAtoms (o : VM) (s : State) : Result :=
  let u := usesVM o false (atomRegs (aopOf o) o.vd) (if o.nt then [] else [o.vd.toNat])
  runWord (.atoms o) s u fun c =>
    let cands := scrCands c o 4 (atomData (aopOf o) o.vd)
    checkCands c cands <|
      let bad := candLanes cands (·.dpoison)
      if bad ≠ 0 then poisonWord c.s c.t c.w bad
      else
        let it : Issue := { kind := .scrAtomic (aopOf o) o.nt, size := 4, vd := o.vd, isLoad := false, ord := ordOf o, scp := scpOf o }
        issueOp c u it (accsOf c.t it cands)

/-- What SFULL and SEMPTY name. -/
def usesLine (o : VLine) : Uses :=
  let e := o.ext.getD MExt.none
  { codes := [o.sx, e.sz], frees := markReg o.sx o.lx ++ markReg e.sz e.lz, holds := markReg e.sz e.hz, dests := [],
    len := match o.ext with | some _ => 2 | none => 1 }

/-- SFULL and SEMPTY: after the weft's earlier scratchpad stores to the lines (R180). DEDUCED (log entry 96): LDGS and ATOMS, which write the
scratchpad, count among them. -/
def lineWord (i : Instr) (o : VLine) (full : Bool) (s : State) : Result :=
  let e := o.ext.getD MExt.none
  let u := usesLine o
  runWord i s u fun c =>
    let cands := c.w.active'.map fun x =>
      let a := c.saddr o.sx o.ofs e.sz 128 x
      { x := x, sum := a.sum, poison := a.poison, code := if a.sum < 0 || (c.t.place.scrSize : Int) ≤ a.sum then some 6 else none,
        data := 0, data2 := 0, dpoison := false, remote := false : Cand }
    checkCands c cands <|
      let rel := cands.map fun a => a.sum.toNat / 128
      let waits := (weftOps c.s c.t.tid c.w.wid).any fun q => q.kind.writes && q.accs.any fun a =>
        !a.done && (touched q.kind q.size a.addr a.data).any fun r => r.1 && rel.any fun l => overlap r.2.1 r.2.2 (128 * l) 128
      if waits then retryWord c.s c.t.tid c.w.wid .line
      else
        let s := updCluster c.s c.t.place.cluster fun k => rel.foldl (fun k l => setLine full k (c.t.place.scrBase / 128 + l)) k
        .next (serveFills c.t.place.cluster c.s (finishWord s c.t.tid c.w.wid u fun w => w))

/-- SFULL (R180). -/
def execSfull (o : VLine) (s : State) : Result := lineWord (.sfull o) o true s
/-- SEMPTY (R180). -/
def execSempty (o : VLine) (s : State) : Result := lineWord (.sempty o) o false s

/-! ### Tag words (R182, 03 R43) -/

/-- The tag of a 64-bit value. -/
def tagOf (v : W64) : BitVec 48 := v.setWidth 48

/-- Install a tag: its place; in place, else in the lowest invalid entry; none where every entry is valid. -/
def installTag (l : List TagEntry) (g : BitVec 48) : Option Nat :=
  match findTag l g with
  | some i => some i
  | none => l.findIdx? fun e => !e.valid

/-- What a tag word names. -/
def usesTag (o : VTag) (dests : List Nat) : Uses :=
  { codes := wideCodes o.sx, frees := if o.lx then wideRegs o.sx else [], holds := [], dests := dests,
    len := match o.ext with | some _ => 2 | none => 1 }

/-- The candidates of a tag word: strand, tag and its poison. -/
def tagCands (c : VCtx) (sx : BitVec 7) : List Cand :=
  c.w.active'.map fun x =>
    let a := c.rd64 sx x
    { x := x, sum := 0, poison := a.2, code := none, data := a.1, data2 := 0, dpoison := false, remote := false }

/-- STAG: reads the entries at issue (R182). -/
def execStag (o : VTag) (s : State) : Result :=
  let u := usesTag o [o.vd.toNat]
  let it : Issue := { kind := .stag, size := 8, vd := o.vd, isLoad := true, ord := 0, scp := 0 }
  runWord (.stag o) s u fun c =>
    let cands := tagCands c o.sx
    if !mayNow c it cands then retryWord c.s c.t.tid c.w.wid .order
    else
      let accs := (cands.zip (accsOf c.t it cands)).map fun p => { p.2 with poison := p.1.poison }
      let (id, s) := putOp c u it accs false c.s
      .next (performAll s id)

/-- What STSET and STINV are to the order rules: a relaxed write of tag entries at issue (R182). -/
def tagIssue (vd : BitVec 6) : Issue := { kind := .scrStore false, size := 16, vd := vd, isLoad := false, ord := 0, scp := 0 }

/-- One strand's write of a tag entry: the entry with the releases that a read of it returns (R182, 03 R52 to R54). -/
def writeTag (c : VCtx) (a : Cand) (i : Nat) (f : TagEntry → TagEntry) (s : State) : State :=
  let it := tagIssue 0
  let rel := relOf c.t a.x.sid it.kind it.ord it.scp
  let x : Access := { tid := c.t.tid, key := a.x.sid, reads := true, acq := none, lead := none, far := none, paths := [], flag := none,
                      next := { id := s.nextId, ranges := [(true, tagPlace i, 16)], rel := rel, remote := false } }
  let (rels, s) := releaseAs s c.t x []
  updTeam s c.t.tid fun t => { t with tags := updAt (fun e => { f e with rel := rels }) i t.tags }

/-- A tag write may be made: nothing that comes first is still to come. -/
def mayTag (c : VCtx) (vd : BitVec 6) (l : List Cand) : Bool :=
  l.all fun a => !blocked c.s c.t.tid a.x.sid
    { id := c.s.nextId, ranges := [(true, tagPlace 0, 16 * 256)], rel := relOf c.t a.x.sid (tagIssue vd).kind 0 0, remote := false }

/-- STSET (R182). -/
def execStset (o : VM) (s : State) : Result :=
  let e := o.ext.getD MExt.none
  let u : Uses := { codes := wideCodes o.sx ++ [e.sz], frees := (if o.lx then wideRegs o.sx else []) ++ markReg e.sz e.lz,
                    holds := markReg e.sz e.hz, dests := [o.vd.toNat], len := 2 }
  runWord (.stset o) s u fun c =>
    let cands := c.w.active'.map fun x =>
      let a := c.rd64 o.sx x
      let n := c.rd .i e.sz x
      { x := x, sum := 128 * n.val.toNat, poison := a.2 || n.poison,
        code := if c.t.place.scrSize / 128 ≤ n.val.toNat then some 6 else none,
        data := a.1, data2 := n.val, dpoison := false, remote := false : Cand }
    checkCands c cands <|
      if !mayTag c o.vd cands then retryWord c.s c.t.tid c.w.wid .order
      else
        let r := cands.foldl (fun (acc : State × List (Nat × W32)) a =>
          let l := match getTeam acc.1 c.t.tid with | some t => t.tags | none => []
          match installTag l (tagOf a.data) with
          | some i =>
            (writeTag c a i (fun e => { e with valid := true, tag := tagOf a.data, slot := a.data2.setWidth 13 }) acc.1,
             acc.2 ++ [(a.x.sid, BitVec.ofNat 32 i)])
          | none => (acc.1, acc.2 ++ [(a.x.sid, 0xFFFFFFFF)])) (c.s, [])
        .next (finishWord r.1 c.t.tid c.w.wid u (writeStrands fun x =>
          [(o.vd.toNat, { val := ((r.2.find? fun p => p.1 = x.sid).map (·.2)).getD 0, poison := false })]))

/-- STINV (R182). -/
def execStinv (o : VTag) (s : State) : Result :=
  let u := usesTag o []
  runWord (.stinv o) s u fun c =>
    let cands := tagCands c o.sx
    checkCands c cands <|
      if !mayTag c o.vd cands then retryWord c.s c.t.tid c.w.wid .order
      else
        let s := cands.foldl (fun s a =>
          let l := match getTeam s c.t.tid with | some t => t.tags | none => []
          match findTag l (tagOf a.data) with
          | some i => writeTag c a i (fun e => { e with valid := false }) s
          | none => s) c.s
        .next (finishWord s c.t.tid c.w.wid u fun w => w)

/-! ### Returns (06 R102, 03 R50) -/

/-- A return event concerns an operation of its kind. -/
def returnIf (s : State) (op : Nat) (p : OpKind → Bool) : Result :=
  match getOp s op with
  | some o => .next (if p o.kind then returnOp s op else s)
  | none => .next s

/-- LOAD_RETURN: a load's or STAG's result is in every destination (06 R102). -/
def execLoadReturn (op : Nat) (s : State) : Result :=
  returnIf s op fun k => match k with | .load _ | .scrLoad _ | .stag => true | _ => false

/-- The cluster of an operation's team. -/
def opCluster (s : State) (op : Nat) : Nat := match (getOp s op).bind fun o => getTeam s o.tid with | some t => t.place.cluster | none => 0

/-- STORE_APPLIED: a store is applied on the issuing die (03 R50); one that fills lines serves the loads held there (R179). -/
def execStoreApplied (op : Nat) (s : State) : Result :=
  match returnIf s op fun k => match k with | .store | .scrStore _ => true | _ => false with
  | .next s' => .next (serveFills (opCluster s op) s s')
  | r => r

/-- An element is performed ahead of the others; one that fills a line serves the loads held there (03 R52, R179). -/
def elementTurn (s : State) (op idx : Nat) : State := serveFills (opCluster s op) s (performElem s op idx)

/-- ATOMIC_RETURN: both halves have returned (06 R102). -/
def execAtomicReturn (op : Nat) (s : State) : Result :=
  returnIf s op fun k => match k with | .atomic _ _ | .scrAtomic _ _ => true | _ => false

/-- LDGS_COMPLETE: every byte is in scratchpad (R177). -/
def execLdgsComplete (op : Nat) (s : State) : Result := returnIf s op fun k => k = .ldgs

/-- One element that another module has acknowledged, with what it returned: an LDGS writes the bytes into scratchpad (R177). -/
def ackElem (s : State) (t : Team) (o : VOp) (idx : Nat) (a : Acc) (v : W64 × Bool) : State :=
  match o.kind with
  | .ldgs => performAcc s t o idx { a with given := some v }
  | _ =>
    let s := updAcc s o.id idx fun a => { a with done := true, result := v.1, resPoison := v.2 }
    if o.kind.reads then readAs s t (o.access a) [] else s

/-- REMOTE_ACKNOWLEDGE: another module acknowledges the elements of its memory that may be performed, over a port that is up; data holds what it returned, in order
(03 R50 P3, R56). -/
def execRemoteAcknowledge (op : Nat) (data : List (W64 × Bool)) (s : State) : Result :=
  match getOp s op with
  | none => .next s
  | some o =>
    let todo := (upFrom 0 o.accs.length).filter fun i => match o.accs[i]? with | some a => a.remote && !a.done | none => false
    .next ((todo.zip (data ++ List.replicate todo.length (0, false))).foldl (fun s p =>
      match getOp s op with
      | none => s
      | some o => match o.accs[p.1]?, getTeam s o.tid with
        | some a, some t => if linked s && mayPerform s o p.1 a then ackElem s t o p.1 a p.2 else s
        | _, _ => s) s)

end Sys2Proof.Machine
end

