-- ==== Sys2Proof/Machine/Hart.lean ====
section
/-! DEFINITION. The control core (15): RV64I, M, A, Zicsr and Zifencei, the CSRs, the uniform queue, timelines, fences, and the ends
of harts. -/

namespace Sys2Proof.Machine

open Sys2Proof

/-! ### Arithmetic of RV64I and M (R211) -/

/-- Sign-extend a 32-bit result. -/
def sext32 (v : W32) : W64 := v.signExtend 64

/-- Division rounding towards zero with RISC-V's corners, on n-bit values. -/
def rvDiv {n : Nat} (a b : BitVec n) : BitVec n := if b = 0 then -1 else BitVec.ofInt n (a.toInt.tdiv b.toInt)
/-- Remainder of rvDiv. -/
def rvRem {n : Nat} (a b : BitVec n) : BitVec n := if b = 0 then a else BitVec.ofInt n (a.toInt.tmod b.toInt)
/-- Unsigned division. -/
def rvDivu {n : Nat} (a b : BitVec n) : BitVec n := if b = 0 then -1 else BitVec.ofNat n (a.toNat / b.toNat)
/-- Unsigned remainder. -/
def rvRemu {n : Nat} (a b : BitVec n) : BitVec n := if b = 0 then a else BitVec.ofNat n (a.toNat % b.toNat)

/-- A 64-bit operation. -/
def aluVal (op : RvAlu) (a b : W64) : W64 :=
  match op with
  | .add => a + b
  | .sub => a - b
  | .sll => a <<< (b.toNat % 64)
  | .slt => if a.toInt < b.toInt then 1 else 0
  | .sltu => if a.toNat < b.toNat then 1 else 0
  | .xor => a ^^^ b
  | .srl => a >>> (b.toNat % 64)
  | .sra => a.sshiftRight (b.toNat % 64)
  | .or => a ||| b
  | .and => a &&& b
  | .mul => a * b
  | .mulh => BitVec.ofInt 64 (a.toInt * b.toInt / 2 ^ 64)
  | .mulhsu => BitVec.ofInt 64 (a.toInt * (b.toNat : Int) / 2 ^ 64)
  | .mulhu => BitVec.ofNat 64 (a.toNat * b.toNat / 2 ^ 64)
  | .div => rvDiv a b
  | .divu => rvDivu a b
  | .rem => rvRem a b
  | .remu => rvRemu a b

/-- A 32-bit operation, sign-extended. The operations without a W form do not occur (Legal). -/
def aluWVal (op : RvAlu) (a b : W32) : W64 :=
  sext32 (match op with
    | .add => a + b
    | .sub => a - b
    | .sll => a <<< (b.toNat % 32)
    | .srl => a >>> (b.toNat % 32)
    | .sra => a.sshiftRight (b.toNat % 32)
    | .mul => a * b
    | .div => rvDiv a b
    | .divu => rvDivu a b
    | .rem => rvRem a b
    | .remu => rvRemu a b
    | .slt | .sltu | .xor | .or | .and | .mulh | .mulhsu | .mulhu => a)

/-- A branch condition. -/
def condHolds (c : RvCond) (a b : W64) : Bool :=
  match c with
  | .eq => a = b
  | .ne => a ≠ b
  | .lt => decide (a.toInt < b.toInt)
  | .ge => decide (b.toInt ≤ a.toInt)
  | .ltu => decide (a.toNat < b.toNat)
  | .geu => decide (b.toNat ≤ a.toNat)

/-- Write rd and retire. -/
def writeRd (s : State) (t : Team) (h : Hart) (rd : BitVec 5) (v : W64) (p : Bool) : Result := retireNext s t h fun h => h.wr rd v p

/-- Jump: a target that is not a multiple of 4 raises mcause 0 at the jump. -/
def jumpTo (s : State) (t : Team) (h : Hart) (target : W64) (f : Hart → Hart) : Result :=
  if target.toNat % 4 ≠ 0 then hartException s t h 0 target.toNat 0 0 false else .next (retire s t.tid target f)

/-- MRET in M-mode returns to mepc; the hart stays the Loom's (DESIGN CHOICE, log entry 73). -/
def machineReturn (s : State) (t : Team) (h : Hart) : Result :=
  .next (retire s t.tid (h.mepc &&& ~~~3) fun h => { h with csrs := spSet 0 h.csrs 0x300 (returnStatus (spGet 0 h.csrs 0x300)) })

/-- RV64_INSTRUCTION: the I and M instructions that touch registers and the pc only, and MRET, which U-mode may not use (R211, R217). -/
def execRv64Instruction (op : RvOp) (s : State) : Result :=
  runHart (.rv64Instruction op) s fun s t h =>
    match op with
    | .lui rd imm => writeRd s t h rd ((imm ++ (0 : BitVec 12)).signExtend 64) false
    | .auipc rd imm => writeRd s t h rd (h.pc + (imm ++ (0 : BitVec 12)).signExtend 64) false
    | .jal rd off => jumpTo s t h (h.pc + off.signExtend 64) fun h' => h'.wr rd (h.pc + 4) false
    | .jalr rd rs1 imm =>
      if h.pd rs1 then poisonHart s t h
      else jumpTo s t h ((h.rd rs1 + imm.signExtend 64) &&& ~~~1) fun h' => h'.wr rd (h.pc + 4) false
    | .branch c rs1 rs2 off =>
      if h.pd rs1 || h.pd rs2 then poisonHart s t h
      else if condHolds c (h.rd rs1) (h.rd rs2) then jumpTo s t h (h.pc + off.signExtend 64) id
      else retireNext s t h id
    | .aluImm op rd rs1 imm => writeRd s t h rd (aluVal op (h.rd rs1) (imm.signExtend 64)) (h.pd rs1)
    | .aluImmW op rd rs1 imm => writeRd s t h rd (aluWVal op ((h.rd rs1).setWidth 32) (imm.signExtend 32)) (h.pd rs1)
    | .alu op rd rs1 rs2 => writeRd s t h rd (aluVal op (h.rd rs1) (h.rd rs2)) (h.pd rs1 || h.pd rs2)
    | .aluW op rd rs1 rs2 => writeRd s t h rd (aluWVal op ((h.rd rs1).setWidth 32) ((h.rd rs2).setWidth 32)) (h.pd rs1 || h.pd rs2)
    | .mret => if t.inM then machineReturn s t h else hartIllegal s t h 0

/-! ### Redundant pairs (25 R362) -/

/-- An externally visible access of a pair's member waits for its comparison. -/
def hartGate (s : State) (t : Team) (h : Hart) (kind : Nat) (data : List Nat) (go : State → Result) : Result :=
  match t.partner with
  | none => go s
  | some _ =>
    if h.granted then go s
    else
      let s := updTeam s t.tid fun t => { t with visible := t.visible ++ [{ who := hartWho, kind := kind, data := data }] }
      .next (updHart s t.tid fun h => { h with wait := .pairAccess })

/-- Retire an access that a pair counts. -/
def retireAccess (s : State) (t : Team) (h : Hart) (f : Hart → Hart) : Result :=
  retireNext s t h fun h' => let h' := f h'; { h' with granted := false, loadSeq := h'.loadSeq + ofBool t.partner.isSome }

/-- The record of a hart's access for the other member of a pair. -/
def hartLoadOf (h : Hart) (place : List Nat) (op : Nat) (results : Option (List (W64 × Bool))) : PairLoad :=
  { who := hartWho, seq := h.loadSeq, addrs := place, op := op, results := results, differs := results.map fun _ => false }

/-- The member of a pair that has made an access first learns whether the other's addresses differ; where it waits for nothing its record is
done with. -/
def pairMatch (s : State) (t : Team) (who seq : Nat) (differ : Bool) : State :=
  match t.partner with
  | some p => updTeam s p fun p =>
      let l := p.pairLoads.filter fun e => !(decide (e.who = who) && decide (e.seq = seq) && e.differs.isSome)
      { p with pairLoads := l.map fun e => if e.who = who && e.seq = seq then { e with differs := some differ } else e }
  | none => s

/-- A read that a pair performs once: the member that comes second receives the first one's value, with poison where the addresses of a
memory access differ; it waits where that value is not known yet. read: what the member that comes first does; also: what the access does for
the member that comes second. -/
def readOnceAnd (also : State → State) (s : State) (t : Team) (h : Hart) (place : List Nat) (memory : Bool) (rd : BitVec 5)
    (read : State → Result) : Result :=
  match pairFind s t hartWho h.loadSeq with
  | none => read s
  | some e =>
    match e.results with
    | none => hartRetry s t .order
    | some r =>
      let v := r.headD (0, true)
      let differ := memory && decide (e.addrs ≠ place)
      retireAccess (pairMatch (also s) t hartWho h.loadSeq differ) t h fun h => h.wr rd v.1 (v.2 || differ)

/-- A read that does nothing more for the member that comes second. -/
def readOnce (s : State) (t : Team) (h : Hart) (place : List Nat) (memory : Bool) (rd : BitVec 5) (read : State → Result) : Result :=
  readOnceAnd id s t h place memory rd read

/-- The second member of a pair holds the reservation of an LR as the first one still does (R216, 25 R362). -/
def shareResv (t : Team) (g : Nat) (s : State) : State :=
  match t.partner with
  | some p => setResv s t.die t.tid (if resvOf s t.die p = some g then some g else none)
  | none => s

/-- A value read at once, kept for the other member of a pair: a CSR or a timeline. -/
def readNow (s : State) (t : Team) (h : Hart) (place : List Nat) (rd : BitVec 5) (v : W64) : Result :=
  readOnce s t h place false rd fun s =>
    retireAccess (pairNote s t (hartLoadOf h place s.nextId (some [(v, false)]))) t h fun h => h.wr rd v false

/-! ### CSRs (R212, R223, R224) -/

/-- Unfreed entries of the uniform queue: what the slowest weft with a live strand has not read (07 R127). -/
def uqUsed (t : Team) : Nat := t.live.foldl (fun a w => Nat.max a (t.uni.tail - w.rpos).toNat) 0

/-- Live strands of a team. -/
def liveCount (t : Team) : Nat := t.wefts.foldl (fun a w => a + w.strands.length) 0

/-- misa: MXL 2, the bits A, I, M, U and X (R211). -/
def misaValue : W64 := 0x8000000000901101

/-- The value of a CSR that M-mode may read: the M-mode CSRs, and the standard counters. DESIGN CHOICE (log entry 73): the spec gives the
values of misa, mepc, mcause and mtval; the identification CSRs 0xF11 to 0xF14 are free constants, and every other CSR of R223 holds
what was written to it, 0 at reset. -/
def machineCsr (s : State) (h : Hart) (n : Nat) : Option W64 :=
  match n with
  | 0x301 => some misaValue
  | 0x341 => some h.mepc
  | 0x342 => some h.mcause
  | 0x343 => some h.mtval
  | 0xC00 => some h.cycle
  | 0xC01 => some (BitVec.ofNat 64 (timeNs s))
  | 0xC02 => some h.instret
  | _ =>
    if 0xF11 ≤ n ∧ n ≤ 0xF14 then some (Config.machineId n)
    else if (0x300 ≤ n ∧ n ≤ 0x3FF) ∨ (0x7C0 ≤ n ∧ n ≤ 0x7FF) then some (spGet 0 h.csrs n)
    else none

/-- Write an M-mode CSR. misa does not change: it reports what the hart implements (R211). -/
def Hart.setCsr (h : Hart) (n : Nat) (v : W64) : Hart :=
  match n with
  | 0x301 => h
  | 0x341 => { h with mepc := v }
  | 0x342 => { h with mcause := v }
  | 0x343 => { h with mtval := v }
  | _ => { h with csrs := spSet 0 h.csrs n v }

/-- The value of a CSR that U-mode may read. -/
def csrValue (s : State) (t : Team) (h : Hart) (n : Nat) : Option W64 :=
  let even := if t.partner.isSome then t.place.core / 2 * 2 else t.place.core
  match n with
  | 0xC00 => some h.cycle
  | 0xC01 => some (BitVec.ofNat 64 (timeNs s))
  | 0xC02 => some h.instret
  | 0xCC0 => some (BitVec.ofNat 64 t.ref.number)
  | 0xCC1 => some (BitVec.ofNat 64 t.nstr)
  | 0xCC2 => some (BitVec.ofNat 64 (liveCount t))
  | 0xCC3 => some ((pointOf s t).zeroExtend 64)
  | 0xCC4 => some (BitVec.ofNat 64 (1024 * dieOf t.place.cluster + 256 * even + t.place.cluster))
  | 0xCC5 => some (BitVec.ofNat 64 (65536 * uqUsed t + t.uni.tail.toNat))
  | 0xCC6 => some (BitVec.ofNat 64 (t.fn + 4 * ofBool t.secure))
  | 0xCC7 => some (BitVec.ofNat 64 t.place.scrSize)
  | _ => none

/-- A CSR instruction that writes: every readable CSR is read-only (R212). -/
def csrWrites (op : CsrOp) (rs1 : BitVec 5) : Bool := match op with | .rw => true | .rs | .rc => decide (rs1 ≠ 0)

/-- A CSR number is read-only: its two top bits are ones (the RISC-V convention that R211 takes over). -/
def csrReadOnly (n : Nat) : Bool := decide (0xC00 ≤ n)

/-- What a CSR instruction writes. -/
def csrNew (op : CsrOp) (old v : W64) : W64 :=
  match op with
  | .rw => v
  | .rs => old ||| v
  | .rc => old &&& ~~~v

/-- A CSR instruction of the Loom's M-mode code (R211, R223). -/
def machineAccess (s : State) (t : Team) (h : Hart) (op : CsrOp) (imm : Bool) (csr : BitVec 12) (rd rs1 : BitVec 5) : Result :=
  match machineCsr s h csr.toNat with
  | none => hartIllegal s t h 0
  | some v =>
    let w := csrWrites op rs1
    if w && csrReadOnly csr.toNat then hartIllegal s t h 0
    else
      let x : W64 := if imm then rs1.setWidth 64 else h.rd rs1
      retireNext s t h fun h => (if w then h.setCsr csr.toNat (csrNew op v x) else h).wr rd v false

/-- CSR_ACCESS (R212). -/
def execCsrAccess (op : CsrOp) (imm : Bool) (csr : BitVec 12) (rd rs1 : BitVec 5) (s : State) : Result :=
  runHart (.csrAccess op imm csr rd rs1) s fun s t h =>
    let s := if csr = 0xC01 then passTime s else s
    if t.inM then machineAccess s t h op imm csr rd rs1
    else
      match csrValue s t h csr.toNat with
      | none => hartIllegal s t h 0
      | some v => if csrWrites op rs1 then hartIllegal s t h 0 else readNow s t h [csr.toNat] rd v

/-! ### Loads and stores (R214, R215, R217) -/

/-- Bytes of an access width. -/
def rvSize : RvWidth → Nat
  | .b | .bu => 1 | .h | .hu => 2 | .w | .wu => 4 | .d => 8

/-- The width sign-extends. -/
def rvSigned : RvWidth → Bool
  | .b | .h | .w | .d => true
  | .bu | .hu | .wu => false

/-- A loaded value in an x register. -/
def loadValue (size : Nat) (sext : Bool) (v : Nat) : W64 := if sext then BitVec.ofInt 64 (signedOf (8 * size) v) else BitVec.ofNat 64 v

/-- The scope at which a write of a hart is a release: its own, module, or that of an earlier release fence (R215, 03 R53). -/
def hartRel (t : Team) (rl : Bool) : Option Nat := widest (if rl then some 4 else none) (t.hist hartWho).rel

/-- A hart's access of n bytes as the order rules see it, under a number: rel, the scope at which it is a release; aq: an acquire at
module scope (R215). -/
def hartPlace (s : State) (t : Team) (id : Nat) (a : W64) (n : Nat) (reads : Bool) (rel : Option Nat) (aq : Bool) : Access :=
  { tid := t.tid, key := hartWho, reads := reads, acq := if aq then some 4 else none, lead := if aq then some (id + 1) else none, far := none,
    paths := [], flag := none,
    next := { id := id, ranges := [(false, a.toNat, n)], rel := rel, remote := isRemote s t.fn a.toNat } }

/-- Some outstanding store of a hart comes before an access (R215, 03 R52). -/
def storesFirst (s : State) (t : Team) (h : Hart) (x : Access) : Bool :=
  h.stores.any fun y =>
    let o := HStore.access t y (isRemote s t.fn y.addr.toNat)
    decide (y.num < x.next.id) && ordersBefore o.lead o.far o.next.remote o.next.ranges x.next

/-- The checks of a hart access: a poisoned address, then alignment, translation and rights, then the walk, and the chunk that a read needs
(R213, R217, 05 R85). -/
def hartAccess (s : State) (t : Team) (h : Hart) (store : Bool) (addr : W64) (size : Nat) (needs : List Need) (poison accepted : Bool)
    (go : State → Result) : Result :=
  if poison then poisonHart s t h
  else if accepted then go s
  else
    match checkAccess s t.fn t.secure (addr.toNat : Int) size true needs with
    | some c => hartMemFault s t h store c addr
    | none =>
      let (ready, s) := tlbLookup s t.place.cluster t.fn addr.toNat
      if !ready then hartRetry s t .walk
      else match (if needs.contains .read then missingOf s t.fn (upFrom addr.toNat size) else none) with
        | some (h, i) => hartRetry s t (.data h i)
        | none => go s

/-- A data access of the Loom's M-mode code: its own memory, which no function maps and in which it is performed at once (DESIGN CHOICE, log
entry 73); aligned and within 2^56 bytes, as R213 asks of every access. go: the access, at its place in memory, which holds every earlier write
there. -/
def machineMem (s : State) (t : Team) (h : Hart) (store : Bool) (addr : W64) (size : Nat) (poison : Bool) (go : State → Nat → Result) : Result :=
  if poison then poisonHart s t h
  else if addr.toNat % size ≠ 0 then hartMemFault s t h store 2 addr
  else if 2 ^ 56 < addr.toNat + size then hartMemFault s t h store 1 addr
  else go { s with mem := catchUp s.mem t.die (gkey 4 addr.toNat) size } (gkey 4 addr.toNat)

/-- Bytes that M-mode code writes, with the poison of their granules where they are poisoned. -/
def machineWrite (s : State) (t : Team) (k : Nat) (b : List Byte) (p : Bool) : State :=
  writeBytes s t.die k b (if p then (granulesOf k b.length).map fun g => (g, true) else []) [] []

/-- A load or LR of M-mode code. -/
def machineLoad (s : State) (t : Team) (h : Hart) (rd : BitVec 5) (a : W64) (n : Nat) (sext : Bool) (p reserve : Bool) : Result :=
  machineMem s t h false a n p fun s k =>
    let s := if reserve then setResv s t.die (machineKey t) (some (k / 64)) else s
    retireNext s t h fun h => h.wr rd (loadValue n sext (readNat s t.die k n)) (poisonAt s t.die k)

/-- HART_LOAD (R214). -/
def execHartLoad (wd : RvWidth) (rd rs1 : BitVec 5) (imm : BitVec 12) (s : State) : Result :=
  runHart (.hartLoad wd rd rs1 imm) s fun s t h =>
    let a := h.rd rs1 + imm.signExtend 64
    let n := rvSize wd
    if t.inM then machineLoad s t h rd a n (rvSigned wd) (h.pd rs1) false else
    let ap := apertureOk (.load false) n a.toNat
    let go (s : State) : Result :=
      readOnce s t h [n, a.toNat] true rd fun s => hartWait (pairNote s t (hartLoadOf h [n, a.toNat] s.nextId none)) t (.load rd a n (rvSigned wd))
    hartAccess s t h false a n [.read] (h.pd rs1) ap fun s => if ap then hartGate s t h 1 [n, a.toNat] go else go s

/-- The exception of a copy that is refused at issue: mcause 2 with mtval as XINFO, reported as the trap (18 R284). -/
def hartCopyFault (s : State) (t : Team) (h : Hart) (f : CopyFault) : Result :=
  hartException s t h 2 (infoOf f.info) f.cause f.reason false

/-- HART_STORE: a store waits for nothing; a store to the aperture starts a copy and releases the hart's earlier stores to it (R214,
R215, 03 R57). -/
def execHartStore (wd : RvWidth) (rs1 rs2 : BitVec 5) (imm : BitVec 12) (s : State) : Result :=
  runHart (.hartStore wd rs1 rs2 imm) s fun s t h =>
    let a := h.rd rs1 + imm.signExtend 64
    let n := rvSize wd
    let v := h.rd rs2
    if t.inM then machineMem s t h true a n (h.pd rs1) fun s k => retireNext (machineWrite s t k (leBytes n v.toNat) (h.pd rs2)) t h id else
    let ap := apertureOk .store n a.toNat
    let ch := (a.toNat - apertureBase) / 8
    hartAccess s t h true a n [.write] (h.pd rs1 || (h.pd rs2 && (ap || isRemote s t.fn a.toNat))) ap fun s =>
      match (if ap then missingTemplate s t (storeIndex v) else none), (if ap then copyCheck s t v else none) with
      | some (h, i), _ => hartRetry s t (.data h i)
      | none, some f => hartCopyFault s t h f
      | none, none =>
        hartGate s t h 2 [n, a.toNat, v.toNat % 2 ^ (8 * n), ofBool (h.pd rs2)] fun s =>
          let second := (pairFind s t hartWho h.loadSeq).isSome
          let note := hartLoadOf h [] s.nextId (some [])
          if second then retireAccess (pairDrop s t hartWho h.loadSeq) t h id
          else if ap then
            if !h.stores.isEmpty then hartRetry s t .order
            else if !channelRoom s t.place.cluster ch 1 then hartRetry s t .channel
            else retireAccess (startCopy (pairNote s t note) t (inTransit s.mem (t.done [hartWho])) ch v) t h id
          else
            let (i, s) := takeId s
            let x : HStore := { addr := a, bytes := leBytes n v.toNat, poison := h.pd rs2, rel := hartRel t false, num := i }
            retireAccess (pairNote s t note) t h fun h => { h with stores := h.stores ++ [x] }

/-- HART_STORE_APPLIED: a store is applied on the hart's die once those that come first have been (R215, R235). -/
def execHartStoreApplied (tid idx : Nat) (s : State) : Result :=
  match getTeam s tid with
  | none => .next s
  | some t => match t.hart with
    | none => .next s
    | some h => match h.stores[idx]? with
      | none => .next s
      | some x =>
        if storesFirst s t h (HStore.access t x (isRemote s t.fn x.addr.toNat)) || (isRemote s t.fn x.addr.toNat && !linked s) then .next s
        else .next (updHart (applyHStore s t x) tid fun h => { h with stores := h.stores.filter fun y => y.num ≠ x.num })

/-! ### Atomics (R215, R216) -/

/-- The new value of an AMO on n-byte operands. -/
def amoNew (op : RvAmo) (n : Nat) (old d : W64) : W64 :=
  let sx (v : W64) : Int := signedOf (8 * n) v.toNat
  let ux (v : W64) : Nat := v.toNat % 2 ^ (8 * n)
  match op with
  | .swap => d
  | .add => old + d
  | .xor => old ^^^ d
  | .and => old &&& d
  | .or => old ||| d
  | .min => if sx old ≤ sx d then old else d
  | .max => if sx old ≤ sx d then d else old
  | .minu => if ux old ≤ ux d then old else d
  | .maxu => if ux old ≤ ux d then d else old

/-- Bytes of a word or doubleword operation. -/
def dwSize (dword : Bool) : Nat := if dword then 8 else 4

/-- The number of an AMO, for a comparison. -/
def amoNo : RvAmo → Nat
  | .swap => 0 | .add => 1 | .xor => 2 | .and => 3 | .or => 4 | .min => 5 | .max => 6 | .minu => 7 | .maxu => 8

/-- HART_AMO: a commit event, before which work that the task deferred waits for what it releases (19 R298, R304); the hart waits for the
old value, which it reads (R215, 05 R85). -/
def execHartAmo (op : RvAmo) (dword aq rl : Bool) (rd rs1 rs2 : BitVec 5) (s : State) : Result :=
  runHart (.hartAmo op dword aq rl rd rs1 rs2) s fun s t h =>
    let a := h.rd rs1
    let n := dwSize dword
    if t.inM then machineMem s t h true a n (h.pd rs1 || h.pd rs2) fun s k =>
      let old := loadValue n true (readNat s t.die k n)
      retireNext (machineWrite s t k (leBytes n (amoNew op n old (h.rd rs2)).toNat) false) t h fun h' => h'.wr rd old (poisonAt s t.die k)
    else
    hartAccess s t h true a n [.write] (h.pd rs1 || h.pd rs2) false fun s =>
      match missingOf s t.fn (upFrom a.toNat n) with
      | some (o, i) => hartRetry s t (.data o i)
      | none =>
      hartGate s t h (64 + 4 * amoNo op + 2 * ofBool aq + ofBool rl) [n, a.toNat, (h.rd rs2).toNat % 2 ^ (8 * n)] fun s =>
        readOnce s t h [n, a.toNat] true rd fun s =>
          if !commitReady s t then hartRetry s t .order
          else
            let s := pairNote s t (hartLoadOf h [n, a.toNat] s.nextId none)
            hartWait (commitEvent s t.tid) t (.amo op rd a (h.rd rs2) n aq rl)

/-- LR (R216). -/
def execLr (dword aq rl : Bool) (rd rs1 : BitVec 5) (s : State) : Result :=
  runHart (.lr dword aq rl rd rs1) s fun s t h =>
    let a := h.rd rs1
    let n := dwSize dword
    if t.inM then machineLoad s t h rd a n true (h.pd rs1) true else
    hartAccess s t h false a n [.read] (h.pd rs1) false fun s =>
      readOnceAnd (shareResv t (gkey t.fn a.toNat / 64)) s t h [n, a.toNat] true rd fun s =>
        hartWait (pairNote s t (hartLoadOf h [n, a.toNat] s.nextId none)) t (.lr rd a n aq rl)

/-- SC: writes and answers 0 where the reservation of its granule stands, else answers 1 and stores nothing; one that succeeds is a commit
event (R216, 19 R298). -/
def execSc (dword aq rl : Bool) (rd rs1 rs2 : BitVec 5) (s : State) : Result :=
  runHart (.sc dword aq rl rd rs1 rs2) s fun s t h =>
    let a := h.rd rs1
    let n := dwSize dword
    if t.inM then machineMem s t h true a n (h.pd rs1 || h.pd rs2) fun s k =>
      let ok := decide (resvOf s t.die (machineKey t) = some (k / 64))
      let s := if ok then machineWrite s t k (leBytes n (h.rd rs2).toNat) false else s
      retireNext (setResv s t.die (machineKey t) none) t h fun h => h.wr rd (if ok then 0 else 1) false
    else
    hartAccess s t h true a n [.write] (h.pd rs1 || h.pd rs2) false fun s =>
      hartGate s t h (128 + 2 * ofBool aq + ofBool rl) [n, a.toNat, (h.rd rs2).toNat % 2 ^ (8 * n)] fun s =>
        readOnceAnd (fun s => setResv s t.die t.tid none) s t h [n, a.toNat] true rd fun s =>
          let (i, s) := takeId s
          let k := gkey t.fn a.toNat
          let s := if isRemote s t.fn a.toNat then s else { s with mem := catchUp s.mem t.die k n }
          let ok := decide (resvOf s t.die t.tid = some (k / 64))
          let x := hartPlace s t i a n ok (hartRel t rl) aq
          if storesFirst s t h x || (ok && !commitReady s t) || (isRemote s t.fn a.toNat && !linked s) then hartRetry s t .order
          else
            let seen := seenAt s t.die k n
            let s := if ok then commitEvent s t.tid else s
            let s := if !ok || isRemote s t.fn a.toNat then s else writeAs s t x false k (leBytes n (h.rd rs2).toNat) [] seen
            let s := setResv s t.die t.tid none
            let r : W64 := if ok then 0 else 1
            retireAccess (pairNote s t (hartLoadOf h [n, a.toNat] s.nextId (some [(r, false)]))) t h fun h => h.wr rd r false

/-- The bytes and the poison bit that a hart reads; those of another module's page are free (03 R50 P3, 25 R355). -/
def hartRead (s : State) (t : Team) (a : W64) (n : Nat) : List Byte × Bool × State :=
  if apertureBase ≤ a.toNat then (leBytes n (apertureRead s t.place.cluster (a.toNat - apertureBase)), false, s)
  else if isRemote s t.fn a.toNat then let (b, s) := remoteRead s a.toNat n; (b.map (·.1), b.any (·.2), s)
  else (readBytes s t.die (gkey t.fn a.toNat) n, poisonAt s t.die (gkey t.fn a.toNat), s)

/-- The record of a hart's waiting read, where its team has a partner that still runs (25 R362). -/
def ownRead (s : State) (t : Team) (h : Hart) : Option PairLoad :=
  if (t.partner.bind (getTeam s)).isNone then none
  else t.pairLoads.find? fun e => decide (e.who = hartWho) && decide (e.seq = h.loadSeq)

/-- A hart has its value: it retires, or, of a redundant pair, waits for the other member to make the access (25 R362). -/
def hartAnswer (s : State) (t : Team) (h : Hart) (rd : BitVec 5) (v : W64) (p : Bool) : Result :=
  match ownRead s t h with
  | none => retireAccess (updTeam s t.tid fun t => { t with pairLoads := t.pairLoads.filter fun e => !(decide (e.who = hartWho) && decide (e.seq = h.loadSeq)) })
      t h fun h => h.wr rd v p
  | some _ => .next (updTeam s t.tid fun t => { t with pairLoads := t.pairLoads.map fun e =>
      if e.who = hartWho && e.seq = h.loadSeq then { e with results := some [(v, p)] } else e })

/-- What an access of a hart is when it is performed: nothing where an outstanding store comes first, where it is another module's and no port
is up (26 R377), or where its value is known and the
other member of a pair has still to make it; the hart's end of it where that member has. read: perform it. -/
def hartReturn (s : State) (t : Team) (h : Hart) (rd : BitVec 5) (x : Access) (read : State → Result) : Result :=
  match (ownRead s t h).bind fun e => e.results.map fun r => (e, r) with
  | some (e, r) =>
    match e.differs with
    | none => .next s
    | some d =>
      let v := r.headD (0, true)
      retireAccess (updTeam s t.tid fun t => { t with pairLoads := t.pairLoads.filter fun e => !(decide (e.who = hartWho) && decide (e.seq = h.loadSeq)) })
        t h fun h => h.wr rd v.1 (v.2 || d)
  | none => if storesFirst s t h x || (x.next.remote && !linked s) then .next s else read (takeId s).2

/-- HART_MEMORY_RETURN: the memory system answers a waiting load, LR or AMO (R215, R216, R220). -/
def execHartMemoryReturn (s : State) : Result :=
  withHart s fun s t h =>
    match h.wait with
    | .load rd a n sext =>
      let x := hartPlace s t s.nextId a n true none false
      hartReturn s t h rd x fun s =>
        let (b, p, s) := hartRead s t a n
        let s := if apertureBase ≤ a.toNat then s else readAs s t x (seenAt s t.die (gkey t.fn a.toNat) n)
        hartAnswer s t h rd (loadValue n sext (leNat b)) p
    | .lr rd a n aq rl =>
      let x := hartPlace s t s.nextId a n true (if rl then some 4 else none) aq
      hartReturn s t h rd x fun s =>
        let (b, p, s) := hartRead s t a n
        let s := setResv (readAs s t x (seenAt s t.die (gkey t.fn a.toNat) n)) t.die t.tid (some (gkey t.fn a.toNat / 64))
        hartAnswer s t h rd (loadValue n true (leNat b)) p
    | .amo op rd a d n aq rl =>
      let x := hartPlace s t s.nextId a n true (hartRel t rl) aq
      hartReturn s t h rd x fun s =>
        let k := gkey t.fn a.toNat
        let s := { s with mem := catchUp s.mem t.die k n }
        let (b, p, s) := hartRead s t a n
        let old := loadValue n true (leNat b)
        let s := if isRemote s t.fn a.toNat then readAs s t x []
          else writeAs s t x true k (leBytes n (amoNew op n old d).toNat) [] (seenAt s t.die k n)
        hartAnswer s t h rd old p
    | _ => .next s

/-! ### Ordering (R215, R234) -/

/-- A fence of a hart at a scope (03 R53). -/
def hartFenceOp (s : State) (t : Team) (acq rel : Bool) (scp : Nat) : State := fenceAs s t [hartWho] acq rel scp

/-- HART_FENCE (R215). -/
def execHartFence (fm pred succ : BitVec 4) (s : State) : Result :=
  runHart (.hartFence fm pred succ) s fun s t h =>
    let some' := pred.extractLsb' 0 2 ≠ 0 && succ.extractLsb' 0 2 ≠ 0
    retireNext (if some' then hartFenceOp s t true true 4 else s) t h id

/-- XFENCE (R234). -/
def execXfence (ord : BitVec 2) (scp : BitVec 3) (s : State) : Result :=
  runHart (.xfence ord scp) s fun s t h =>
    retireNext (hartFenceOp s t (ord.getLsbD 0) (ord.getLsbD 1) scp.toNat) t h id

/-- FENCE_I has no effect (R211). -/
def execFenceI (s : State) : Result := runHart .fenceI s fun s t h => retireNext s t h id

/-! ### The uniform queue (R229, R230) -/

/-- Push a value: what the hart has done goes with the entry (R230). -/
def pushEntry (s : State) (tid : Nat) (v : W64) : State :=
  updTeam s tid fun t =>
    let i := t.uni.tail.toNat % 64
    { t with uni := { t.uni with uq := spSet 0 t.uni.uq i v, uqRel := spSet [] t.uni.uqRel i (inTransit s.mem (t.done [hartWho])),
                                 tail := t.uni.tail + 1 } }

/-- UQPUSH: the release waits for the hart's earlier stores (R229, R230). -/
def execUqpush (rs1 : BitVec 5) (s : State) : Result :=
  runHart (.uqpush rs1) s fun s t h =>
    if h.pd rs1 then poisonHart s t h
    else if uqUsed t = 64 then hartRetry s t .queue
    else if !h.stores.isEmpty then hartRetry s t .order
    else retireNext (pushEntry s t.tid (h.rd rs1)) t h id

/-- UQTRY (R229). -/
def execUqtry (rd rs1 : BitVec 5) (s : State) : Result :=
  runHart (.uqtry rd rs1) s fun s t h =>
    if h.pd rs1 then poisonHart s t h
    else if uqUsed t = 64 then writeRd s t h rd 1 false
    else if !h.stores.isEmpty then hartRetry s t .order
    else writeRd (pushEntry s t.tid (h.rd rs1)) t h rd 0 false

/-! ### Timelines (R231 to R233) -/

/-- The number of the last operation issued on a timeline. -/
def issuedOn (s : State) (t : Team) (tl : Nat) : Nat :=
  if tl < 16 then (getChan s t.place.cluster tl).issued
  else match t.place.ctx with | some i => (getCtx (getCluster s t.place.cluster).mx i).issued | none => 0

/-- TLRD (R232). -/
def execTlrd (rd : BitVec 5) (iss : Bool) (tl : BitVec 6) (s : State) : Result :=
  runHart (.tlrd rd iss tl) s fun s t h =>
    match timelineOf s t tl.toNat with
    | none => hartIllegal s t h 0
    | some n => readNow s t h [tl.toNat, ofBool iss] rd (BitVec.ofNat 64 (if iss then issuedOn s t tl.toNat else n))

/-- TLWAIT (R233): an acquire at weft scope, which holds the hart alone (R215), acquires nothing of an engine (03 R51). -/
def execTlwait (rd rs1 : BitVec 5) (scp : BitVec 3) (tl : BitVec 6) (s : State) : Result :=
  runHart (.tlwait rd rs1 scp tl) s fun s t h =>
    match timelineOf s t tl.toNat with
    | none => hartIllegal s t h 0
    | some n =>
      if h.pd rs1 then poisonHart s t h
      else if n < (h.rd rs1).toNat then hartRetry s t .timeline
      else
        let s := if (t.who hartWho).near (.engine t.place.cluster) ≤ scp.toNat then acquireIds s t [hartWho] (timelineRel s t tl.toNat (h.rd rs1).toNat)
          else s
        readNow s t h [tl.toNat, (h.rd rs1).toNat] rd (BitVec.ofNat 64 n)

/-! ### Ends, pauses, system instructions (R211, R213, R221, R223, R235) -/

/-- HEND (R235). -/
def execHend (s : State) : Result :=
  runHart .hend s fun s t h =>
    let busy := match t.place.ctx with | some i => !(getCtx (getCluster s t.place.cluster).mx i).ops.isEmpty | none => false
    if busy || !h.stores.isEmpty then hartWait s t .hend
    else .next (checkTeamEnd (retire s t.tid (h.pc + 4) fun h => { h with ended := true }) t.tid)

/-- HPAUSE (R235). -/
def execHpause (s : State) : Result := runHart .hpause s fun s t h => retireNext s t h fun h => { h with paused := true }

/-- WFI in U-mode is illegal (R211); in M-mode it may end at once. -/
def execWfi (s : State) : Result := runHart .wfi s fun s t h => if t.inM then retireNext s t h id else hartIllegal s t h 0

/-- ECALL (R213): mcause 8 from U-mode, 11 from M-mode. -/
def execEcall (s : State) : Result := runHart .ecall s fun s t h => hartException s t h (if t.inM then 11 else 8) 0 0 0 false

/-- EBREAK: the debug service takes it; mtval is 0, which the breakpoint's entry holds as its ADDR (R213, 11 R203, 23 R343). -/
def execEbreak (s : State) : Result := runHart .ebreak s fun s t h => hartException s t h 3 0 0x0A 0 false

/-- M_MODE_INTERRUPT: taken in M-mode, it returns to the interrupted instruction and changes only time (R223). -/
def execMModeInterrupt (s : State) : Result :=
  withHart s fun s t _ =>
    let (c, s) := takeFree s
    .next (updHart s t.tid fun h => { h with cycle := h.cycle + BitVec.ofNat 64 c })

end Sys2Proof.Machine
end

