-- ==== Sys2Proof/Machine/Copy.lean ====
section
/-! DEFINITION. How copies run: COPY_STEP moves one byte, MULTICAST_HOP starts the next hop (18 R285 to R290). -/

namespace Sys2Proof.Machine

open Sys2Proof

/-- What an error-log entry about a copy holds (23 R343). -/
def copyEntry (c ch num cause reason addr : Nat) (held : Bool) : Entry :=
  { kind := 0x12, cause := cause, reason := reason, heldTeam := held, cluster := c, channel := ch, lanes := num, addr := addr }

/-- A copy stops (18 R285, R288). -/
def stopCopy (s : State) (c ch : Nat) (t : Team) (x : Copy) (w : CopyStop) : State :=
  let retire (s : State) : State := updCopy s c ch x.num fun y => { y with finished := true }
  let ended (s : State) (cause reason addr : Nat) (replay : Bool) : State :=
    endTeam (retire s) t.tid { EndCause.silent with
      entry := some (copyEntry c ch x.num cause reason addr false), cause := cause, reason := reason, addr := addr, mayReplay := replay }
  match w with
  | .page va =>
    match mapOnDemand s t.fn va with
    | some s => s
    | none =>
      let s := report s t { copyEntry c ch x.num 8 3 va true with replayable := t.replayable }
      let s := updCopy s c ch x.num fun y => { y.settle with halted := true }
      updTeam s t.tid fun t => { t with held := some (t.held.getD (.copyFault c ch x.num va)) }
  | .access r va => ended s 6 r va true
  | .chunk _ _ | .unlinked => s
  | .decode bit => ended s 6 0 bit true
  | .poisoned => poisonedEnd (retire s) t.tid 0 0 0

/-- A cluster's channels move: it is neither fenced nor saved, and no pre-emption has halted them (18 R289, 25 R359). -/
def channelsRun (s : State) (c : Nat) : Bool :=
  let k := getCluster s c
  !k.fenced && match k.preempt with | .stopped => false | _ => true

/-- COPY_STEP: a running copy reads or writes a byte, in no stated order (18 R285, 03 R57, R59); a line that it fills serves the loads held
there (10 R179). -/
def execCopyStep (cluster ch num : Nat) (s : State) : Result :=
  match findCopy s cluster ch num with
  | none => .next s
  | some x =>
    if x.finished || x.halted || !channelsRun s cluster then .next s
    else if x.hop ≠ 0 && (getTeam s x.dstTid).isNone then .next (finishCopy s cluster ch x)
    else
      match copyTeam s x with
      | none => .next (updCopy s cluster ch num fun y => { y with finished := true })
      | some t =>
        match stepByte s false cluster ch t x with
        | .ok s' => .next (serveFills cluster s s')
        | .error (w, x) => .next (stopCopy s cluster ch t x w)

/-- The team of a launch with a number, where it is resident. -/
def launchTeam (s : State) (fn lid n : Nat) : Option Team := s.teams.find? fun t => decide (t.ref = .launch fn lid n)

/-- A team of a launch may still become resident: it has not been dispatched, or it stands in a saved image. -/
def teamToCome (s : State) (fn lid n : Nat) : Bool :=
  (match getLaunch s fn lid with | some l => decide (l.next ≤ n) | none => false) ||
  s.loom.images.any fun i => i.teams.any fun t => decide (t.ref = .launch fn lid n)

/-- MULTICAST_HOP: the next hop of a copy whose last one has written its bytes starts on its team's cluster; it waits for a team that is
not resident yet, and passes by one that has ended (18 R287). -/
def execMulticastHop (cluster ch num : Nat) (s : State) : Result :=
  match (getCluster s cluster).hops.find? fun e => decide (e.1 = ch) && decide (e.2.num = num) with
  | none => .next s
  | some (_, x) =>
    let drop (s : State) : State :=
      updCluster s cluster fun k => { k with hops := k.hops.eraseP fun e => decide (e.1 = ch) && decide (e.2.num = num) }
    match x.launch with
    | none => .next (drop s)
    | some (fn, lid, n) =>
      let h := x.hop + 1
      let team := n + h * x.tmpl.mcs
      match launchTeam s fn lid team with
      | some d =>
        if !channelRoom s d.place.cluster ch 1 || !channelsRun s d.place.cluster then .next s
        else
          .next (numberCopy (drop s) d.place.cluster ch (copyBases s d)
            { x with hop := h, dstTid := d.tid, prog := 0, ahead := [], fetched := [], halted := false, finished := false, tile := [], left := [],
                     dirty := [], wrote := [] })
      | none =>
        if teamToCome s fn lid team then .next s
        else if h < x.tmpl.mcn then
          .next (updCluster (drop s) cluster fun k => { k with hops := k.hops ++ [(ch, { x with hop := h })] })
        else .next (drop s)

end Sys2Proof.Machine
end

