-- ==== Sys2Proof/Machine/LoomCore.lean ====
section
/-! DEFINITION. What every Loom command shares (23 R328 to R336): fields of a frame, taking a frame, the order of its checks, its
completion; the doorbell and the counts (R330); ending the teams of a launch for the host. -/

namespace Sys2Proof.Machine

open Sys2Proof

/-! ### Frames -/

/-- n bytes of a frame from an offset, as a number (R331). -/
def fld (f : Frame) (off n : Nat) : Nat := f.toNat / 2 ^ (8 * off) % 2 ^ (8 * n)

/-- Every body byte outside the named ranges, and byte 2, is zero, and FLAGS bits [7:2] are (R331, R3). -/
def reservedZero (f : Frame) (named : List (Nat × Nat)) : Bool :=
  decide (fld f 2 1 = 0) && decide (fld f 3 1 < 4) &&
  (upFrom 8 120).all fun i => (named.any fun r => decide (r.1 ≤ i) && decide (i < r.1 + r.2)) || decide (fld f i 1 = 0)

/-- The world of a queue: queue 0 is secure, another queue is in its function's world (R345). -/
def secureQueue (s : State) (q : Nat) : Bool :=
  decide (q = 0) || match (fnOfQueue s q).bind (getFunc s ·) with | some f => f.secure | none => false

/-- A command being executed: the state after its frame was taken, its queue, the queue's function and world, its entry, its
frame. -/
structure Cmd where
  s : State
  q : Nat
  fn : Nat
  secure : Bool
  p : Pending
  f : Frame

/-- What a command answers: a status, a result and the state its effects leave; or that it completes later; or that its frame
waits to be taken. -/
inductive Answer where
  | done (status result : Nat) (s : State)
  | later (s : State)
  | wait

/-- The first status whose condition holds, in the order given; 0 where none does (R333). -/
def firstStatus : List (Bool × Nat) → Nat
  | [] => 0
  | (c, st) :: t => if c then st else firstStatus t

/-- A command refused with a status, or acting where the status is 0. -/
def Cmd.act (c : Cmd) (checks : List (Bool × Nat)) (effect : State → Answer) : Answer :=
  match firstStatus checks with
  | 0 => effect c.s
  | st => .done st 0 c.s

/-- A command that completes at once with status 0 and no result. -/
def Cmd.simple (c : Cmd) (checks : List (Bool × Nat)) (effect : State → State) : Answer :=
  c.act checks fun s => .done 0 0 (effect s)

/-- Take the frame at CONS: the count rises, and the command stands as taken and not completed (R330). It acquires what the doorbell
and the queue's completed commands released (R335). -/
def takeFrame (s : State) (q : Nat) (f : Frame) : Pending × State :=
  let s := (takeFree s).2
  let k := getQueue s q
  let acq := inTransit s.mem (k.acq ++ k.rel)
  let s := bring s (cpDie q) acq
  let p : Pending := { opc := f.opc, ctag := BitVec.ofNat 32 (fld f 4 4), flags := BitVec.ofNat 8 (fld f 3 1), seq := k.cons,
                       lid := 0, addr := 0, value := 0, acq := acq, rel := [] }
  (p, setQueue s q { k with cons := k.cons + 1, pending := k.pending ++ [p] })

/-- Execute a command that the current agent's queue takes. admin, own: the queues that may give it (R336). denied: its other
grounds for status 13; named: the bytes of its body. -/
def runCommand (opc : Nat) (admin own : Bool) (f : Frame) (denied : Cmd → Bool) (named : List (Nat × Nat)) (body : Cmd → Answer)
    (s : State) : Result :=
  match s.cur with
  | .command q _ =>
    let (p, s') := takeFrame s q f
    let c : Cmd := { s := s', q := q, fn := (fnOfQueue s q).getD 0, secure := secureQueue s q, p := p, f := f }
    if f.opc.toNat ≠ opc then .next (finish s' q p 15 0)
    else if !(if q = 0 then admin else own) || denied c then .next (finish s' q p 13 0)
    else if !reservedZero f named then .next (finish s' q p 1 0)
    else
      match body c with
      | .done st r s'' => .next (finish s'' q p st r)
      | .later s'' => .next s''
      | .wait => .next s
  | _ => .fault .noAgent

/-- Nothing but the queue denies the command. -/
def noDenial (_ : Cmd) : Bool := false

/-- Change a command's entry. -/
def updPending (s : State) (q : Nat) (seq : W32) (f : Pending → Pending) : State :=
  updQueue s q fun k => { k with pending := updFirst (fun p => p.seq = seq) f k.pending }

/-! ### Memory as the Loom reaches it -/

/-- The memory reason code of a range of a function that the Loom reads or writes in a world (03 R49). -/
def loomRange (s : State) (fn : Nat) (secure : Bool) (a n : Nat) (needs : List Need) : Option Nat :=
  if 2 ^ 56 < a + n then some 1 else checkRange s fn secure a n needs

/-- A range of the command's function is mapped as the command needs. -/
def Cmd.range (c : Cmd) (a n : Nat) (needs : List Need) : Bool := (loomRange c.s c.fn c.secure a n needs).isNone

/-- One byte of a function on a die; bytes of another module are free (03 R50), and so is what an object's image holds where no page is mapped
(log entry 86). -/
def byteOn (s : State) (d fn free b : Nat) : Byte :=
  match findPage s.xlat fn b with
  | some p => if p.remote.isSome then Config.freeByte free else memGet (viewOf s.mem d).mem (gkey fn b)
  | none => Config.outsideByte fn b

/-- Bytes of a function as a queue's command processor reads them. What another module's memory holds is free, by the free number that the
command's frame took. -/
def loomRead (s : State) (q fn a n : Nat) : List Byte :=
  (upFrom a n).map fun b => byteOn s (cpDie q) fn (Config.freeNat (s.tick - 1) + b) b

/-- Bytes of the function as the queue's command processor reads them. -/
def Cmd.read (c : Cmd) (a n : Nat) : List Byte := loomRead c.s c.q c.fn a n

/-- Write bytes of a function for the command that a queue took last, after what taking it acquired; its completion releases them (R335). -/
def loomWrite (s : State) (q fn a : Nat) (b : List Byte) : State :=
  match (getQueue s q).pending.getLast? with
  | none => s
  | some p =>
    let i := s.nextId
    let clean := (coveredGranules [(gkey fn a, b.length)]).map fun g => (g, false)
    noteEffects (writeBytes s (cpDie q) (gkey fn a) b clean (inTransit s.mem p.acq) []) q p.seq [i]

/-! ### Queues that take frames (R330, R334) -/

/-- Commands that complete later than they are accepted: LAUNCH, GANG.LAUNCH, PREEMPT, FENCE (R334). -/
def acceptedOnly (opc : BitVec 16) : Bool := opc = 0x30 || opc = 0x31 || opc = 0x80 || opc = 0x60

/-- The frame at a count of a queue, as the Loom reads it. -/
def frameAt (s : State) (q n : Nat) : Frame :=
  BitVec.ofNat 1024 (leNat (memRead s.loom.ctl (blockOf q + 128 * (n % 1024)) 128))

/-- A queue takes frames: queue 0, or a function's queue that is not being reset, by a command processor that answers (R328, R346,
R360). -/
def takesFrames (s : State) (q : Nat) : Bool :=
  decide (q < 1024) && (decide (q = 0) || (fnOfQueue s q).isSome) && !(getQueue s q).stopped && !cpDead s q

/-- The next frame of a queue may be taken (R330, R334). -/
def mayTake (s : State) (q : Nat) : Bool :=
  let k := getQueue s q
  takesFrames s q && decide (k.cons ≠ k.prod) && decide (k.cprod - k.ccons ≠ 1024) && (k.pending.all fun p => acceptedOnly p.opc) &&
  (k.pending.isEmpty || !(BitVec.ofNat 8 (fld (frameAt s q k.cons.toNat) 3 1)).getLsbD 0)

/-- SIGNAL writes its word, where it is still mapped: a system-scope release of the effects of the queue's earlier commands (R341). Another
module's word is not the model's. -/
def performSignal (s : State) (q : Nat) (p : Pending) : State :=
  let fn := (fnOfQueue s q).getD 0
  match loomRange s fn (secureQueue s q) p.addr 8 [.write] with
  | some _ => finish s q p 2 0
  | none =>
    let s' := if isRemote s fn p.addr then s
      else releaseBytes s .loom 5 (cpDie q) (gkey fn p.addr) (leBytes 8 p.value.toNat) [] (inTransit s.mem (p.acq ++ (getQueue s q).rel))
    finish (noteNew s s' q p.seq) q p 0 0

/-- Teams, resident or saved in an image. -/
def allTeams (s : State) : List Team := s.teams ++ s.loom.images.flatMap (·.teams)

/-- Every hart of a launch stands at an instruction boundary (R348). -/
def atBoundary (s : State) (fn lid : Nat) : Bool :=
  (allTeams s).all fun t =>
    match t.ref, t.hart with
    | .launch f l _, some h => !(decide (f = fn) && decide (l = lid)) || match h.wait with | .load _ _ _ _ | .lr _ _ _ _ _ | .amo _ _ _ _ _ _ _ => false | _ => true
    | _, _ => true

/-- The record of a command waits for room in the completion ring (R330). -/
def heldBack (k : Queue) (p : Pending) : Bool := k.backlog.any fun r => r.seq.toNat = p.seq.toNat

/-- A DEBUG.STOP of a queue whose harts have come to a boundary: it waits for no other command (R334, R348). -/
def stopDue (s : State) (q : Nat) : Option Pending :=
  (getQueue s q).pending.find? fun p => decide (p.opc = 0x90) && !heldBack (getQueue s q) p && atBoundary s ((fnOfQueue s q).getD 0) p.lid

/-- A DEBUG.STOP completes once its harts stand at a boundary (R348); the first command of a queue that has not completed is performed where it
is a FENCE or a SIGNAL: every earlier command has completed (R341). A processor that does not answer completes nothing (25 R360). -/
def progress (s : State) (q : Nat) : Option State :=
  match stopDue s q, (getQueue s q).pending with
  | some p, _ => if cpDead s q then none else some (finish s q p 0 0)
  | none, [] => none
  | none, p :: _ =>
    if cpDead s q || heldBack (getQueue s q) p then none
    else if p.opc = 0x60 then some (finish s q p 0 0)
    else if p.opc = 0x61 then if isRemote s ((fnOfQueue s q).getD 0) p.addr && !linked s then none else some (performSignal s q p)
    else none

/-! ### Counts that the host writes (R329, R330, R357) -/

/-- The WDCFG record as CP0 reads it: fields of zero select defaults; none where it is refused (25 R357). -/
def readWdcfg (s : State) : Option Wdcfg :=
  let b := memRead s.loom.ctl 0x30020 32
  let w := leNat (b.take 4)
  let c := leNat ((b.drop 4).take 4)
  let x (i : Nat) : Nat := (nthD 0 b i).toNat
  let ok (v lo hi : Nat) : Bool := decide (v = 0) || (decide (lo ≤ v) && decide (v ≤ hi))
  let dflt (v d : Nat) : Nat := if v = 0 then d else v
  if x 8 = 0 && (b.drop 12).all (· = 0) && ok w 100 10000000 && ok c 100 1000000 && ok (x 9) 1 15 && ok (x 10) 1 15 && ok (x 11) 1 15 then
    some { wperiod := dflt w Wdcfg.reset.wperiod, cperiod := dflt c Wdcfg.reset.cperiod, wcount := dflt (x 9) Wdcfg.reset.wcount,
           ccount := dflt (x 10) Wdcfg.reset.ccount, pcount := dflt (x 11) Wdcfg.reset.pcount }
  else none

/-- The host writes PROD: the doorbell. It releases the host's earlier writes; on queue 0 CP0 reads WDCFG (R330, R335, 25 R357).
A stopped queue, and a queue of no function, discard it (R342, R344, R346). -/
def ringDoorbell (s : State) (q : Nat) (v : W32) : State :=
  if !(decide (q < 1024) && (decide (q = 0) || (fnOfQueue s q).isSome)) || (getQueue s q).stopped then s
  else
    let s := updQueue s q fun k =>
      { k with prod := v, acq := inTransit s.mem (unionIds [k.acq, s.weave.hostOwn, s.weave.hostAcq]) }
    if q ≠ 0 || cpDead s 0 then s
    else
      match readWdcfg s with
      | some w => { s with loom := { s.loom with wd := w } }
      | none => machineCheck s 0x0A none { kind := 0x20, cluster := 0xFF }

/-- The host writes CCONS: slots are freed and held-back records are written (R330). -/
def writeCcons (s : State) (q : Nat) (v : W32) : State :=
  if 1024 ≤ q then s
  else
    let s := updQueue s q fun k => { k with ccons := v }
    drainBacklog s q (getQueue s q).backlog

/-- The host writes ECONS: error-log slots are freed (R330). -/
def writeEcons (s : State) (q : Nat) (v : W32) : State := if 1024 ≤ q then s else updQueue s q fun k => { k with econs := v }

/-- The module resets (26 R378). The model's own agenda and counters go on, and with them what checkpoints stand for: a host may
have kept their bytes (log entry 14). -/
def moduleReset (s : State) : State :=
  { State.reset with agenda := s.agenda, tick := s.tick, nextId := s.nextId,
                     loom := { State.reset.loom with checkpoints := s.loom.checkpoints } }

/-- RSTCTL is written (26 R378). -/
def writeRstctl (s : State) (v : W32) : State := if v.getLsbD 0 then moduleReset s else s

/-- A host write of the control area: naturally aligned, 4 or 8 bytes (26 R376). Counts of R329, RSTCTL, the command rings and
WDCFG take it; every other byte is read-only or reserved and does not change (00 R2, R3). -/
def controlWrite (s : State) (off size : Nat) (v : W64) : State :=
  let lo : W32 := v.setWidth 32
  let hi : W32 := (v >>> 32).setWidth 32
  let one (s : State) (a : Nat) (x : W32) : State :=
    let q := a / 0x40000
    let o := a % 0x40000
    if a = 0x10000000 then writeRstctl s x
    else if 0x10000000 ≤ a then s
    else if o < 0x20000 || (q = 0 && decide (0x30020 ≤ o) && decide (o < 0x30040)) then ctlWrite s a (leBytes 4 x.toNat)
    else if o = 0x30000 then ringDoorbell s q x
    else if o = 0x30010 then writeCcons s q x
    else if o = 0x30018 then writeEcons s q x
    else s
  if !(size = 4 || size = 8) || off % size ≠ 0 then s
  else if size = 4 then one s off lo else one (one s off lo) (off + 4) hi

/-- A word of the control area as the host reads it; RSTCTL and reserved words read zero. -/
def controlWord (s : State) (a : Nat) : Nat :=
  let k := getQueue s (a / 0x40000)
  let o := a % 0x40000
  if 0x10000000 ≤ a then 0
  else if o = 0x30000 then k.prod.toNat
  else if o = 0x30008 then k.cons.toNat
  else if o = 0x3000C then k.cprod.toNat
  else if o = 0x30010 then k.ccons.toNat
  else if o = 0x30014 then k.eprod.toNat
  else if o = 0x30018 then k.econs.toNat
  else if o = 0x3001C then k.dropped.toNat
  else leNat (memRead s.loom.ctl a 4)

/-! ### Ending teams for the host -/

/-- End every team that meets a condition. -/
def endTeams (s : State) (which : Team → Bool) (c : EndCause) : State :=
  ((allTeams s).filter which).foldl (fun s t => endTeam s t.tid c) s

/-- Every team of a launch, with the rest of its gang, ends as TEAM.END ends it, and no team of it starts any more; its command
ends with a record of its own, which releases what the teams have done (R335, R342). -/
def abortLaunch (s : State) (fn lid : Nat) : State :=
  match getLaunch s fn lid with
  | none => s
  | some l =>
    let ms := membersOf s l
    let s := ms.foldl (fun s m => updLaunch s m.fn m.lid fun x => { x with aborted := true }) s
    let s := endTeams s (fun t => ms.any fun m => match t.ref with | .launch f i _ => decide (f = m.fn) && decide (i = m.lid) | _ => false)
      EndCause.silent
    let s := noteEffects s l.queue l.cmdSeq ((membersOf s l).flatMap (·.rel))
    { s with loom := { s.loom with launches := s.loom.launches.filter fun x => !(ms.any fun m => m.fn = x.fn && m.lid = x.lid) } }

/-- A record of status 14, at the slot its count names, dropped where the completion ring is full (R342) or the queue's processor does not
answer (25 R360). -/
def abortRecord (s : State) (q : Nat) (p : Pending) : State :=
  let k := getQueue s q
  if k.cprod - k.ccons = 1024 || cpDead s q then setQueue s q (k.drop s.mem p.seq)
  else putRecord s q { opc := p.opc, status := 14, ctag := p.ctag, seq := p.seq.zeroExtend 64, result := 0 }

/-- A PREEMPT that has been taken and has not completed. -/
def Pending.saves (p : Pending) : Bool := decide (p.opc = 0x80)

/-- End commands of a queue that have been taken and have not completed (R342 step 2, R346 step 1). -/
def abortQueue (s : State) (q : Nat) (which : Pending → Bool) : State :=
  ((getQueue s q).pending.filter which).foldl (fun s p =>
    let s := if p.opc = 0x30 || p.opc = 0x31 then
        match s.loom.launches.find? fun l => decide (l.queue = q) && decide (l.cmdSeq = p.seq) with
        | some l => abortLaunch s l.fn l.lid
        | none => s
      else s
    abortRecord s q p) (updQueue s q fun k => { k with backlog := [] })

/-- Every count of a queue is 0 and it accepts doorbells (R330, R342 step 3, R346 step 5). What its doorbells and completions have
released stays released. -/
def reopen (s : State) (q : Nat) : State := setQueue s q { Queue.reset with acq := (getQueue s q).acq, rel := (getQueue s q).rel }

/-- A queue that QUEUE.RESET has stopped, with no PREEMPT left whose save has not ended (R342 step 2). -/
def resetDone (s : State) (q : Nat) : Bool := (getQueue s q).stopped && !(getQueue s q).pending.any (·.saves)

/-- QUEUE.RESETs whose queues have nothing left to wait for: the queues reopen, and the commands complete (R342). A queue of a function that
is being reset waits for that reset (R346). -/
def finishResets (s : State) : State :=
  let mine (q : Nat) : Bool := (fnOfQueue s q).isSome && decide (fnOfQueue s q ≠ s.loom.draining)
  let s := ((s.loom.queues.map (·.1)).filter fun q => mine q && resetDone s q).foldl reopen s
  s.loom.queues.foldl (fun s e =>
    (e.2.pending.filter fun p => decide (p.opc = 1) && !(getQueue s p.addr).stopped).foldl (fun s p =>
      if (getQueue s e.1).backlog.any fun r => r.seq.toNat = p.seq.toNat then s else finish s e.1 p 0 p.value.toNat) s) s

end Sys2Proof.Machine
end

