-- ==== Sys2Proof/Machine/LoomMap.lean ====
section
/-! DEFINITION. The mapping commands MAP, UNMAP, PROTECT, PLACE and PORT.BIND (23 R336, R337), the placement engine's migrations and
the page walkers (03 R46 to R48). -/

namespace Sys2Proof.Machine

open Sys2Proof

/-- A range is empty, leaves the 56-bit space, or is not made of whole units (R337). -/
def badRange (va n unit : Nat) : Bool := decide (n = 0) || decide (va % unit ≠ 0) || decide (n % unit ≠ 0) || decide (2 ^ 56 < va + n)

/-- A range meets the copy aperture (R337, 18 R279). -/
def meetsAperture (va n : Nat) : Bool := overlap va n apertureBase 4096

/-- A placement hint and its die (05 R92). -/
def hintOk (h d : Nat) : Bool := decide (h < 5) && decide (d < 4) && (decide (h = 3) || decide (d = 0))

/-- A range meets a mapping of the function: a page, or a range declared on demand (R337; log entry 17). -/
def meetsMapping (s : State) (fn va n : Nat) : Bool :=
  (s.xlat.pages.any fun p => p.meets fn va n) || (s.xlat.onDemand.any fun r => decide (r.fn = fn) && overlap r.va r.size va n)

/-- MAP (R337). -/
def execMap (f : Frame) (s : State) : Result :=
  runCommand 0x10 false true f (fun c => (fld f 0x1C 1).testBit 2 && !c.secure) [(8, 21), (0x20, 16)]
    (fun c =>
      let va := fld f 8 8
      let n := fld f 0x10 8
      let psz := nthD 0x1000 pageSizes (fld f 0x18 1)
      let rights := fld f 0x19 1
      let hint := fld f 0x1A 1
      let die := fld f 0x1B 1
      let mf := fld f 0x1C 1
      let demand := mf.testBit 0 && !mf.testBit 1
      let big := if striped psz then n else 0
      c.simple
        [(decide (12 ≤ fld f 0x18 1) || decide (8 ≤ rights) || decide (8 ≤ mf) || !hintOk hint die || badRange va n psz ||
            meetsAperture va n || meetsMapping c.s c.fn va n, 1),
         (!demand && !mf.testBit 1 && !quotaAllows c.s c.fn n big, 3)]
        fun s =>
          if demand then
            { s with xlat := { s.xlat with onDemand := s.xlat.onDemand ++
                [{ fn := c.fn, va := va, size := n, psz := psz, r := rights.testBit 0, w := rights.testBit 1, x := rights.testBit 2,
                   secure := c.secure, hint := hint, hintDie := die }] } }
          else
            addPages s { fn := c.fn, va := va, size := psz, r := rights.testBit 0, w := rights.testBit 1, x := rights.testBit 2,
                         secure := c.secure, hint := hint, hintDie := die, home := { die := 0, sram := false }, migrating := none,
                         remote := if mf.testBit 1 then some (fld f 0x24 4, fld f 0x20 4, fld f 0x28 8) else none, obj := none }
              (n / psz))
    s

/-- A copy in a function's space has written bytes beyond its PROG: a halt would not find exactly the bytes before PROG written (18 R288). -/
def copiesAhead (s : State) (fn : Nat) : Bool :=
  s.clusters.any fun k => k.2.chans.any fun e => e.2.copies.any fun x =>
    !x.ahead.isEmpty && match copyTeam s x with | some t => decide (t.fn = fn) | none => false

/-- An access that has translated through a range of a function has not returned (03 R48). -/
def outstandingOn (s : State) (fn va n : Nat) : Bool :=
  copiesAhead s fn ||
  (s.vops.any fun o =>
    (match o.kind with | .load _ | .store | .atomic _ _ | .ldgs => true | _ => false) &&
    (match getTeam s o.tid with | some t => decide (t.fn = fn) | none => false) &&
    o.accs.any fun a => !a.done && overlap a.addr o.size va n) ||
  s.teams.any fun t =>
    decide (t.fn = fn) &&
    match t.hart with
    | none => false
    | some h =>
      (h.stores.any fun x => overlap x.addr.toNat x.bytes.length va n) ||
      match h.wait with
      | .load _ a z _ | .lr _ a z _ _ | .amo _ _ a _ z _ _ => overlap a.toNat z va n
      | .none | .hend | .retry _ | .fault | .bkpt | .pairAccess => false

/-- A range covers every page that it touches whole (R337). -/
def wholePages (s : State) (fn va n : Nat) : Bool :=
  s.xlat.pages.all fun p => !p.meets fn va n || (decide (va ≤ p.va) && decide (p.va + p.size ≤ va + n))

/-- Some page of a range is mapped. -/
def anyPage (s : State) (fn va n : Nat) : Bool := s.xlat.pages.any fun p => p.meets fn va n

/-- The parts of a declared range that an UNMAP leaves (R337). -/
def cutDemand (fn va n : Nat) (r : OnDemand) : List OnDemand :=
  if r.fn ≠ fn || !overlap r.va r.size va n then [r]
  else
    (if r.va < va then [{ r with size := va - r.va }] else []) ++
    (if va + n < r.va + r.size then [{ r with va := va + n, size := r.va + r.size - (va + n) }] else [])

/-- UNMAP (R337): completes once no access through the old translation is outstanding (03 R48); until then its frame waits to be
taken. -/
def execUnmap (f : Frame) (s : State) : Result :=
  runCommand 0x11 false true f noDenial [(8, 16)]
    (fun c =>
      let va := fld f 8 8
      let n := fld f 0x10 8
      c.act
        [(badRange va n 4096 || meetsAperture va n, 1),
         (!anyPage c.s c.fn va n, 2),
         (!wholePages c.s c.fn va n, 1),
         (c.s.xlat.pages.any fun p => p.meets c.fn va n && p.obj.isSome, 4)]
        fun s =>
          if outstandingOn s c.fn va n then .wait
          else
            let s := removePages s c.fn va n
            .done 0 0 { s with xlat := { s.xlat with onDemand := s.xlat.onDemand.flatMap (cutDemand c.fn va n) } })
    s

/-- The pages of a range take rights. -/
def setRights (x : Xlat) (fn va n rights : Nat) : Xlat :=
  let g (p : Page) : Page :=
    if p.meets fn va n then { p with r := rights.testBit 0, w := rights.testBit 1, x := rights.testBit 2 } else p
  { x with pages := x.pages.map g }

/-- PROTECT (R337): where it reduces rights, it completes as UNMAP does. -/
def execProtect (f : Frame) (s : State) : Result :=
  runCommand 0x12 false true f noDenial [(8, 17)]
    (fun c =>
      let va := fld f 8 8
      let n := fld f 0x10 8
      let rights := fld f 0x18 1
      c.act
        [(decide (8 ≤ rights) || badRange va n 4096 || meetsAperture va n, 1),
         (!anyPage c.s c.fn va n, 2),
         (!wholePages c.s c.fn va n, 1)]
        fun s =>
          let less := s.xlat.pages.any fun p => p.meets c.fn va n &&
            ((p.r && !rights.testBit 0) || (p.w && !rights.testBit 1) || (p.x && !rights.testBit 2))
          if less && outstandingOn s c.fn va n then .wait
          else
            let x := setRights s.xlat c.fn va n rights
            .done 0 0 { s with xlat := if less then tlbDrop x c.fn va n else x })
    s

/-- Keep a hint for a range: pages in it take it now, others when they are mapped (05 R92). -/
def placeRange (s : State) (fn va n hint die : Nat) : State :=
  { s with xlat := { s.xlat with
      pages := s.xlat.pages.map fun p => if p.meets fn va n then { p with hint := hint, hintDie := die } else p,
      hints := s.xlat.hints ++ [{ fn := fn, va := va, size := n, hint := hint, die := die }] } }

/-- PLACE (R336, 05 R92). -/
def execPlace (f : Frame) (s : State) : Result :=
  runCommand 0x13 false true f noDenial [(8, 18)]
    (fun c =>
      let va := fld f 8 8
      let n := fld f 0x10 8
      c.simple [(!hintOk (fld f 0x18 1) (fld f 0x19 1) || badRange va n 4096, 1)] fun s =>
        placeRange s c.fn va n (fld f 0x18 1) (fld f 0x19 1))
    s

/-- PORT.BIND exposes a range to other modules (R337). -/
def execPortBind (f : Frame) (s : State) : Result :=
  runCommand 0x14 false true f noDenial [(8, 21)]
    (fun c =>
      let va := fld f 8 8
      let n := fld f 0x10 8
      let port := fld f 0x18 4
      c.simple
        [(decide (8 ≤ fld f 0x1C 1) || decide (2 ^ 56 < va + n), 1), (c.s.xlat.ports.any fun p => p.port = port, 4)]
        fun s => { s with xlat := { s.xlat with ports := s.xlat.ports ++
          [{ fn := c.fn, port := port, va := va, size := n, rights := BitVec.ofNat 3 (fld f 0x1C 1) }] } })
    s

/-! ### Migration and walks (03 R47, R48) -/

/-- Change the page of a function's address. -/
def updPage (s : State) (fn va : Nat) (g : Page → Page) : State :=
  { s with xlat := { s.xlat with pages := updFirst (fun p => decide (p.fn = fn) && decide (p.va ≤ va) && decide (va < p.va + p.size)) g s.xlat.pages } }

/-- PAGE_MIGRATION: the placement engine starts to move a page; both backings receive writes until the home switches (03 R47).
Striped and remote pages are never moved, nor is a page moved where the quota has no room. -/
def execPageMigration (fn va : Nat) (die : BitVec 2) (sram : Bool) (s : State) : Result :=
  match findPage s.xlat fn va with
  | none => .next s
  | some p =>
    if striped p.size || p.remote.isSome || p.migrating.isSome || !quotaRoom s p sram then .next s
    else .next (updPage s fn va fun p => { p with migrating := some { die := die.toNat, sram := sram } })

/-- HOME_SWITCH: one indivisible step for the whole page (03 R47), where the receiving memory's quota holds it (R337). -/
def execHomeSwitch (fn va : Nat) (s : State) : Result :=
  .next (updPage s fn va fun p =>
    match p.migrating with
    | some h => if memoryRoom s p.fn 0 h.sram then { p with home := h, migrating := none } else { p with migrating := none }
    | none => p)

/-- PAGE_WALK: a walker of the current die finishes its walk (03 R48). -/
def execPageWalk (s : State) : Result :=
  match s.cur with
  | .die d => .next (walkOne s d)
  | _ => .fault .noAgent

end Sys2Proof.Machine
end

