-- ==== Sys2Proof/Machine/Object.lean ====
section
/-! DEFINITION. Code objects (05): the checks of a load (R76 to R83, R87 to R92), the chunk store (R84, R85), OBJ.LOAD, OBJ.UNLOAD,
paging chunks in and evicting them. -/

namespace Sys2Proof.Machine

open Sys2Proof

/-! ### Sections (R79, R80) -/

/-- An entry of the section table. -/
structure Section where
  typ : Nat
  rights : Nat
  offset : Nat
  size : Nat
  vaddr : Nat
  deriving DecidableEq, Repr

/-- The bytes of a part of an image, all of them there. -/
def slice (b : List Byte) (off n : Nat) : List Byte := (b.drop off).take n

/-- Every byte of a part is zero. -/
def zeros (b : List Byte) (off n : Nat) : Bool := (slice b off n).all (· = 0)

/-- The little-endian words of a byte list. -/
def textWords (b : List Byte) : List W32 := (chunksOf 4 (b.length / 4) b).map fun c => BitVec.ofNat 32 (leNat c)

/-- Sections of a type. -/
def ofType (l : List Section) (t : Nat) : List Section := l.filter fun e => e.typ = t

/-- An entry of the section table: none where a reserved field is nonzero or a field does not fit its type (R79, R80). -/
def parseSection (nbody : Nat) (b : List Byte) : Option Section :=
  let e : Section := { typ := leAt b 0 2, rights := leAt b 2 1, offset := leAt b 4 4, size := leAt b 8 4, vaddr := leAt b 0x10 8 }
  let data := decide (e.typ = 3)
  if leAt b 3 1 ≠ 0 || leAt b 0x0C 4 ≠ 0 || leAt b 0x18 8 ≠ 0 || e.typ = 0 || 10 < e.typ || e.offset % 4096 ≠ 0 || e.offset < 4096 ||
     4096 * (1 + nbody) < e.offset + e.size then none
  else if data && (e.vaddr % 4096 ≠ 0 || 2 ^ 56 < e.vaddr + e.size || !e.rights.testBit 0 || 4 ≤ e.rights) then none
  else if !data && (e.vaddr ≠ 0 || e.rights ≠ 0) then none
  else some e

/-- The counts of each type (R80), and no two sections overlap. -/
def sectionsOk (l : List Section) : Bool :=
  let n (t : Nat) : Nat := (ofType l t).length
  decide (n 1 = 1) && decide (n 7 = 1) && decide (n 9 = 1) && decide (n 3 ≤ 32) &&
  ([2, 4, 5, 6, 8, 10].all fun t => decide (n t ≤ 1)) &&
  ((upFrom 0 l.length).all fun i => (upFrom 0 i).all fun j =>
    match l[i]?, l[j]? with
    | some a, some b => !overlap a.offset a.size b.offset b.size
    | _, _ => true)

/-! ### The hash tree (R82) -/

/-- The leaf of a body chunk. -/
def leafHash (chunk : List Byte) : List Byte := sha384 (0 :: chunk)

/-- The level above a level. -/
def levelAbove (l : List (List Byte)) : List (List Byte) := (chunksOf 16 ((l.length + 15) / 16) l).map fun g => sha384 (1 :: g.flatten)

/-- The levels above a level, up to the one that has one node; fuel bounds the height. -/
def treeAbove : Nat → List (List Byte) → List (List Byte)
  | 0, _ => []
  | f + 1, l => if l.length ≤ 1 then [] else let u := levelAbove l; u ++ treeAbove f u

/-- The tree area holds the leaves and every interior node, and its top node is ROOT (R83 step 2). -/
def treeOk (nodes : List (List Byte)) (nbody : Nat) (root : List Byte) : Bool :=
  let leaves := nodes.take nbody
  decide (leaves.length = nbody) && decide (nodes.drop nbody = treeAbove 9 leaves) && decide (nodes.getLast? = some root)

/-! ### Clauses, tables, declarations, templates -/

/-- The offsets of the clause headers of vector text from an offset; none where a header has CNT 0 or a clause runs past the end
(R81). The fuel is the number of words. -/
def walkClauses (text : List W32) : Nat → Nat → Option (List Nat)
  | 0, i => if i = text.length then some [] else none
  | f + 1, i =>
    if i = text.length then some []
    else
      match text[i]? with
      | none => none
      | some h =>
        let cnt := headerCnt h
        if cnt = 0 || text.length < i + 1 + cnt then none
        else (walkClauses text f (i + 1 + cnt)).map (4 * i :: ·)

/-- A clause of one word, which is VEER or VEER.MAY (R87). -/
def veerClause (text : List W32) (off : Nat) : Bool :=
  match text[off / 4]?, text[off / 4 + 1]? with
  | some h, some w =>
    decide (headerCnt h = 1) && match decodeVector w 0 with | .ok (.veer _ _) => true | .ok (.veerMay _) => true | _ => false
  | _, _ => false

/-- Strictly rising. -/
def rising : List Nat → Bool
  | a :: b :: t => decide (a < b) && rising (b :: t)
  | _ => true

/-- The veer table (R87). -/
def parseVeer (vmin : Nat) (text : List W32) (headers : List Nat) (b : List Byte) : Option (List Nat) :=
  let l := (textWords b).map (·.toNat)
  if b.length % 4 = 0 && rising l && (l.all fun o => headers.contains o && veerClause text o) && (decide (2 ≤ vmin) || l.isEmpty) then some l
  else none

/-- A cause that the program handler may take, or the default entry (R97, 07 R130). -/
def trapCauseOk (c : Nat) : Bool := decide (c = 0xFFFF) || (decide (1 ≤ c) && decide (c ≤ 7)) || (decide (0x100 ≤ c) && decide (c ≤ 0x11F))

/-- The trap entries: cause and handler (R88). -/
def parseTraps (headers : List Nat) (b : List Byte) : Option (List (Nat × Nat)) :=
  let l := (chunksOf 8 (b.length / 8) b).map fun e => (leAt e 0 2, leAt e 2 2, leAt e 4 4)
  if b.length % 8 = 0 && (l.all fun e => decide (e.2.1 = 0) && headers.contains e.2.2 && trapCauseOk e.1) &&
     decide ((l.map (·.1)).eraseDups.length = l.length) then
    some (l.map fun e => (e.1, e.2.2))
  else none

/-- The template of 64 bytes (18 R281). -/
def readTemplate (b : List Byte) : Template :=
  let mode := leAt b 0x31 1
  let rot := leAt b 0x32 1
  { src := BitVec.ofNat 64 (leAt b 0 8), dst := BitVec.ofNat 64 (leAt b 8 8),
    ss := [0x10, 0x14, 0x18].map fun o => signedOf 32 (leAt b o 4), ds := [0x1C, 0x20, 0x24].map fun o => signedOf 32 (leAt b o 4),
    n := [0x28, 0x2A, 0x2C, 0x2E].map fun o => leAt b o 2, dir := leAt b 0x30 1, esz := 2 ^ (mode % 8), xp := mode.testBit 3,
    emp := mode.testBit 4, dec := mode.testBit 5, srot := rot % 8, drot := rot / 8 % 8, dsel := leAt b 0x33 1, mcn := leAt b 0x34 1,
    mcs := leAt b 0x36 2, ctab := leAt b 0x38 8 }

/-- A template may be loaded (18 R281, R282). -/
def templateOk (b : List Byte) : Bool :=
  let m := readTemplate b
  let mode := leAt b 0x31 1
  let feed := m.dstFeed
  let side (scratch : Bool) (v : W64) : Bool := decide (v.toNat < 2 ^ (if scratch then 20 else 56))
  let globalSrc := !m.srcScratch
  let globalDst := !m.dstScratch && !feed
  decide (m.dir < 6) && decide (mode % 8 < 5) && decide (mode < 64) && decide (leAt b 0x32 1 < 64) && decide (m.dsel < 4) &&
  decide (m.mcn < 16) && decide (leAt b 0x35 1 = 0) && decide (m.ctab < 2 ^ 56) &&
  side m.srcScratch m.src && (if feed then decide (m.dst.toNat < 2 ^ 14) else side m.dstScratch m.dst) &&
  !(m.xp && (decide (2 < m.esz) || m.dec || feed)) &&
  !(m.dec && (!(m.dir = 0 || m.dir = 4) || !m.ss.all (· = 0))) && (m.dec || decide (m.ctab = 0)) &&
  (decide (m.srot = 0) || m.srcScratch) && (decide (m.drot = 0) || m.dstScratch) && (!m.emp || m.dstScratch) &&
  (decide (m.mcn = 0) || m.dir = 0 || m.dir = 2) && (decide (m.mcs = 0) == decide (m.mcn = 0)) &&
  !(feed && (!m.ds.all (· = 0) || m.dst.toNat % 64 ≠ 0 || m.bytes % 64 ≠ 0)) &&
  (!globalSrc || m.ss.all fun x => decide (x % m.esz = 0)) && (!globalDst || m.ds.all fun x => decide (x % m.esz = 0)) &&
  decide (m.bytes ≤ 2 ^ 32)

/-- The template section (R89). -/
def parseTemplates (b : List Byte) : Option (List Template) :=
  let l := chunksOf 64 (b.length / 64) b
  if b.length % 64 = 0 && decide (l.length ≤ 65536) && l.all templateOk then some (l.map readTemplate) else none

/-- The place entries: address, size, hint, die (R92). DESIGN CHOICE (log entry 82): an entry that passes 2^56 refuses the load, and one of size
0 places nothing and is accepted. Unsafe: the spec names neither case. -/
def parsePlaces (b : List Byte) : Option (List (Nat × Nat × Nat × Nat)) :=
  let l := chunksOf 24 (b.length / 24) b
  let ok (e : List Byte) : Bool :=
    hintOk (leAt e 17 1 % 16) (leAt e 16 1) && decide (leAt e 17 7 < 16) && decide (leAt e 0 8 % 4096 = 0) &&
    decide (leAt e 8 8 % 4096 = 0) && decide (leAt e 0 8 + leAt e 8 8 ≤ 2 ^ 56)
  if b.length % 24 = 0 && l.all ok then some (l.map fun e => (leAt e 0 8, leAt e 8 8, leAt e 17 1 % 16, leAt e 16 1)) else none

/-- The declaration record (R90). -/
def parseDecl (vmin : Nat) (hasCtext : Bool) (b : List Byte) : Option Decl :=
  let d : Decl := { scrMin := leAt b 0x0C 4, tags := leAt b 0x0A 2, hart := decide (leAt b 9 1 = 1), acc := leAt b 8 1,
                    floor := leAt b 6 1, width := leAt b 5 1, pt := leAt b 4 1, nstrMax := leAt b 0 2 }
  if b.length = 32 && zeros b 0x10 16 && leAt b 7 1 = 0 && leAt b 2 2 = 0 && d.scrMin % 4096 = 0 && decide (d.scrMin ≤ 2 ^ 20) &&
     decide (d.tags ≤ 256) && decide (leAt b 9 1 = ofBool hasCtext) && decide (d.acc ≤ 16) && decide (1 ≤ d.floor) && decide (d.floor ≤ 64) &&
     decide (1 ≤ d.nstrMax) && decide (d.nstrMax ≤ 2048) &&
     (if vmin = 2 then decide (d.pt < 4) && decide (d.width = 0)
      else decide (d.pt = 0xFF) && (d.width = 16 || d.width = 32 || d.width = 64)) then some d
  else none

/-! ### Loading (R83) -/

/-- What the checks of an image find: the object, its DATA sections with their bytes, its place entries. -/
structure Parsed where
  obj : Obj
  data : List (Section × List Byte)
  places : List (Nat × Nat × Nat × Nat)
  deriving DecidableEq, Repr

/-- Chunk i of a body. -/
def bodyChunk (img : List Byte) (i : Nat) : List Byte := slice img (4096 * (1 + i)) 4096

/-- The body chunks that a section lies in. -/
def chunksOfSection (e : Section) : List Nat := upFrom (e.offset / 4096 - 1) ((e.size + 4095) / 4096)

/-- The chunks of a section match their leaves (R85). -/
def sectionPaged (img : List Byte) (leaves : List (List Byte)) (e : Section) : Bool :=
  (chunksOfSection e).all fun i => decide (leaves[i]? = some (leafHash (bodyChunk img i)))

/-- The checks of an image that need no state (R78 to R83, R87 to R90, R92). DESIGN CHOICE (log entry 80): the bytes of a chunk beyond its
section's end are not looked at, though the chunk's hash covers them. DESIGN CHOICE (log entry 81): the walk of R81 reads the text as the image
holds it, since text need not be paged in at the load, and what it records stands when a chunk is paged in later. Both unsafe. -/
def parseImage (fn : Nat) (secure : Bool) (handle addr : Nat) (img : List Byte) : Option Parsed :=
  let hd := img.take 4096
  let nsect := leAt hd 8 2
  let nbody := leAt hd 0x14 4
  let vmin := leAt hd 4 1
  let treeOff := leAt hd 0x20 4
  let treeSz := leAt hd 0x24 4
  let secOff := leAt hd 0x0C 4
  let root := slice hd 0x30 48
  let nodes := chunksOf 48 (treeSz / 48) (slice img treeOff treeSz)
  let leaves := nodes.take nbody
  let tab := slice img secOff (32 * nsect)
  if hd.length ≠ 4096 || leAt hd 0 4 ≠ 0x1A4F4650 || leAt hd 5 1 ≠ 3 || 2 < vmin || leAt hd 6 2 ≠ 0 || leAt hd 0x0A 2 ≠ 0 ||
     leAt hd 0x10 4 ≠ 0 || leAt hd 0x28 8 ≠ 0 || !zeros hd 0x60 (4096 - 0x60) || nsect = 0 || 64 < nsect || nbody = 0 ||
     treeOff % 4096 ≠ 0 || treeOff < 4096 * (1 + nbody) || img.length < treeOff + treeSz || treeSz % 48 ≠ 0 then none
  else if !treeOk nodes nbody root then none
  else if secOff % 4096 ≠ 0 || secOff < 4096 || 4096 * (1 + nbody) < secOff + 32 * nsect then none
  else
    match (chunksOf 32 nsect tab).mapM (parseSection nbody) with
    | none => none
    | some secs =>
      let sec (t : Nat) : Option Section := (ofType secs t).head?
      let bytes (t : Nat) : List Byte := match sec t with | some e => slice img e.offset e.size | none => []
      let text := textWords (bytes 1)
      let ctext := textWords (bytes 2)
      let hasC := (sec 2).isSome
      let ventry := leAt hd 0x18 4
      let centry := leAt hd 0x1C 4
      let paged := secs.filter fun e => !(e.typ = 1 || e.typ = 2 || e.typ = 10)
      let base (t : Nat) : Nat := match sec t with | some e => e.offset / 4096 - 1 | none => 0
      if !sectionsOk secs || sec 9 ≠ some { typ := 9, rights := 0, offset := secOff, size := 32 * nsect, vaddr := 0 } ||
         !(paged.all (sectionPaged img leaves)) || (bytes 1).length % 4 ≠ 0 then none
      else
        match parseDecl vmin hasC (bytes 7), walkClauses text text.length 0 with
        | some d, some headers =>
          match parseVeer vmin text headers (bytes 4), parseTraps headers (bytes 5), parseTemplates (bytes 6), parsePlaces (bytes 8) with
          | some veer, some traps, some tmpl, some places =>
            if !headers.contains ventry ||
               !(if hasC then decide (centry % 4 = 0) && decide (centry < (bytes 2).length) else decide (centry = 0xFFFFFFFF)) then none
            else
              some { obj := { handle := handle, fn := fn, secure := secure, vmaj := 3, vmin := vmin, root := root, leaves := leaves,
                              image := addr, vbase := base 1, cbase := base 2, tbase := base 6, vtext := text, ctext := ctext, hasCtext := hasC,
                              ventry := ventry, centry := BitVec.ofNat 32 centry, headers := headers, veer := veer, traps := traps,
                              templates := tmpl, decl := d,
                              data := (ofType secs 3).map fun e => (e.vaddr, (e.size + 4095) / 4096 * 4096, e.offset / 4096 - 1) },
                     data := (ofType secs 3).map fun e => (e, slice img e.offset e.size), places := places }
          | _, _, _, _ => none
        | _, _ => none

/-! ### The chunk store (R84, R85) -/

/-- Put a chunk into a store. -/
def storeChunk (s : State) (fn : Nat) (secure : Bool) (leaf bytes : List Byte) : State :=
  if s.loom.chunks.any fun k => decide (k.fn = fn) && decide (k.secure = secure) && decide (k.leaf = leaf) then s
  else { s with loom := { s.loom with chunks := s.loom.chunks ++ [{ fn := fn, secure := secure, leaf := leaf, bytes := bytes }] } }

/-- Put the words of a chunk into a text that starts at a body chunk. -/
def textFrom (text : List W32) (base i : Nat) (bytes : List Byte) : List W32 :=
  if i < base then text
  else
    let at' := 1024 * (i - base)
    text.take at' ++ ((textWords bytes).take (text.length - at')) ++ text.drop (at' + 1024)

/-- An object's texts take a chunk's words wherever the object lists its leaf. -/
def Obj.takeChunk (o : Obj) (leaf bytes : List Byte) : Obj :=
  (upFrom 0 o.leaves.length).foldl (fun o i =>
    if o.leaves[i]? = some leaf then
      { o with vtext := textFrom o.vtext o.vbase i bytes, ctext := if o.hasCtext then textFrom o.ctext o.cbase i bytes else o.ctext }
    else o) o

/-- A chunk is admitted: the objects of its function and world that list it fetch its words. -/
def admitChunk (s : State) (fn : Nat) (secure : Bool) (leaf bytes : List Byte) : State :=
  let s := storeChunk s fn secure leaf bytes
  let take (o : Obj) : Obj := if o.fn = fn && o.secure = secure then o.takeChunk leaf bytes else o
  { s with loom := { s.loom with objs := s.loom.objs.map take } }

/-- Chunks that no loaded object of their function and world lists are freed (R84). -/
def freeChunks (s : State) : State :=
  let used (k : Chunk) : Bool :=
    s.loom.objs.any fun o => decide (o.fn = k.fn) && decide (o.secure = k.secure) && o.leaves.contains k.leaf
  { s with loom := { s.loom with chunks := s.loom.chunks.filter used } }

/-- A chunk of the image of an object, as the Loom reads it again: which die's view it takes is free. -/
def imageChunk (s : State) (o : Obj) (i : Nat) : List Byte × State :=
  let (d, s) := takeFree s
  let a := o.image + 4096 * (1 + i)
  ((upFrom a 4096).map fun b => byteOn s (d % 4) o.fn (d + (b - a)) b, s)

/-! ### OBJ.LOAD and OBJ.UNLOAD (R91, 23 R336) -/

/-- Bytes that the DATA mappings of an object take. -/
def dataBytes (p : Parsed) : Nat := p.obj.data.foldl (fun a d => a + d.2.1) 0

/-- The DATA ranges overlap a mapping of the function, or one another. -/
def dataOverlaps (s : State) (fn : Nat) (l : List (Nat × Nat × Nat)) : Bool :=
  (l.any fun d => meetsMapping s fn d.1 d.2.1) ||
  (upFrom 0 l.length).any fun i => (upFrom 0 i).any fun j =>
    match l[i]?, l[j]? with
    | some a, some b => overlap a.1 a.2.1 b.1 b.2.1
    | _, _ => false

/-- Load a parsed object: its DATA is mapped and filled, its hints kept, its paged chunks stored, its texts taken from the store
where they are there (R84, R91, R92). -/
def loadObject (s : State) (q : Nat) (p : Parsed) (img : List Byte) : State :=
  let o := p.obj
  let s := { s with loom := { s.loom with nextHandle := s.loom.nextHandle + 1, objs := s.loom.objs ++ [o] } }
  let s := p.data.foldl (fun s e =>
    let n := (e.1.size + 4095) / 4096
    let s := addPages s { fn := o.fn, va := e.1.vaddr, size := 4096, r := true, w := e.1.rights.testBit 1, x := false, secure := o.secure,
                          hint := 0, hintDie := 0, home := { die := 0, sram := false }, migrating := none, remote := none,
                          obj := some o.handle } n
    untouch (loomWrite s q o.fn e.1.vaddr e.2) (gkey o.fn e.1.vaddr) (4096 * n)) s
  let s := p.places.foldl (fun s e => placeRange s o.fn e.1 e.2.1 e.2.2.1 e.2.2.2) s
  let pagedIn := (upFrom 0 o.leaves.length).filter fun i =>
    !(decide (o.vbase ≤ i) && decide (i < o.vbase + (o.vtext.length + 1023) / 1024)) &&
    !(o.hasCtext && decide (o.cbase ≤ i) && decide (i < o.cbase + (o.ctext.length + 1023) / 1024)) &&
    decide (o.leaves[i]? = some (leafHash (bodyChunk img i)))
  let s := pagedIn.foldl (fun s i => storeChunk s o.fn o.secure (o.leaves[i]?.getD []) (bodyChunk img i)) s
  (s.loom.chunks.filter fun k => decide (k.fn = o.fn) && decide (k.secure = o.secure)).foldl
    (fun s k => admitChunk s k.fn k.secure k.leaf k.bytes) s

/-- The Loom can read an image: each of its pages is mapped so that it may, or is not mapped at all, and then the image stands outside the
function's memory: a function that holds no mapping loads its object (24 R351; log entry 86). -/
def imageReadable (c : Cmd) (a n : Nat) : Bool :=
  decide (a + n ≤ 2 ^ 56) && (upFrom (a / 4096) ((a + n + 4095) / 4096 - a / 4096)).all fun u =>
    match checkAccess c.s c.fn c.secure ((Nat.max (u * 4096) a : Nat) : Int) 1 false [.read] with
    | none => true
    | some k => decide (k = 3)

/-- OBJ.LOAD (R83, 23 R336). -/
def execObjLoad (f : Frame) (s : State) : Result :=
  runCommand 0x20 false true f noDenial [(8, 16)]
    (fun c =>
      let a := fld f 8 8
      let n := fld f 0x10 8
      c.act [(!imageReadable c a n, 2)] fun s =>
        let img := c.read a n
        match parseImage c.fn c.secure s.loom.nextHandle a img with
        | none => .done 1 0 c.s
        | some p =>
          c.act
            [(p.obj.data.any fun d => meetsAperture d.1 d.2.1, 1),
             (!quotaAllows s c.fn (dataBytes p) 0, 3),
             (dataOverlaps s c.fn p.obj.data, 4)]
            fun s => .done 0 p.obj.handle (loadObject s c.q p img))
    s

/-- A live launch, task or pipeline uses an object (R336). -/
def objInUse (s : State) (o : Obj) : Bool :=
  (s.loom.launches.any fun l => l.obj = o.handle) ||
  (s.tasks.tasks.any fun k => k.obj = o.handle) ||
  (s.heddle.stages.any fun g => decide (g.obj = o.handle) && !g.ended)

/-- Unload an object: its DATA pages are unmapped and its chunks lose a user (R84, R91). -/
def unloadObject (s : State) (o : Obj) : State :=
  let s := o.data.foldl (fun s d => removePages s o.fn d.1 d.2.1) s
  freeChunks { s with loom := { s.loom with objs := s.loom.objs.filter fun x => x.handle ≠ o.handle } }

/-- The object of a handle in another function. -/
def foreignObj (c : Cmd) (fn h : Nat) : Bool := match getObj c.s h with | some o => decide (o.fn ≠ fn) | none => false

/-- OBJ.UNLOAD (R336). -/
def execObjUnload (f : Frame) (s : State) : Result :=
  runCommand 0x21 false true f (fun c => foreignObj c c.fn (fld f 8 4)) [(8, 4)]
    (fun c =>
      match ownObj c.s c.fn c.secure (fld f 8 4) with
      | none => .done 2 0 c.s
      | some o => c.simple [(objInUse c.s o, 4)] fun s => unloadObject s o)
    s

/-! ### Paging (R85, R86) -/

/-- The body chunks that text bytes at an offset lie in; control: of the control text. -/
def chunkOfText (o : Obj) (control : Bool) (off : Nat) : Nat := (if control then o.cbase else o.vbase) + off / 4096

/-- A team's launch has its own copy of the chunk that a vector-text offset lies in (R86). -/
def privateChunk (s : State) (t : Team) (o : Obj) (off : Nat) : Option PrivateCopy := (launchOf s t).bind fun l => copyAt l o off

/-- Text at an offset may be fetched by a team: its chunk, or its launch's private copy of it, is resident. -/
def textReady (s : State) (t : Team) (control : Bool) (off : Nat) : Bool :=
  match getObj s t.obj with
  | none => true
  | some o =>
    match (if control then none else privateChunk s t o off) with
    | some p => p.resident
    | none => stored s o (chunkOfText o control off)

/-- The offsets of the first byte and of the last that a weft's next fetch needs: a whole clause at its header, else a word of
it (R81, R85). -/
def fetchSpan (s : State) (t : Team) (w : Weft) : List Nat :=
  if w.pos.started then [w.pos.offset, w.pos.offset + 4 * ((headerCnt (clauseHeader s t w)) - w.pos.word - 1)]
  else [w.pos.clause, w.pos.clause + 4 * headerCnt (clauseHeader s t w)]

/-- The first body chunk of the DATA or template section that a chunk lies in. -/
def sectionBase (o : Obj) (i : Nat) : Nat :=
  match o.data.find? fun d => decide (d.2.2 ≤ i) && decide (i < d.2.2 + d.2.1 / 4096) with
  | some d => d.2.2
  | none => o.tbase

/-- How a team ends that waits for a chunk: its number within its section, the pc, CAUSE, LANES and core of the entry (R85, 23 R343). -/
def chunkCause (n pc cause lanes core : Nat) : EndCause :=
  { EndCause.silent with
    entry := some { kind := 0x17, cause := cause, addr := 4096 * n, pc := pc, lanes := lanes, core := core }, cause := cause,
    addr := 4096 * n, mayReplay := false }

/-- A weft waits for a chunk of an object: to fetch text, or to read. -/
def Weft.needs (s : State) (t : Team) (w : Weft) (o : Obj) (i : Nat) : Bool :=
  decide (w.wait = .retry Why.chunk.code) && decide (t.obj = o.handle) &&
    (fetchSpan s t w).any fun a => decide (chunkOfText o false a = i) && (privateChunk s t o a).isNone

/-- A copy that a team issued waits for a chunk of an object. -/
def copyNeeds (s : State) (t : Team) (o : Obj) (i : Nat) : Bool :=
  (upFrom 0 16).any fun ch => (getChan s t.place.cluster ch).copies.any fun x =>
    decide (x.tid = t.tid) && !x.finished && !x.halted &&
    match x.unread.head?.map fun k => fetchByte s false t x (x.source k) with
    | some (.error (.chunk h k, _)) => decide (h = o.handle) && decide (k = i)
    | _ => false

/-- Why a team ends where a chunk cannot be admitted: what of it waits for that chunk (R85). -/
def chunkEnd (s : State) (o : Obj) (i : Nat) (t : Team) : Option EndCause :=
  let reads := Why.code (.data o.handle i)
  match t.wefts.find? fun w => decide (w.wait = .retry reads) || w.needs s t o i with
  | some w =>
    some (chunkCause (i - if w.wait = .retry reads then sectionBase o i else o.vbase) w.pos.xpc 0 w.emBits (coreIndex s t w))
  | none =>
    match t.hart.bind fun h =>
        if h.wait = .retry reads then some (chunkCause (i - sectionBase o i) h.pc.toNat 0x8001 0 0)
        else if h.wait = .retry Why.chunk.code && t.obj = o.handle && chunkOfText o true h.pc.toNat = i then
          some (chunkCause (i - o.cbase) h.pc.toNat 0x8001 0 0)
        else none with
    | some c => some c
    | none => if copyNeeds s t o i then some (chunkCause (i - sectionBase o i) 0 0 0 0) else none

/-- End every team that waits for a chunk that cannot be admitted; a hart takes its exception first (15 R213). -/
def chunkMismatch (s : State) (o : Obj) (i : Nat) : State :=
  s.teams.foldl (fun s t =>
    match chunkEnd s o i t with
    | none => s
    | some c => endTeam (if c.cause = 0x8001 then enterLoom s t 1 c.addr else s) t.tid c) s

/-- The launches of an object whose private copy of a chunk is not resident page it in, checked against its own hash (R86). -/
def pageCopies (s : State) (o : Obj) (chunk : Nat) : State :=
  let bytes (p : PrivateCopy) : List Byte := p.words.flatMap fun w => leBytes 4 w.toNat
  let page (p : PrivateCopy) : PrivateCopy :=
    if p.chunk = chunk && decide (leafHash (bytes p) = p.hash) then { p with resident := true } else p
  { s with loom := { s.loom with launches := s.loom.launches.map fun l =>
      if l.obj = o.handle && (l.copies.any fun p => !p.resident) then { l with copies := l.copies.map page } else l } }

/-- CHUNK_PAGE_IN: a chunk that is not resident is read from the object's image and hashed, and read once more where the hash is
not its leaf; after a second mismatch the teams that wait for it end (R85). -/
def execChunkPageIn (obj chunk : Nat) (s : State) : Result :=
  match getObj s obj with
  | none => .next s
  | some o =>
    match o.leaves[chunk]? with
    | none => .next s
    | some leaf =>
      let s := pageCopies s o chunk
      if stored s o chunk then .next s
      else
        let (b1, s) := imageChunk s o chunk
        if leafHash b1 = leaf then .next (admitChunk s o.fn o.secure leaf b1)
        else
          let (b2, s) := imageChunk s o chunk
          if leafHash b2 = leaf then .next (admitChunk s o.fn o.secure leaf b2) else .next (chunkMismatch s o chunk)

/-- CHUNK_EVICTION: the next fetch or read that needs the chunk pages it in again (R85). Which private copies of it go too is free (R86). -/
def execChunkEviction (obj chunk : Nat) (s : State) : Result :=
  match getObj s obj with
  | none => .next s
  | some o =>
    let (f, s) := takeFree s
    let kept (k : Chunk) : Bool := !(decide (k.fn = o.fn) && decide (k.secure = o.secure) && decide (o.leaves[chunk]? = some k.leaf))
    let drop (l : Launch) : Launch :=
      if l.obj = obj && f.testBit l.lid then { l with copies := l.copies.map fun p => if p.chunk = chunk then { p with resident := false } else p } else l
    .next { s with loom := { s.loom with chunks := s.loom.chunks.filter kept, launches := s.loom.launches.map drop } }

end Sys2Proof.Machine
end

