-- ==== Sys2Proof/Machine/Matrix.lean ====
section
/-! DEFINITION. The matrix instructions (17) and the self-timed array (16). -/

namespace Sys2Proof.Machine

open Sys2Proof

/-! ### Descriptors and checks at issue (17 R260 to R264) -/

/-- m or n of a size code (17 R261); 0 is not a size. -/
def sizeOf' (code : Nat) : Nat := if code = 0 then 0 else 8 * 2 ^ code

/-- KU of a descriptor. -/
def mdKu (v : W64) : Nat := bitsOf v.toNat 32 12
/-- FMT of a descriptor. -/
def mdFmt (v : W64) : Nat := bitsOf v.toNat 24 4
/-- n of a descriptor. -/
def mdN (v : W64) : Nat := sizeOf' (bitsOf v.toNat 22 2)
/-- m of a descriptor. -/
def mdM (v : W64) : Nat := sizeOf' (bitsOf v.toNat 20 2)
/-- SLOT of a descriptor. -/
def mdSlot (v : W64) : Nat := bitsOf v.toNat 0 4

/-- Every bit outside a mask is zero. -/
def onlyBits (v : W64) (mask : W64) : Bool := v &&& ~~~mask = 0

/-- The fields of MLDW, of MMUL's map form and of its other forms, and of MDRAIN (17 R261). -/
def mdMldw : W64 := 0x00000FFF00C10000
/-- MMUL, map form. -/
def mdMap : W64 := 0x000000000031001F
/-- MMUL, feed and west forms. -/
def mdStream : W64 := 0x000000000F30001F
/-- MDRAIN. -/
def mdDrain : W64 := 0x0000000000FD001F

/-- The first code whose condition holds. -/
def firstCode : List (Nat × Bool) → Option Nat
  | [] => none
  | (c, b) :: t => if b then some c else firstCode t

/-- Some byte of a map's elements, or of their scales, lies outside the allocation (03 R42). r, k: the operand's two extents. -/
def mapBeyond (m : OMap) (r k size : Nat) : Bool :=
  (upFrom 0 r).any fun i => (upFrom 0 k).any fun κ =>
    let p := m.at i κ
    decide (size < m.addr p.1 p.2 + m.elemBytes) || (decide (m.gs ≠ 0) && decide (size < m.scaleAddr p.1 p.2 + m.es))

/-- Group size that k must be a multiple of. -/
def kGroup (m : OMap) : Nat := m.group

/-- The pairing of two formats that 04 R74 allows; AQ operands have one group size. -/
def pairOk (fa fb ga gb : Nat) : Bool :=
  decide (fmtC fa = fmtC fb) && decide (fmtFamily fa = fmtFamily fb) && (decide (fmtFamily fa ≠ .aq) || (decide (fa = fb) && decide (ga = gb)))

/-- The kind a pairing gives its slot. -/
def kindOfFmt (f : Nat) : SlotKind := if fmtFamily f = .integer then .integer else .floating

/-- The kind of a context's slot at issue. -/
def Ctx.kindOf (x : Ctx) (slot : Nat) : SlotKind := spGet .none x.kinds slot

/-- A slot is not of the other kind. -/
def kindOk (k : SlotKind) (f : Nat) : Bool := decide (k = .none) || decide (k = kindOfFmt f)

/-- The formats a feed or west form accepts (17 R268). -/
def streamFmt (f : Nat) : Bool := decide (f < 5) || (decide (8 ≤ f) && decide (f < 12))

/-- k-segments of a reduction. -/
def segCount (fmt k : Nat) : Nat := (k + segElems fmt - 1) / segElems fmt

/-- Bytes of one chunk of a feed stream (17 R268). -/
def chunkBytes (fmt : Nat) : Nat := if fmt = 0 then 256 else 512

/-- Bytes of a feed stream. -/
def streamBytes (fmt m k : Nat) : Nat := m * segCount fmt k * chunkBytes fmt

/-- A feed mask names every feed register that a stream reads. -/
def feedsNamed (feeds : BitVec 4) (first n : Nat) : Bool :=
  (upFrom first ((n + 4095) / 4096)).all fun f => decide (f < 4) && feeds.getLsbD f

/-! ### Issue -/

/-- The exception of a failed check: mcause 2 with the code in mtval (17 R263). -/
def matrixFault (s : State) (t : Team) (h : Hart) (code : Nat) : Result :=
  match code with
  | 7 => hartException s t h 2 7 5 6 false
  | 8 => hartException s t h 2 8 0x0B 0 false
  | c => hartException s t h 2 c 1 0 false

/-- A matrix instruction: its encoding, then poison of its operands, then its checks in the order of their codes; the issue waits for
room and for the hart's earlier stores, and releases what the hart has done to the operation (17 R260, R263, R265; 15 R217). In M-mode it
acts on the system context (17 R278). act: what a numbered instruction leaves. -/
def matrixOp (i : Instr) (rd : BitVec 5) (regs : List (BitVec 5)) (code1 : Hart → Bool) (check : Team → Hart → Ctx → List (Nat × Bool))
    (act : Team → Hart → Ctx → MKind × Ctx) (s : State) : Result :=
  withHart s fun s t h => hartPoll s t h <|
    if !legal i then matrixFault s t h 1
    else if regs.any h.pd then poisonHart s t h
    else if code1 h then matrixFault s t h 1
    else
      match t.place.ctx with
      | none => matrixFault s t h 6
      | some c =>
        let x := getCtx (getCluster s t.place.cluster).mx c
        match firstCode (check t h x) with
        | some code => matrixFault s t h code
        | none =>
          if 64 ≤ x.ops.length then hartRetry s t .slot
          else if !h.stores.isEmpty then hartRetry s t .order
          else
            let (k, x') := act t h x
            let n := x.issued + 1
            let s := updCtxOf s t.place.cluster c fun _ => { x' with issued := n, ops := x.ops ++ [{ num := n, kind := k, acq := inTransit s.mem (t.done [hartWho]), pc := h.pc }] }
            retireNext s t h fun h => h.wr rd (BitVec.ofNat 64 n) false

/-- The map of a register pair. -/
def mapOf (h : Hart) (r : BitVec 5) (t : Bool) : OMap := { oma := h.rd r, omb := h.rd (r + 1), t := t }

/-- T of a descriptor. -/
def mdT (v : W64) : Bool := v.getLsbD 16
/-- SYS of a descriptor. -/
def mdSys (v : W64) : Bool := v.getLsbD 4

/-- The slot that a descriptor names is the issuer's kind: sys0 and sys1 are the Loom's, and its alone (17 R263). -/
def sysAgrees (t : Team) (v : W64) : Bool := mdSys v == t.inM

/-- An operation that the head of a chain forwards: issued after its MCHAIN (17 R276). -/
def Ctx.forwards (x : Ctx) : Bool := match x.chain with | some h => decide (h.pos = 0) | none => false

/-- SLOT is not the issuer's: at or above ACC, or above 1 in M-mode (17 R263 code 5). -/
def slotBad (t : Team) (v : W64) : Bool := !sysAgrees t v || decide (t.place.acc ≤ mdSlot v)

/-- The checks that MMUL's forms share, from the binding. fa, ga: A's format and group code. -/
def mmulChecks (t : Team) (x : Ctx) (v : W64) (fa ga : Nat) (shape fmt state : Bool) (bound : List (Nat × Bool)) : List (Nat × Bool) :=
  let pair := match x.binding with | some b => !pairOk fa b.bmap.fmt ga b.bmap.gs | none => false
  [(3, decide (mdM v = 0) || shape), (4, fmt || pair || (sysAgrees t v && !kindOk (x.kindOf (mdSlot v)) fa)), (5, slotBad t v),
   (6, x.binding.isNone || state)] ++ bound

/-- The context after an MMUL. -/
def afterMmul (x : Ctx) (v : W64) (fa : Nat) : Ctx := { x with kinds := spSet .none x.kinds (mdSlot v) (kindOfFmt fa) }

/-- The binding in force. -/
def bindingOf (x : Ctx) : Binding := x.binding.getD { bmap := { oma := 0, omb := 0, t := false }, n := 0, k := 0 }

/-- MMUL, map form (17 R268). -/
def execMmulMap (rd rs1 rs2 : BitVec 5) (s : State) : Result :=
  matrixOp (.mmulMap rd rs1 rs2) rd [rs1, rs1 + 1, rs2] (fun h => !onlyBits (h.rd rs2) mdMap)
    (fun t h x =>
      let v := h.rd rs2
      let m := mapOf h rs1 (mdT v)
      let k := (bindingOf x).k
      (2, !m.ok) :: mmulChecks t x v m.fmt m.gs (decide (k % kGroup m ≠ 0)) false false
        [(7, mapBeyond m (mdM v) k t.place.scrSize), (8, decide (m.gs ≠ 0) && decide (m.gax ≠ m.t))])
    (fun _ h x =>
      let v := h.rd rs2
      let m := mapOf h rs1 (mdT v)
      (.mmul (bindingOf x) (.map m) (mdM v) (mdSlot v) x.forwards, afterMmul x v m.fmt)) s

/-- k is no multiple of the group of a format that needs block scales (17 R263 code 3). -/
def blockSplit (fmt k : Nat) : Bool := decide (5 ≤ fmt) && decide (fmt ≤ 7) && decide (k % 32 ≠ 0)

/-- MMUL, feed form (17 R268). -/
def execMmulFeed (rd : BitVec 5) (fd : BitVec 2) (rs2 : BitVec 5) (s : State) : Result :=
  matrixOp (.mmulFeed rd fd rs2) rd [rs2] (fun h => !onlyBits (h.rd rs2) mdStream)
    (fun t h x =>
      let v := h.rd rs2
      let n := streamBytes (mdFmt v) (mdM v) (bindingOf x).k
      mmulChecks t x v (mdFmt v) 0 (blockSplit (mdFmt v) (bindingOf x).k || (decide (fmtC (mdFmt v) ≠ 0) && decide (16384 < 4096 * fd.toNat + n)))
        (!streamFmt (mdFmt v))
        (match x.batch with | some f => !feedsNamed f fd.toNat n | none => true) [])
    (fun _ h x =>
      let v := h.rd rs2
      (.mmul (bindingOf x) (.feed fd.toNat (mdFmt v)) (mdM v) (mdSlot v) x.forwards, afterMmul x v (mdFmt v))) s

/-- MMUL, west form (17 R268). -/
def execMmulWest (rd rs2 : BitVec 5) (s : State) : Result :=
  matrixOp (.mmulWest rd rs2) rd [rs2] (fun h => !onlyBits (h.rd rs2) mdStream)
    (fun t h x =>
      let v := h.rd rs2
      mmulChecks t x v (mdFmt v) 0 (blockSplit (mdFmt v) (bindingOf x).k) (!streamFmt (mdFmt v))
        (x.batch.isNone || match x.chain with | some c => decide (c.pos = 0) | none => true) [])
    (fun _ h x =>
      let v := h.rd rs2
      (.mmul (bindingOf x) (.west (mdFmt v)) (mdM v) (mdSlot v) false, afterMmul x v (mdFmt v))) s

/-- MLDW (17 R267). -/
def execMldw (rd rs1 rs2 : BitVec 5) (s : State) : Result :=
  matrixOp (.mldw rd rs1 rs2) rd [rs1, rs1 + 1, rs2] (fun h => !onlyBits (h.rd rs2) mdMldw)
    (fun t h _ =>
      let v := h.rd rs2
      let m := mapOf h rs1 (mdT v)
      let k := 16 * mdKu v
      [(2, !m.ok), (3, decide (mdN v = 0) || decide (k = 0) || decide (k % kGroup m ≠ 0)), (7, mapBeyond m (mdN v) k t.place.scrSize),
       (8, decide (m.gs ≠ 0) && decide (m.gax ≠ m.t))])
    (fun _ h x =>
      let v := h.rd rs2
      (.mldw, { x with binding := some { bmap := mapOf h rs1 (mdT v), n := mdN v, k := 16 * mdKu v } })) s

/-- A drain format that 17 R272 allows for a slot's kind. -/
def drainFmtOk (k : SlotKind) (fmt : Nat) (nan sat : Bool) : Bool :=
  let fl := decide (fmt < 5) && (!nan || decide (fmt = 3))
  let ig := (decide (fmt = 0) || (decide (8 ≤ fmt) && decide (fmt < 12))) && !nan && !sat
  match k with
  | .floating => fl
  | .integer => ig
  | .none => fl || ig

/-- MDRAIN (17 R271, R272). -/
def execMdrain (rd rs1 rs2 : BitVec 5) (s : State) : Result :=
  matrixOp (.mdrain rd rs1 rs2) rd [rs1, rs1 + 1, rs2] (fun h => !onlyBits (h.rd rs2) mdDrain)
    (fun t h x =>
      let v := h.rd rs2
      let m := mapOf h rs1 (mdT v)
      [(2, !m.ok), (3, decide (mdN v = 0) || decide (mdM v = 0)), (5, slotBad t v),
       (7, mapBeyond m (mdM v) (mdN v) t.place.scrSize),
       (9, decide (m.gs ≠ 0) || !drainFmtOk (if sysAgrees t v then x.kindOf (mdSlot v) else .none) m.fmt (v.getLsbD 19) (v.getLsbD 18))])
    (fun _ h x =>
      let v := h.rd rs2
      let m := mapOf h rs1 (mdT v)
      (.mdrain m (mdM v) (mdN v) (mdSlot v) (v.getLsbD 19) (v.getLsbD 18)
        (decide (x.kindOf (mdSlot v) = .integer) || decide (8 ≤ m.fmt)), x)) s

/-- The bit of MZERO's mask that names a slot: bits 15 to 0 name acc0 to acc15, bits 17 and 16 sys1 and sys0 (17 R270). -/
def maskBit (system : Bool) (slot : Nat) : Nat := if system then 16 + slot else slot

/-- MZERO: the named slots' kinds become none at issue (17 R270). -/
def execMzero (rd rs1 : BitVec 5) (s : State) : Result :=
  matrixOp (.mzero rd rs1) rd [rs1] (fun h => !onlyBits (h.rd rs1) 0x3FFFF)
    (fun t h _ => [(5, if t.inM then decide ((h.rd rs1).toNat % 2 ^ 16 ≠ 0) else decide (2 ^ t.place.acc ≤ (h.rd rs1).toNat))])
    (fun t h x =>
      let v := h.rd rs1
      (.mzero (v.setWidth 18), { x with kinds := x.kinds.filter fun e => !v.getLsbD (maskBit t.inM e.1) })) s

/-- MSTAT (17 R277): a context has left its chain when that is dissolved, also while a forwarded operation that has begun runs on (R276). -/
def execMstat (rd : BitVec 5) (s : State) : Result :=
  withHart s fun s t h => hartPoll s t h <|
    match t.place.ctx with
    | none => matrixFault s t h 6
    | some c =>
      let k := getCluster s t.place.cluster
      let x := getCtx k.mx c
      let pois := bitsNat ((upFrom 0 t.place.acc).map fun i => (getSlot k (t.place.accBase + i)).flag)
      let v := 2 ^ 49 * ofBool x.batch.isSome + 2 ^ 48 * ofBool (x.formed.isSome && !x.closing) + 2 ^ 32 * x.retired + 2 ^ 16 * x.corr + pois
      writeRd s t h rd (BitVec.ofNat 64 v) false

/-- MBEGIN (17 R273). -/
def execMbegin (rd : BitVec 5) (feeds : BitVec 4) (s : State) : Result :=
  matrixOp (.mbegin rd feeds) rd [] (fun _ => false) (fun t _ x => [(6, x.batch.isSome || (t.inM && decide (feeds ≠ 0)))])
    (fun _ _ x => (.mbegin feeds, { x with batch := some feeds })) s

/-- MEND (17 R274). -/
def execMend (rd : BitVec 5) (s : State) : Result :=
  matrixOp (.mend rd) rd [] (fun _ => false) (fun _ _ x => [(6, x.batch.isNone)])
    (fun _ _ x => (.mend, { x with batch := none, chain := none })) s

/-- MCHAIN (17 R275). -/
def execMchain (rd rs1 : BitVec 5) (len pos : BitVec 2) (s : State) : Result :=
  matrixOp (.mchain rd rs1 len pos) rd [rs1] (fun _ => false)
    (fun t _ x =>
      let c := t.place.cluster % 10
      [(6, t.inM || x.batch.isNone || x.chain.isSome || decide (c < pos.toNat) || decide (9 < c - pos.toNat + len.toNat))])
    (fun _ h x =>
      let g : Chain := { len := len.toNat + 1, pos := pos.toNat, tag := (h.rd rs1).setWidth 32 }
      (.mchain g.len g.pos g.tag, { x with chain := some g })) s

/-! ### Operations that need no array (17 R267, R270, R273 to R275) -/

/-- A cluster's engine runs: it is enabled, its cluster is neither fenced nor saved (16 R257, 02 R37, 25 R359). -/
def engineRuns (s : State) (c : Nat) : Bool :=
  let k := getCluster s c
  !Config.engineDisabled c && !k.fenced && match k.preempt with | .stopped => false | _ => true

/-- The operation at the head of a context is over: the next one comes to the head. -/
def Ctx.next (x : Ctx) : Ctx := { x with ops := x.ops.drop 1, steps := 0, latches := 0, stopped := false }

/-- Count the operation at the head of a context (16 R244): its completion releases what its issue released to it (03 R57). -/
def countHead (s : State) (c i : Nat) : State :=
  served (updCtxOf s c i fun x =>
    let mine := match x.ops with | o :: _ => [(o.num, inTransit s.mem o.acq)] | [] => []
    { x.next with rel := ((x.rel.map fun e => (e.1, inTransit s.mem e.2)) ++ mine).filter fun e => !e.2.isEmpty }) c i

/-- Take a claim of feed registers: every named register or none (16 R248). -/
def claimFeeds (k : Cluster) (i : Nat) (feeds : BitVec 4) : Option Cluster :=
  let l := (upFrom 0 4).filter fun f => feeds.getLsbD f
  if l.any fun f => (getFeed k f).holder.isSome then none
  else some (l.foldl (fun k f => putFeed k f { Feed.reset with holder := some i }) k)

/-- The context of a cluster whose MCHAIN, at the head of its context, offers an identity at a position. -/
def offers (s : State) (c : Nat) (id : ChainId) (pos : Nat) : Option Nat :=
  (upFrom 0 4).find? fun i =>
    let x := getCtx (getCluster s c).mx i
    match x.ops with
    | ⟨_, .mchain l p g, _, _⟩ :: _ => decide (p = pos) && decide (chainIdOf s c x.tid { len := l, pos := p, tag := g } = some id)
    | _ => false

/-- A chain of an identity is formed, or still has a member (17 R275). -/
def chainStands (s : State) (id : ChainId) : Bool := !(chainMembers s id).isEmpty

/-- A chain forms where every position has its MCHAIN, no cluster of it is being pre-empted, and no chain of the same identity stands: all
are counted together (17 R275, 16 R256). -/
def formChain (s : State) (c : Nat) (x : Ctx) (g : Chain) : Option State :=
  match chainIdOf s c x.tid g with
  | none => none
  | some id =>
    let l := (upFrom 0 g.len).map fun p => (c - g.pos + p, p, offers s (c - g.pos + p) id p)
    if chainStands s id || l.any fun e => e.2.2.isNone || decide ((getCluster s e.1).preempt ≠ .none) then none
    else
      some (l.foldl (fun s e =>
        match e.2.2 with
        | some i => updCtxOf (countHead s e.1 i) e.1 i fun y => { y with formed := some { g with pos := e.2.1 }, forwarded := 0 }
        | none => s) s)

/-- Zero the slots that a mask names (17 R270). -/
def zeroSlots (s : State) (c : Nat) (x : Ctx) (mask : BitVec 18) : State :=
  let system := x.tid.isNone
  updCluster s c fun k =>
    ((upFrom 0 (if system then 2 else 16)).filter fun i => mask.getLsbD (maskBit system i)).foldl
      (fun k i => putSlot k (slotIndex s x i) Slot.reset) k

/-- The state after the operation at the head of a context where it needs no array and may be counted. -/
def countFree (s : State) (c i : Nat) : Option State :=
  let k := getCluster s c
  let x := getCtx k.mx i
  match x.ops with
  | [] => none
  | o :: _ =>
    match o.kind with
    | .mldw => some (countHead s c i)
    | .mzero m => some (countHead (zeroSlots s c x m) c i)
    | .mbegin f => (claimFeeds k i f).map fun k => countHead (setCluster s c k) c i
    | .mend => some (dissolveChain (updCluster (countHead s c i) c fun k => releaseFeeds k i) c i true)
    | .mchain l p g => formChain s c x { len := l, pos := p, tag := g }
    | .mmul _ _ _ _ _ | .mdrain _ _ _ _ _ _ _ => none

/-! ### Chains in step (17 R276) -/

/-- The format of A. -/
def AForm.fmt : AForm → Nat
  | .map m => m.fmt
  | .feed _ f => f
  | .west f => f

/-- A member's west form that is paired with the head's operation and does not match it is retired without a step (17 R276). -/
def retireMismatch (s : State) (hd : Nat × Nat) (m : Nat × Nat) : State :=
  let x := getCtx (getCluster s hd.1).mx hd.2
  let y := getCtx (getCluster s m.1).mx m.2
  match forwardedOp s hd.1 hd.2, y.ops with
  | some (b, a, _), ⟨_, .mmul b' (.west f) _ _ _, _, _⟩ :: _ =>
    if y.forwarded = x.forwarded && (b'.k ≠ b.k || f ≠ a.fmt) then
      served (updCtxOf s m.1 m.2 fun y =>
        { y.next with forwarded := y.forwarded + 1, retired := Nat.min 65535 (y.retired + 1) }) m.1 m.2
    else s
  | _, _ => s

/-- A member has passed the head's operation. -/
def passed (s : State) (hd m : Nat × Nat) : Bool :=
  (getCtx (getCluster s hd.1).mx hd.2).forwarded < (getCtx (getCluster s m.1).mx m.2).forwarded

/-- The contexts that take each step together with a context: itself, or the members of its chain in step with the head's forwarded
operation; none where a member is not there yet. -/
def together (s : State) (c i : Nat) : Option (List (Nat × Nat)) :=
  let x := getCtx (getCluster s c).mx i
  match formedId s c x with
  | none => some [(c, i)]
  | some id =>
    match chainMembers s id with
    | [] => some [(c, i)]
    | hd :: ms =>
      let own := match x.ops with | o :: _ => o.isWest | [] => false
      if (forwardedOp s hd.1 hd.2).isNone then (if own then none else some [(c, i)])
      else if hd = (c, i) || own then
        if ms.all fun m => passed s hd m || inStep s hd m then some (hd :: ms.filter fun m => inStep s hd m) else none
      else some [(c, i)]

/-! ### Selection (16 R246) -/

/-- An operation runs in the array. -/
def MOp.needsArray (o : MOp) : Bool := match o.kind with | .mmul _ _ _ _ _ | .mdrain _ _ _ _ _ _ _ => true | _ => false

/-- The contexts that would take arrays together for the operation at the head of a context; none where it runs in no array, or a member of
its chain is not there yet. -/
def wantArrays (s : State) (c i : Nat) : Option (List (Nat × Nat)) :=
  match headOp s c i with
  | some o => if o.needsArray then together s c i else none
  | none => none

/-- The operation at the head of a context can go on, as far as its own context and chain are concerned. -/
def canGo (s : State) (c i : Nat) : Bool := (wantArrays s c i).isSome || (countFree s c i).isSome

/-- The operation at the head of a context takes no other engine's array. -/
def goesAlone (s : State) (c i : Nat) : Bool := match wantArrays s c i with | some l => decide (l.length ≤ 1) | none => true

/-- How far a context is from its turn in the round robin of its class, after the one that was served last (16 R246). -/
def turnOf (k : Cluster) (rank i : Nat) : Nat := (i + 4 - spGet 4 k.mx.lastServed rank) % 5

/-- Another context of a member's engine is served before it (16 R246): it can go on, and it ranks higher, or, of the same class, was stopped
where the member was not, or comes first in the round robin. Two chains that want the same engines are not held to the round robin of each
engine: each might be first on one of them, and neither would run (log entry 103). -/
def servedFirst (s : State) (m : Nat × Nat) (j : Nat) : Bool :=
  let k := getCluster s m.1
  let x := getCtx k.mx m.2
  let y := getCtx k.mx j
  let (a, b) := (rankOf x m.2, rankOf y j)
  decide (j ≠ m.2) && canGo s m.1 j &&
    (decide (a < b) || (decide (a = b) && ((y.stopped && !x.stopped) ||
      (decide (y.stopped = x.stopped) && goesAlone s m.1 j && decide (turnOf k a j < turnOf k a m.2)))))

/-- Every member of a chain can take its array: no other context has it, and none is served before it there (16 R246, R256). -/
def arraysFree (s : State) (c i : Nat) (l : List (Nat × Nat)) : Bool :=
  l.all fun m => decide (m = (c, i)) || ((getCluster s m.1).mx.running.isNone && !(upFrom 0 5).any (servedFirst s m))

/-- The operation at the head of a context can be served now. -/
def mayServe (s : State) (c i : Nat) : Bool :=
  match wantArrays s c i with
  | some l => arraysFree s c i l
  | none => (countFree s c i).isSome

/-- The context that the engine serves next (16 R246): system, class, stopped ones first, then round robin. -/
def selectCtx (s : State) (c : Nat) : Option Nat :=
  let k := getCluster s c
  let l := (upFrom 0 5).filter fun i => mayServe s c i
  let top := l.foldl (fun a i => Nat.max a (rankOf (getCtx k.mx i) i)) 0
  let l := l.filter fun i => rankOf (getCtx k.mx i) i = top
  match l.find? fun i => (getCtx k.mx i).stopped with
  | some i => some i
  | none =>
    let last := spGet 4 k.mx.lastServed top
    match l.find? fun i => last < i with
    | some i => some i
    | none => l.head?

/-- Give the array of every member to the contexts that step together, where each is free. -/
def takeArrays (s : State) (l : List (Nat × Nat)) : State :=
  l.foldl (fun s m => updCluster s m.1 fun k => { k with mx := { k.mx with running := some m.2 } }) s

/-- The engine of a cluster selects where its array is free (16 R246): an operation that needs no array is counted; else the members of a
chain take their arrays together. DESIGN CHOICE (log entry 48): an operation that cannot go yet, as an MBEGIN whose feed registers are held or a
west form that is not in step, is passed over, and one that needs no array is counted only while the array is free. Unsafe for a claim about
which operation comes next. -/
def arraySelect (s : State) (c : Nat) : State :=
  if (getCluster s c).mx.running.isSome || (getCluster s c).preempt ≠ .none then s
  else
    match selectCtx s c with
    | none => s
    | some i => match wantArrays s c i with
      | some l => takeArrays s l
      | none => (countFree s c i).getD s

/-! ### Latches and steps (16 R241, R250; 17 R269) -/

/-- What an MMUL at the head of a context does: binding, A, m, slot; a member of a chain takes m from the head (17 R276). -/
structure Work where
  binding : Binding
  a : AForm
  m : Nat
  slot : Nat
  deriving DecidableEq, Repr

/-- The work of the MMUL at the head of a context. -/
def workOf (s : State) (c i : Nat) : Option Work :=
  match headOp s c i with
  | some ⟨_, .mmul b a m slot _, _, _⟩ =>
    match a, together s c i with
    | .west _, some (hd :: _) =>
      match forwardedOp s hd.1 hd.2 with
      | some (_, _, m') => some { binding := b, a := a, m := m', slot := slot }
      | none => some { binding := b, a := a, m := m, slot := slot }
    | _, _ => some { binding := b, a := a, m := m, slot := slot }
  | _ => none

/-- The segment of the next step. -/
def nextSeg (x : Ctx) (w : Work) : Nat := x.steps / Nat.max 1 w.m

/-- The latched weights are those of the next step. -/
def latched (k : Cluster) (i : Nat) (o : MOp) (seg : Nat) : Bool :=
  match k.mx.latch with
  | some l => decide (l.ctx = i) && decide (l.num = o.num) && decide (l.seg = seg)
  | none => false

/-- Latch the k-segment of the next step of a running MMUL, where B's lines are full (16 R241). -/
def latchWeights (s : State) (c i : Nat) : State :=
  let k := getCluster s c
  let x := getCtx k.mx i
  match headOp s c i, workOf s c i with
  | some o, some w =>
    let seg := nextSeg x w
    let wh := whereOf s c x
    let ks := segRange w.binding.bmap.fmt w.binding.k seg
    if latched k i o seg then s
    else if !((upFrom 0 w.binding.n).all fun j => runFull k wh w.binding.bmap j ks) then s
    else
      let cols := (upFrom 0 w.binding.n).map fun j => fetchRun k wh w.binding.bmap j ks
      updCluster s c fun k =>
        let m := updCtx k.mx i fun x => { x with latches := x.latches + 1 }
        { k with mx := { m with latch := some { ctx := i, num := o.num, seg := seg, cols := cols } } }
  | _, _ => s

/-- Row i of A in a segment: its elements, where every line or feed row it reads is full. -/
def fetchA (s : State) (c : Nat) (x : Ctx) (w : Work) (i seg : Nat) : Option (List (Nat × Nat × Bool)) :=
  let k := getCluster s c
  match w.a with
  | .map m =>
    let ks := segRange m.fmt w.binding.k seg
    let wh := whereOf s c x
    if runFull k wh m i ks then some (fetchRun k wh m i ks) else none
  | .feed first fmt =>
    let ks := segRange fmt w.binding.k seg
    let base := x.steps * chunkBytes fmt
    let el (κ : Nat) : Option (Nat × Nat × Bool) :=
      let bit := (κ % segElems fmt) * fmtWidth fmt
      let b := base + bit / 8
      let f := getFeed k (first + b / 4096)
      let row := (b / 64) % 64
      if !spGet false f.full row then none
      else
        let n := if fmtWidth fmt ≤ 8 then 1 else fmtWidth fmt / 8
        some (pickCode (fmtWidth fmt) κ (memRead f.bytes (b % 4096) n), 0, spGet false f.pois row)
    ks.foldl (fun acc κ => match acc, el κ with | some l, some e => some (l ++ [e]) | _, _ => none) (some [])
  | .west _ => none

/-- Elements of an AQ group, along k. -/
def groupOf : AForm → Nat
  | .map m => m.group
  | _ => 1

/-- One step of a context with a row of A: the k-blocks of its columns go into row i of its slot (16 R241). -/
def stepWith (s : State) (c i : Nat) (row : List (Nat × Nat × Bool)) (fa g r seg : Nat) : State :=
  let k := getCluster s c
  let x := getCtx k.mx i
  match workOf s c i, k.mx.latch with
  | some w, some l =>
    let at' := slotIndex s x w.slot
    updCluster s c fun k =>
      let k := putSlot k at' (stepSlot (getSlot k at') r fa w.binding.bmap.fmt g seg row l.cols)
      { k with mx := updCtx k.mx i fun x => { x with steps := x.steps + 1 } }
  | _, _ => s

/-- An operation of the array is over and counted; with the last one of a dissolved chain its member has left it (17 R276). -/
def finishArray (s : State) (c i : Nat) (forward : Bool) : State :=
  let s := updCtxOf (countHead s c i) c i fun x =>
    if x.closing then { x with closing := false, formed := none, forwarded := 0 } else { x with forwarded := x.forwarded + ofBool forward }
  updCluster s c fun k => { k with mx := { k.mx with running := none, latch := none } }

/-- One step of the contexts that step together: the first one fetches the row and forwards it (17 R276). -/
def arrayStep (s : State) (l : List (Nat × Nat)) : State :=
  match l with
  | [] => s
  | (c, i) :: _ =>
    let x := getCtx (getCluster s c).mx i
    match workOf s c i with
    | none => s
    | some w =>
      let seg := nextSeg x w
      let r := x.steps % Nat.max 1 w.m
      let fwd := (forwardedOp s c i).isSome
      let ready := l.all fun m =>
        let k := getCluster s m.1
        decide (k.mx.running = some m.2) && match headOp s m.1 m.2 with | some o => latched k m.2 o seg | none => false
      match if ready then fetchA s c x w r seg else none with
      | none => s
      | some row =>
        let s := l.foldl (fun s m => stepWith s m.1 m.2 row w.a.fmt (groupOf w.a) r seg) s
        if x.steps + 1 < w.m * segCount w.a.fmt w.binding.k then s
        else l.foldl (fun s m => finishArray s m.1 m.2 fwd) s

/-- Retire what does not match, in the chain of the context that has the array or would take it. -/
def settleChain (s : State) (c : Nat) : State :=
  (upFrom 0 4).foldl (fun s i =>
    match formedId s c (getCtx (getCluster s c).mx i) with
    | none => s
    | some id => match chainMembers s id with
      | hd :: ms => ms.foldl (fun s m => retireMismatch s hd m) s
      | [] => s) s

/-- MATRIX_STEP: the engine selects where its array is free, which counts an operation that needs no array, and steps one that does (16
R241, R244, R246). -/
def execMatrixStep (s : State) : Result :=
  match s.cur with
  | .cluster c =>
    if !engineRuns s c then .next s
    else
      let s := arraySelect (settleChain s c) c
      .next (match (getCluster s c).mx.running with
        | some i => match together s c i with | some l => arrayStep s l | none => s
        | none => s)
  | _ => .next s

/-- WEIGHT_LATCH: the array latches one k-segment of B (16 R241). -/
def execWeightLatch (s : State) : Result :=
  match s.cur with
  | .cluster c =>
    if !engineRuns s c then .next s
    else
      let s := arraySelect (settleChain s c) c
      .next (match (getCluster s c).mx.running with | some i => latchWeights s c i | none => s)
  | _ => .next s

/-- Stop a context at a quiescent point: slots and progress index stay (16 R249, R250). -/
def stopCtx (s : State) (c i : Nat) : State :=
  updCluster s c fun k =>
    { k with mx := { updCtx k.mx i (fun x => { x with stopped := true }) with running := none, latch := none } }

/-- QUIESCENT_STOP: where a higher-ranking context holds an uncounted operation, or on request of a pre-emption, the running operation stops,
and with it the other members of its chain (16 R249, R256). -/
def execQuiescentStop (s : State) : Result :=
  match s.cur with
  | .cluster c =>
    let k := getCluster s c
    match k.mx.running with
    | none => .next s
    | some i =>
      let rank := rankOf (getCtx k.mx i) i
      let higher := (upFrom 0 5).any fun j => decide (rank < rankOf (getCtx k.mx j) j) && !(getCtx k.mx j).ops.isEmpty
      if higher || k.preempt ≠ .none then
        match together s c i with
        | some l => .next (l.foldl (fun s m => if (getCluster s m.1).mx.running = some m.2 then stopCtx s m.1 m.2 else s) s)
        | none => .next (stopCtx s c i)
      else .next s
  | _ => .next s

/-! ### Drains (16 R253, R254; 17 R271, R272) -/

/-- The code that a drain writes for an element (17 R272). -/
def drainCode (fmt : Nat) (nan sat integer : Bool) (v : W32) : Nat :=
  if fmt = 0 then v.toNat
  else if integer then
    let (lo, hi) := intRange fmt
    (BitVec.ofInt 32 (clampInt lo hi v.toInt)).toNat % 2 ^ fmtWidth fmt
  else match floatFmt fmt with
    | some f => convertF f 0 sat nan (decodeF fp32 v.toNat)
    | none => 0

/-- The map element that a drained element goes to (17 R262). -/
def drainAt (m : OMap) (i j : Nat) : Nat × Nat := if m.t then (j, i) else (i, j)

/-- The bytes of an element where it is written: a 4-bit element leaves the other half of its byte. -/
def drainBytes (k : Cluster) (a fmt col code : Nat) : List Byte :=
  if fmtWidth fmt = 4 then
    let old := (memGet k.scr a).toNat
    [BitVec.ofNat 8 (if col % 2 = 0 then old / 16 * 16 + code else code * 16 + old % 16)]
  else leBytes (fmtWidth fmt / 8) code

/-- The poison changes of element e of a drain: poisoned elements set their granules; a granule that the drain covers whole with clean
elements is cleared with its last element (17 R271; log entry 15). -/
def drainPoison (x : Slot) (base : Nat) (m : OMap) (rows n e : Nat) : List (Nat × Bool) :=
  let addr (q : Nat) : Nat := let p := drainAt m (q / n) (q % n); base + m.addr p.1 p.2
  let bad (q : Nat) : Bool := (x.at (q / n) (q % n)).poison
  let gs := granulesOf (addr e) m.elemBytes
  if bad e then gs.map fun g => (g, true)
  else
    gs.filterMap fun g =>
      let touch := (upFrom 0 (rows * n)).filter fun q => overlap (addr q) m.elemBytes (64 * g) 64
      let whole := (upFrom (64 * g) 64).all fun b => touch.any fun q => decide (addr q ≤ b) && decide (b < addr q + m.elemBytes)
      if touch.getLast? = some e && whole && touch.all (fun q => !bad q) then some (g, false) else none

/-- Compare a slot before it is drained: a correction is counted, and both outcomes are reported (16 R253, R254). -/
def compareAtDrain (s : State) (c i slot : Nat) (integer : Bool) : State :=
  let k := getCluster s c
  let x := getCtx k.mx i
  let at' := slotIndex s x slot
  let old := getSlot k at'
  let (new, r) := compareSlot old integer
  let t := x.tid.bind (getTeam s)
  let s := updCluster s c fun k => putSlot k at' new
  match r with
  | .clean => s
  | .corrected =>
    let s := updCtxOf s c i fun x => { x with corr := Nat.min 65535 (x.corr + 1) }
    correctedCheck s 4 (dieOf c) t { kind := 0x20, cluster := c }
  | .poisoned => if old.flag then s else machineCheck s 5 t { kind := 0x20, cluster := c }

/-- DRAIN_WRITE: a drain compares its slot, then writes one element, in row order (17 R271). -/
def execDrainWrite (s : State) : Result :=
  match s.cur with
  | .cluster c =>
    if !engineRuns s c then .next s
    else
      let s := arraySelect s c
      match (getCluster s c).mx.running with
      | none => .next s
      | some i =>
        match headOp s c i with
        | some ⟨_, .mdrain m rows n slot nan sat integer, _, _⟩ =>
          let e := (getCtx (getCluster s c).mx i).steps
          let s := if e = 0 then compareAtDrain s c i slot integer else s
          let x := getCtx (getCluster s c).mx i
          let wh := whereOf s c x
          let sl := getSlot (getCluster s c) (slotIndex s x slot)
          let p := drainAt m (e / n) (e % n)
          let a := wh.base + m.addr p.1 p.2
          let code := drainCode m.fmt nan sat integer (sl.at (e / n) (e % n)).val
          let s := updCluster s c fun k =>
            let k := scrWrite k a (drainBytes k a m.fmt p.2 code) (drainPoison sl wh.base m rows n e) []
            { k with mx := updCtx k.mx i fun x => { x with steps := x.steps + 1 } }
          .next (if e + 1 < rows * n then s else finishArray s c i false)
        | _ => .next s
  | _ => .next s

end Sys2Proof.Machine
end

