-- ==== Sys2Proof/Machine/Place.lean ====
section
/-! DEFINITION. The team dispatcher (02 R31 to R35): what waits for a place, where a team may go, seating it (02 R19, 03 R40, R43, R44,
07, 15 R218, R219, 16 R245, R247), and which work is served next. -/

namespace Sys2Proof.Machine

open Sys2Proof

/-! ### What waits for a place -/

/-- A team that waits for a place. twice: as a redundant pair. -/
structure Req where
  ref : TeamRef
  fn : Nat
  secure : Bool
  cls : Nat
  obj : Obj
  nstr : Nat
  scrsize : Nat
  args : List W32
  vent : Nat
  cent : W32
  queue : Nat
  twice : Bool
  stopped : Bool
  acq : List Nat
  deriving DecidableEq, Repr

/-- The point of an object's launches (02 R23, 05 R90). -/
def objPoint (o : Obj) : BitVec 2 :=
  if o.vmin = 2 then BitVec.ofNat 2 o.decl.pt else if o.decl.width = 16 then 0 else if o.decl.width = 32 then 1 else 2

/-- Two teams belong to one launch; a task and a stage are launches of one team (02 R32, 21 R310). -/
def sameLaunch (a b : TeamRef) : Bool :=
  match a, b with
  | .launch f l _, .launch g m _ => decide (f = g) && decide (l = m)
  | x, y => decide (x = y)

/-- A team spread over a pair of cores (02 R17). -/
def Req.spread (r : Req) : Bool := decide (1024 < r.nstr)

/-- Wefts that a team needs on the even (or only) core and on the odd core of its place. -/
def Req.wefts (r : Req) : Nat × Nat :=
  let w := widthOf (objPoint r.obj)
  if r.spread then (1024 / w, (r.nstr - 1024 + w - 1) / w) else ((r.nstr + w - 1) / w, if r.twice then (r.nstr + w - 1) / w else 0)

/-- The cores that a team takes from a first core. -/
def Req.cores (r : Req) (core : Nat) : List (Nat × Nat) :=
  if r.spread || r.twice then [(core, r.wefts.1), (core + 1, r.wefts.2)] else [(core, r.wefts.1)]

/-! ### Where a team may go (R33) -/

/-- A cluster is offered to a function's dispatch: it is the function's, neither fenced, disabled nor being pre-empted (02 R33, 16
R257, 25 R359). -/
def offered (s : State) (fn c : Nat) : Bool :=
  (match getFunc s fn with | some f => f.clusters.getLsbD c | none => false) &&
  !(getCluster s c).fenced && !Config.engineDisabled c && decide ((getCluster s c).preempt = .none)

/-- The clusters that are offered to a function. -/
def clustersOf (s : State) (fn : Nat) : List Nat := (upFrom 0 160).filter (offered s fn)

/-- The teams on a cluster. -/
def residents (s : State) (c : Nat) : List Team := s.teams.filter fun t => t.place.cluster = c

/-- The tag entries that a team takes. -/
def tagsOf (s : State) (t : Team) : Nat := match getObj s t.obj with | some o => o.decl.tags | none => 0

/-- The first free run of scratchpad among allocations (03 R40). -/
def freeRun (l : List (Nat × Nat)) (size : Nat) : Option Nat :=
  let starts := 0 :: (l.map fun a => a.1 + a.2)
  let ok := starts.filter fun b => decide (b + size ≤ 2 ^ 20) && l.all fun a => !overlap a.1 a.2 b size
  match ok with
  | [] => none
  | a :: t => some (t.foldl Nat.min a)

/-- Scratchpad allocations of a cluster. -/
def allocations (s : State) (c : Nat) : List (Nat × Nat) := (residents s c).map fun t => (t.place.scrBase, t.place.scrSize)

/-- A cluster has the shared resources that a team needs: tag entries, a hart, a context and its slots, scratchpad (R33). -/
def clusterRoom (s : State) (c : Nat) (r : Req) : Bool :=
  let l := residents s c
  let n := if r.twice then 2 else 1
  let sum (f : Team → Nat) : Nat := l.foldl (fun a t => a + f t) 0
  let d := r.obj.decl
  decide (sum (tagsOf s) + n * d.tags ≤ 256) &&
  (!d.hart || decide (sum (fun t => ofBool t.hart.isSome) + n ≤ 16)) &&
  (decide (d.acc = 0) || (decide (sum (fun t => ofBool t.place.ctx.isSome) + n ≤ 4) && decide (sum (fun t => t.place.acc) + n * d.acc ≤ 16))) &&
  match freeRun (allocations s c) r.scrsize with
  | none => false
  | some b => !r.twice || (freeRun ((b, r.scrsize) :: allocations s c) r.scrsize).isSome

/-- A core takes wefts of a team: it holds no team of another launch, is at the point or can move there, has no open rendezvous, and
has enough free wefts and registers (R33, 02 R22, R26). -/
def coreRoom (s : State) (c : Nat) (r : Req) (p : Nat × Nat) : Bool :=
  let l := teamsOn s c p.1
  let k := getCore s c p.1
  let pt := objPoint r.obj
  let w := widthOf pt
  let free := l.isEmpty && decide ((coresWith s c p.1).length ≤ 1)
  (l.all fun t => sameLaunch t.ref r.ref) &&
  (match k.moving with | none => decide (k.pt = pt) || free | some q => decide (q = pt) && free) &&
  !(l.any fun t => t.wefts.any fun x => match x.wait with | .veer _ _ _ => true | _ => false) &&
  decide ((l.foldl (fun a t => a + (t.wefts.filter fun x => weftCore t x = p.1).length) 0) + p.2 ≤ 64) &&
  decide (regsTaken s c p.1 + p.2 * w * r.obj.decl.floor ≤ 65536)

/-- A core is at the point of a team and not moving. -/
def atPoint (s : State) (c : Nat) (r : Req) (core : Nat) : Bool :=
  decide ((getCore s c core).pt = objPoint r.obj) && decide ((getCore s c core).moving = none)

/-- The places of a team in order of preference: the die where its data lives (d), then a core already at the point, then the
lowest cluster, then the lowest core (R33). -/
def places (s : State) (r : Req) (d : Nat) : List (Nat × Nat) :=
  let firsts := if r.spread || r.twice then [0, 2] else [0, 1, 2, 3]
  let all := ((clustersOf s r.fn).filter fun c => clusterRoom s c r).flatMap fun c =>
    (firsts.filter fun i => (r.cores i).all (coreRoom s c r)).map fun i => (c, i)
  let ready (p : Nat × Nat) : Bool := (r.cores p.2).all fun i => atPoint s p.1 r i.1
  let split (l : List (Nat × Nat)) : List (Nat × Nat) := l.filter ready ++ l.filter fun p => !ready p
  split (all.filter fun p => dieOf p.1 = d) ++ split (all.filter fun p => dieOf p.1 ≠ d)

/-! ### Seating a team -/

/-- The wefts of a team under the canonical mapping, at its entry (02 R19, 07). -/
def freshWefts (nstr wd vent : Nat) : List Weft :=
  (upFrom 0 ((nstr + wd - 1) / wd)).map fun i =>
    { wid := i,
      strands := (upFrom (i * wd) (Nat.min wd (nstr - i * wd))).map fun sid =>
        { sid := sid, lane := sid % wd, em := true, m := 0, regs := [] },
      alloc := 0, rpos := 0, pos := Pos.atClause vent,
      trap := { clause := 0, word := 0, xv := false, mem := 0, cause := 0, info := 0, mask := 0 }, pv := false, pdone := 0,
      wait := .none, holds := [], slot := 8, active := false, readyAt := 0, expiries := 0, once := false, granted := false, loadSeq := 0, anchor := i * wd }

/-- The lowest of the first n slots with the fewest wefts (02 R36). -/
def fewestSlot (l : List Nat) (n : Nat) : Nat :=
  let count (i : Nat) : Nat := (l.filter fun x => x = i).length
  (upFrom 0 n).foldl (fun b i => if count i < count b then i else b) 0

/-- Assign a new weft to a slot, and to its active set where there is room and no pending weft there was ready before it (02 R36). -/
def assignSlot (s : State) (tid wid : Nat) : State :=
  match getTeam s tid with
  | none => s
  | some t => match t.weft? wid with
    | none => s
    | some w =>
      let core := weftCore t w
      let used := (teamsOn s t.place.cluster core).flatMap fun u =>
        (u.wefts.filter fun x => weftCore u x = core).map (·.slot)
      let slot := fewestSlot used (slotsOf (getCore s t.place.cluster core).pt)
      let there := { w with slot := slot }
      let room := activeRoom s t there && !pendingReady s t there
      let (i, s) := takeId s
      updWeft s tid wid fun w => { w with slot := slot, active := room, readyAt := i }

/-- The hart of a new team (15 R218, R219; log entry 5). -/
def freshHart (num : Nat) (r : Req) : Hart :=
  let v (n : Nat) : W64 := BitVec.ofNat 64 n
  let x (i : Nat) : W64 :=
    if i = 5 then v r.ref.number else if i = 6 then v r.nstr else if i = 7 then v r.scrsize
    else if 10 ≤ i ∧ i ≤ 17 then (nthD 0 r.args (i - 10)).setWidth 64 else 0
  { Hart.reset with num := num, pc := (centryOf r.obj r.cent).setWidth 64, x := (upFrom 0 32).map x }

/-- The lowest number of the first n that a list does not hold. -/
def lowestFree (n : Nat) (l : List Nat) : Option Nat := (upFrom 0 n).find? fun i => !l.contains i

/-- Seat one team, or one member of a redundant pair, on a cluster from a core (02 R33): its start acquires what its work released to
it (19 R304, 23 R335). -/
def seatOne (s : State) (r : Req) (c core : Nat) (partner : Option Nat) : Nat × State :=
  let l := residents s c
  let d := r.obj.decl
  let base := (freeRun (allocations s c) r.scrsize).getD 0
  let ctx := if d.acc = 0 then none else lowestFree 4 (l.filterMap (·.place.ctx))
  let (tid, s) := takeId s
  let s := updCluster s c fun k =>
    let k := { k with scr := spClear base r.scrsize k.scr, empty := spClear (base / 128) (r.scrsize / 128) k.empty,
                      scrPoison := spClear (base / 64) (r.scrsize / 64) k.scrPoison, scrRel := spClear base r.scrsize k.scrRel }
    match ctx with
    | none => k
    | some i =>
      let k := (upFrom (16 * i) d.acc).foldl (fun k j => putSlot k j Slot.reset) k
      { k with mx := updCtx k.mx i fun _ => { Ctx.reset with tid := some tid, cls := r.cls } }
  let hart := if d.hart then (lowestFree 16 (l.filterMap fun t => t.hart.map (·.num))).map fun n => freshHart n r else none
  let t : Team :=
    { tid := tid, ref := r.ref, fn := r.fn, secure := r.secure, cls := r.cls, obj := r.obj.handle, nstr := r.nstr, queue := r.queue,
      place := { cluster := c, core := core, pair := r.spread, scrBase := base, scrSize := r.scrsize, ctx := ctx, acc := d.acc,
                 accBase := match ctx with | some i => 16 * i | none => 0 },
      uni := { k := (upFrom 0 32).map fun i => if i < 8 then nthD 0 r.args i else 0, kpend := [], kowner := none,
               krel := [], uq := [], uqRel := [], tail := 0 },
      paths := [[], [], [], []], nbars := [],
      tags := (upFrom 0 d.tags).map fun _ => { valid := false, tag := 0, slot := 0, rel := [] },
      wefts := freshWefts r.nstr (widthOf (objPoint r.obj)) r.vent, hart := hart, held := none, stopped := r.stopped, commit := false,
      deferred := [], partner := partner, visible := [], pairLoads := [], hists := [], start := inTransit s.mem r.acq }
  let s := { s with teams := s.teams ++ [t] }
  let s := t.wefts.foldl (fun s w => assignSlot s tid w.wid) s
  (tid, bring s (dieOf c) r.acq)

/-- Seat a team, or both members of a redundant pair (25 R361). -/
def seat (s : State) (r : Req) (c core : Nat) : Nat × State :=
  if r.twice then
    let (a, s) := seatOne s r c core none
    let (b, s) := seatOne s r c (core + 1) (some a)
    (a, updTeam s a fun t => { t with partner := some b })
  else seatOne s r c core none

/-- What a start changes in the launch, task or stage of a team: the next TEAM number; STATE 3 and RUNS (19 R294); the stage's
team. -/
def started (s : State) (r : Req) (tid : Nat) : State :=
  match r.ref with
  | .launch fn lid n => updLaunch s fn lid fun l => { l with next := Nat.max l.next (n + 1) }
  | .task fn tcb =>
    match getTask s fn tcb with
    | none => s
    | some k =>
      let runs := Nat.min 255 (k.runs + 1)
      let acq := inTransit s.mem k.acq
      let s := tcbWrite s k.die fn tcb acq 0x1F 1 runs
      let s := tcbWrite s k.die fn tcb acq 0x1C 1 3
      updTask s fn tcb fun k => { k with state := 3, runs := runs }
  | .stage i => { s with heddle := { s.heddle with stages := updAt (fun g => { g with tid := some tid, started := true }) i s.heddle.stages } }
  | .loom => s

/-- Where every team of a list goes, all or nothing (R34): the state with all of them seated, and the core moves that must come
first. -/
def seatAll (d : Nat) : State → List (Nat × Nat × BitVec 2) → List Req → Option (State × List (Nat × Nat × BitVec 2))
  | s, moves, [] => some (s, moves)
  | s, moves, r :: t =>
    match places s r d with
    | [] => none
    | (c, core) :: _ =>
      let cores := (r.cores core).map (·.1)
      let late := cores.filter fun i => !atPoint s c r i
      let s := late.foldl (fun s i => updCore s c i fun k => { k with pt := objPoint r.obj, moving := none }) s
      let (tid, s) := seat s r c core
      seatAll d (started s r tid) (moves ++ late.map fun i => (c, i, objPoint r.obj)) t

/-- Place every team of a list: none where they do not fit; where cores must move first, the moves begin and the teams wait (R33). DESIGN
CHOICE (log entry 76): until those moves are complete the dispatcher places nothing else. Safe: dispatch order changes only time. -/
def placeAll (s : State) (l : List Req) : Option State :=
  let (d, s) := takeFree s
  match seatAll (d % 5) s [] l with
  | none => none
  | some (s', []) => some s'
  | some (_, moves) =>
    some (moves.foldl (fun s m => updCore s m.1 m.2.1 fun k => if k.moving = some m.2.2 then k else { k with moving := some m.2.2 }) s)

/-! ### What is served next (R32) -/

/-- A launch's team as a request. -/
def launchReq (s : State) (l : Launch) (n : Nat) : Option Req :=
  (getObj s l.obj).map fun o =>
    { ref := .launch l.fn l.lid n, fn := l.fn, secure := o.secure, cls := l.cls, obj := o, nstr := l.nstr, scrsize := l.scrsize,
      args := l.args, vent := l.vent, cent := l.cent, queue := l.queue, twice := l.pair, stopped := l.stopped, acq := l.acq }

/-- A ready task as a request. -/
def taskReq (s : State) (k : Task) : Option Req :=
  (getObj s k.obj).map fun o =>
    { ref := .task k.fn k.tcb, fn := k.fn, secure := k.secure, cls := k.cls, obj := o, nstr := k.nstr, scrsize := k.scrsize, args := k.args,
      vent := k.vent, cent := k.cent, queue := k.qid, twice := false, stopped := false, acq := k.acq }

/-- A stage as a request (21 R310). -/
def stageReq (s : State) (i : Nat) (g : Stage) : Option Req :=
  (getObj s g.obj).map fun o =>
    { ref := .stage i, fn := g.fn, secure := g.secure, cls := g.cls, obj := o, nstr := g.nstr, scrsize := g.scrsize, args := g.args,
      vent := g.vent, cent := g.cent, queue := (match getPipeline s g.creator with | some p => p.qid | none => 0), twice := false,
      stopped := false, acq := g.acq }

/-- Work that waits for a place: its class, its enqueue sequence number, whether it is a task, its next teams. -/
structure Ready where
  cls : Nat
  seq : Nat
  task : Bool
  reqs : List Req
  deriving DecidableEq, Repr

/-- The classes of a gang's members: the gang waits in the highest (log entry 18). -/
def gangClass (l : List Launch) : Nat := l.foldl (fun a m => Nat.max a m.cls) 0

/-- The launches in a die's ready queue with teams to dispatch: one team at a time, a gang whole (R31). -/
def launchEntries (s : State) (d : Nat) : List Ready :=
  let one (l : Launch) : Option Ready :=
    match l.gang with
    | none =>
      if l.die ≠ d || l.parked || l.aborted || l.teams ≤ l.next then none
      else (launchReq s l l.next).map fun r => { cls := l.cls, seq := l.seq.toNat, task := false, reqs := [r] }
    | some g =>
      let ms := s.loom.launches.filter fun m => m.gang = some g
      if (ms.head?.map fun m => (m.fn, m.lid)) ≠ some (l.fn, l.lid) || l.die ≠ d || ms.any (fun m => m.parked || m.aborted || m.next ≠ 0) then none
      else some { cls := gangClass ms, seq := l.seq.toNat, task := false,
                  reqs := ms.flatMap fun m => (upFrom 0 m.teams).filterMap fun n => launchReq s m n }
  s.loom.launches.filterMap one

/-- Ready tasks of a die's ready queue (R31), in increasing SEQ (19 R294). -/
def taskEntries (s : State) (d : Nat) : List Ready :=
  (s.tasks.tasks.filter fun k => decide (k.die = d) && decide (k.state = 2)).filterMap fun k =>
    (taskReq s k).map fun r => { cls := k.cls, seq := k.seq.toNat, task := true, reqs := [r] }

/-- Stages that wait in a die's ready queue: the stages that one bind creates are one gang (R31, 21 R310). -/
def stageEntries (s : State) (d : Nat) : List Ready :=
  (s.heddle.pipelines.filter fun p => p.die = d).filterMap fun p =>
    let l := (p.stages.zip (p.stages.map (getStage s))).filterMap fun x =>
      match x.2 with | some g => if g.creator = p.pid && !g.started && !g.ended then some (x.1, g) else none | none => none
    match l with
    | [] => none
    | (_, g) :: _ => some { cls := g.cls, seq := g.seq.toNat, task := false, reqs := l.filterMap fun x => stageReq s x.1 x.2 }

/-- Insert an entry in order of sequence number. -/
def insertEntry (e : Ready) : List Ready → List Ready
  | [] => [e]
  | x :: t => if e.seq ≤ x.seq then e :: x :: t else x :: insertEntry e t

/-- The mark of the round robin of a die's queue of a class. -/
def rrKey (d cls : Nat) : Nat := 4 * d + cls

/-- The entries of a die's queue of a class in the order in which they take their turn: round robin by sequence number after the one last
served; tasks among themselves in increasing SEQ (02 R32, 19 R294). -/
def entriesOf (s : State) (d cls : Nat) : List Ready :=
  let l := ((launchEntries s d ++ taskEntries s d ++ stageEntries s d).filter fun e => e.cls = cls).foldr insertEntry []
  let last := spGet 0 s.tasks.rr (rrKey d cls)
  let turn := (l.filter fun e => last < e.seq) ++ l.filter fun e => e.seq ≤ last
  let tasks := l.filter (·.task)
  (turn.foldl (fun (a : List Ready × List Ready) e =>
    if e.task then match a.2 with | x :: t => (a.1 ++ [x], t) | [] => a else (a.1 ++ [e], a.2)) ([], tasks)).1

/-! ### Sets that are pre-empted together (02 R38, 16 R256) -/

/-- Two teams must be pre-empted and resumed together. -/
def bound (s : State) (a b : Team) : Bool :=
  let gang (t : Team) : Option Nat := (launchOf s t).bind (·.gang)
  let creator (t : Team) : Option Nat := match t.ref with | .stage i => (getStage s i).map (·.creator) | _ => none
  ((gang a).isSome && decide (gang a = gang b)) || ((creator a).isSome && decide (creator a = creator b))

/-- The contexts of a matrix engine that are in a formed chain, as chains. -/
def chainsOf (s : State) (c : Nat) (m : Matrix) : List ChainId := (upFrom 0 4).filterMap fun i => formedId s c (getCtx m i)

/-- Clusters and images that go together with a cluster's teams. -/
def boundClusters (s : State) (c : Nat) : List Nat :=
  (upFrom 0 160).filter fun e => decide (e ≠ c) &&
    (((residents s c).any fun a => (residents s e).any fun b => bound s a b) ||
      (chainsOf s c (getCluster s c).mx).any (chainsOf s e (getCluster s e).mx).contains)

/-- A set of clusters closed under going together; fuel bounds the rounds. -/
def closure (s : State) : Nat → List Nat → List Nat
  | 0, l => l
  | f + 1, l => let m := l.foldl (fun a c => (boundClusters s c).foldl (fun a e => insNat e a) a) l; if m.length = l.length then l else closure s f m

/-- Ask a cluster, and those that go with it, to stop (02 R37). -/
def requestPreempt (s : State) (c : Nat) : State :=
  (closure s 160 [c]).foldl (fun s e => updCluster s e fun k => if k.preempt = .none then { k with preempt := .requested } else k) s

/-- A function's clusters. -/
def ownClusters (s : State) (fn : Nat) : List Nat :=
  (upFrom 0 160).filter fun c => match getFunc s fn with | some f => f.clusters.getLsbD c | none => false

/-- The highest class resident on a cluster. -/
def topClass (s : State) (c : Nat) : Nat := (residents s c).foldl (fun a t => Nat.max a t.cls) 0

/-- A cluster whose teams are all of a class below another (R35). -/
def lower (s : State) (cls c : Nat) : Bool := !(residents s c).isEmpty && decide (topClass s c < cls)

/-- The cluster that a ready team of a class pre-empts, where it fits no core (R35). DESIGN CHOICE (log entry 77): none while a cluster of
the function is already being pre-empted, since what that frees is not known yet. Safe: pre-emption changes only time. -/
def victim (s : State) (fn cls : Nat) : Option Nat :=
  let own := ownClusters s fn
  if own.any fun c => (getCluster s c).preempt ≠ .none then none
  else
    match own.filter (lower s cls) with
    | [] => none
    | a :: t => some (t.foldl (fun b c => if topClass s c < topClass s b then c else b) a)

/-! ### Images (02 R37) -/

/-- An image waits for the host: a team of it belongs to a parked launch (23 R347). -/
def parked (s : State) (m : Image) : Bool := m.teams.any fun t => match launchOf s t with | some l => l.parked | none => false

/-- The chains of an image's contexts (16 R256). -/
def Image.chains (m : Image) : List ChainId :=
  (upFrom 0 4).filterMap m.chainAt

/-- Two images hold members of one chain. -/
def imagesChained (a b : Image) : Bool := a.chains.any b.chains.contains

/-- Two images go together: through their teams, or through a chain of their contexts (02 R38, 16 R256). -/
def imagesBound (s : State) (a b : Image) : Bool := (a.teams.any fun x => b.teams.any fun y => bound s x y) || imagesChained a b

/-- The images of a list that go with some images; fuel bounds the rounds. -/
def spread (f : Image → Image → Bool) (all : List Image) : Nat → List Image → List Image
  | 0, l => l
  | n + 1, l =>
    let m := all.filter fun x => l.any fun y => decide (x.id = y.id) || f x y
    if m.length = l.length then l else spread f all n m

/-- The images that go with an image, the image itself first. -/
def imageSet (s : State) (m : Image) : List Image :=
  m :: (spread (imagesBound s) s.loom.images 160 [m]).filter fun x => x.id ≠ m.id

/-- Members of the set of an image are still on their clusters. -/
def unsaved (s : State) (l : List Image) : Bool :=
  (s.teams.any fun t => l.any fun m => m.teams.any fun x => bound s x t) ||
  (upFrom 0 160).any fun c => (chainsOf s c (getCluster s c).mx).any fun i => l.any fun m => m.chains.contains i

/-- A cluster is free for an image of a function: no team is on it, and its channels have counted every copy (R37). -/
def freeFor (s : State) (fn c : Nat) : Bool :=
  offered s fn c && (residents s c).isEmpty && (upFrom 0 16).all fun ch => (getChan s c ch).copies.isEmpty

/-- The clusters of a group of images that a chain holds together, with the first of them on a given cluster: the same run of neighbours
in one row, in the same order (16 R256). -/
def groupAt (free : Nat → Bool) (used : List Nat) (c : Nat) (l : List Image) : Option (List (Image × Nat)) :=
  let first := match l.head? with | some m => m.home | none => 0
  let at' (x : Image) : Nat := c + x.home - first
  if l.all fun x => decide (first ≤ c + x.home) && decide (at' x / 10 = c / 10) && free (at' x) && !used.contains (at' x) then some (l.map fun x => (x, at' x)) else none

/-- The groups of a set of images that chains hold together; fuel bounds their number. -/
def groups : Nat → List Image → List (List Image)
  | 0, _ => []
  | _, [] => []
  | n + 1, m :: t =>
    let g := spread imagesChained (m :: t) 160 [m]
    (m :: g.filter fun x => x.id ≠ m.id) :: groups n (t.filter fun x => !g.any fun y => y.id = x.id)

/-- The clusters that the images of a set go to, the first to a given cluster; free: which clusters may be taken. Groups that a chain
holds together choose before single images. -/
def spotsIn (free : Nat → Bool) (l : List Image) (c : Nat) : Option (List (Image × Nat)) :=
  match groups 160 l with
  | [] => none
  | g :: t =>
    let place (a : Option (List (Image × Nat))) (g : List Image) : Option (List (Image × Nat)) :=
      match a with
      | none => none
      | some a => ((upFrom 0 160).findSome? fun e => groupAt free (a.map (·.2)) e g).map fun b => a ++ b
    ((t.filter fun g => 1 < g.length) ++ t.filter fun g => g.length ≤ 1).foldl place (groupAt free [] c g)

/-- The clusters that the images of a set go to. -/
def spotsFor (s : State) (fn : Nat) (l : List Image) (c : Nat) : Option (List (Image × Nat)) := spotsIn (freeFor s fn) l c

/-- The images of a class that a die's dispatcher resumes, in the order in which they were pre-empted (R32): those that its clusters were
saved to, which their base die holds (R31, R37; log entry 83). -/
def imagesOf (s : State) (d cls : Nat) : List Image :=
  let insert (m : Image) (l : List Image) : List Image := (l.filter fun x => x.order < m.order) ++ [m] ++ l.filter fun x => m.order ≤ x.order
  (s.loom.images.filter fun m =>
    let set := imageSet s m
    decide (dieOf m.home = d) && decide (m.cls = cls) && !set.any (parked s) && !unsaved s set).foldr insert []

/-- What the dispatcher serves next. -/
inductive Pick where
  | image (id : Nat)
  | seated (cls seq : Nat) (s : State)
  | evict (c : Nat)
  | nothing
  deriving DecidableEq, Repr

/-- The first entry of a list that can be placed, or can pre-empt a lower class. -/
def pickEntry (s : State) : List Ready → Pick
  | [] => .nothing
  | e :: t =>
    match placeAll s e.reqs with
    | some s' => .seated e.cls e.seq s'
    | none =>
      match (e.reqs.head?.bind fun r => victim s r.fn e.cls) with
      | some c => .evict c
      | none => pickEntry s t

/-- The cluster that an image pre-empts, where it cannot be resumed as the clusters stand and could be if those of lower classes were free
(R35): a single cluster's image takes the dispatcher's victim, a chain one that stands in its run. -/
def imageVictim (s : State) (m : Image) : Option Nat :=
  let free (c : Nat) : Bool := freeFor s m.fn c || (offered s m.fn c && lower s m.cls c)
  match victim s m.fn m.cls, (upFrom 0 160).findSome? fun c => spotsIn free (imageSet s m) c with
  | some v, some l => if m.chains.isEmpty then some v else (l.find? fun e => lower s m.cls e.2).map (·.2)
  | _, _ => none

/-- The first image of a list that can be restored, or can pre-empt a lower class. -/
def pickImage (s : State) : List Image → Pick
  | [] => .nothing
  | m :: t =>
    if (upFrom 0 160).any fun c => (spotsFor s m.fn (imageSet s m) c).isSome then .image m.id
    else match imageVictim s m with
      | some c => .evict c
      | none => pickImage s t

/-- Serve the classes of a die from the highest: within one, images first (R32). Class 0 waits for the Vane's filler gate (26 R370). -/
def pick (s : State) (d : Nat) : List Nat → Pick
  | [] => .nothing
  | cls :: t =>
    if cls = 0 && !s.vane.gate then .nothing
    else
      match pickImage s (imagesOf s d cls) with
      | .nothing =>
        match pickEntry s (entriesOf s d cls) with
        | .nothing => pick s d t
        | p => p
      | p => p

/-- TEAM_DISPATCH: a die's next ready team goes to a core, or the core it needs starts to move, or a cluster of a lower class is
pre-empted for it (R31 to R35). Nothing where nothing is ready, or where an image goes first. -/
def execTeamDispatch (s : State) : Result :=
  match s.cur with
  | .die d =>
    match pick s d [3, 2, 1, 0] with
    | .seated cls seq s' =>
      .next (if s'.teams.length = s.teams.length then s' else { s' with tasks := { s'.tasks with rr := spSet 0 s'.tasks.rr (rrKey d cls) seq } })
    | .evict c => .next (requestPreempt s c)
    | .image _ => .next s
    | .nothing => .next s
  | _ => .next s

end Sys2Proof.Machine
end

