-- ==== Sys2Proof/Machine/Task.lean ====
section
/-! DEFINITION. The task instructions of the hart, and what the task engine and the Shuttle do on their own (19 R294, R301 to R304). -/

namespace Sys2Proof.Machine

open Sys2Proof

/-- A task instruction: illegal in M-mode; the structure is read as a load reads it; the release waits for the team's earlier accesses; a
redundant pair performs it once (R301, R304). A structure in another module is asked for and waited for, and is poisoned where the request
is lost (R301, 26 R377). act: RD's value and the state after. -/
def taskOp (i : Instr) (rd rs1 : BitVec 5) (size kind : Nat) (act : State → Look → Team → Hart → Nat → W64 × State) (s : State) : Result :=
  runHart i s fun s t h =>
    if t.inM then hartIllegal s t h 0 else
    let a := h.rd rs1
    hartAccess s t h false a size [.read] (h.pd rs1) false fun s =>
      hartGate s t h kind [a.toNat] fun s =>
        readOnce s t h [kind, a.toNat] false rd fun s =>
          if !teamPerformed s t then hartRetry s t .order
          else if isRemote s t.fn a.toNat && !(linked s && decide (h.wait = .retry (Why.remote a.toNat false).code)) &&
              !decide (h.wait = .retry (Why.remote a.toNat true).code) then hartRetry s t (.remote a.toNat false)
          else
            let (l, s) := lookNow s
            let (v, s) := act s { l with lost := decide (h.wait = .retry (Why.remote a.toNat true).code) } t h a.toNat
            retireAccess (pairNote s t (hartLoadOf h [kind, a.toNat] s.nextId (some [(v, false)]))) t h fun h => h.wr rd v false

/-- The team is a task that has not committed: its enqueues and cards are deferred (R297, R298). -/
def defers (t : Team) : Bool := match t.ref with | .task _ _ => !t.commit | _ => false

/-- Record deferred work. -/
def defer (s : State) (tid : Nat) (d : Deferred) : State := updTeam s tid fun t => { t with deferred := t.deferred ++ [d] }

/-- What an instruction that may be deferred answers: a full engine is found only when the work is performed (R294, R301). -/
def deferStatus (t : Team) (st : Nat) : Nat := if defers t && (st = 0 || st = 4) then 1 else st

/-- TENQ (R301). -/
def execTenq (rd rs1 : BitVec 5) (s : State) : Result :=
  taskOp (.tenq rd rs1) rd rs1 128 192 (fun s l t _ a =>
    match readTcb s l t.die t.fn t.secure a with
    | none => (2, s)
    | some (k, b) =>
      let st := deferStatus t (enqStatus s k b (decide (t.cls = 3)))
      let s := if st = 1 then defer s t.tid (.tenq a) else if st = 0 then enqueue s k (inTransit s.mem t.doneAll) else s
      (BitVec.ofNat 64 st, s)) s

/-- TSIG: a commit event and one decrement; refused where DEP's granule is poisoned (R293, R301). -/
def execTsig (rd rs1 : BitVec 5) (s : State) : Result :=
  taskOp (.tsig rd rs1) rd rs1 128 193 (fun s l t h a =>
    if lookPoison s l t.die t.fn (a + 0x18) 4 then
      (BitVec.ofInt 64 (-1), taskError s 2 (reportQueue s t) (some t) a h.pc.toNat t.place.cluster)
    else
      let s := commitEvent s t.tid
      let (d, s) := decrement s l t (inTransit s.mem t.doneAll) t.die a (reportQueue s t) h.pc.toNat t.place.cluster
      (BitVec.ofNat 64 d, s)) s

/-- TCARD (R301, R302). -/
def execTcard (rd rs1 : BitVec 5) (s : State) : Result :=
  taskOp (.tcard rd rs1) rd rs1 64 194 (fun s l t _ a =>
    match readCard s l t t.die a with
    | none => (2, s)
    | some (c, b) =>
      let (c0, c) := checkCard s l t t.die c b
      let st := deferStatus t c0
      let s := if st = 1 then defer s t.tid (.tcard a) else if st = 0 then sendCard s (inTransit s.mem t.doneAll) c else s
      (BitVec.ofNat 64 st, s)) s

/-- TASK_MIGRATION: a ready task moves to another die's queue with its SEQ (R294). -/
def execTaskMigration (fn tcb : Nat) (die : BitVec 2) (s : State) : Result :=
  match getTask s fn tcb with
  | none => .next s
  | some k =>
    if k.state = 2 && k.die ≠ die.toNat && engineLoad s die.toNat < 65536 then .next (updTask s fn tcb fun k => { k with die := die.toNat })
    else .next s

/-! ### Job cards on their way (R303) -/

/-- Some page of a tile cannot be read. -/
def tileFault (s : State) (c : Card) (tl : Nat × Nat × Nat) : Bool :=
  decide (tl.2.2 ≠ 0) && (checkRange s c.fn c.secure tl.1 tl.2.2 [.read]).isSome

/-- A page of 256 MiB or smaller goes to a die's base SRAM where it meets a range and its function's quota has room there (03 R47, 23
R337). -/
def pullPage (s : State) (fn va n die : Nat) (p : Page) : State :=
  if p.meets fn va n && !striped p.size && p.remote.isNone && quotaRoom s p true then
    let mine (q : Page) : Bool := decide (q.fn = p.fn) && decide (q.va = p.va)
    let moved (q : Page) : Page := { q with home := { die := die, sram := true }, migrating := none }
    { s with xlat := { s.xlat with pages := updFirst mine moved s.xlat.pages } }
  else s

/-- Move the pages of a range to a die's base SRAM. -/
def pullPages (s : State) (fn va n die : Nat) : State := s.xlat.pages.foldl (fun s p => pullPage s fn va n die p) s

/-- A card that cannot be delivered (R303): the entry goes to the TCB's queue, or the issuer's where it cannot be read. -/
def cardFail (s : State) (l : Look) (c : Card) : State :=
  logTo s ((qidOf s l c.die c.fn c.secure c.tcb).getD c.issuerQueue)
    { kind := 5, tcb := c.tcb, lid := c.lid, team := c.team, tcb2 := c.tcb2.toNat }

/-- CARD_DELIVERY: the Shuttle delivers a card. A local card brings its tiles and is enqueued on its die; what another module makes of
a remote card, that module decides (R303). -/
def execCardDelivery (card : Nat) (s : State) : Result :=
  match s.tasks.cards.find? fun c => c.id = card with
  | none => .next s
  | some c =>
    let (l, s) := lookNow { s with tasks := { s.tasks with cards := s.tasks.cards.filter fun x => x.id ≠ card } }
    if c.tiles.any (tileFault s c) then .next (cardFail s l c)
    else if c.remote then
      let (f, s) := takeFree s
      .next (if f % 2 = 0 && linked s then s else cardFail s l c)
    else
      let s := c.tiles.foldl (fun s tl => pullPages s c.fn tl.1 tl.2.2 c.die) (bring s c.die c.acq)
      match readTcb s l c.die c.fn c.secure c.tcb with
      | none => .next (cardFail s l c)
      | some (k, b) =>
        if enqStatus s k b (decide (c.cls = 3)) = 0 then .next (enqueue s k (inTransit s.mem c.acq))
        else .next (cardFail s l c)

end Sys2Proof.Machine
end

