-- ==== Sys2Proof/Machine/Launch.lean ====
section
/-! DEFINITION. LAUNCH and GANG.LAUNCH (23 R338, R339), the task commands (23 R336, 19 R300), TEAM.RESUME and TEAM.END (R340),
PIPE.BIND (21 R311 to R316). -/

namespace Sys2Proof.Machine

open Sys2Proof

/-! ### Launch bodies (R338) -/

/-- A number of n bytes at an offset of a launch body of 120 bytes; offsets count from the frame's first byte. -/
def bodyAt (b : List Byte) (off n : Nat) : Nat := leAt b (off - 8) n

/-- A launch as its body gives it, for a function and a queue; its teams' starts acquire what taking the frame acquired (R335). -/
def bodyLaunch (b : List Byte) (fn q : Nat) (p : Pending) : Launch :=
  { fn := fn, lid := bodyAt b 0x40 4, queue := q, ctag := p.ctag, flags := p.flags, cmdSeq := p.seq, opc := p.opc,
    cls := bodyAt b 0x16 1 % 4, obj := bodyAt b 8 4, vent := bodyAt b 0x0C 4, cent := BitVec.ofNat 32 (bodyAt b 0x10 4),
    nstr := bodyAt b 0x14 2, scrsize := bodyAt b 0x18 4, args := (upFrom 0 8).map fun i => BitVec.ofNat 32 (bodyAt b (0x20 + 4 * i) 4),
    teams := bodyAt b 0x1C 4, next := 0, ended := 0, faulted := 0, pair := (bodyAt b 0x17 1).testBit 0, seq := 0, gang := none,
    parked := false, stopped := (bodyAt b 0x17 1).testBit 1, planted := [], copies := [], aborted := false,
    die := 0, acq := p.acq, rel := [] }

/-- The body gives a class, or names an object, that the queue may not (R333 item 2, R338). -/
def bodyDenied (s : State) (q fn : Nat) (b : List Byte) : Bool :=
  (q ≠ 0 && decide (bodyAt b 0x16 1 % 4 = 3)) || match getObj s (bodyAt b 8 4) with | some o => decide (o.fn ≠ fn) | none => false

/-- A body is malformed as it stands (R338). -/
def bodyMalformed (q : Nat) (b : List Byte) : Bool :=
  let nstr := bodyAt b 0x14 2
  let scr := bodyAt b 0x18 4
  let teams := bodyAt b 0x1C 4
  let cent := bodyAt b 0x10 4
  decide (4 ≤ bodyAt b 0x16 1) || decide (4 ≤ bodyAt b 0x17 1) || decide ((if q = 0 then 4 else 1) ≤ bodyAt b 0x44 1) ||
  !zeros b (0x45 - 8) (0x80 - 0x45) || decide (teams = 0) || decide (2 ^ 24 < teams) || decide (bodyAt b 0x40 4 = 0) ||
  decide (nstr = 0) || decide (2048 < nstr) || ((bodyAt b 0x17 1).testBit 0 && decide (1024 < nstr)) ||
  decide (scr % 4096 ≠ 0) || decide (2 ^ 20 < scr) || (decide (cent ≠ 0xFFFFFFFF) && decide (cent % 4 ≠ 0))

/-- A body does not fit its object (R338, 05 R90). -/
def bodyUnfit (o : Obj) (l : Launch) : Bool := !(ventOk o l.vent && centOk o l.cent && sizesOk o l.nstr l.scrsize)

/-- The module with nothing resident and every core idle: what a function's clusters could hold at best. -/
def emptied (s : State) : State :=
  let calm (k : Cluster) : Cluster := { Cluster.reset with fenced := k.fenced }
  { s with teams := [], vops := [], clusters := s.clusters.map fun e => (e.1, calm e.2) }

/-- Teams that could never be resident together (R333, R338). -/
def neverFit (s : State) (l : List Req) : Bool :=
  decide (40960 < l.foldl (fun a r => a + r.wefts.1 + r.wefts.2) 0) || (seatAll 0 (emptied s) [] l).isNone

/-- Accept launches: each takes an enqueue sequence number and becomes a launch entry in a die's ready queue (19 R294, 02 R31). Which die's
the spec leaves open: it is free. -/
def acceptLaunches (s : State) (l : List Launch) : State :=
  let (d, s) := takeFree s
  l.foldl (fun s m =>
    { s with tasks := { s.tasks with seq := s.tasks.seq + 1 },
             loom := { s.loom with launches := s.loom.launches ++ [{ m with seq := s.tasks.seq, die := d % 4 }] } }) s

/-- The function of a launch: the queue's, or on queue 0 the one that FN names (R339). -/
def launchFn (q own : Nat) (b : List Byte) : Nat := if q = 0 then bodyAt b 0x44 1 % 4 else own

/-- The body of a LAUNCH frame. -/
def frameBody (f : Frame) : List Byte := (leBytes 128 f.toNat).drop 8

/-- LAUNCH (R338, R339). -/
def execLaunch (f : Frame) (s : State) : Result :=
  runCommand 0x30 true true f (fun c => bodyDenied c.s c.q (launchFn c.q c.fn (frameBody f)) (frameBody f)) [(8, 120)]
    (fun c =>
      let b := frameBody f
      let fn := launchFn c.q c.fn b
      let l := bodyLaunch b fn c.q c.p
      let o := getObj c.s l.obj
      let req := launchReq c.s l 0
      c.act
        [(bodyMalformed c.q b, 1),
         ((getFunc c.s fn).isNone || o.isNone, 2),
         ((match o with | some o => bodyUnfit o l | none => true), 1),
         ((match req with | some r => neverFit c.s [r] | none => true), 3),
         ((getLaunch c.s fn l.lid).isSome, 4)]
        fun s => .later (acceptLaunches (updPending s c.q c.p.seq fun p => { p with lid := l.lid }) [l]))
    s

/-- The functions whose address space may hold a gang's bodies: the queue's, or on queue 0 a function that the first body, read in
its own space, names (R339; log entry 19). -/
def gangSpaces (c : Cmd) (a n : Nat) : List Nat :=
  if c.q ≠ 0 then [c.fn]
  else [0, 1, 2, 3].filter fun g =>
    (match getFunc c.s g with | some x => (loomRange c.s g x.secure a n [.read]).isNone | none => false) &&
    decide (leAt (loomRead c.s c.q g a n) (0x44 - 8) 1 = g)

/-- GANG.LAUNCH: several launches accepted and placed together (R338, R339). -/
def execGangLaunch (f : Frame) (s : State) : Result :=
  let a := fld f 8 8
  let n := fld f 0x10 1
  let bodies (c : Cmd) (g : Nat) : List (List Byte) := chunksOf 120 n (loomRead c.s c.q g a (120 * n))
  let readable (c : Cmd) (g : Nat) : Bool :=
    (loomRange c.s g (match getFunc c.s g with | some x => x.secure | none => false) a (120 * n) [.read]).isNone
  let space (c : Cmd) : Option Nat × State :=
    let (x, s) := takeFree c.s
    let l := (gangSpaces c a (120 * n)).filter (readable c)
    (l[x % l.length]?, s)
  runCommand 0x31 true true f
    (fun c =>
      match (space c).1 with
      | some g => decide (n ≤ 16) && (bodies c g).any fun b => bodyDenied c.s c.q (launchFn c.q c.fn b) b
      | none => false)
    [(8, 9)]
    (fun c =>
      let (sp, s) := space c
      match sp with
      | none => .done (if n < 2 || 16 < n then 1 else 2) 0 c.s
      | some g =>
        let bs := bodies c g
        let fn := launchFn c.q c.fn (bs.head?.getD [])
        let (gid, s) := takeId s
        let ls := bs.map fun b => { bodyLaunch b fn c.q c.p with gang := some gid }
        let reqs := ls.flatMap fun l => (upFrom 0 (Nat.min 40961 l.teams)).filterMap fun i => launchReq s l i
        let lids := ls.map (·.lid)
        c.act
          [(decide (n < 2) || decide (16 < n) || bs.any (bodyMalformed c.q) || (bs.any fun b => decide (launchFn c.q c.fn b ≠ fn)), 1),
           ((getFunc c.s fn).isNone || ls.any (fun l => (getObj c.s l.obj).isNone), 2),
           ((ls.any fun l => match getObj c.s l.obj with | some o => bodyUnfit o l | none => true), 1),
           (neverFit c.s reqs, 3),
           (decide (lids.eraseDups.length ≠ lids.length) || lids.any (fun i => (getLaunch c.s fn i).isSome), 4)]
          fun _ => .later (acceptLaunches (updPending s c.q c.p.seq fun p => { p with lid := lids.head?.getD 0 }) ls))
    s

/-! ### Tasks (19 R300) -/

/-- TASK.ENQ acts as a TENQ from outside any task (23 R336). -/
def execTaskEnq (f : Frame) (s : State) : Result :=
  runCommand 0x40 false true f noDenial [(8, 8)]
    (fun c =>
      let tcb := fld f 8 8
      c.act [(decide (tcb % 128 ≠ 0), 1), (!c.range tcb 128 [.read, .write], 2)] fun s =>
        match readTcb s { seed := Config.freeNat (c.s.tick - 1), lost := !linked c.s } (cpDie c.q) c.fn c.secure tcb with
        | none => .done 1 0 c.s
        | some (k, b) =>
          match enqStatus s k b false with
          | 0 => .done 0 s.tasks.seq.toNat (noteNew s (enqueue s k (inTransit s.mem c.p.acq)) c.q c.p.seq)
          | 2 => .done 1 0 c.s
          | r => .done 4 r c.s)
    s

/-- What a TCB that a task command names is: 2 unknown, 5 not held for replay, 0 held (R336; log entry 20). -/
def heldStatus (c : Cmd) (tcb : Nat) : Nat :=
  match getTask c.s c.fn tcb with
  | some k => if k.state = 5 then 0 else 5
  | none =>
    if tcb % 128 ≠ 0 || !c.range tcb 128 [.read] then 2
    else
      let st := leAt (c.read tcb 128) 0x1C 1
      if st = 4 || st = 6 then 5 else 2

/-- TASK.REPLAY: the task is ready again with its SEQ (19 R300). -/
def execTaskReplay (f : Frame) (s : State) : Result :=
  runCommand 0x41 false true f noDenial [(8, 8)]
    (fun c =>
      let tcb := fld f 8 8
      match heldStatus c tcb with
      | 0 =>
        let die := match getTask c.s c.fn tcb with | some k => k.die | none => 0
        let s := noteNew c.s (tcbWrite c.s die c.fn tcb (inTransit c.s.mem c.p.acq) 0x1C 1 2) c.q c.p.seq
        .done 0 0 (updTask s c.fn tcb fun k => { k with state := 2, acq := inTransit s.mem (unionIds [k.acq, c.p.acq]) })
      | st => .done st 0 c.s)
    s

/-- TASK.CANCEL: STATE becomes 6 (19 R300). -/
def execTaskCancel (f : Frame) (s : State) : Result :=
  runCommand 0x42 false true f noDenial [(8, 8)]
    (fun c =>
      let tcb := fld f 8 8
      match heldStatus c tcb with
      | 0 =>
        let die := match getTask c.s c.fn tcb with | some k => k.die | none => 0
        let s := noteNew c.s (tcbWrite c.s die c.fn tcb (inTransit c.s.mem c.p.acq) 0x1C 1 6) c.q c.p.seq
        .done 0 0 { s with tasks := { s.tasks with tasks := s.tasks.tasks.filter fun e => !(decide (e.fn = c.fn) && decide (e.tcb = tcb)) } }
      | st => .done st 0 c.s)
    s

/-! ### Held teams (R340) -/

/-- A team that TEAM.RESUME, TEAM.END name (R340). -/
def named (s : State) (fn : Nat) (f : Frame) (t : Team) : Bool :=
  let lid := fld f 8 4
  let tcb := fld f 0x10 8
  decide (t.fn = fn) &&
  match t.ref with
  | .launch _ l n => decide (lid ≠ 0) && decide (l = lid) && decide (n = fld f 0x0C 4)
  | .task _ a => decide (tcb ≠ 0) && decide (a = tcb)
  | .stage i => decide (fld f 0x18 8 ≠ 0) && match getStage s i with | some g => decide (stgOf g = fld f 0x18 8) | none => false
  | .loom => false

/-- The address that a team held after a fault is held for (R340); a breakpoint is no fault (log entry 21). -/
def heldAt (t : Team) : Option Nat :=
  match t.held with
  | some (.weftFault _ a) => some a
  | some (.hartFault a) => some a
  | some (.copyFault _ _ _ a) => some a
  | some .breakpoint => none
  | none => none

/-- A held team goes on: faulting words and instructions are tried again, halted copies continue (R340). -/
def resumeHeld (s : State) (tid : Nat) : State :=
  match getTeam s tid with
  | none => s
  | some t =>
    let s := updTeam s tid fun t =>
      { t with held := none, hart := t.hart.map fun h => if h.wait = .fault then { h with wait := .none, expiries := 0 } else h }
    let s := (t.wefts.filter fun w => w.wait = .pageFault).foldl (fun s w => wake s tid w.wid) s
    let go (y : Copy) : Copy := if y.tid = tid then { y with halted := false } else y
    { s with clusters := s.clusters.map fun e =>
        (e.1, { e.2 with chans := e.2.chans.map fun h => (h.1, { h.2 with copies := h.2.copies.map go }) }) }

/-- Act on a team where it is: on its cluster, or in its image. -/
def onTeam (s : State) (tid : Nat) (f : State → State) : State :=
  match getTeam s tid, imageOf s tid with
  | none, some m => onImage s m f
  | _, _ => f s

/-- TEAM.RESUME and TEAM.END: the checks of R340, then an act on the held team. -/
def heldCommand (opc : Nat) (act : State → Team → Nat → State) (f : Frame) (s : State) : Result :=
  runCommand opc false true f noDenial [(8, 24)]
    (fun c =>
      let lid := fld f 8 4
      let tcb := fld f 0x10 8
      let stg := fld f 0x18 8
      let l := (allTeams c.s).filter (named c.s c.fn f)
      c.act
        [(decide (ofBool (decide (lid ≠ 0)) + ofBool (decide (tcb ≠ 0)) + ofBool (decide (stg ≠ 0)) ≠ 1) ||
            (decide (lid = 0) && decide (fld f 0x0C 4 ≠ 0)), 1),
         (l.isEmpty, 2)]
        fun s =>
          match l.find? fun t => (heldAt t).isSome with
          | none => .done 5 0 c.s
          | some t => .done 0 0 (act s t ((heldAt t).getD 0)))
    s

/-- TEAM.RESUME (R340). -/
def execTeamResume (f : Frame) (s : State) : Result := heldCommand 0x43 (fun s t _ => onTeam s t.tid fun s => resumeHeld s t.tid) f s

/-- TEAM.END: the team ends with the fault that it is held for (R340, R221, 19 R299). -/
def execTeamEnd (f : Frame) (s : State) : Result :=
  heldCommand 0x44 (fun s t a => endTeam s t.tid { EndCause.silent with cause := 8, reason := 3, addr := a }) f s

/-! ### PIPE.BIND (21 R311 to R316) -/

/-- A stage entry of a descriptor: its block, where it starts. -/
structure StageBlock where
  obj : Nat
  vent : Nat
  cent : W32
  scrsize : Nat
  nstr : Nat
  rsz : Nat
  nslot : Nat
  rwin : Nat
  ring : Nat
  args : List W32
  clean : Bool
  deriving DecidableEq, Repr

/-- Stage entry i of a descriptor (21 R311). -/
def stageBlock (b : List Byte) (i : Nat) : StageBlock :=
  let e := slice b (0x40 + 0x60 * i) 0x60
  { obj := leAt e 0x20 4, vent := leAt e 0x24 4, cent := BitVec.ofNat 32 (leAt e 0x28 4), scrsize := leAt e 0x2C 4, nstr := leAt e 0x30 2,
    rsz := leAt e 0x32 2, nslot := leAt e 0x34 2, rwin := leAt e 0x36 2, ring := leAt e 0x38 8,
    args := (upFrom 0 8).map fun j => BitVec.ofNat 32 (leAt e (0x40 + 4 * j) 4), clean := zeros e 0 0x20 }

/-- A power of two from 2 to 4,096. -/
def slotCount (n : Nat) : Bool := (upFrom 1 12).any fun i => n = 2 ^ i

/-- A descriptor is malformed as it stands: reserved fields, ranges, pipe parameters (21 R307, R311, R312). The fields that the
Heddle writes are not judged. -/
def descMalformed (b : List Byte) (n : Nat) (l : List StageBlock) : Bool :=
  decide (n < 2) || decide (8 < n) || !zeros b 1 15 || !zeros b 0x28 0x18 || decide (1024 ≤ leAt b 0x1A 2) || decide (3 ≤ leAt b 0x19 1) ||
  decide (2 ≤ leAt b 0x18 1) ||
  (l.zip (upFrom 0 n)).any fun x =>
    let e := x.1
    !e.clean || decide (e.nstr = 0) || decide (2048 < e.nstr) || decide (e.scrsize % 4096 ≠ 0) || decide (2 ^ 20 < e.scrsize) ||
    (decide (e.cent ≠ 0xFFFFFFFF) && decide (e.cent.toNat % 4 ≠ 0)) ||
    if x.2 + 1 = n then decide (e.rsz ≠ 0) || decide (e.nslot ≠ 0) || decide (e.rwin ≠ 0) || decide (e.ring ≠ 0)
    else decide (e.rsz = 0) || decide (e.rsz % 64 ≠ 0) || decide (4096 < e.rsz) || !slotCount e.nslot || decide (e.nslot < e.rwin) ||
      decide (e.ring = 0) || decide (e.ring % 4096 ≠ 0)

/-- A pipe is gone: its producer's team has ended and it has no attachment left (21 R312). -/
def pipeGone (s : State) (i : Nat) (p : Pipe) : Bool :=
  !p.attached && !(s.heddle.stages.any fun g => decide (g.out = some i) && !g.ended)

/-- The rings of a function's live pipes: address and bytes. -/
def liveRings (s : State) (fn : Nat) : List (Nat × Nat) :=
  (s.heddle.pipes.zip (upFrom 0 s.heddle.pipes.length)).filterMap fun x =>
    if x.1.fn = fn && !pipeGone s x.2 x.1 then some (x.1.ring, x.1.rsz * x.1.nslot) else none

/-- A ring of a descriptor is not mapped read-write, or overlaps another of it or a live one (21 R312). -/
def ringsBad (c : Cmd) (l : List StageBlock) : Bool :=
  let rings := (l.filter fun e => e.ring ≠ 0).map fun e => (e.ring, e.rsz * e.nslot)
  (rings.any fun r => !c.range r.1 r.2 [.read, .write] || (liveRings c.s c.fn).any fun x => overlap r.1 r.2 x.1 x.2) ||
  (upFrom 0 rings.length).any fun i => (upFrom 0 i).any fun j =>
    match rings[i]?, rings[j]? with | some a, some b => overlap a.1 a.2 b.1 b.2 | _, _ => false

/-- The identities of the stages of a descriptor, in order (21 R313). -/
def identities (s : State) (src : List Byte) (domain : Nat) : List StageBlock → List (List Byte)
  | [] => []
  | e :: t =>
    match getObj s e.obj with
    | none => []
    | some o =>
      let i := stageIdent o.root e.vent (centryOf o e.cent) e.args src domain
      i :: identities s i domain t

/-- The chains of live stages that are the same as the first k stages (21 R314). -/
def prefixChains (s : State) (fn : Nat) (secure : Bool) (l : List (List Byte × StageBlock)) : Nat → List (List Nat)
  | 0 => [[]]
  | k + 1 =>
    match l[k]? with
    | none => []
    | some (ident, e) =>
      extendChains s (fun g =>
        decide (g.ident = ident) && decide (g.fn = fn) && decide (g.secure = secure) &&
        match g.out with | some pi => (match getPipe s pi with | some p => decide (p.rsz = e.rsz) | none => false) | none => false)
        (prefixChains s fn secure l k)

/-- The chain that a bind shares, of at most k stages: the longest whose last pipe may be joined, of those the one whose last stage
was created earliest (21 R314, R315). -/
def sharedChain (s : State) (fn : Nat) (secure start : Bool) (l : List (List Byte × StageBlock)) : Nat → List Nat
  | 0 => []
  | k + 1 =>
    let ok := (prefixChains s fn secure l (k + 1)).filter fun c =>
      match c.getLast?.bind (getStage s) with
      | some g => (match g.out.bind (getPipe s) with | some p => p.joinable start | none => false)
      | none => false
    match ok with
    | [] => sharedChain s fn secure start l k
    | a :: t => t.foldl (fun b c => if c.getLast?.getD 0 < b.getLast?.getD 0 then c else b) a

/-- A PID: the first that no pipeline has borne, else the first that no live one bears; the numbers are the model's choice (log
entry 6). -/
def freshPid (s : State) : Nat :=
  match (upFrom 1 65535).find? fun i => !(s.heddle.pipelines.any fun p => p.pid = i) with
  | some i => i
  | none => ((upFrom 1 65535).find? fun i => !(s.heddle.pipelines.any fun p => decide (p.pid = i) && !p.ended)).getD 0

/-- Bind a pipeline, whose stages wait in a die's ready queue that is free: pipes and private stages from the shared prefix on, the attachment that joins it (21 R310, R314, R315). -/
def bindPipeline (s : State) (c : Cmd) (pid qid cls : Nat) (start : Bool) (l : List (List Byte × StageBlock)) (chain : List Nat) :
    Nat × State :=
  let k := chain.length
  let firstPipe := s.heddle.pipes.length
  let firstStage := s.heddle.stages.length
  let n := l.length
  let attach (stage j : Nat) : Attach :=
    { stage := stage, j := j, nxt := j, rel := j, released := [], holders := [], rels := [], removed := false }
  let seq := s.tasks.seq
  let acq := c.p.acq
  let (d, s) := takeFree s
  let pipeOf (i : Nat) : Option Nat := if i + 1 < n then some (firstPipe + (i - k)) else none
  let joined := match chain.getLast?.bind (getStage s) with | some g => g.out | none => none
  let j := match joined.bind (getPipe s) with | some p => if start then 0 else p.pub | none => 0
  let priv := (l.zip (upFrom 0 n)).drop k
  let stages : List Stage := priv.map fun x =>
    let e := x.1.2
    { idx := x.2, ident := x.1.1, fn := c.fn, secure := c.secure, obj := e.obj, vent := e.vent, cent := e.cent, nstr := e.nstr,
      scrsize := e.scrsize, args := e.args, cls := cls, index := x.2, creator := pid, owner := pid, isPrefix := false, out := pipeOf x.2,
      inp := if x.2 = k then joined else pipeOf (x.2 - 1), tid := none, started := false, ended := false,
      seq := seq + BitVec.ofNat 64 (x.2 - k), acq := acq }
  let pipes : List Pipe := (priv.filter fun x => x.2 + 1 < n).map fun x =>
    { rsz := x.1.2.rsz, nslot := x.1.2.nslot, rwin := x.1.2.rwin, ring := x.1.2.ring, fn := c.fn, acq := 0, pub := 0, published := [],
      holders := [], pubs := [], closed := false, attaches := [attach (firstStage + (x.2 + 1 - k)) 0] }
  let mark (g : Stage) : Stage := { g with isPrefix := true }
  let s := { s with tasks := { s.tasks with seq := seq + BitVec.ofNat 64 (n - k) } }
  let old := (s.heddle.stages.zip (upFrom 0 firstStage)).map fun x => if chain.contains x.2 then mark x.1 else x.1
  let s := { s with heddle := { s.heddle with
      stages := old ++ stages, pipes := s.heddle.pipes ++ pipes,
      pipelines := s.heddle.pipelines ++
        [{ pid := pid, fn := c.fn, qid := qid, stages := chain ++ upFrom firstStage (n - k), shared := k,
           order := s.heddle.pipelines.length, die := d % 4, ended := false }] } }
  (j, match joined with
      | some pi => updPipe s pi fun p => { p with attaches := p.attaches ++ [attach firstStage j] }
      | none => s)

/-- The middle block of a stage entry that no check of a descriptor objects to. -/
def plainBlock (last : Bool) : List Byte :=
  leBytes 16 0 ++ leBytes 2 1 ++ if last then leBytes 14 0 else leBytes 2 64 ++ leBytes 2 2 ++ leBytes 2 0 ++ leBytes 8 4096

/-- A descriptor of n entries as far as it can be read, so that what it holds is judged before what is not mapped (21 R312, R333); a block of 32
bytes that cannot be read stands as one to which no check of the descriptor objects. -/
def descBytes (c : Cmd) (a n : Nat) : List Byte :=
  c.read a 64 ++ (upFrom 0 n).flatMap fun i => (upFrom 0 3).flatMap fun j =>
    let p := a + 64 + 96 * i + 32 * j
    if c.range p 32 [.read] then c.read p 32 else if j = 1 then plainBlock (decide (i + 1 = n)) else leBytes 32 0

/-- A byte of a descriptor that can be read lies in a poisoned granule (21 R312). -/
def descPoisoned (c : Cmd) (a n : Nat) : Bool :=
  (upFrom 0 (2 + 3 * n)).any fun j => c.range (a + 32 * j) 32 [.read] && anyPoison c.s (cpDie c.q) (gkey c.fn (a + 32 * j)) 32

/-- PIPE.BIND (21 R311 to R316). -/
def execPipeBind (f : Frame) (s : State) : Result :=
  let a := fld f 8 8
  runCommand 0x50 false true f
    (fun c =>
      c.range a 64 [.read] &&
      let n := leAt (c.read a 64) 0 1
      decide (n ≤ 8) &&
      (upFrom 0 n).any fun i => c.range (a + 96 + 96 * i) 32 [.read] && foreignObj c c.fn (stageBlock (descBytes c a n) i).obj)
    [(8, 8)]
    (fun c =>
      if !c.range a 64 [.read] then .done 2 0 c.s
      else
        let n := leAt (c.read a 64) 0 1
        let m := Nat.min n 8
        let size := 64 + 96 * m
        let b := descBytes c a m
        let l := (upFrom 0 m).map (stageBlock b)
        let objs := l.map fun e => ownObj c.s c.fn c.secure e.obj
        let live := (c.s.heddle.pipelines.filter fun p => !p.ended).length
        let liveStages := (c.s.heddle.stages.filter fun g => !g.ended).length
        let start := (leAt b 0x18 1).testBit 0
        let ids := identities c.s (leBytes 48 (leAt b 0x20 8)) (leAt b 0x1C 4) l
        let zipped := ids.zip l
        let chain := sharedChain c.s c.fn c.secure start zipped (n - 1)
        let reqOf (x : StageBlock × Option Obj) : Option Req := x.2.map fun o =>
          { ref := .stage 0, fn := c.fn, secure := c.secure, cls := leAt b 0x19 1, obj := o, nstr := x.1.nstr, scrsize := x.1.scrsize,
            args := x.1.args, vent := x.1.vent, cent := x.1.cent, queue := 0, twice := false, stopped := false, acq := [] }
        c.act
          [(descPoisoned c a m || descMalformed b n l, 1),
           (!c.range a size [.read, .write] || objs.any (·.isNone) || ringsBad c l, 2),
           ((l.zip objs).any fun x => match x.2 with | some o => !(ventOk o x.1.vent && centOk o x.1.cent && sizesOk o x.1.nstr x.1.scrsize) | none => true, 1),
           ((l.zip objs).any fun x => match reqOf x with | some r => neverFit c.s [r] | none => true, 3),
           (decide (1024 ≤ live) || decide (4096 < liveStages + n), 4)]
          fun s =>
            let pid := freshPid s
            let (j, s) := bindPipeline s c pid (leAt b 0x1A 2) (leAt b 0x19 1) start zipped chain
            let s := loomWrite s c.q c.fn (a + 0x10) (leBytes 2 pid ++ leBytes 2 chain.length ++ leBytes 4 j)
            .done 0 pid s)
  s

end Sys2Proof.Machine
end

