-- ==== Sys2Proof/Machine/Debug.lean ====
section
/-! DEFINITION. The debug commands (23 R348, 05 R86). -/

namespace Sys2Proof.Machine

open Sys2Proof

/-- A team belongs to a launch. -/
def ofLaunch (fn lid : Nat) (t : Team) : Bool := match t.ref with | .launch f l _ => decide (f = fn) && decide (l = lid) | _ => false

/-- Change every team of a launch, resident or in an image. -/
def mapTeams (s : State) (fn lid : Nat) (g : Team → Team) : State :=
  let h (t : Team) : Team := if ofLaunch fn lid t then g t else t
  { s with teams := s.teams.map h,
           loom := { s.loom with images := s.loom.images.map fun m => { m with teams := m.teams.map h } } }

/-- DEBUG.STOP stops every weft and hart of the launch at a word or instruction boundary (R348): it completes once no hart has an instruction
out. -/
def execDebugStop (f : Frame) (s : State) : Result :=
  runCommand 0x90 false true f noDenial [(8, 4)]
    (fun c =>
      let lid := fld f 8 4
      c.act [((getLaunch c.s c.fn lid).isNone, 2)] fun s =>
        let s := mapTeams (updLaunch s c.fn lid fun l => { l with stopped := true }) c.fn lid fun t => { t with stopped := true }
        if atBoundary s c.fn lid then .done 0 0 s else .later (updPending s c.q c.p.seq fun p => { p with lid := lid }))
    s

/-- A launch is stopped: by DEBUG.STOP, or with a team held at a breakpoint (R348, 11 R203). -/
def debugStopped (s : State) (l : Launch) : Bool :=
  l.stopped || (allTeams s).any fun t => ofLaunch l.fn l.lid t && decide (t.held = some .breakpoint)

/-- A weft goes on after a debug stop: at a planted word it executes the replaced word once; after a BKPT of the program, a replaced word
among them, it goes on behind that word (R348). -/
def resumeWeft (s : State) (l : Launch) (t : Team) (w : Weft) : Weft :=
  if !w.once && l.planted.any fun p => p.1 = w.pos.offset then { w with once := true, wait := if w.wait = .bkpt then .none else w.wait }
  else if w.wait = .bkpt then { w with pos := followPos s t w 1, wait := .none, expiries := 0 }
  else w

/-- A hart goes on after an EBREAK that it stopped at. -/
def resumeHart (h : Hart) : Hart := if h.wait = .bkpt then { h with pc := h.pc + 4, wait := .none, expiries := 0 } else h

/-- DEBUG.RESUME (R348). -/
def execDebugResume (f : Frame) (s : State) : Result :=
  runCommand 0x91 false true f noDenial [(8, 4)]
    (fun c =>
      let lid := fld f 8 4
      match getLaunch c.s c.fn lid with
      | none => .done 2 0 c.s
      | some l =>
        c.simple [(!debugStopped c.s l, 5)] fun s =>
          let s' := mapTeams s c.fn lid fun t =>
            { t with stopped := false, held := if t.held = some .breakpoint then none else t.held,
                     wefts := t.wefts.map (resumeWeft s l t), hart := t.hart.map resumeHart }
          updLaunch s' c.fn lid fun l => { l with stopped := false })
    s

/-- The offsets of the instruction words among the words of a clause: no extension word is one. -/
def instrWords : Nat → Bool → List W32 → List Nat
  | _, _, [] => []
  | off, true, _ :: t => instrWords (off + 4) false t
  | off, false, w :: t => off :: instrWords (off + 4) (w.getLsbD 0) t

/-- An offset names an instruction word of an object's vector text: neither a header nor an extension word (R348). -/
def namesWord (o : Obj) (off : Nat) : Bool :=
  o.headers.any fun h =>
    match o.vtext[h / 4]? with
    | some x => (instrWords (h + 4) false ((o.vtext.drop (h / 4 + 1)).take (headerCnt x))).contains off
    | none => false

/-- A chunk of an object's vector text with its zero bytes, as words (05 R76). -/
def chunkWords (o : Obj) (off : Nat) : List W32 :=
  let l := (o.vtext.drop (1024 * (off / 4096))).take 1024
  l ++ List.replicate (1024 - l.length) 0

/-- A private copy with a word put into it, and the hash of what it holds then (05 R86). -/
def PrivateCopy.put (p : PrivateCopy) (off : Nat) (x : W32) : PrivateCopy :=
  let words := updAt (fun _ => x) (off % 4096 / 4) p.words
  { p with words := words, hash := leafHash (words.flatMap fun w => leBytes 4 w.toNat) }

/-- Put a word into a launch's private copy of a chunk, which it makes where there is none. -/
def putWord (o : Obj) (off : Nat) (x : W32) (l : Launch) : Launch :=
  let c := o.vbase + off / 4096
  let base : PrivateCopy := { chunk := c, words := chunkWords o off, hash := [], resident := true }
  { l with copies := (l.copies.filter fun p => p.chunk ≠ c) ++ [((copyAt l o off).getD base).put off x] }

/-- Plant BKPT at a word. -/
def plantWord (o : Obj) (off : Nat) (l : Launch) : Launch :=
  if l.planted.any fun p => p.1 = off then l
  else putWord o off 0xFA000100 { l with planted := l.planted ++ [(off, (o.vtext[off / 4]?).getD 0)] }

/-- Remove BKPT from a word: with its last one a private copy is freed (05 R86). -/
def removeWord (o : Obj) (off : Nat) (l : Launch) : Launch :=
  match l.planted.find? fun p => p.1 = off with
  | none => l
  | some p =>
    let l := putWord o off p.2 { l with planted := l.planted.filter fun p => p.1 ≠ off }
    if l.planted.any fun p => p.1 / 4096 = off / 4096 then l else { l with copies := l.copies.filter fun p => p.chunk ≠ o.vbase + off / 4096 }

/-- DEBUG.PLANT and DEBUG.REMOVE: the checks of R348, then a change of the launch's private text. The frame waits while the chunk that the
word lies in is not resident (05 R85). -/
def plantCommand (opc : Nat) (g : Obj → Nat → Launch → Launch) (weft : Nat → Weft → Weft) (f : Frame) (s : State) : Result :=
  runCommand opc false true f noDenial [(8, 8)]
    (fun c =>
      let lid := fld f 8 4
      let off := fld f 0x0C 4
      match getLaunch c.s c.fn lid with
      | none => .done 2 0 c.s
      | some l =>
        match getObj c.s l.obj with
        | none => .done 2 0 c.s
        | some o =>
          c.act [(!namesWord o off, 1), (!l.stopped, 5)] fun s =>
            if !(match copyAt l o off with | some p => p.resident | none => stored s o (chunkOfText o false off)) then .wait
            else
              .done 0 0 (mapTeams (updLaunch s c.fn lid (g o off)) c.fn lid fun t => { t with wefts := t.wefts.map (weft off) }))
    s

/-- DEBUG.PLANT: BKPT stands in the launch's private copy of the chunk (05 R86). -/
def execDebugPlant (f : Frame) (s : State) : Result :=
  plantCommand 0x92 plantWord (fun _ w => w) f s

/-- A weft that stopped at a planted word which is removed stands before the word that is there now. -/
def unplanted (off : Nat) (w : Weft) : Weft :=
  if w.wait = .bkpt && !w.once && w.pos.started && w.pos.offset = off then { w with wait := .none, expiries := 0 } else w

/-- DEBUG.REMOVE: with the last planted word of a chunk the launch returns to the shared chunk (05 R86). -/
def execDebugRemove (f : Frame) (s : State) : Result := plantCommand 0x93 removeWord unplanted f s

/-- XCAUSE of a weft (07 R129). -/
def TrapRegs.xcause (x : TrapRegs) : Nat := x.cause.toNat + 2 ^ 16 * x.mem.toNat + 2 ^ 31 * ofBool x.xv

/-- The 17,152 bytes of a weft's state (R348). -/
def weftDump (s : State) (t : Team) (w : Weft) : List Byte :=
  let lanes := upFrom 0 64
  let elem (r l : Nat) : Elem :=
    if w.alloc.getLsbD r then match w.at l with | some x => x.reg r | none => Elem.zero else Elem.zero
  leBytes 8 (2 ^ 32 * w.trap.clause.toNat + w.trap.word.toNat) ++ leBytes 8 w.trap.xcause ++ leBytes 8 w.trap.info.toNat ++
  leBytes 8 w.trap.mask.toNat ++ leBytes 8 (w.pdone.toNat + 2 ^ 31 * ofBool w.pv) ++
  ((upFrom 0 8).flatMap fun i => leBytes 8 (w.bits fun x => x.mask i)) ++ leBytes 8 (w.bits fun _ => true) ++
  leBytes 8 (bitsNat ((upFrom 0 12).map fun i => flagSet s t.tid w.wid i)) ++
  leBytes 4 w.pos.clause ++ leBytes 4 w.pos.offset ++
  ((kView s t w).1.flatMap fun k => leBytes 4 k.toNat) ++
  (lanes.flatMap fun r => lanes.flatMap fun l => leBytes 4 (elem r l).val.toNat) ++
  (lanes.flatMap fun r => leBytes 8 (bitsNat (lanes.map fun l => (elem r l).poison)))

/-- DEBUG.READ writes one weft's state (R348). -/
def execDebugRead (f : Frame) (s : State) : Result :=
  runCommand 0x94 false true f noDenial [(8, 12), (0x18, 16)]
    (fun c =>
      let lid := fld f 8 4
      let a := fld f 0x18 8
      let t := (allTeams c.s).find? fun t => ofLaunch c.fn lid t && decide (t.ref.number = fld f 0x0C 4)
      match t, t.bind fun t => t.weft? (fld f 0x10 4) with
      | some t, some w =>
        c.simple [(!c.range a (Nat.min 17152 (fld f 0x20 8)) [.write], 2), (decide (fld f 0x20 8 < 17152), 4)] fun s =>
          loomWrite s c.q c.fn a (weftDump s t w)
      | _, _ => .done 2 0 c.s)
    s

end Sys2Proof.Machine
end

