-- ==== Sys2Proof/Machine/Fabric.lean ====
section
/-! DEFINITION. The Weave fabric: what other modules and hosts ask of this module's memory and control area (26 R375, R376), and what
becomes of ports and requests that fail (26 R375, R377). -/

namespace Sys2Proof.Machine

open Sys2Proof

/-! ### Accesses from outside -/

/-- The module answers a request of a host or another module. -/
def respond (s : State) (ok poison : Bool) (data : Nat) : State :=
  { s with weave := { s.weave with responses := s.weave.responses ++ [{ ok := ok, poison := poison, data := data }] } }

/-- An error response, with no data. -/
def respondError (s : State) : State := respond s false false 0

/-- The Loom maps the pages of a range that are declared on demand (03 R49, 26 R376). -/
def mapRange (s : State) (fn a n : Nat) : State :=
  (upFrom (a / 4096) ((a + n + 4095) / 4096 - a / 4096)).foldl (fun s u =>
    let va := Nat.max (4096 * u) a
    if (findPage s.xlat fn va).isSome then s else (mapOnDemand s fn va).getD s) s

/-- The accesses that an access from outside is made of: itself where it has 1, 2, 4 or 8 bytes, else words of 4 bytes (26 R375, 03 R53; log
entry 87). -/
def pieces (a n : Nat) : List (Nat × Nat) :=
  if n = 1 || n = 2 || n = 4 || n = 8 then [(a, n)] else (upFrom 0 (n / 4)).map fun i => (a + 4 * i, 4)

/-- An access from outside is naturally aligned: to its size, or, where it is made of words, to those, of which it holds whole ones only (03 R49
code 2; log entry 87). -/
def outsideAligned (a n : Nat) : Bool :=
  if n = 1 || n = 2 || n = 4 || n = 8 then decide (a % n = 0) else decide (a % 4 = 0) && decide (n % 4 = 0) && decide (n ≠ 0)

/-- Who makes an access from outside: a host, whose accesses follow what it has acquired (23 R335), or another module. -/
inductive Outsider where
  | host | module
  deriving DecidableEq, Repr

/-- Read one access of a host or another module on a die, a free one: the data and the poison. Writes that a host has acquired, and its
own to these bytes, are applied there first (23 R335). -/
def outsideRead (s : State) (w : Outsider) (fn a n : Nat) : (Nat × Bool) × State :=
  if isRemote s fn a then
    let (b, s) := remoteRead s a n
    ((leNat (b.map (·.1)), b.any (·.2)), s)
  else
    let (c, s) := takeFree s
    let d := c % 4
    let own := (meeting s.mem (gkey fn a) n).filter s.weave.hostOwn.contains
    let s := if w = .host then bring s d (unionIds [s.weave.hostAcq, own]) else s
    ((readNat s d (gkey fn a) n, anyPoison s d (gkey fn a) n), s)

/-- Write one access of a host or another module: a die, a free one, applies it first. A host's follows what the host has acquired (03 R55, 23
R335). -/
def outsideWrite (s : State) (w : Outsider) (fn a n v : Nat) : State :=
  if isRemote s fn a then s
  else
    let (c, s) := takeFree s
    let i := s.nextId
    let clean := (coveredGranules [(gkey fn a, n)]).map fun g => (g, false)
    let s := writeBytes s (c % 4) (gkey fn a) (leBytes n v) clean (if w = .host then s.weave.hostAcq else []) []
    if w = .host then
      { s with weave := { s.weave with hostOwn := inTransit s.mem (s.weave.hostOwn ++ [i]), hostAcq := inTransit s.mem s.weave.hostAcq } }
    else s

/-- An access from outside lies in the address space of a function that takes any, and is naturally aligned: what is judged before a page is
mapped for it (03 R49 codes 1 and 2). -/
def outsideFits (s : State) (fn a n : Nat) : Bool := decide (s.loom.draining ≠ some fn) && outsideAligned a n && decide (a + n ≤ 2 ^ 56)

/-- An access from outside to a function's memory meets no fault (03 R45 to R49). -/
def outsideOk (s : State) (fn : Nat) (secure : Bool) (l : List (Nat × Nat)) (needs : List Need) : Bool :=
  l.all fun p => (checkAccess s fn secure p.1 p.2 true needs).isNone

/-- A read or write of a function's memory from outside, checked as 03 R45 to R49 say. A page of another module's memory answers
with that module's data; a read waits for a chunk that is not resident (05 R85). -/
def outsideAccess (s : State) (w : Outsider) (fn : Nat) (secure : Bool) (a n : Nat) (write : Option Nat) : State :=
  if !outsideFits s fn a n then respondError s else
  let s := mapRange s fn a n
  let l := pieces a n
  if !outsideOk s fn secure l [if write.isSome then .write else .read] then respondError s
  else if write.isNone && (missingOf s fn (upFrom a n)).isSome then s
  else
    match write with
    | some v => respond (l.foldl (fun s p => outsideWrite s w fn p.1 p.2 (v / 2 ^ (8 * (p.1 - a)) % 2 ^ (8 * p.2))) s) true false 0
    | none =>
      let r := l.foldl (fun (acc : (Nat × Bool) × State) p =>
        let x := outsideRead acc.2 w fn p.1 p.2
        ((acc.1.1 + 2 ^ (8 * (p.1 - a)) * x.1.1, acc.1.2 || x.1.2), x.2)) ((0, false), s)
      respond r.2 true r.1.2 r.1.1

/-- An atomic of another module (10 R183). -/
def outsideAtomic (s : State) (fn : Nat) (secure : Bool) (a aop : Nat) (v e : W32) : State :=
  if !outsideFits s fn a 4 then respondError s else
  let s := mapRange s fn a 4
  if !outsideOk s fn secure [(a, 4)] [.read, .write] then respondError s
  else if (missingOf s fn (upFrom a 4)).isSome then s
  else if isRemote s fn a then
    let (b, s) := remoteRead s a 4
    respond s true (b.any (·.2)) (leNat (b.map (·.1)))
  else
    let (c, s) := takeFree s
    let d := c % 4
    let k := gkey fn a
    let s := { s with mem := catchUp s.mem d k 4 }
    let old := readNat s d k 4
    let p := poisonAt s d k
    respond (writeBytes s d k (leBytes 4 (atomicNew aop (BitVec.ofNat 32 old) v e).toNat) [] [] (seenAt s d k 4)) true p old

/-- The world of a function. -/
def worldOf (s : State) (fn : Nat) : Bool := match getFunc s fn with | some f => f.secure | none => false

/-- A bound port (23 R337): its range holds an access, and its rights allow it. -/
def Port.holds (b : Port) (off n : Nat) (needs : List Nat) : Bool := decide (off + n ≤ b.size) && needs.all b.rights.getLsbD

/-- The binding of a port. -/
def getPort (s : State) (port : Nat) : Option Port := s.xlat.ports.find? fun b => b.port = port

/-- Write bytes of a card on a die, and answer the write. -/
def cardWrite (fn die : Nat) (acc : List Nat × State) (x : Nat × List Byte) : List Nat × State :=
  let clean := (coveredGranules [(gkey fn x.1, x.2.length)]).map fun g => (g, false)
  (acc.1 ++ [acc.2.nextId], writeBytes acc.2 die (gkey fn x.1) x.2 clean [] [])

/-- The TCB and the tiles of a card, copied into the address space of a bound port; the task is then enqueued as a TENQ would
enqueue it, and its start acquires them (19 R303, R304). -/
def receiveCard (s : State) (b : Port) (die tcbAddr : Nat) (tcb : List Byte) (tiles : List (Nat × List Byte)) : State :=
  let secure := worldOf s b.fn
  let parts := (tcbAddr, tcb) :: tiles
  let fits := parts.all fun x => decide (b.va ≤ x.1) && b.holds (x.1 - b.va) x.2.length [1]
  if s.loom.draining = some b.fn || !fits || tcb.length ≠ 128 || tcbAddr % 128 ≠ 0 then respondError s else
  let s := parts.foldl (fun s x => mapRange s b.fn x.1 x.2.length) s
  if parts.any fun x => (checkRange s b.fn secure x.1 x.2.length [.write]).isSome then respondError s
  else
    let (ids, s) := (tiles ++ [(tcbAddr, tcb)]).foldl (cardWrite b.fn die) ([], s)
    let k := tcbTask b.fn secure die tcbAddr tcb
    if enqStatus s k tcb true ≠ 0 then respondError s
    else respond (enqueue s k (inTransit s.mem ids)) true false 0

/-- WEAVE_REQUEST: another module's access to a bound port, or a job card, which a port that is up brings (R375, R377, 23 R337, 19 R303). -/
def execWeaveRequest (r : WeaveReq) (s : State) : Result :=
  if !linked s then .next s
  else match r with
  | .access port off n write =>
    match getPort s port with
    | none => .next (respondError s)
    | some b =>
      if !b.holds off n [if write.isSome then 1 else 0] then .next (respondError s)
      else .next (outsideAccess s .module b.fn (worldOf s b.fn) (b.va + off) n write)
  | .atomic port off aop v e =>
    match getPort s port with
    | none => .next (respondError s)
    | some b =>
      if !b.holds off 4 [0, 1] then .next (respondError s)
      else .next (outsideAtomic s b.fn (worldOf s b.fn) (b.va + off) aop v e)
  | .card port die tcbAddr tcb tiles =>
    match getPort s port with
    | none => .next (respondError s)
    | some b => .next (receiveCard s b (die % 4) tcbAddr tcb tiles)

/-! ### The host window (R376) -/

/-- What a host has acquired once it reads words of the control area: its read of a completion record acquires what the records of that
queue covered when it last read CPROD (23 R335). -/
def hostReads (s : State) (off n : Nat) : State :=
  let q := off / 0x40000
  let o := off % 0x40000
  if decide (0x10000000 ≤ off) then s
  else if decide (0x20000 ≤ o) && decide (o < 0x28000) then
    { s with weave := { s.weave with hostAcq := inTransit s.mem (unionIds [s.weave.hostAcq, spGet [] s.weave.hostSaw q]) } }
  else if decide (o ≤ 0x3000C) && decide (0x3000C < o + n) then
    { s with weave := { s.weave with hostSaw := spSet [] s.weave.hostSaw q (inTransit s.mem (getQueue s q).rel) } }
  else s

/-- HOST_WINDOW_ACCESS: offset bits [59:56] select the control area, a function's space, or nothing; a port that is up brings it. -/
def execHostWindowAccess (r : HostReq) (s : State) : Result :=
  let off := r.addr % 2 ^ 56
  let sel := r.addr / 2 ^ 56
  if !linked s then .next s
  else if sel = 0 then
    if !(r.size = 4 || r.size = 8) || off % r.size ≠ 0 || 0x10000004 ≤ off then .next (respondError s)
    else
      match r.write with
      | some v => .next (respond (controlWrite s off r.size (BitVec.ofNat 64 v)) true false 0)
      | none =>
        .next (respond (hostReads s off r.size) true false (if r.size = 4 then controlWord s off else controlWord s off + 2 ^ 32 * controlWord s (off + 4)))
  else if 4 ≤ sel && sel < 8 then .next (outsideAccess s .host (sel - 4) r.secure off r.size r.write)
  else .next (respondError s)

/-! ### Failing links and requests (R375, R377) -/

/-- Change a Weave port. -/
def updWeave (s : State) (p : Nat) (f : WeavePort → WeavePort) : State :=
  { s with weave := { s.weave with ports := spSet WeavePort.reset s.weave.ports p (f (spGet WeavePort.reset s.weave.ports p)) } }

/-- FLIT_CHECK_FAIL at the current port: the flit is sent again, which changes only time; whether the one before it was a retry that
failed is free. After 16 failed retries in a row the port is taken down (R375, R377). -/
def execFlitCheckFail (s : State) : Result :=
  match s.cur with
  | .port p =>
    let w := spGet WeavePort.reset s.weave.ports p
    if 24 ≤ p || !w.up then .next s
    else
      let (c, s) := takeFree s
      let n := if c % 2 = 0 then 0 else w.retries + 1
      .next (updWeave s p fun _ => if 16 ≤ n then { up := false, retries := 0 } else { up := true, retries := n })
  | _ => .fault .noAgent

/-- PORT_TRAINING_COMPLETE: the current port carries traffic (R377, R378). -/
def execPortTrainingComplete (s : State) : Result :=
  match s.cur with
  | .port p => .next (if p < 24 then updWeave s p fun _ => { up := true, retries := 0 } else s)
  | _ => .fault .noAgent

/-- A request of a vector operation cannot be delivered: every element of it that waits for another module. -/
def lostVector (s : State) (o : VOp) : Result :=
  match getTeam s o.tid, o.accs.find? fun a => a.remote && !a.done with
  | some t, some a =>
    let s := undeliverable s t (t.coreOf a.sid) 0 a.addr
    if o.kind.writes && !(o.kind = .ldgs) then .next (endTeam s t.tid EndCause.silent)
    else
      let todo := (upFrom 0 o.accs.length).filter fun i => match o.accs[i]? with | some a => a.remote && !a.done | none => false
      .next (todo.foldl (fun s i =>
        match getOp s o.id with
        | none => s
        | some o => match o.accs[i]?, getTeam s o.tid with
          | some a, some t => let (v, s) := takeFree s; ackElem s t o i a (BitVec.ofNat 64 v, true)
          | _, _ => s) s)
  | _, _ => .next s

/-- The structure in another module that a hart's task instruction has asked for. -/
def asksRemote : HWait → Option Nat
  | .retry k => if 2 ^ 96 ≤ k ∧ k % 2 = 0 then some ((k - 2 ^ 96) / 2) else none
  | _ => none

/-- A request of a team's hart cannot be delivered; a structure that a task instruction asked for counts as poisoned (19 R301). -/
def lostHart (s : State) (t : Team) (h : Hart) : Result :=
  let answer (rd : BitVec 5) (a : W64) (n : Nat) (sext : Bool) : Result :=
    if !isRemote s t.fn a.toNat then .next s
    else
      let (v, s) := takeFree s
      hartAnswer (undeliverable s t t.place.core 0 a.toNat) t h rd (loadValue n sext (v % 2 ^ (8 * n))) true
  match h.wait with
  | .load rd a n sext => answer rd a n sext
  | .lr rd a n _ _ => answer rd a n true
  | .amo _ _ a _ _ _ _ => if !isRemote s t.fn a.toNat then .next s else .next (endTeam (undeliverable s t t.place.core 0 a.toNat) t.tid EndCause.silent)
  | w =>
    match asksRemote w, h.stores.find? fun x => isRemote s t.fn x.addr.toNat with
    | some a, _ => .next (updHart (undeliverable s t t.place.core 0 a) t.tid fun h => { h with wait := .retry (Why.remote a true).code })
    | none, some x => .next (endTeam (undeliverable s t t.place.core 0 x.addr.toNat) t.tid EndCause.silent)
    | none, none => .next s

/-- The addresses that a copy asks for to read a byte. -/
def Copy.asks (x : Copy) (i : Nat) : List Nat :=
  let base := (x.tmpl.sbase x.disp).toNat
  if x.hop ≠ 0 then []
  else if x.tmpl.dec then if x.table.isEmpty then upFrom x.tmpl.ctab 256 else [base + x.bitpos / 8, base + (x.bitpos + 14) / 8]
  else if x.tmpl.srcScratch then []
  else [(x.tmpl.sa x.disp (i / x.tmpl.esz)).toNat + i % x.tmpl.esz]

/-- A byte that a copy has still to read and that comes from another module, with an address that it asks for. -/
def copyAsks (s : State) (t : Team) (x : Copy) : Option (Nat × Nat) :=
  x.unread.findSome? fun i => ((x.asks (x.source i)).find? (isRemote s t.fn)).map fun a => (i, a)

/-- A byte that a copy has read and is to write to another module: its address. -/
def copyGives (s : State) (t : Team) (x : Copy) : Option Nat :=
  if x.tmpl.dstScratch || x.tmpl.dstFeed then none
  else (x.fetched.map fun f => x.tmpl.byteAt x.disp f.idx).find? (isRemote s t.fn)

/-- A request of a copy cannot be delivered: a byte that it reads is poisoned, and one that it writes ends its team. -/
def lostCopy (s : State) (c ch num : Nat) : Result :=
  match findCopy s c ch num with
  | none => .next s
  | some x =>
    match copyTeam s x with
    | none => .next s
    | some t =>
      if x.finished || x.halted || !channelsRun s c then .next s
      else
        match copyGives s t x with
        | some a => .next (endTeam (updCopy (undeliverable s t 0 ch a) c ch num fun y => { y with finished := true }) t.tid EndCause.silent)
        | none =>
          match copyAsks s t x with
          | none => .next s
          | some (i, a) =>
            let s := undeliverable s t 0 ch a
            match fetchByte s true t x (x.source i) with
            | .ok (y, s) => .next (updCopy s c ch num fun _ => y)
            | .error (w, x) => .next (stopCopy s c ch t x w)

/-- The request of a queue's command processor that a WAIT makes of another module cannot be delivered: the load completes with poisoned data,
whose bytes are free (R377). -/
def lostWait (s : State) (q : Nat) : State :=
  match (getQueue s q).pending.find? fun p => p.opc = 0x62, fnOfQueue s q with
  | some p, some fn =>
    if cpDead s q || ((getQueue s q).backlog.any fun r => r.seq.toNat = p.seq.toNat) || !isRemote s fn p.addr then s
    else
      let s := machineCheck s 0x0B none { kind := 0x20, cluster := 0xFF, addr := p.addr }
      let (v, s) := takeFree s
      if p.value.toNat ≤ v % 2 ^ 64 then finish s q p 0 0 else s
  | _, _ => s

/-- UNDELIVERABLE_TIMEOUT: a load completes with poisoned data; a store or an atomic is not applied, and its team ends as a fault ends
it (R377). At a cluster op is 16 times a copy's number and its channel; at a command processor it is the load of a WAIT; else op is the number of
a vector operation, or a team's whose hart made the access. -/
def execUndeliverableTimeout (op : Nat) (s : State) : Result :=
  match s.cur with
  | .cluster c => lostCopy s c (op % 16) (op / 16)
  | .command q _ => .next (lostWait s q)
  | _ =>
    match getOp s op with
    | some o => lostVector s o
    | none =>
      match getTeam s op with
      | none => .next s
      | some t => match t.hart with
        | none => .next s
        | some h => lostHart s t h

end Sys2Proof.Machine
end

