-- ==== Sys2Proof/Machine/LoomQueue.lean ====
section
/-! DEFINITION. Host writes of the control area (23 R329, R330; 26 R376, R378), commands of unknown code (R333), QUEUE.RESET (R342),
FENCE, SIGNAL and WAIT (R341). -/

namespace Sys2Proof.Machine

open Sys2Proof

/-- DOORBELL: the host writes PROD (R330), over a port that is up (26 R376, R377), as each of its writes below. -/
def execDoorbell (q : Nat) (v : W32) (s : State) : Result := .next (if linked s then ringDoorbell s q v else s)

/-- CCONS_WRITE (R330). -/
def execCconsWrite (q : Nat) (v : W32) (s : State) : Result := .next (if linked s then writeCcons s q v else s)

/-- ECONS_WRITE (R330). -/
def execEconsWrite (q : Nat) (v : W32) (s : State) : Result := .next (if linked s then writeEcons s q v else s)

/-- RSTCTL_RESET (26 R378). -/
def execRstctlReset (v : W32) (s : State) : Result := .next (if linked s then writeRstctl s v else s)

/-- REGISTER_WRITE: only writable fields change (00 R2, R3). -/
def execRegisterWrite (off size : Nat) (v : W64) (s : State) : Result := .next (if linked s then controlWrite s off size v else s)

/-- A frame of unknown code completes with status 15 (R333). -/
def execFrameUnknownOpc (f : Frame) (s : State) : Result :=
  match s.cur with
  | .command q _ => let (p, s) := takeFrame s q f; .next (finish s q p 15 0)
  | _ => .fault .noAgent

/-- QUEUE.RESET: the queue stops, its commands are aborted, and it reopens once a PREEMPT of it has run to the end of its save (R342). -/
def execQueueReset (f : Frame) (s : State) : Result :=
  runCommand 0x01 true true f
    (fun c =>
      let qid := fld f 8 2
      decide (qid = 0) || decide (qid = c.q) ||
        (c.q ≠ 0 && match fnOfQueue c.s qid with | some g => decide (g ≠ c.fn) | none => false))
    [(8, 2)]
    (fun c =>
      let qid := fld f 8 2
      c.act [(decide (1024 ≤ qid), 1), ((fnOfQueue c.s qid).isNone, 2)] fun s =>
        let n := (getQueue s qid).pending.length
        let s := abortQueue (updQueue s qid fun k => { k with stopped := true }) qid fun p => !p.saves || heldBack (getQueue s qid) p
        if resetDone s qid then .done 0 n (reopen s qid)
        else .later (updPending s c.q c.p.seq fun p => { p with addr := qid, value := BitVec.ofNat 64 n }))
    s

/-- FENCE completes when every earlier command of its queue has completed (R341). -/
def execFenceCommand (f : Frame) (s : State) : Result :=
  runCommand 0x60 true true f noDenial []
    (fun c => if (getQueue c.s c.q).pending.length = 1 then .done 0 0 c.s else .later c.s) s

/-- SIGNAL: performed when every earlier command of its queue has completed (R341). -/
def execSignal (f : Frame) (s : State) : Result :=
  runCommand 0x61 false true f noDenial [(8, 16)]
    (fun c =>
      let a := fld f 8 8
      c.act [(decide (a % 8 ≠ 0), 1), (!c.range a 8 [.write], 2)] fun s =>
        let p := { c.p with addr := a, value := BitVec.ofNat 64 (fld f 0x10 8) }
        let s := updPending s c.q c.p.seq fun _ => p
        match progress s c.q with
        | some s => .later s
        | none => .later s)
    s

/-- The 64-bit word that a WAIT watches is at least a value, as the queue's command processor sees it; another module's word is free, and the request
for it takes a port that is up (26 R377). -/
def reached (s : State) (q fn a v : Nat) : Bool × State :=
  if !isRemote s fn a then (decide (v ≤ readNat s (cpDie q) (gkey fn a) 8), s)
  else if !linked s then (false, s)
  else let (x, s) := takeFree s; (decide (v ≤ x % 2 ^ 64), s)

/-- What a WAIT that ends acquires, at system scope: it is on the command processor's die, and the command's completion releases it with the
rest (R335, R341). -/
def waitAcquires (s : State) (q : Nat) (seq : W32) (fn a : Nat) : State :=
  let ids := gotten (some 5) (syncsWith s .loom (seenAt s (cpDie q) (gkey fn a) 8))
  noteEffects (bring s (cpDie q) ids) q seq ids

/-- WAIT: holds its queue until the word is at least VALUE, then acquires (R341). -/
def execWait (f : Frame) (s : State) : Result :=
  runCommand 0x62 false true f noDenial [(8, 16)]
    (fun c =>
      let a := fld f 8 8
      c.act [(decide (a % 8 ≠ 0), 1), (!c.range a 8 [.read], 2)] fun s =>
        let s := updPending s c.q c.p.seq fun p => { p with addr := a, value := BitVec.ofNat 64 (fld f 0x10 8) }
        let (ok, s) := reached s c.q c.fn a (fld f 0x10 8)
        if ok then .done 0 0 (waitAcquires s c.q c.p.seq c.fn a) else .later s)
    s

/-- WAIT_SATISFIED: the watched word has reached the value (R341). Nothing where no WAIT of the queue is satisfied. -/
def execWaitSatisfied (q : Nat) (s : State) : Result :=
  match (getQueue s q).pending.find? fun p => p.opc = 0x62, fnOfQueue s q with
  | some p, some fn =>
    if cpDead s q || ((getQueue s q).backlog.any fun r => r.seq.toNat = p.seq.toNat) || (loomRange s fn (secureQueue s q) p.addr 8 [.read]).isSome then .next s
    else
      let (ok, s) := reached s q fn p.addr p.value.toNat
      if ok then .next (finish (waitAcquires s q p.seq fn p.addr) q p 0 0) else .next s
  | _, _ => .next s

end Sys2Proof.Machine
end

