-- ==== Sys2Proof/Machine/Park.lean ====
section
/-! DEFINITION. Pre-empting, saving and restoring clusters (02 R37, R38), and the commands PREEMPT, RESUME, CHECKPOINT and RESTORE
(23 R347). -/

namespace Sys2Proof.Machine

open Sys2Proof

/-! ### Stop, save, restore (02 R37) -/

/-- A weft stands where a pre-emption may stop it: at a clause boundary, in a wait, outside its active set, or stopped already by the
Loom (02 R37, 06 R102). -/
def stoppable (t : Team) (w : Weft) : Bool := !w.pos.started || decide (w.wait ≠ .none) || !w.active || t.stopped || t.held.isSome

/-- The Loom handles an exception of a hart (15 R222). -/
def Hart.inLoom (h : Hart) : Bool := match h.wait with | .fault | .bkpt => true | _ => false

/-- A team of a pre-empted cluster has stopped: wefts at boundaries, memory operations and hart stores performed, no hart's exception in
hand. What a pair's member has read waits for the other member, in the image too (25 R363). -/
def quiet (s : State) (t : Team) : Bool :=
  t.wefts.all (stoppable t) && !(s.vops.any fun o => decide (o.tid = t.tid) && !(unmatched s o && o.accs.all (·.done))) &&
  match t.hart with | some h => h.stores.isEmpty && !h.inLoom | none => true

/-- Every copy of a cluster's channels has written exactly the bytes before PROG (18 R288). -/
def inOrder (s : State) (c : Nat) : Bool := (upFrom 0 16).all fun ch => (getChan s c ch).copies.all fun y => y.ahead.isEmpty

/-- Every copy of a cluster's channels comes to its next element boundary, and halts (18 R289). -/
def haltChannels (s : State) (c : Nat) : State :=
  (upFrom 0 16).foldl (fun s ch =>
    updCopies ((getChan s c ch).copies.foldl (fun s y => toBoundary c ch y.num s) s) c ch Copy.settle) s

/-- CLUSTER_PREEMPT_STOP: once its teams have stopped, their paths are drained and no core moves (02 R25), the array stops at its quiescent
point and the channels halt at element boundaries (02 R37, 16 R249, 18 R289). Nothing while a team is not quiet or a copy has written bytes
beyond its PROG, or where no pre-emption was asked for. -/
def execClusterPreemptStop (s : State) : Result :=
  match s.cur with
  | .cluster c =>
    let k := getCluster s c
    if k.preempt ≠ .requested || !(residents s c).all (quiet s) || !inOrder s c || (upFrom 0 4).any fun i => (getCore s c i).moving.isSome then .next s
    else
      let s := match k.mx.running with
        | none => s
        | some i =>
          match together s c i with
          | some l => l.foldl (fun s m => if (getCluster s m.1).mx.running = some m.2 then stopCtx s m.1 m.2 else s) s
          | none => stopCtx s c i
      .next (updCluster (haltChannels s c) c fun k => { k with preempt := .stopped })
  | _ => .next s

/-- A PREEMPT is complete once no team of its launch, nor of its gang, is resident (23 R347). -/
def launchSaved (s : State) (fn lid : Nat) : Bool :=
  match getLaunch s fn lid with
  | none => true
  | some l =>
    !(s.teams.any fun t => match launchOf s t with
      | some m => (decide (m.fn = fn) && decide (m.lid = lid)) || (l.gang.isSome && decide (m.gang = l.gang))
      | none => false)

/-- Complete every PREEMPT whose images are all saved; one of a queue that is being reset ends with status 14 (R342), and with it that
reset may. -/
def finishPreempts (s : State) : State :=
  finishResets <| s.loom.queues.foldl (fun s e =>
    e.2.pending.foldl (fun s p =>
      if p.saves && !(e.2.backlog.any fun r => r.seq.toNat = p.seq.toNat) && launchSaved s ((fnOfQueue s e.1).getD 0) p.lid then
        (if e.2.stopped then abortRecord s e.1 p else finish s e.1 p 0 0)
      else s) s) s

/-- A cluster with what stays where it is when another's state comes onto it: the Loom's own M-mode work, which is harts, system context and
its slots (15 R223, 17 R278; log entry 85), and the hops that wait for their teams (18 R287). -/
def keepMachine (old new : Cluster) : Cluster :=
  let mx := updCtx new.mx 4 fun _ => getCtx old.mx 4
  let slots := [64, 65].foldl (fun l i => spSet Slot.reset l i (spGet Slot.reset old.mx.slots i)) mx.slots
  { new with mx := { mx with slots := slots }, machine := old.machine, hops := old.hops }

/-- IMAGE_SAVE: the state of a stopped cluster and its teams becomes an image, and the cluster is free (02 R37). Reservations are not saved (15
R222). DESIGN CHOICE (log entry 78): where the image's teams are of several classes, it is served in the highest; safe, since the order of
service changes only time. DESIGN CHOICE (log entry 79): the channel counters of the free cluster and ISSUED start again at 0, since the image
carries them; safe, since no team is there to read them until an image brings its own or a dispatch begins with counts from 0. A cluster whose teams have
ended while it stopped holds nothing to save: its pre-emption is over, and its channels go on. -/
def execImageSave (s : State) : Result :=
  match s.cur with
  | .cluster c =>
    let k := getCluster s c
    let l := residents s c
    if k.preempt ≠ .stopped then .next s
    else if l.isEmpty then .next (finishPreempts (updCluster s c fun k => { k with preempt := .none }))
    else
      let s := l.foldl (fun s t => setResv s t.die t.tid none) s
      let (i, s) := takeId s
      let m : Image :=
        { id := i, fn := (l.head?.map (·.fn)).getD 0, cls := l.foldl (fun a t => Nat.max a t.cls) 0, order := i,
          cluster := keepMachine Cluster.reset { k with preempt := .none, stalled := 0, seen := [] }, teams := l,
          acq := appliedOn s.mem (dieOf c), ops := s.vops.filter fun o => l.any fun t => t.tid = o.tid }
      let s := setCluster s c (keepMachine k { Cluster.reset with cores := k.cores, fenced := k.fenced })
      let s := { s with
        teams := s.teams.filter fun t => t.place.cluster ≠ c,
        vops := s.vops.filter fun o => !(l.any fun t => t.tid = o.tid),
        xlat := { s.xlat with walks := s.xlat.walks.filter fun w => w.cluster ≠ c },
        loom := { s.loom with images := s.loom.images ++ [m] } }
      .next (finishPreempts s)
  | _ => .next s

/-- A weft as an image brings it back: no hold latch and no place in an active set (07 R132); at a VEER, a REGROUP or an UNGROUP it
arrives again (02 R25, 09 R168). -/
def Weft.restored (w : Weft) : Weft :=
  { w with holds := [], active := false, slot := 8, wait := match w.wait with | .veer _ _ _ | .regroup _ _ _ _ => .retry Why.rearrive.code | x => x }

/-- A restored weft takes a slot, and a place in the active set where it does not wait (02 R36, 07 R132). -/
def reseat (s : State) (tid wid : Nat) : State :=
  match (getTeam s tid).bind (·.weft? wid) with
  | none => s
  | some w =>
    let s := assignSlot s tid wid
    if w.wait = .none then s else updWeft s tid wid fun x => { x with active := false, readyAt := w.readyAt }

/-- Put an image onto a cluster, its cores at the points that it records; its teams go on (02 R37). What their die had applied when they were
saved is applied on this one, so that they find their own earlier accesses, and what they have read, again (03 R52, R55; log entry 84). -/
def restoreOne (s : State) (m : Image) (c : Nat) : State :=
  let held (h : Held) : Held := match h with | .copyFault _ ch n a => .copyFault c ch n a | h => h
  let move (t : Team) : Team :=
    { t with place := { t.place with cluster := c }, held := t.held.map held, wefts := t.wefts.map Weft.restored }
  let old := getCluster s c
  let s := setCluster s c (keepMachine old { m.cluster with fenced := old.fenced, stalled := 0, preempt := .none })
  let s := { s with teams := s.teams ++ m.teams.map move, vops := s.vops ++ m.ops, loom := { s.loom with images := s.loom.images.filter fun x => x.id ≠ m.id } }
  let s := m.teams.foldl (fun s t => t.wefts.foldl (fun s w => reseat s t.tid w.wid) s) (bring s (dieOf c) m.acq)
  m.teams.foldl (fun s t => serveHeld t.tid s) s

/-- IMAGE_RESTORE: the image that the dispatcher serves next goes to a free cluster, and with it the images that must be resumed
together (02 R32, R37, R38). Nothing where it is not that image's turn or the cluster is not free for it. -/
def execImageRestore (image cluster : Nat) (s : State) : Result :=
  match s.loom.images.find? fun m => m.id = image with
  | none => .next s
  | some m =>
    match pick s (dieOf m.home) [3, 2, 1, 0] with
    | .image i =>
      if i ≠ image then .next s
      else
        match spotsFor s m.fn (imageSet s m) cluster with
        | some l => .next (l.foldl (fun s x => restoreOne s x.1 x.2) s)
        | none => .next s
    | _ => .next s

/-! ### PREEMPT and RESUME (23 R347) -/

/-- Mark a launch as parked, or not. -/
def setParked (s : State) (fn lid : Nat) (b : Bool) : State := updLaunch s fn lid fun l => { l with parked := b }

/-- The clusters that hold teams of a launch, or of its gang. -/
def clustersWith (s : State) (l : Launch) : List Nat :=
  (s.teams.filter fun t => match launchOf s t with
    | some m => (decide (m.fn = l.fn) && decide (m.lid = l.lid)) || (l.gang.isSome && decide (m.gang = l.gang))
    | none => false).foldl (fun a t => insNat t.place.cluster a) []

/-- PREEMPT: every cluster that holds teams of the launch is saved, and the images are parked; completes when all are saved. -/
def execPreempt (f : Frame) (s : State) : Result :=
  runCommand 0x80 false true f noDenial [(8, 4)]
    (fun c =>
      match getLaunch c.s c.fn (fld f 8 4) with
      | none => .done 2 0 c.s
      | some l =>
        let s := setParked c.s c.fn l.lid true
        let s := (clustersWith s l).foldl requestPreempt s
        if launchSaved s c.fn l.lid then .done 0 0 s else .later (updPending s c.q c.p.seq fun p => { p with lid := l.lid }))
    s

/-- RESUME returns a parked launch to the dispatcher. -/
def execResume (f : Frame) (s : State) : Result :=
  runCommand 0x81 false true f noDenial [(8, 4)]
    (fun c =>
      match getLaunch c.s c.fn (fld f 8 4) with
      | none => .done 2 0 c.s
      | some l => c.simple [(!l.parked, 5)] fun s => setParked s c.fn l.lid false)
    s

/-! ### CHECKPOINT and RESTORE (23 R347; log entry 14) -/

/-- A copy or hop belongs to a launch: the one of its copy, wherever its issuer is. -/
def Copy.ofLaunch (y : Copy) (fn lid : Nat) : Bool := match y.launch with | some (f, i, _) => decide (f = fn) && decide (i = lid) | none => false

/-- The hops of a launch that wait to start, with their clusters and channels. -/
def waitingHops (s : State) (fn lid : Nat) : List (Nat × Nat × Copy) :=
  s.clusters.flatMap fun e => (e.2.hops.filter fun h => h.2.ofLaunch fn lid).map fun h => (e.1, h.1, h.2)

/-- An image without the teams, contexts and copies of other launches. -/
def ownPart (l : Launch) (m : Image) : Image :=
  let mine := m.teams.filter fun t => match t.ref with | .launch f i _ => decide (f = l.fn) && decide (i = l.lid) | _ => false
  let ids := mine.map (·.tid)
  let mx := m.cluster.mx
  let foreign (x : Ctx) : Bool := match x.tid with | some t => !ids.contains t | none => false
  let gone := (upFrom 0 4).filter fun i => foreign (getCtx mx i)
  let mx := gone.foldl (fun m i => updCtx m i fun _ => Ctx.reset) mx
  let mx := { mx with feeds := mx.feeds.map fun e => (e.1, match e.2.holder with | some i => if gone.contains i then Feed.reset else e.2 | none => e.2) }
  let own (y : Copy) : Bool := y.ofLaunch l.fn l.lid
  { m with teams := mine, ops := m.ops.filter fun o => ids.contains o.tid,
           cluster := { m.cluster with mx := mx, chans := m.cluster.chans.map fun e => (e.1, { e.2 with copies := e.2.copies.filter own }) } }

/-- The new name of a team. -/
def renamed (names : List (Nat × Nat)) (t : Nat) : Nat := match names.find? fun e => e.1 = t with | some e => e.2 | none => t

/-- A copy under new names, as a launch of a function. -/
def renameCopy (names : List (Nat × Nat)) (l : Launch) (y : Copy) : Copy :=
  { y with tid := renamed names y.tid, dstTid := renamed names y.dstTid, root := renamed names y.root,
           launch := y.launch.map fun p => (l.fn, l.lid, p.2.2) }

/-- An image under new names, as a launch of a function. -/
def renameImage (names : List (Nat × Nat)) (l : Launch) (secure : Bool) (id : Nat) (m : Image) : Image :=
  let team (t : Team) : Team :=
    { t with tid := renamed names t.tid, ref := .launch l.fn l.lid t.ref.number, fn := l.fn, secure := secure, obj := l.obj, queue := l.queue,
             partner := t.partner.map (renamed names), paths := t.paths.map fun p => p.map fun e => (renamed names e.1, e.2),
             pairLoads := t.pairLoads.map fun e => { e with op := renamed names e.op } }
  let mx := { m.cluster.mx with ctxs := m.cluster.mx.ctxs.map fun e => (e.1, { e.2 with tid := e.2.tid.map (renamed names) }) }
  { m with id := id, order := id, fn := l.fn, teams := m.teams.map team,
           ops := m.ops.map fun o => { o with id := renamed names o.id, tid := renamed names o.tid },
           cluster := { m.cluster with mx := mx, chans := m.cluster.chans.map fun e => (e.1, { e.2 with copies := e.2.copies.map (renameCopy names l) }) } }

/-- The hops of a checkpoint wait again, for the teams of a new launch (18 R287). -/
def restoreHops (s : State) (names : List (Nat × Nat)) (l : Launch) (hops : List (Nat × Nat × Copy)) : State :=
  hops.foldl (fun s e => updCluster s e.1 fun k => { k with hops := k.hops ++ [(e.2.1, renameCopy names l e.2.2)] }) s

/-- CHECKPOINT: the parked launch's images, and the SHA-384 of their bytes, are written. How many bytes an image takes, and which,
the manual does not say. -/
def execCheckpoint (f : Frame) (s : State) : Result :=
  runCommand 0x82 false true f noDenial [(8, 4), (0x10, 16)]
    (fun c =>
      let a := fld f 0x10 8
      let size := fld f 0x18 8
      match getLaunch c.s c.fn (fld f 8 4) with
      | none => .done 2 0 c.s
      | some l =>
        c.act [(!c.range a size [.write], 2), (!l.parked || !launchSaved c.s c.fn l.lid, 5)] fun s =>
          let (n, s) := takeFree s
          let (b, s) := remoteRead s 0 n
          let b := b.map (·.1)
          let all := b ++ sha384 b
          if size < all.length then .done 4 all.length c.s
          else
            let o := getObj s l.obj
            let k : Checkpoint :=
              { bytes := all, launch := l, images := (s.loom.images.map (ownPart l)).filter fun m => !m.teams.isEmpty, hops := waitingHops s l.fn l.lid,
                root := (o.map (·.root)).getD [], secure := (o.map (·.secure)).getD false }
            .done 0 all.length { loomWrite s c.q c.fn a all with loom := { s.loom with checkpoints := s.loom.checkpoints ++ [k] } })
    s

/-- The names that a checkpoint holds: its teams, their operations, those that its copies are from or for, and its copies. -/
def Checkpoint.names (k : Checkpoint) : List Nat :=
  let ofCopy (y : Copy) : List Nat := [y.tid, y.dstTid, y.root]
  unionIds ((k.hops.flatMap fun e => ofCopy e.2.2) ::
    k.images.map fun m => m.teams.map (·.tid) ++ m.ops.map (·.id) ++ (m.cluster.chans.flatMap (·.2.copies)).flatMap ofCopy)

/-- A team of another device's checkpoint names nothing of this one: no write in transit here is its, and its hart has stored all. -/
def Team.abroad (t : Team) : Bool :=
  t.hists.isEmpty && t.start.isEmpty && t.uni.krel.isEmpty && t.uni.uqRel.isEmpty && (t.tags.all (·.rel.isEmpty)) &&
  match t.hart with | some h => h.stores.isEmpty | none => true

/-- An image of another device's checkpoint names nothing of this one. -/
def Image.abroad (m : Image) : Bool :=
  let copies := m.cluster.chans.flatMap (·.2.copies)
  m.acq.isEmpty && m.teams.all Team.abroad && (m.ops.all fun o => (m.teams.any fun t => t.tid = o.tid) && o.accs.all (·.done)) && m.cluster.scrRel.isEmpty && m.cluster.machine.isEmpty && m.cluster.hops.isEmpty &&
  (m.cluster.chans.all (·.2.rel.isEmpty)) && (copies.all fun y => y.acq.isEmpty && y.wrote.isEmpty) &&
  m.cluster.mx.ctxs.all fun e => e.2.rel.isEmpty && e.2.ops.all (·.acq.isEmpty)

/-- A checkpoint that another device has written: its hash matches, every image is of its launch, and its teams have names of their own
(R347, 16 R258; log entry 14). -/
def Checkpoint.foreign (k : Checkpoint) : Bool :=
  let n := k.bytes.length - 48
  let tids := k.images.flatMap fun m => m.teams.map (·.tid)
  decide (48 ≤ k.bytes.length) && decide (k.bytes.drop n = sha384 (k.bytes.take n)) && decide (tids.eraseDups.length = tids.length) &&
  (k.hops.all fun e => decide (e.1 < 160) && decide (e.2.1 < 16) && e.2.2.ofLaunch k.launch.fn k.launch.lid && e.2.2.acq.isEmpty &&
    e.2.2.wrote.isEmpty) &&
  k.images.all fun m => m.abroad && !m.teams.isEmpty && decide (m.home < 160) &&
    m.teams.all fun t => match t.ref with | .launch f i _ => decide (f = k.launch.fn) && decide (i = k.launch.lid) | _ => false

/-- The checkpoint that bytes are, written by this device or another: their hash matches (R347). -/
def checkpointAt (c : Cmd) (a size : Nat) : Option Checkpoint :=
  let here (k : Checkpoint) : Bool := decide (k.bytes.length ≤ size) && decide (c.read a k.bytes.length = k.bytes)
  match c.s.loom.checkpoints.find? here with
  | some k => some k
  | none => (Config.foreignCheckpoint (c.read a size)).filter fun k => here k && k.foreign

/-- RESTORE: a checkpoint becomes a parked launch under a new LID. -/
def execRestore (f : Frame) (s : State) : Result :=
  runCommand 0x83 false true f noDenial [(8, 4), (0x10, 16)]
    (fun c =>
      let lid := fld f 8 4
      let a := fld f 0x10 8
      let size := fld f 0x18 8
      c.act [(decide (lid = 0), 1), (!c.range a size [.read], 2)] fun s =>
        match checkpointAt c a size with
        | none => .done 1 0 c.s
        | some k =>
          match s.loom.objs.find? fun o => decide (o.fn = c.fn) && decide (o.secure = c.secure) && decide (o.root = k.root) with
          | none => .done 1 0 c.s
          | some o =>
            c.act [(decide (k.secure ≠ c.secure), 1), ((getLaunch s c.fn lid).isSome, 4)] fun s =>
              let l := { k.launch with
                fn := c.fn, lid := lid, queue := c.q, ctag := c.p.ctag, cmdSeq := c.p.seq, flags := 0, opc := 0x30, obj := o.handle,
                parked := true, gang := none, seq := s.tasks.seq, die := k.launch.die % 4, acq := c.p.acq, rel := [] }
              let tids := k.names
              let names := tids.zip (upFrom s.nextId tids.length)
              let ids := k.images.zip (upFrom (s.nextId + tids.length) k.images.length)
              .done 0 0 <| restoreHops (names := names) (l := l) (hops := k.hops)
                { s with nextId := s.nextId + tids.length + k.images.length, tasks := { s.tasks with seq := s.tasks.seq + 1 },
                         loom := { s.loom with launches := s.loom.launches ++ [l],
                                               images := s.loom.images ++ ids.map fun e => renameImage names l o.secure e.2 e.1 } })
    s

end Sys2Proof.Machine
end

