-- ==== Sys2Proof/Machine/Partition.lean ====
section
/-! DEFINITION. PARTITION (23 R344) and FUNCTION.RESET with its drain and scrub (23 R346, 24 R352). -/

namespace Sys2Proof.Machine

open Sys2Proof

/-! ### PARTITION (R344) -/

/-- MiB of base SRAM and of GDDR7 that hold mapped pages (03 R45; log entry 22). -/
def sramMiB : Nat := 3584
/-- MiB of GDDR7: 192 GB (01 R7, 03 R45; log entry 22). -/
def gddrMiB : Nat := 183105

/-- The other assigned functions. -/
def otherFuncs (s : State) (fn : Nat) : List Func := ([0, 1, 2, 3].filter fun g => g ≠ fn).filterMap fun g => getFunc s g

/-- The function has live launches, loaded objects or mappings. -/
def funcBusy (s : State) (fn : Nat) : Bool :=
  (s.loom.launches.any fun l => l.fn = fn) || (s.loom.objs.any fun o => o.fn = fn) || (s.xlat.pages.any fun p => p.fn = fn) ||
  (s.xlat.onDemand.any fun r => r.fn = fn)

/-- Replace a function's assignment; new queues have every count at 0 (R330). -/
def assignFunc (s : State) (fn : Nat) (x : Option Func) : State :=
  let s := { s with loom := { s.loom with funcs := spSet none s.loom.funcs fn x } }
  match x with
  | none => s
  | some f => (upFrom f.qlo (f.qhi + 1 - f.qlo)).foldl reopen s

/-- PARTITION (R344). -/
def execPartition (f : Frame) (s : State) : Result :=
  runCommand 0x70 true false f noDenial [(8, 2), (0x0C, 40)]
    (fun c =>
      let fn := fld f 8 1
      let qlo := fld f 0x0C 2
      let qhi := fld f 0x0E 2
      let clus := fld f 0x10 28
      let sq := fld f 0x2C 4
      let gq := fld f 0x30 4
      let others := otherFuncs c.s fn
      let x : Func := { secure := decide (fld f 9 1 = 1), qlo := qlo, qhi := qhi, clusters := BitVec.ofNat 160 clus, squota := sq, gquota := gq }
      c.simple
        [(decide (3 < fn) || decide (1 < fld f 9 1) || decide (2 ^ 160 ≤ clus) ||
            (decide (clus ≠ 0) &&
              (decide (qlo = 0) || decide (qhi < qlo) || decide (1023 < qhi) ||
                (others.any fun g => decide (g.clusters &&& x.clusters ≠ 0) || (decide (g.qlo ≤ qhi) && decide (qlo ≤ g.qhi))) ||
                decide (sramMiB < sq + others.foldl (fun a g => a + g.squota) 0) ||
                decide (gddrMiB < gq + others.foldl (fun a g => a + g.gquota) 0))), 1),
         (funcBusy c.s fn, 4)]
        fun s => assignFunc s fn (if clus = 0 then none else some x))
    s

/-! ### FUNCTION.RESET (R346) -/

/-- Frames of a queue that were not taken complete with status 14 (step 1). -/
def abortUntaken (s : State) (q : Nat) : Nat → State
  | 0 => s
  | n + 1 =>
    let k := getQueue s q
    if k.cons = k.prod then s
    else
      let (p, s) := takeFrame s q (frameAt s q k.cons.toNat)
      abortUntaken (abortRecord s q p) q n

/-- The launches of a function that are still live end, each command with a record of status 14 on its queue (step 2). -/
def abortLaunches (s : State) (fn : Nat) : State :=
  (s.loom.launches.filter fun l => l.fn = fn).foldl (fun s l =>
    match getLaunch s l.fn l.lid with
    | none => s
    | some _ =>
      let s := abortLaunch s l.fn l.lid
      let p : Pending := { opc := l.opc, ctag := l.ctag, flags := l.flags, seq := l.cmdSeq, lid := l.lid, addr := 0, value := 0, acq := [], rel := [] }
      if l.queue = 0 then finish s 0 p 14 0 else abortRecord s l.queue p) s

/-- The function's pipelines and stages end, and their pipes with them (step 2). -/
def endFuncPipes (s : State) (fn : Nat) : State :=
  let stage (g : Stage) : Stage := if g.fn = fn then { g with ended := true, tid := none } else g
  let pipe (p : Pipe) : Pipe := if p.fn = fn then { p with closed := true, attaches := p.attaches.map fun a => { a with removed := true } } else p
  let line (p : Pipeline) : Pipeline := if p.fn = fn then { p with ended := true } else p
  { s with heddle := { pipes := s.heddle.pipes.map pipe, stages := s.heddle.stages.map stage, pipelines := s.heddle.pipelines.map line } }

/-- Steps 1 and 2: queues stop, commands and untaken frames end with status 14, every team, task, card and pipeline of the function
ends, without an error-log entry. -/
def stopFunction (s : State) (fn : Nat) (x : Func) : State :=
  let qs := upFrom x.qlo (x.qhi + 1 - x.qlo)
  let s := qs.foldl (fun s q => updQueue s q fun k => { k with stopped := true }) s
  let s := qs.foldl (fun s q => abortUntaken (abortQueue s q fun _ => true) q 1024) s
  let s := abortLaunches s fn
  let s := ((allTeams s).filter fun t => t.fn = fn).foldl (fun s t => endWithPartner s t.tid { EndCause.silent with detached := true }) s
  let s := endFuncPipes s fn
  { s with tasks := { s.tasks with tasks := s.tasks.tasks.filter (fun k => k.fn ≠ fn), cards := s.tasks.cards.filter fun k => k.fn ≠ fn } }

/-- FUNCTION.RESET: stop and end at once; the command completes with the scrub (R346). -/
def execFunctionReset (f : Frame) (s : State) : Result :=
  runCommand 0x71 true false f noDenial [(8, 1)]
    (fun c =>
      let fn := fld f 8 1
      c.act [(decide (3 < fn), 1), ((getFunc c.s fn).isNone, 2)] fun s =>
        match getFunc s fn with
        | none => .done 2 0 c.s
        | some x =>
          let s := stopFunction s fn x
          .later { s with loom := { s.loom with draining := some fn } })
    s

/-- Bytes of the function's mappings: pages at their size, ranges declared on demand at theirs (24 R352; log entry 23). -/
def mappingBytes (s : State) (fn : Nat) : Nat :=
  let declared := s.xlat.onDemand.filter fun r => r.fn = fn
  let single := s.xlat.pages.filter fun p => decide (p.fn = fn) && !(declared.any fun r => decide (r.va ≤ p.va) && decide (p.va < r.va + r.size))
  single.foldl (fun a p => a + p.size) 0 + declared.foldl (fun a r => a + r.size) 0

/-- No request tagged with the function remains in the module (step 3). -/
def drained (s : State) (fn : Nat) : Bool := !((allTeams s).any fun t => t.fn = fn) && !(s.tasks.cards.any fun k => k.fn = fn)

/-- Step 4: the function's clusters, mappings, memory, objects, chunks and ports are scrubbed. A fenced cluster stays fenced until
module reset (25 R359). -/
def scrubFunction (s : State) (fn : Nat) (x : Func) : State :=
  let own := (upFrom 0 160).filter fun c => x.clusters.getLsbD c
  let empty := (upFrom 0 8192).foldl (fun l i => spSet false l i true) []
  let s := own.foldl (fun s c => updCluster s c fun k => { Cluster.reset with cores := k.cores, fenced := k.fenced, empty := empty }) s
  let s := zeroAll s (gkey fn 0) (2 ^ 56)
  let y := tlbDrop s.xlat fn 0 (2 ^ 56)
  { s with
    xlat := { y with pages := y.pages.filter (fun p => p.fn ≠ fn), onDemand := y.onDemand.filter (fun r => r.fn ≠ fn),
                     ports := y.ports.filter (fun p => p.fn ≠ fn), hints := y.hints.filter fun h => h.fn ≠ fn },
    loom := { s.loom with objs := s.loom.objs.filter (fun o => o.fn ≠ fn), chunks := s.loom.chunks.filter (fun k => k.fn ≠ fn) } }

/-- RESET_SCRUB: once the function is drained, its state is scrubbed, its queues reopen, and FUNCTION.RESET completes with the bytes
scrubbed (R346 steps 3 to 5). Nothing where the function is not being reset. -/
def execResetScrub (fn : BitVec 2) (s : State) : Result :=
  let g := fn.toNat
  match s.loom.draining, getFunc s g with
  | some d, some x =>
    if d ≠ g || !drained s g then .next s
    else
      let bytes := mappingBytes s g
      let s := scrubFunction s g x
      let s := (upFrom x.qlo (x.qhi + 1 - x.qlo)).foldl reopen s
      let s := { s with loom := { s.loom with draining := none } }
      match (getQueue s 0).pending.find? fun p => p.opc = 0x71 with
      | some p => .next (finishResets (finish s 0 p 0 bytes))
      | none => .next (finishResets s)
  | _, _ => .next s

end Sys2Proof.Machine
end

