-- ==== Sys2Proof/Machine/Patch.lean ====
section
/-! DEFINITION. Firmware patches and attestation (23 R349, R350): ECDSA over brainpoolP384r1, PATCH.LOAD and ATTEST. -/

namespace Sys2Proof.Machine

open Sys2Proof

/-! ### brainpoolP384r1 (RFC 5639) -/

/-- The prime of the field. -/
def bpP : Nat := 0x8CB91E82A3386D280F5D6F7E50E641DF152F7109ED5456B412B1DA197FB71123ACD3A729901D1A71874700133107EC53
/-- The coefficient a. -/
def bpA : Nat := 0x7BC382C63D8C150C3C72080ACE05AFA0C2BEA28E4FB22787139165EFBA91F90F8AA5814A503AD4EB04A8C7DD22CE2826
/-- The base point. -/
def bpG : Nat × Nat :=
  (0x1D1C64F068CF45FFA2A63A81B7C13F6B8847A3E77EF14FE3DB7FCAFE0CBD10E8E826E03436D646AAEF87B2E247D4AF1E,
   0x8ABE1D7520F9C2A45CB1EB8E95CFD55262B70B29FEEC5864E19C054FF99129280E4646217791811142820341263C5315)
/-- The order of the base point. -/
def bpN : Nat := 0x8CB91E82A3386D280F5D6F7E50E641DF152F7109ED5456B31F166E6CAC0425A7CF3AB6AF6B7FC3103B883202E9046565

/-- x to the power of the n low bits of e, modulo m. -/
def powMod (m : Nat) : Nat → Nat → Nat → Nat
  | 0, _, _ => 1 % m
  | n + 1, x, e => let r := powMod m n (x * x % m) (e / 2); if e % 2 = 1 then r * x % m else r

/-- The inverse modulo a prime of 384 bits. -/
def invMod (m x : Nat) : Nat := powMod m 384 (x % m) (m - 2)

/-- A point of the curve; none is the point at infinity. -/
abbrev Point := Option (Nat × Nat)

/-- The third point of a line of slope l through two points. -/
def chord (l x1 y1 x2 : Nat) : Point :=
  let x := (l * l + 2 * bpP - x1 - x2) % bpP
  some (x, (l * ((x1 + bpP - x) % bpP) + bpP - y1) % bpP)

/-- The sum of two points. -/
def addPoint : Point → Point → Point
  | none, q => q
  | p, none => p
  | some (x1, y1), some (x2, y2) =>
    if x1 ≠ x2 then chord ((y2 + bpP - y1) * invMod bpP ((x2 + bpP - x1) % bpP) % bpP) x1 y1 x2
    else if (y1 + y2) % bpP = 0 then none
    else chord ((3 * x1 * x1 + bpA) * invMod bpP (2 * y1 % bpP) % bpP) x1 y1 x2

/-- The multiple of a point by the n low bits of k. -/
def mulPoint : Nat → Nat → Point → Point
  | 0, _, _ => none
  | n + 1, k, p => let q := mulPoint n (k / 2) (addPoint p p); if k % 2 = 1 then addPoint q p else q

/-- ECDSA verification of a hash of 384 bits under a public key. -/
def ecdsaVerify (key : Nat × Nat) (z r s : Nat) : Bool :=
  if r = 0 || bpN ≤ r || s = 0 || bpN ≤ s then false
  else
    let w := invMod bpN s
    match addPoint (mulPoint 384 (z * w % bpN) (some bpG)) (mulPoint 384 (r * w % bpN) (some key)) with
    | none => false
    | some (x, _) => x % bpN = r

/-! ### The commands -/

/-- Where a buffer of queue 0 lies: bits [59:56] of its address are 4 + F, as in the host window (26 R376; log entry 25). -/
def Cmd.buffer (c : Cmd) (a : Nat) : Option (Nat × Nat) :=
  if c.q ≠ 0 then some (c.fn, a) else if 4 ≤ a / 2 ^ 56 ∧ a / 2 ^ 56 < 8 then some (a / 2 ^ 56 - 4, a % 2 ^ 56) else none

/-- A buffer of n bytes is mapped as the command needs. -/
def Cmd.bufferOk (c : Cmd) (a n : Nat) (needs : List Need) : Bool :=
  match c.buffer a with
  | some (fn, va) => (loomRange c.s fn c.secure va n needs).isNone
  | none => false

/-- Every function is idle: no team, image, launch, pipeline, or task that has not ended (R349; log entry 28). -/
def allIdle (s : State) : Bool :=
  s.teams.isEmpty && s.loom.images.isEmpty && s.loom.launches.isEmpty && s.tasks.tasks.isEmpty && s.tasks.cards.isEmpty &&
  s.heddle.pipelines.all (·.ended)

/-- The patch of an image: version and BODYHASH, where R349 accepts it. -/
def patchOf (b : List Byte) : Option (W32 × List Byte) :=
  let le (off n : Nat) : Nat := leNat ((b.drop off).take n)
  let len := le 0x0C 4
  let hash := (b.drop 0x10).take 48
  let body := (b.drop 256).take len
  if le 0 4 = 0x48544150 && decide (len ≤ 4 * 2 ^ 20) && decide (256 + len ≤ b.length) && ((b.drop 0x40).take 96).all (· = 0) &&
      decide (sha384 body = hash) && decide (le 8 4 = Config.romVer.toNat) && decide (Config.minPver.toNat ≤ le 4 4) &&
      ecdsaVerify Config.romKey (beNat (sha384 (b.take 0xA0))) (beNat ((b.drop 0xA0).take 48)) (beNat ((b.drop 0xD0).take 48)) then
    some (BitVec.ofNat 32 (le 4 4), hash)
  else none

/-- The bytes of a command's buffer. -/
def Cmd.bufferBytes (c : Cmd) (a n : Nat) : List Byte :=
  match c.buffer a with
  | some (fn, va) => readBytes c.s (cpDie c.q) (gkey fn va) n
  | none => []

/-- PATCH.LOAD: an accepted patch is active until the module resets; it changes nothing else (R349). -/
def execPatchLoad (f : Frame) (s : State) : Result :=
  runCommand 0xB0 true false f noDenial [(8, 16)] (fun c =>
    let a := fld f 8 8
    let size := fld f 0x10 8
    if !c.bufferOk a size [.read] then .done 2 0 c.s
    else
      let b := c.bufferBytes a (Nat.min size (256 + 4 * 2 ^ 20))
      match (if size < 256 then none else patchOf b) with
      | none => .done 1 0 c.s
      | some p => c.simple [(!allIdle c.s, 4)] fun s => { s with loom := { s.loom with patch := some p } }) s

/-- What an attestation report is made of (R350): the module's identity, ROMVER, PVER and BODYHASH of the active patch, the partition
record of the queue's function, NONCE. -/
def attested (c : Cmd) : List Byte :=
  let patch := match c.s.loom.patch with | some p => leBytes 4 p.1.toNat ++ p.2 | none => leBytes 52 0
  let part := match getFunc c.s c.fn with
    | some x => if c.q = 0 then [] else
        leBytes 1 (ofBool x.secure) ++ leBytes 4 x.qlo ++ leBytes 4 x.qhi ++ leBytes 20 x.clusters.toNat ++ leBytes 4 x.squota ++ leBytes 4 x.gquota
    | none => []
  leBytes 4 Config.moduleId.toNat ++ leBytes 4 Config.romVer.toNat ++ patch ++ part ++ leBytes 40 (fld c.f 8 40)

/-- ATTEST: a signed report of 512 bytes is written (R350; log entry 10). -/
def execAttest (f : Frame) (s : State) : Result :=
  runCommand 0xB1 true true f noDenial [(8, 48)] (fun c =>
    let a := fld f 0x30 8
    c.simple [(!c.bufferOk a 512 [.write], 2)] fun s =>
      match c.buffer a with
      | some (fn, va) => loomWrite s c.q fn va ((Config.attestation (attested c) ++ leBytes 512 0).take 512)
      | none => s) s

end Sys2Proof.Machine
end

