-- ==== Sys2Proof/Machine/Pipes.lean ====
section
/-! DEFINITION. The pipe words PACQ, PREL, PGET and PDONE (21 R319 to R325). -/

namespace Sys2Proof.Machine

open Sys2Proof

/-- A pipe word of a stage: its pipe by place, or ILLEGAL where the team is no stage or the stage has no such pipe (R319). -/
def withPipe (c : VCtx) (out : Bool) (f : Nat → Nat → Pipe → Result) : Result :=
  match stageOf c.s c.t with
  | none => illegalWord c.s c.t c.w
  | some (i, g) =>
    match if out then g.out else g.inp with
    | none => illegalWord c.s c.t c.w
    | some pi => match getPipe c.s pi with
      | some p => f i pi p
      | none => illegalWord c.s c.t c.w

/-- What PACQ and PGET write: address and index, in every active strand (R319). -/
def writePipe (vd : BitVec 6) (addr idx : Nat) : Weft → Weft :=
  writeStrands fun _ =>
    [(vd.toNat, { val := BitVec.ofNat 32 addr, poison := false }), (vd.toNat + 1, { val := BitVec.ofNat 32 (addr / 2 ^ 32), poison := false }),
     (vd.toNat + 2, { val := BitVec.ofNat 32 idx, poison := false })]

/-- The registers PACQ and PGET write. -/
def usesPipe (vd : BitVec 6) : Uses := usesCtl [] [] [vd.toNat, vd.toNat + 1, vd.toNat + 2] 1

/-- The least record that the active strands hold. -/
def leastHeld (hs : List (Nat × Nat)) (w : Weft) : Option Nat := minOf (heldBy hs (w.active'.map (·.sid)))

/-- The SID of the lowest active lane (R320). -/
def lowestLane (w : Weft) : Nat :=
  match w.active' with
  | [] => 0
  | x :: t => (t.foldl (fun (a : Strand) y => if y.lane < a.lane then y else a) x).sid

/-- Finish a pipe word that has an effect on the pipe; a redundant pair compares it first (25 R362). -/
def pipeDone (s : State) (c : VCtx) (u : Uses) (f : Weft → Weft) : Result :=
  .next (finishWord (updWeft s c.t.tid c.w.wid fun w => { w with granted := false }) c.t.tid c.w.wid u f)

/-- PACQ (R320): a record is taken at once and its slot is waited for; a return of a reused slot acquires its releases (R325). -/
def execPacq (vd : BitVec 6) (s : State) : Result :=
  let u := usesPipe vd
  runWord (.pacq vd) s u fun c =>
    withPipe c true fun _ pi p =>
      if c.w.active'.isEmpty then c.done u id
      else
        pairGate c.s c.t c.w 48 [] fun s =>
          match leastHeld p.holders c.w with
          | none =>
            if !p.attached || p.acq = 2 ^ 32 - 1 then pipeDone s c u (writePipe vd 0 p.acq)
            else
              let s := updPipe s pi fun p => { p with acq := p.acq + 1, holders := p.holders ++ [(p.acq, lowestLane c.w)] }
              if p.acq < p.nslot || p.slotFree (p.acq - p.nslot) then
                let s := if p.acq < p.nslot then s else acquireIds s c.t c.w.keys (p.relsOf (p.acq - p.nslot))
                pipeDone s c u (writePipe vd (p.slotAddr p.acq) p.acq)
              else retryWord s c.t.tid c.w.wid .slot
          | some r =>
            if r < p.nslot || p.slotFree (r - p.nslot) then
              let s := if r < p.nslot then s else acquireIds s c.t c.w.keys (p.relsOf (r - p.nslot))
              pipeDone s c u (writePipe vd (p.slotAddr r) r)
            else retryWord s c.t.tid c.w.wid .slot

/-- PREL (R321): the release waits for the weft's earlier accesses. -/
def execPrel (s : State) : Result :=
  let u := usesCtl [] [] [] 1
  runWord .prel s u fun c =>
    withPipe c true fun _ _ _ =>
      let sids := c.w.active'.map (·.sid)
      match outHeld c.s c.t sids with
      | some (_, _, r :: rs) =>
        if ownUndone c.s c.t.tid c.w.wid || !commitReady c.s c.t then retryWord c.s c.t.tid c.w.wid .order
        else if heldPoison c.s c.t sids then poisonWord c.s c.t c.w c.w.emBits
        else pairGate c.s c.t c.w 49 (r :: rs) fun s =>
          pipeDone (publishHeld s c.t c.w sids) c u id
      | _ => c.done u id

/-- PGET (R322): the next record is taken at once and its publication, or the close, is waited for. -/
def execPget (vd : BitVec 6) (s : State) : Result :=
  let u := usesPipe vd
  runWord (.pget vd) s u fun c =>
    withPipe c false fun i pi p =>
      if c.w.active'.isEmpty then c.done u id
      else
        pairGate c.s c.t c.w 50 [] fun s =>
          match p.attachOf i with
          | none => pipeDone s c u (writePipe vd 0 p.pub)
          | some a =>
            let held := leastHeld a.holders c.w
            let r := held.getD a.nxt
            let s := if held.isSome then s
              else updPipe s pi fun p => p.updAttach i fun a => { a with nxt := a.nxt + 1, holders := a.holders ++ [(r, lowestLane c.w)] }
            if r < p.pub then
              pipeDone (acquireIds s c.t c.w.keys (p.pubsUpTo r)) c u (writePipe vd (p.slotAddr r) r)
            else if p.closed then
              let s := updPipe s pi fun p => p.updAttach i fun a => { a with holders := a.holders.filter fun h => h.1 ≠ r }
              pipeDone s c u (writePipe vd 0 p.pub)
            else retryWord s c.t.tid c.w.wid .record

/-- PDONE (R323). -/
def execPdone (s : State) : Result :=
  let u := usesCtl [] [] [] 1
  runWord .pdone s u fun c =>
    withPipe c false fun _ _ _ =>
      let sids := c.w.active'.map (·.sid)
      match inHeld c.s c.t sids with
      | some (_, _, r :: rs) =>
        if ownUndone c.s c.t.tid c.w.wid then retryWord c.s c.t.tid c.w.wid .order
        else pairGate c.s c.t c.w 51 (r :: rs) fun s => pipeDone (releaseHeld s c.t c.w sids) c u id
      | _ => c.done u id

end Sys2Proof.Machine
end

