-- ==== Sys2Proof/Machine/Reliability.lean ====
section
/-! DEFINITION. Errors in stored state (25 R354 to R356), the watchdog tree (25 R357 to R360), redundant pairs' comparisons (25 R362) and
dropped requests (23 R345). -/

namespace Sys2Proof.Machine

open Sys2Proof

/-! ### Storage (R354, R356) -/

/-- The team whose allocation holds an offset of a cluster's scratchpad. -/
def scratchTeam (s : State) (c o : Nat) : Option Team :=
  s.teams.find? fun t => decide (t.place.cluster = c) && (copyBases s t).any fun b => decide (b ≤ o) && decide (o < b + t.place.scrSize)

/-- Where an event of a storage unit is, its address where one is known, and the team that it concerns (R364). A memory granule belongs to a
whole die. -/
def unitEntry (s : State) (u : EccUnit) : Entry × Option Team :=
  let at' (tid : Nat) (core : Team → Nat) : Entry × Option Team :=
    match getTeam s tid with
    | some t => ({ kind := 0x20, cluster := t.place.cluster, core := core t }, some t)
    | none => ({ kind := 0x20 }, none)
  match u with
  | .memory _ addr => ({ kind := 0x20, cluster := 0xFF, addr := addr }, none)
  | .scratch c o => ({ kind := 0x20, cluster := c }, scratchTeam s c o)
  | .vreg tid wid _ _ => at' tid fun t => match t.weft? wid with | some w => weftCore t w | none => t.place.core
  | .xreg tid _ => at' tid fun t => t.place.core
  | .feedRow c f _ => ({ kind := 0x20, cluster := c }, ((getFeed (getCluster s c) f).holder.bind fun i => (getCtx (getCluster s c).mx i).tid).bind (getTeam s))
  | .accum c slot _ _ _ => ({ kind := 0x20, cluster := c }, if 64 ≤ slot then none else (getCtx (getCluster s c).mx (slot / 16)).tid.bind (getTeam s))

/-- The die of a storage unit; a granule of memory is on its page's home. -/
def unitDie (s : State) : EccUnit → Nat
  | .memory fn addr => match findPage s.xlat fn addr with | some p => p.home.die | none => 0
  | .scratch c _ | .feedRow c _ _ | .accum c _ _ _ _ => dieOf c
  | .vreg tid _ _ _ | .xreg tid _ => match getTeam s tid with | some t => t.die | none => 0

/-- ECC_CORRECTED: the error is corrected in place and reported with code 1 (R354, R364). -/
def execEccCorrected (u : EccUnit) (s : State) : Result :=
  let (e, t) := unitEntry s u
  .next (correctedCheck s 1 (unitDie s u) t e)

/-- Poison the unit that holds an uncorrectable error; an accumulator element takes a wrong value, which its checksums may find
(R354, 16 R253). -/
def poisonUnit (s : State) : EccUnit → State
  | .memory fn addr =>
    [0, 1, 2, 3].foldl (fun s d =>
      { s with mem := updView s.mem d fun v => { v with poison := spSet false v.poison (gkey fn addr / 64) true } }) s
  | .scratch c o => updCluster s c fun k => { k with scrPoison := spSet false k.scrPoison (o / 64) true }
  | .vreg tid wid lane reg =>
    updWeft s tid wid fun w =>
      if w.alloc.getLsbD reg then
        { w with strands := updFirst (fun x => x.lane = lane) (fun x => x.setReg reg { x.reg reg with poison := true }) w.strands }
      else w
  | .xreg tid reg => updHart s tid fun h => if reg = 0 then h else { h with pois := h.pois ||| ((1 : BitVec 32) <<< reg) }
  | .feedRow c fd row =>
    updCluster s c fun k =>
      let x := spGet Feed.reset k.mx.feeds fd
      { k with mx := { k.mx with feeds := spSet Feed.reset k.mx.feeds fd { x with pois := spSet false x.pois row true } } }
  | .accum c slot row col v =>
    updCluster s c fun k =>
      let x := getSlot k slot
      putSlot k slot { x with elems := spSet Elem.zero x.elems (64 * row + col) { spGet Elem.zero x.elems (64 * row + col) with val := v } }

/-- ECC_UNCORRECTABLE: the unit is poisoned and code 2 reported; an error in the accumulator store is left to its checksums (R354). -/
def execEccUncorrectable (u : EccUnit) (s : State) : Result :=
  let (e, t) := unitEntry s u
  let s := poisonUnit s u
  match u with
  | .accum _ _ _ _ _ => .next s
  | .memory _ _ | .scratch _ _ | .vreg _ _ _ _ | .xreg _ _ | .feedRow _ _ _ => .next (machineCheck s 2 t e)

/-- PATROL_SCRUB: a granule is read and corrected data written back; poison stays (R354). -/
def execPatrolScrub (_ _ : Nat) (s : State) : Result := .next s

/-! ### Fences (R359) -/

/-- The teams that end with those of a cluster: its residents, and members of their gangs and chains elsewhere (R359, 02 R38). -/
def fencedTeams (s : State) (c : Nat) : List Team :=
  let l := residents s c
  let ring := closure s 160 [c]
  let linked (t : Team) : Bool :=
    (l.any fun x => bound s x t) ||
    (ring.contains t.place.cluster && (chainsOf s t.place.cluster (getCluster s t.place.cluster).mx).any
      fun i => (chainsOf s c (getCluster s c).mx).contains i && match t.place.ctx with
        | some j => formedId s t.place.cluster (getCtx (getCluster s t.place.cluster).mx j) = some i
        | none => false)
  l ++ (allTeams s).filter fun t => decide (t.place.cluster ≠ c) && linked t

/-- A cluster is fenced: its teams end with KIND 0x15 entries, its operations are retired, and dispatch no longer has it (R359). -/
def fence (s : State) (c : Nat) : State :=
  let s := (fencedTeams s c).foldl (fun s t =>
    endTeam s t.tid { EndCause.silent with entry := some { kind := 0x15 } }) s
  let s := dropAllHops s ((upFrom 0 16).flatMap fun ch => (getChan s c ch).copies.map (·.root))
  let s := updCluster s c fun k =>
    { Cluster.reset with
      scr := k.scr, empty := k.empty, scrPoison := k.scrPoison, cores := k.cores, fenced := true, hops := k.hops,
      chans := k.chans.map fun e => (e.1, { e.2 with copies := [] }) }
  machineCheck s 8 none { kind := 0x20, cluster := c }

/-- The MMUL of a context that has its array waits for an empty line or feed row (16 R242, R248). -/
def starves (s : State) (c i : Nat) : Bool :=
  let k := getCluster s c
  let x := getCtx k.mx i
  match headOp s c i, workOf s c i with
  | some o, some w =>
    let seg := nextSeg x w
    decide (k.mx.running = some i) &&
      if latched k i o seg then !o.isWest && (fetchA s c x w (x.steps % Nat.max 1 w.m) seg).isNone
      else !((upFrom 0 w.binding.n).all fun j => runFull k (whereOf s c x) w.binding.bmap j (segRange w.binding.bmap.fmt w.binding.k seg))
  | _, _ => false

/-- The image that the dispatcher serves next and whose restore is due on a cluster, the first that is free for it (02 R32, R37; log entry 105). -/
def restoreDue (s : State) (c : Nat) : Option Nat :=
  (s.loom.images.find? fun m =>
    (match pick s (dieOf m.home) [3, 2, 1, 0] with | .image i => decide (i = m.id) | _ => false) &&
    decide (((upFrom 0 160).find? fun i => (spotsFor s m.fn (imageSet s m) i).isSome) = some c)).map (·.id)

/-- What a cluster's engines are at, as the check of a period tells one piece of work from another (R359): the step of an MMUL that the array has
begun; of each channel with an uncounted copy that is not halted, how much it has counted and written; the save that has begun, and the restore
that has not been made. -/
def engineMarks (s : State) (c : Nat) : List (List Nat) :=
  let k := getCluster s c
  let step : List (List Nat) := match k.mx.running with
    | none => []
    | some i =>
      let x := getCtx k.mx i
      if ((together s c i).getD []).all (fun m => !starves s m.1 m.2) && (together s c i).isSome && (workOf s c i).isSome then
        [[0, i, x.tid.getD 0, ctxCounter x, x.steps, x.latches]]
      else []
  let channels := (upFrom 0 16).filterMap fun ch =>
    let x := getChan s c ch
    if x.copies.any fun y => !y.halted && !y.finished then some [1, ch, chanCounter x, x.copies.foldl (fun a y => a + y.prog + y.ahead.length) 0] else none
  let save : List (List Nat) := if k.preempt = .stopped then [2 :: (residents s c).map (·.tid)] else []
  let restore : List (List Nat) := match restoreDue s c with | some i => [[3, i]] | none => []
  step ++ channels ++ save ++ restore

/-- CLUSTER_PERIOD_CHECK, of the nth of a die's 40 clusters: the period that ends was stalled where some engine's work stands as it stood when it began; a stalled period counts,
another starts the count anew; after CCOUNT of them in a row the cluster is fenced (R359). -/
def execClusterPeriodCheck (die : BitVec 2) (n : Nat) (s : State) : Result :=
  let cluster := 40 * die.toNat + n
  let k := getCluster s cluster
  let marks := engineMarks s cluster
  if 40 ≤ n || k.fenced then .next s
  else if !marks.any k.seen.contains then .next (updCluster s cluster fun k => { k with stalled := 0, seen := marks })
  else if k.stalled + 1 < s.loom.wd.ccount then .next (updCluster s cluster fun k => { k with stalled := k.stalled + 1, seen := marks })
  else .next (fence s cluster)

/-- UNPOISONED_STATE_ERROR: every team that the state serves ends, and code 3 is reported; a cluster's shared state fences it
(R356). -/
def execUnpoisonedStateError (u : BareUnit) (s : State) : Result :=
  let one (tid : Nat) (core : Team → Nat) : State :=
    match getTeam s tid with
    | none => s
    | some t =>
      endTeam (machineCheck s 3 (some t) { kind := 0x20, cluster := t.place.cluster, core := core t }) tid EndCause.silent
  match u with
  | .weft tid wid => .next (one tid fun t => match t.weft? wid with | some w => weftCore t w | none => t.place.core)
  | .team tid => .next (one tid fun t => t.place.core)
  | .task fn tcb =>
    match s.teams.find? fun t => decide (t.ref = .task fn tcb) with
    | some t => .next (one t.tid fun t => t.place.core)
    | none => .next (machineCheck s 3 none { kind := 0x20, cluster := 0xFF })
  | .cluster c => if 160 ≤ c || (getCluster s c).fenced then .next s else .next (fence (machineCheck s 3 none { kind := 0x20, cluster := c }) c)

/-- FUNCTION_TAG_DROP: a request whose tag does not own its target is dropped and reported with code 7 (23 R345). -/
def execFunctionTagDrop (cluster : Nat) (fn addr : Nat) (s : State) : Result :=
  .next (machineCheck s 7 none { kind := 0x20, cluster := cluster, addr := if fn < 4 then addr else 0 })

/-! ### Waits (R358) -/

/-- The wait of a weft has a timer: not that of a page fault, a breakpoint, a chunk, a walk or an order (R358). -/
def watchedWait : Wait → Bool
  | .none => false
  | .retry n => decide (n < 16) && !([Why.order.code, Why.walk.code, Why.chunk.code, Why.yieldTurn.code].contains n)
  | .bar => true
  | .nbar _ _ => true
  | .veer _ _ _ => true
  | .regroup _ _ _ _ => true
  | .pairAccess => true
  | .pageFault => false
  | .chunk => false
  | .bkpt => false

/-- The wait of a hart has a timer (R358, 15 R220), as that for a structure in another module has (19 R301): not that for a chunk (05 R85). -/
def watchedHart (h : Hart) : Bool :=
  match h.wait with
  | .none | .fault | .bkpt => false
  | .retry n => (decide (n < 16) && decide (n ≠ Why.chunk.code)) || decide (2 ^ 96 ≤ n)
  | .load _ _ _ _ | .lr _ _ _ _ _ | .amo _ _ _ _ _ _ _ | .hend | .pairAccess => true

/-- The operation at the head of a context waits as R358 says: for an empty line or feed row, or for its chain to form (17 R275). -/
def watchedCtx (s : State) (c i : Nat) : Bool :=
  let x := getCtx (getCluster s c).mx i
  match headOp s c i with
  | some ⟨_, .mchain l p g, _, _⟩ => (formChain s c x { len := l, pos := p, tag := g }).isNone
  | some _ => starves s c i
  | none => false

/-- Timers of a team stand still: it is pre-empted, stopped by debug, at BKPT as by command, or its core moves (R358). -/
def timersStill (s : State) (t : Team) : Bool :=
  t.stopped || decide (t.held = some .breakpoint) || decide ((getCluster s t.place.cluster).preempt ≠ .none) ||
  (getCore s t.place.cluster t.place.core).moving.isSome || (t.place.pair && (getCore s t.place.cluster (t.place.core + 1)).moving.isSome)

/-- A team whose wait expired for the last time ends (R358). core: that of the agent, from the team's first. -/
def expired (s : State) (tid pc core : Nat) : State := endTeam s tid { EndCause.silent with entry := some { kind := 0x15, pc := pc, core := core } }

/-- WAIT_PERIOD_EXPIRY: an expiry of a wait counts; at the WCOUNT-th of one wait the team ends (R358). Nothing where the agent does
not wait, or its timer stands still. -/
def execWaitPeriodExpiry (w : Waiter) (s : State) : Result :=
  let last (n : Nat) : Bool := decide (s.loom.wd.wcount ≤ n + 1)
  match w with
  | .weft tid wid =>
    match getTeam s tid with
    | none => .next s
    | some t => match t.weft? wid with
      | none => .next s
      | some x =>
        if !watchedWait x.wait || timersStill s t then .next s
        else if last x.expiries then .next (expired s tid x.pos.xpc (coreIndex s t x))
        else .next (updWeft s tid wid fun x => { x with expiries := x.expiries + 1 })
  | .hart tid =>
    match getTeam s tid with
    | none => .next s
    | some t => match t.hart with
      | none => .next s
      | some h =>
        if !watchedHart h || timersStill s t then .next s
        else if last h.expiries then .next (expired s tid h.pc.toNat 0)
        else .next (updHart s tid fun h => { h with expiries := h.expiries + 1 })
  | .context c i =>
    let x := getCtx (getCluster s c).mx i
    match x.tid.bind (getTeam s), x.ops.head? with
    | some t, some o =>
      if !watchedCtx s c i || timersStill s t then .next s
      else
        let mark := (o.num, x.steps, x.latches)
        let n := if x.waitMark = mark then x.expiries else 0
        if last n then .next (expired s t.tid o.pc.toNat 0)
        else .next (updCtxOf s c i fun x => { x with expiries := n + 1, waitMark := mark })
    | _, _ => .next s

/-! ### Heartbeats (R360) -/

/-- HEARTBEAT: CP0 hears CP1 to CP3, CP1 hears CP0; a processor that misses PCOUNT in a row is reported with code 9, which asks for a
module reset, and its queues are served no more (R360). -/
def execHeartbeat (observer target : BitVec 2) (missed : Bool) (s : State) : Result :=
  let o := observer.toNat
  let t := target.toNat
  if !((o = 0 && decide (t ≠ 0)) || (o = 1 && decide (t = 0))) || spGet false s.loom.deadCp o || spGet false s.loom.deadCp t then .next s
  else
    let n := if missed then spGet 0 s.loom.missed t + 1 else 0
    let s := { s with loom := { s.loom with missed := spSet 0 s.loom.missed t n } }
    if n < s.loom.wd.pcount || !missed then .next s
    else
      let s := { s with loom := { s.loom with deadCp := spSet false s.loom.deadCp t true, resetRequested := true } }
      .next (machineCheck s 9 none { kind := 0x20, cluster := 0xFF })

/-- SELF_RESET: the module that asked for a reset resets itself (26 R378). -/
def execSelfReset (s : State) : Result := .next (if s.loom.resetRequested then moduleReset s else s)

/-- POWER_ON: the module resets (26 R378). -/
def execPowerOn (s : State) : Result := .next (moduleReset s)

/-! ### Redundant pairs (R362) -/

/-- A member's first waiting access may go on. -/
def grantAccess (s : State) (tid : Nat) (a : PairAccess) : State :=
  let s := updTeam s tid fun t => { t with visible := t.visible.drop 1 }
  if a.who = 4096 then updHart s tid fun h => { h with granted := true, wait := .none, expiries := 0 }
  else wake (updWeft s tid a.who fun w => { w with granted := true }) tid a.who

/-- The address of a pair's access, where it has one: of a word, that of its first lane (R364). -/
def PairAccess.addr (a : PairAccess) : Nat :=
  if a.who = 4096 then nthD 0 a.data (if 192 ≤ a.kind then 0 else 1) else if 48 ≤ a.kind then 0 else nthD 0 a.data 4

/-- PAIR_COMPARE: the first accesses of both members that wait for each other are compared. Equal, they are performed once; unequal,
the use of their data ends the pair with POISONED, and code 6 is reported (R362). Nothing where a member has none waiting. -/
def execPairCompare (tid : Nat) (s : State) : Result :=
  match getTeam s tid with
  | none => .next s
  | some t =>
    match t.partner.bind (getTeam s) with
    | none => .next s
    | some p =>
      match t.visible, p.visible with
      | a :: _, b :: _ =>
        if a.kind = b.kind && a.data = b.data then .next (grantAccess (grantAccess s t.tid a) p.tid b)
        else
          let (pc, lanes, core) : Nat × Nat × Nat :=
            if a.who = 4096 then ((match t.hart with | some h => h.pc.toNat | none => 0), 0, 0)
            else match t.weft? a.who with | some w => (w.pos.xpc, w.emBits, coreIndex s t w) | none => (0, 0, 0)
          let s := machineCheck s 6 (some t) { kind := 0x20, cluster := t.place.cluster, core := t.place.core + core, addr := a.addr }
          .next (poisonedEnd s t.tid pc lanes core)
      | _, _ => .next s

end Sys2Proof.Machine
end

