-- ==== Sys2Proof/Machine/Vane.lean ====
section
/-! DEFINITION. The Vane: power settings and limiter (26 R366 to R371), telemetry (26 R373, R374), and the clock's messages
(26 R372). -/

namespace Sys2Proof.Machine

open Sys2Proof

/-! ### Settings (R367, R373) -/

/-- A field of POWER.SET: zero selects its default. -/
def orDefault (v d : Nat) : Nat := if v = 0 then d else v

/-- A field of POWER.SET is zero or in its range. -/
def inRange (v lo hi : Nat) : Bool := decide (v = 0) || (decide (lo ≤ v) && decide (v ≤ hi))

/-- POWER.SET (R367). -/
def execPowerSet (f : Frame) (s : State) : Result :=
  runCommand 0xA0 true false f noDenial [(0x08, 9)] (fun c =>
    let ceil := fld f 0x08 2
    let rise := fld f 0x0A 2
    let fall := fld f 0x0C 2
    let bmax := fld f 0x0E 2
    let mode := fld f 0x10 1
    let ok := inRange ceil 200 2200 && inRange rise 1 10000 && inRange fall 1 10000 && inRange bmax 1 800 && decide (mode < 8)
    c.simple [(!ok, 1)] fun s =>
      { s with
        loom := { s.loom with
          power := { ceil := orDefault ceil 2200, rise := orDefault rise 200, fall := orDefault fall 200, bmax := orDefault bmax 400,
                     pmode := BitVec.ofNat 3 mode } } }) s

/-- TELEMETRY.SET (R373). It holds for the windows that end from now on: a record that is still owed goes where the settings before it say. -/
def execTelemetrySet (f : Frame) (s : State) : Result :=
  runCommand 0xA1 true false f noDenial [(0x10, 24)] (fun c =>
    let dest := fld f 0x1A 1
    let slots := fld f 0x1C 4
    let addr := fld f 0x20 8
    let ring := (upFrom 4 13).any fun i => slots = 2 ^ i
    c.simple [(!(decide (dest < 4) && decide (addr % 64 = 0) && ring), 1)] fun s =>
      { s with loom := { s.loom with
          telem := { raddr := BitVec.ofNat 64 addr, rslots := BitVec.ofNat 32 slots, ptpdom := BitVec.ofNat 8 (fld f 0x1B 1),
                     tdest := BitVec.ofNat 2 dest, dport := BitVec.ofNat 16 (fld f 0x18 2), dip := BitVec.ofNat 32 (fld f 0x14 4),
                     sip := BitVec.ofNat 32 (fld f 0x10 4) } } }) s

/-! ### The limiter (R368 to R370) -/

/-- The sum of samples in mW. -/
def sumOf (l : List Nat) : Nat := l.foldl (· + ·) 0

/-- A window of 100 samples is over: the next one starts without flags (R371). -/
def freshWindow (v : Vane) : Vane :=
  if v.samples.length < 100 then v
  else { v with samples := [], prevSum := some (sumOf v.samples), rise := false, ceil := false, fall := false, fallViol := false,
                ballSum := 0, telemSent := false }

/-- The highest sample that the ceiling allows: 100 samples in a row have at most the mean CEIL, so every span that is under way keeps its sum
within 100 times its ceiling from its first sample on. A span is held to the ceiling in force at its first sample: one that begins at or after
the first sample after a POWER.SET to the new one, one that it falls into to the one before it (R8, R368). -/
def ceilRoom (p : Power) (v : Vane) : Nat :=
  (v.recent.foldr (fun x a => (Nat.min a.1 (100000 * x.2 - (a.2 + x.1)), a.2 + x.1)) (100000 * p.ceil, 0)).1

/-- What the rise bound leaves of the window's sum (R368); none in the first window (log entry 7). -/
def riseRoom (p : Power) (v : Vane) : Option Nat := v.prevSum.map fun x => x + 10000 * p.rise - sumOf v.samples

/-- The least sum that the fall bound allows the window (R368). -/
def fallFloor (p : Power) (v : Vane) : Nat := match v.prevSum with | some x => x - 10000 * p.fall | none => 0

/-- A cluster holds filler alone: class-0 teams (02 R35). -/
def fillerOnly (s : State) (c : Nat) : Bool := !(residents s c).isEmpty && (residents s c).all fun t => t.cls = 0

/-- Pre-empt filler where some is resident: on a cluster at least, and on which ones besides a free number chooses, for how far it is needed
the Vane knows (R369). -/
def preemptFiller (s : State) (n : Nat) : State :=
  let l := (upFrom 0 160).filter fun c => fillerOnly s c && decide ((getCluster s c).preempt = .none)
  let chosen := l.filter fun c => n.testBit c
  (if chosen.isEmpty then l.take 1 else chosen).foldl requestPreempt s

/-- Some engine may run ballast: it is enabled, and no context of it holds an uncounted operation (R370, 16 R257). -/
def ballastEngine (s : State) : Bool :=
  (upFrom 0 160).any fun c => !Config.engineDisabled c && !(getCluster s c).fenced && (upFrom 0 5).all fun i => (getCtx (getCluster s c).mx i).ops.isEmpty

/-- Cores in service at a point (log entry 26). -/
def coresAt (s : State) (pt : BitVec 2) : Nat :=
  (((upFrom 0 160).filter fun c => !(getCluster s c).fenced && !Config.engineDisabled c).flatMap fun c =>
    [0, 1, 2, 3].filter fun i => (getCore s c i).pt = pt).length

/-- The end of a window: its record will say what stands now (R374), and every tenth window ends a millisecond of merged reports (25 R364). -/
def endWindow (s : State) : State :=
  let s := passTime s
  let stamp : Stamp := { secs := s.ptp.secs, nsec := s.ptp.nsec, sync := s.ptp.sync, cores := [coresAt s 0, coresAt s 1, coresAt s 2, coresAt s 3] }
  let n := (s.vane.windows + 1) % 10
  let s := { s with vane := { s.vane with stamp := stamp, dest := s.loom.telem, windows := n } }
  if n = 0 then flushMerged s else s

/-- Cores that the dispatcher needs at a point: those on which it would seat the work that it serves next, wherever that work's data lives
(02 R33). -/
def wantedCores (s : State) : List (Nat × Nat) :=
  [0, 1, 2, 3].flatMap fun d =>
    match pick s d [3, 2, 1, 0] with
    | .seated cls seq _ =>
      ((entriesOf s d cls).filter fun e => e.seq = seq).flatMap fun e => (upFrom 0 5).flatMap fun home =>
        match seatAll home s [] e.reqs with
        | some (u, _) => (u.teams.drop s.teams.length).flatMap fun t => t.cores.map fun i => (t.place.cluster, i)
        | none => []
    | _ => []

/-- The Vane may move a core: no team is on it, nor holds it to another core's point, and it does not move (02 R22; log entry 75). -/
def coreIdle (s : State) (c i : Nat) : Bool :=
  (teamsOn s c i).isEmpty && decide (coresWith s c i = [i]) && (getCore s c i).moving.isNone

/-- Cores without teams go to ZEPHYR, but for those that the dispatcher needs elsewhere (R366). -/
def restCores (s : State) : State :=
  let l := (s.clusters.map (·.1)).flatMap fun c => ([0, 1, 2, 3].filter fun i => coreIdle s c i && decide ((getCore s c i).pt ≠ 3)).map fun i => (c, i)
  if l.isEmpty then s
  else
    let wanted := wantedCores s
    (l.filter fun x => !wanted.contains x).foldl (fun s x => updCore s x.1 x.2 fun k => { k with moving := some 3 }) s

/-- IDLE_CORE_MOVE: the Vane moves a core without resident teams to ZEPHYR, where it is held (02 R22, R366). The move that the dispatcher needs
begins where it serves the team (02 R33). -/
def execIdleCoreMove (cluster core : Nat) (pt : BitVec 2) (s : State) : Result :=
  if decide (cluster < 160) && decide (core < 4) && decide (pt = 3) && coreIdle s cluster core && decide ((getCore s cluster core).pt ≠ 3) &&
      !(wantedCores s).contains (cluster, core) then
    .next (updCore s cluster core fun k => { k with moving := some 3 })
  else .next s

/-- VANE_SAMPLE: the draw that the module would have without the Vane in the next microsecond, in mW (R368). The sample is
that draw, held down to the ceiling and the rise bound by R369, or held up by ballast as R370 says. The demand's course through a
window is the Vane's estimate: a flag may be set as soon as the draw would break the window's bound if it went on, and is set when it
must be (log entry 27). Nothing while the record of the window before is still to be sent (R374). -/
def execVaneSample (mw : Nat) (s : State) : Result :=
  if decide (s.vane.samples.length = 100) && !s.vane.telemSent && decide (s.vane.dest.tdest ≠ 0) then .next s
  else
    let (early, s) := takeFree s
    let (which, s) := takeFree s
    let (gate, s) := takeFree s
    let p := s.loom.power
    let v := freshWindow s.vane
    let left := 100 - v.samples.length
    let cr := ceilRoom p v
    let overCeil := decide (cr < mw)
    let overRise := match riseRoom p v with
      | some r => decide (r < mw) || (early.testBit 0 && decide (r < mw * left))
      | none => false
    let top := Nat.min cr ((riseRoom p v).getD cr)
    let base := Nat.min mw top
    let short := fallFloor p v - (sumOf v.samples + base * left)
    let boost := if p.pmode.getLsbD 2 && ballastEngine s then 1000 * p.bmax else 0
    let falling := decide (0 < short) && (early.testBit 1 || decide ((left - 1) * boost < short)) && !(overCeil || overRise)
    let ball := if falling then Nat.min (top - base) (Nat.min boost ((short + left - 1) / left)) else 0
    let sample := base + ball
    let samples := v.samples ++ [sample]
    let v := { v with
      samples := samples, recent := (v.recent ++ [(sample, p.ceil)]).drop (v.recent.length + 1 - 99),
      ceil := v.ceil || overCeil, rise := v.rise || overRise, fall := v.fall || falling,
      fallViol := v.fallViol || (decide (samples.length = 100) && decide (sumOf samples < fallFloor p v)),
      gate := if overCeil || overRise then false else if falling && p.pmode.getLsbD 0 then true else v.gate && gate.testBit 0,
      ballast := ball, ballSum := v.ballSum + ball }
    let s := restCores { s with vane := v }
    let s := if overCeil || overRise then preemptFiller s which else s
    .next (if samples.length = 100 then endWindow s else s)

/-! ### Telemetry (R374) -/

/-- STATE of a record. -/
def Vane.stateByte (v : Vane) : Nat :=
  ofBool v.rise + 2 * ofBool v.fall + 4 * ofBool v.gate + 8 * ofBool (decide (v.ballast ≠ 0)) + 16 * ofBool v.fallViol + 32 * ofBool v.ceil

/-- The 64 bytes of a record. -/
def telemetryBytes (s : State) (tj : BitVec 16) (dies : List (BitVec 16)) : List Byte :=
  let v := s.vane
  let die (i : Nat) : List Byte := leBytes 2 (nthD 0 dies i).toNat
  let at' (i : Nat) : List Byte := leBytes 2 (nthD 0 v.stamp.cores i)
  leBytes 4 0x4D4C4554 ++ leBytes 4 v.telemSeq.toNat ++ leBytes 6 v.stamp.secs.toNat ++ leBytes 2 0 ++ leBytes 4 v.stamp.nsec ++
    leBytes 4 (sumOf v.samples / 100) ++ leBytes 4 (v.samples.foldl Nat.max 0) ++
    leBytes 4 (v.samples.foldl Nat.min (v.samples.foldl Nat.max 0)) ++
    (die 0 ++ die 1 ++ die 2 ++ die 3) ++ (at' 0 ++ at' 1 ++ at' 2 ++ at' 3) ++
    leBytes 2 (v.ballSum / 100000) ++ leBytes 2 tj.toNat ++ leBytes 1 v.stateByte ++ leBytes 1 v.stamp.sync.toNat ++ leBytes 2 0 ++
    leBytes 4 Config.moduleId.toNat ++ leBytes 4 0

/-- TELEMETRY_RECORD: at a window's end a record describes it, where the settings in force at that end name a destination (R373, R374). tj and dies are
the temperature and the draws that the Vane measures. -/
def execTelemetryRecord (tj : BitVec 16) (dies : List (BitVec 16)) (s : State) : Result :=
  if s.vane.samples.length ≠ 100 || s.vane.telemSent || s.vane.dest.tdest = 0 then .next s
  else
    let t := s.vane.dest
    let slot := if t.tdest.getLsbD 1 then t.raddr.toNat + 64 * (s.vane.telemSeq.toNat % t.rslots.toNat) else 0
    let r : Sent := { tdest := t.tdest, slot := slot, dip := t.dip, dport := t.dport, sip := t.sip, bytes := telemetryBytes s tj dies }
    .next { s with weave := { s.weave with sentRecords := s.weave.sentRecords ++ [r] },
                   vane := { s.vane with telemSeq := s.vane.telemSeq + 1, telemSent := true } }

/-! ### Time (R372) -/

/-- A Sync message is applied: the offset from the master is corrected, and time is locked. A forward step moves the stamp of its arrival
with the clock. The Delay_Req that measures the way back leaves at once, stamped by the clock as it then is (log entry 24). arrival: the clock
at the port when the Sync arrived. -/
def applySync (p : Ptp) (origin arrival : Nat) : Ptp :=
  let diff : Int := (arrival : Int) - origin
  let q := correct p (p.delay - diff)
  { q with syncDiff := diff + ((q.now : Int) - p.now), twoStep := none, sync := 1, since := 0, request := some (p.nextReq, q.now),
           nextReq := (p.nextReq + 1) % 65536 }

/-- PTP_SYNC: the module clock stamps its arrival; a one-step message of the domain is applied, a two-step one waits for its Follow_Up. -/
def execPtpSync (m : PtpSyncMsg) (s : State) : Result :=
  let s := passTime s
  if m.domain ≠ s.loom.telem.ptpdom then .next s
  else if m.twoStep then .next { s with ptp := { s.ptp with twoStep := some (timeNs s) } }
  else .next { s with ptp := applySync s.ptp m.origin (timeNs s) }

/-- PTP_FOLLOW_UP: the two-step Sync that waits is applied with its origin. -/
def execPtpFollowUp (origin : Nat) (s : State) : Result :=
  match s.ptp.twoStep with
  | none => .next s
  | some arrival => .next { s with ptp := applySync s.ptp origin arrival }

/-- PTP_DELAY_RESP: the answer to the Delay_Req of a sequence number, which the master received at a time of its own: the mean of both
directions is the path's delay (log entry 24). An answer to another request counts for nothing. -/
def execPtpDelayResp (seq received : Nat) (s : State) : Result :=
  match s.ptp.request with
  | some (n, sent) =>
    if n = seq then .next { s with ptp := { s.ptp with delay := (s.ptp.syncDiff + ((received : Int) - sent)) / 2, request := none } }
    else .next s
  | none => .next s

/-- PTP_HOLDOVER: two seconds after the last Sync locked time is in holdover. -/
def execPtpHoldover (s : State) : Result :=
  if s.ptp.sync ≠ 1 then .next s
  else
    let (k, s) := takeFree s
    .next { s with ptp := passBy s.ptp (2 * 10 ^ 9 - s.ptp.since) k }

end Sys2Proof.Machine
end

