-- ==== Sys2Proof/Machine/Trans.lean ====
section
/-! DEFINITION. The function minors of 08 R149: reciprocal, square roots, exponential, logarithm, sine and cosine of half-turns,
each the exact mathematical result rounded once. The transcendental ones are computed in fixed point with 320 fraction bits;
a result that is not exact is never a rounding boundary, so the sticky fraction decides every mode. DEDUCED (log entry 9). -/

namespace Sys2Proof.Machine

open Sys2Proof

/-- Integer square root, one bit at a time from bit n − 1 down. -/
def isqrtFrom : Nat → Nat → Nat → Nat
  | 0, r, _ => r
  | n + 1, r, x => let c := r + 2 ^ n; isqrtFrom n (if c * c ≤ x then c else r) x

/-- The largest r with r × r ≤ x, for x below 2^(2n). -/
def isqrt (n x : Nat) : Nat := isqrtFrom n 0 x

/-- RCP (08 R149). -/
def fRcp (rm x : Nat) : Nat :=
  match decodeF fp32 x with
  | .nan => nanCode fp32
  | .inf n => signBit fp32 n
  | .fin n m e =>
    if m = 0 then signBit fp32 n + infCode fp32
    else
      let q := 2 ^ 80 / m
      roundF fp32 rm false false n q (-80 - e) (2 ^ 80 % m != 0)

/-- SQRT (08 R149). -/
def fSqrt (rm x : Nat) : Nat :=
  match decodeF fp32 x with
  | .nan => nanCode fp32
  | .inf n => if n then nanCode fp32 else infCode fp32
  | .fin n m e =>
    if m = 0 then signBit fp32 n
    else if n then nanCode fp32
    else
      let odd := e % 2 != 0
      let m' := if odd then 2 * m else m
      let e' := if odd then e - 1 else e
      let a := m' <<< 80
      let r := isqrt 56 a
      roundF fp32 rm false false false r (e' / 2 - 40) (r * r != a)

/-- RSQ (08 R149). -/
def fRsq (rm x : Nat) : Nat :=
  match decodeF fp32 x with
  | .nan => nanCode fp32
  | .inf n => if n then nanCode fp32 else 0
  | .fin n m e =>
    if m = 0 then signBit fp32 n + infCode fp32
    else if n then nanCode fp32
    else
      let odd := e % 2 != 0
      let m' := if odd then 2 * m else m
      let e' := if odd then e - 1 else e
      let a := 2 ^ 160 / m'
      let r := isqrt 81 a
      roundF fp32 rm false false false r (-80 - e' / 2) (r * r * m' != 2 ^ 160)

/-- Fraction bits of the fixed-point computations. -/
def fxP : Nat := 320

/-- π × 2^336, rounded down. -/
def piFx : Nat := 0x3243f6a8885a308d313198a2e03707344a4093822299f31d0082efa98ec4e6c89452821e638d01377be54

/-- ln 2 × 2^336, rounded down. -/
def ln2Fx : Nat := 0xb17217f7d1cf79abc9e3b39803f2f6af40f343267298b62d8a0d175b8baafa2be7b876206debac985595

/-- Terms of the exponential series: fuel, index, y, term, sum. -/
def expTerms : Nat → Nat → Nat → Nat → Nat → Nat
  | 0, _, _, _, acc => acc
  | k + 1, n, y, term, acc => expTerms k (n + 1) y (((term * y) >>> fxP) / (n + 1)) (acc + term)

/-- e^y in fixed point, for y below 1 in fixed point. -/
def expFx (y : Nat) : Nat := expTerms 90 0 y (2 ^ fxP) 0

/-- EXP2 (08 R149). -/
def fExp2 (rm x : Nat) : Nat :=
  match decodeF fp32 x with
  | .nan => nanCode fp32
  | .inf n => if n then 0 else infCode fp32
  | .fin n m e =>
    if m = 0 then 0x3F800000
    else
      let big := decide ((512 : Int) ≤ e + (Nat.log2 m : Int)) || decide ((9 : Int) ≤ e + (Nat.log2 m : Int))
      if big then (if n then roundF fp32 rm false false false 1 (-400) true else roundF fp32 rm false false false 1 600 true)
      else
        -- |x| in fixed point is exact: x has at most 149 fraction bits
        let a := if 0 ≤ e then m <<< (e.toNat + fxP) else (m <<< fxP) >>> (-e).toNat
        let ip := a / 2 ^ fxP
        let fr := a % 2 ^ fxP
        let (i, f) : Int × Nat :=
          if n then (if fr = 0 then (-(ip : Int), 0) else (-(ip : Int) - 1, 2 ^ fxP - fr)) else ((ip : Int), fr)
        if f = 0 then roundF fp32 rm false false false 1 i false
        else
          let r := expFx ((f * ln2Fx) >>> 336)
          roundF fp32 rm false false false (r >>> 40) (i - (fxP : Int) + 40) true

/-- Terms of 2·atanh(t) in fixed point: fuel, odd index, t², t^index, sum. -/
def atanhTerms : Nat → Nat → Nat → Nat → Nat → Nat
  | 0, _, _, _, acc => 2 * acc
  | k + 1, n, t2, p, acc => atanhTerms k (n + 2) t2 ((p * t2) >>> fxP) (acc + p / n)

/-- LOG2 (08 R149). -/
def fLog2 (rm x : Nat) : Nat :=
  match decodeF fp32 x with
  | .nan => nanCode fp32
  | .inf n => if n then nanCode fp32 else infCode fp32
  | .fin n m e =>
    if m = 0 then signBit fp32 true + infCode fp32
    else if n then nanCode fp32
    else
      let l := Nat.log2 m
      let k : Int := e + (l : Int)
      if m = 2 ^ l then convertF fp32 rm false false (valOfInt false k 0)
      else
        -- z = m / 2^l in [1, 2); t = (z − 1) / (z + 1)
        let t := ((m - 2 ^ l) <<< fxP) / (m + 2 ^ l)
        let ln := atanhTerms 110 1 ((t * t) >>> fxP) t 0
        let lg := (ln <<< 336) / ln2Fx
        let v : Int := k * (2 ^ fxP : Nat) + (lg : Int)
        let w := v / (2 ^ 40 : Nat)
        if 0 ≤ w then roundF fp32 rm false false false w.toNat (-(fxP : Int) + 40) true
        else roundF fp32 rm false false true (-w - 1).toNat (-(fxP : Int) + 40) true

/-- Terms of the sine or cosine series in fixed point with alternating signs: fuel, next index, y², term, sum. -/
def trigTerms : Nat → Nat → Nat → Nat → Int → Bool → Int
  | 0, _, _, _, acc, _ => acc
  | k + 1, n, y2, term, acc, pos =>
    trigTerms k (n + 2) y2 (((term * y2) >>> fxP) / (n * (n + 1))) (if pos then acc + (term : Int) else acc - (term : Int)) (!pos)

/-- sin(πr) in fixed point, for r at most 1/4 in fixed point. -/
def sinFx (r : Nat) : Nat :=
  let y := (r * piFx) >>> 336
  (trigTerms 60 2 ((y * y) >>> fxP) y 0 true).toNat

/-- cos(πr) in fixed point, for r at most 1/4 in fixed point. -/
def cosFx (r : Nat) : Nat :=
  let y := (r * piFx) >>> 336
  (trigTerms 60 1 ((y * y) >>> fxP) (2 ^ fxP) 0 true).toNat

/-- |x| mod 2 in fixed point; exact, because x has at most 149 fraction bits. -/
def mod2Fx (m : Nat) (e : Int) : Nat :=
  if 1 ≤ e then 0 else if 0 ≤ e then (m % 2) * 2 ^ fxP else ((m <<< fxP) >>> (-e).toNat) % 2 ^ (fxP + 1)

/-- The magnitude of sin(πr) for r in (0, 1) not 1/2, in fixed point. -/
def sinHalfTurn (r : Nat) : Nat :=
  let h := 2 ^ fxP
  let r1 := if h / 2 < r then h - r else r
  if r1 ≤ h / 4 then sinFx r1 else cosFx (h / 2 - r1)

/-- SIN of half-turns (08 R149). -/
def fSin (rm x : Nat) : Nat :=
  match decodeF fp32 x with
  | .nan => nanCode fp32
  | .inf _ => nanCode fp32
  | .fin n m e =>
    if m = 0 then signBit fp32 n
    else
      let a := mod2Fx m e
      let h := 2 ^ fxP
      let r := a % h
      if r = 0 then signBit fp32 n
      else
        let neg := n != decide (h ≤ a)
        if r = h / 2 then roundF fp32 rm false false neg 1 0 false
        else roundF fp32 rm false false neg (sinHalfTurn r >>> 40) (-(fxP : Int) + 40) true

/-- COS of half-turns (08 R149). -/
def fCos (rm x : Nat) : Nat :=
  match decodeF fp32 x with
  | .nan => nanCode fp32
  | .inf _ => nanCode fp32
  | .fin _ m e =>
    if m = 0 then 0x3F800000
    else
      let h := 2 ^ fxP
      -- cos(πx) = sin(π(x + 1/2))
      let a := (mod2Fx m e + h / 2) % (2 * h)
      let r := a % h
      if r = 0 then 0
      else
        let neg := decide (h ≤ a)
        if r = h / 2 then roundF fp32 rm false false neg 1 0 false
        else roundF fp32 rm false false neg (sinHalfTurn r >>> 40) (-(fxP : Int) + 40) true

end Sys2Proof.Machine
end

