-- ==== Sys2Proof/Machine/VecAlu.lean ====
section
/-! DEFINITION. Integer arithmetic, logic, bit fields, PERM, SEL, comparisons, FP32 and packed arithmetic, the unary ALU group and
conversions (08). -/

namespace Sys2Proof.Machine

open Sys2Proof

/-! ### Integer arithmetic (R136, R137) -/

/-- An exact result, wrapped, or clamped under SAT (R136). -/
def satInt (m : Mods) (e : Int) : W32 := BitVec.ofInt 32 (if m.sat then clampInt (-(2 ^ 31)) (2 ^ 31 - 1) e else e)

/-- IADD (R136). -/
def execIadd (o : V3) (s : State) : Result := aluWord (.iadd o) o false .i (fun m x y _ => satInt m (x.toInt + y.toInt)) s
/-- ISUB (R136). -/
def execIsub (o : V3) (s : State) : Result := aluWord (.isub o) o false .i (fun m x y _ => satInt m (x.toInt - y.toInt)) s
/-- IMUL (R136). -/
def execImul (o : V3) (s : State) : Result := aluWord (.imul o) o false .i (fun m x y _ => satInt m (x.toInt * y.toInt)) s
/-- IMULH (R136). -/
def execImulh (o : V3) (s : State) : Result :=
  aluWord (.imulh o) o false .i (fun _ x y _ => BitVec.ofInt 32 (x.toInt * y.toInt / 2 ^ 32)) s
/-- IMULHU (R136). -/
def execImulhu (o : V3) (s : State) : Result :=
  aluWord (.imulhu o) o false .i (fun _ x y _ => BitVec.ofNat 32 (x.toNat * y.toNat / 2 ^ 32)) s
/-- IMAD (R136). -/
def execImad (o : V3) (s : State) : Result :=
  aluWord (.imad o) o true .i (fun m x y z => satInt m (x.toInt * y.toInt + z.toInt)) s
/-- IMIN (R136). -/
def execImin (o : V3) (s : State) : Result := aluWord (.imin o) o false .i (fun _ x y _ => if x.toInt ≤ y.toInt then x else y) s
/-- IMAX (R136). -/
def execImax (o : V3) (s : State) : Result := aluWord (.imax o) o false .i (fun _ x y _ => if x.toInt ≤ y.toInt then y else x) s
/-- UMIN (R136). -/
def execUmin (o : V3) (s : State) : Result := aluWord (.umin o) o false .i (fun _ x y _ => if x.toNat ≤ y.toNat then x else y) s
/-- UMAX (R136). -/
def execUmax (o : V3) (s : State) : Result := aluWord (.umax o) o false .i (fun _ x y _ => if x.toNat ≤ y.toNat then y else x) s

/-- What MOVI names. -/
def usesMovi (o : VMovi) : Uses := { codes := [], frees := [], holds := [], dests := [o.vd.toNat], len := 2 }

/-- MOVI: the immediate in every active strand, with clear poison (R137). -/
def execMovi (o : VMovi) (s : State) : Result :=
  let u := usesMovi o
  runWord (.movi o) s u fun c => c.done u (writeStrands fun _ => [(o.vd.toNat, { val := o.imm, poison := false })])

/-- What IADDI names. -/
def usesIaddi (o : VAddi) : Uses :=
  { codes := [o.sx], frees := markReg o.sx o.lx, holds := markReg o.sx o.hx, dests := [o.vd.toNat], len := 2 }

/-- IADDI (R137). -/
def execIaddi (o : VAddi) (s : State) : Result :=
  let u := usesIaddi o
  runWord (.iaddi o) s u fun c =>
    c.done u (writeStrands fun x =>
      let a := c.rd .i o.sx x
      [(o.vd.toNat, { val := a.val + o.imm, poison := a.poison })])

/-! ### Logic, shifts and bit fields (R138, R139) -/

/-- AND (R138). -/
def execAnd (o : V3) (s : State) : Result := aluWord (.and o) o false .i (fun _ x y _ => x &&& y) s
/-- OR (R138). -/
def execOr (o : V3) (s : State) : Result := aluWord (.or o) o false .i (fun _ x y _ => x ||| y) s
/-- XOR (R138). -/
def execXor (o : V3) (s : State) : Result := aluWord (.xor o) o false .i (fun _ x y _ => x ^^^ y) s
/-- ANDN (R138). -/
def execAndn (o : V3) (s : State) : Result := aluWord (.andn o) o false .i (fun _ x y _ => x &&& ~~~y) s
/-- SHL (R138). -/
def execShl (o : V3) (s : State) : Result := aluWord (.shl o) o false .i (fun _ x y _ => if y.toNat < 32 then x <<< y.toNat else 0) s
/-- SHR (R138). -/
def execShr (o : V3) (s : State) : Result := aluWord (.shr o) o false .i (fun _ x y _ => if y.toNat < 32 then x >>> y.toNat else 0) s
/-- SRA (R138). -/
def execSra (o : V3) (s : State) : Result :=
  aluWord (.sra o) o false .i (fun _ x y _ => x.sshiftRight (Nat.min y.toNat 31)) s
/-- ROTL (R138). -/
def execRotl (o : V3) (s : State) : Result := aluWord (.rotl o) o false .i (fun _ x y _ => x.rotateLeft (y.toNat % 32)) s

/-- POS of a bit field (R139). -/
def fieldPos (y : W32) : Nat := bitsOf y.toNat 0 5
/-- LEN of a bit field (R139). -/
def fieldLen (y : W32) : Nat := Nat.min (bitsOf y.toNat 8 6) 32

/-- BFX (R139). -/
def execBfx (o : V3) (s : State) : Result :=
  aluWord (.bfx o) o false .i (fun _ x y _ => BitVec.ofNat 32 (bitsOf x.toNat (fieldPos y) (fieldLen y))) s
/-- BFXS (R139). -/
def execBfxs (o : V3) (s : State) : Result :=
  aluWord (.bfxs o) o false .i (fun _ x y _ =>
    if fieldLen y = 0 then 0 else BitVec.ofInt 32 (signedOf (fieldLen y) (bitsOf x.toNat (fieldPos y) (fieldLen y)))) s
/-- BFI (R139). -/
def execBfi (o : V3) (s : State) : Result :=
  aluWord (.bfi o) o true .i (fun _ x y z =>
    let fm : W32 := BitVec.ofNat 32 ((2 ^ fieldLen y - 1) <<< fieldPos y)
    (z &&& ~~~fm) ||| ((x <<< fieldPos y) &&& fm)) s

/-- One byte that PERM looks up in T (R140). -/
def permByte (t b : Nat) : Nat :=
  if b.testBit 7 then 0 else if b.testBit 6 then bitsOf t (4 * (b % 16)) 4 else bitsOf t (8 * (b % 8)) 8

/-- PERM (R140). -/
def execPerm (o : V3) (s : State) : Result :=
  aluWord (.perm o) o true .i (fun _ x y z =>
    let t := x.toNat + 2 ^ 32 * z.toNat
    BitVec.ofNat 32 (leNat ((upFrom 0 4).map fun j => BitVec.ofNat 8 (permByte t (bitsOf y.toNat (8 * j) 8))))) s

/-- SEL: SZ names a mask (R141). -/
def execSel (o : V3) (s : State) : Result :=
  let m := o.ext.getD Mods.none
  let u := usesV3 o false [o.vd.toNat]
  runWord (.sel o) s u fun c =>
    c.done u (writeStrands fun x =>
      [(o.vd.toNat, if x.mask m.sz.toNat then c.xsrc m .i o.sx x else c.rd .i o.sy x)])

/-! ### Comparisons (R142) -/

/-- CMPEQ (R142). -/
def execCmpeq (o : VCmp) (s : State) : Result := cmpWord (.cmpeq o) o .i (fun x y => x = y) s
/-- CMPNE (R142). -/
def execCmpne (o : VCmp) (s : State) : Result := cmpWord (.cmpne o) o .i (fun x y => x ≠ y) s
/-- CMPLT (R142). -/
def execCmplt (o : VCmp) (s : State) : Result := cmpWord (.cmplt o) o .i (fun x y => x.toInt < y.toInt) s
/-- CMPLE (R142). -/
def execCmple (o : VCmp) (s : State) : Result := cmpWord (.cmple o) o .i (fun x y => x.toInt ≤ y.toInt) s
/-- CMPLTU (R142). -/
def execCmpltu (o : VCmp) (s : State) : Result := cmpWord (.cmpltu o) o .i (fun x y => x.toNat < y.toNat) s
/-- CMPLEU (R142). -/
def execCmpleu (o : VCmp) (s : State) : Result := cmpWord (.cmpleu o) o .i (fun x y => x.toNat ≤ y.toNat) s
/-- FCMPEQ (R142). -/
def execFcmpeq (o : VCmp) (s : State) : Result := cmpWord (.fcmpeq o) o .f (fun x y => fCmpEq x.toNat y.toNat) s
/-- FCMPLT (R142). -/
def execFcmplt (o : VCmp) (s : State) : Result := cmpWord (.fcmplt o) o .f (fun x y => fCmpLt x.toNat y.toNat) s
/-- FCMPLE (R142). -/
def execFcmple (o : VCmp) (s : State) : Result := cmpWord (.fcmple o) o .f (fun x y => fCmpLe x.toNat y.toNat) s
/-- FCMPUN (R142). -/
def execFcmpun (o : VCmp) (s : State) : Result := cmpWord (.fcmpun o) o .f (fun x y => fCmpUn x.toNat y.toNat) s

/-! ### FP32 arithmetic (R144, R145) -/

/-- A binary operation on codes of a format, as a function of 32-bit patterns. -/
def onWord (g : Nat → Nat → Nat → Nat → Nat) (m : Mods) (x y z : W32) : W32 := BitVec.ofNat 32 (g (rmOf m) x.toNat y.toNat z.toNat)

/-- FADD (R144). -/
def execFadd (o : V3) (s : State) : Result := aluWord (.fadd o) o false .f (onWord fun r x y _ => fAdd fp32 r x y) s
/-- FSUB (R144). -/
def execFsub (o : V3) (s : State) : Result := aluWord (.fsub o) o false .f (onWord fun r x y _ => fSub fp32 r x y) s
/-- FMUL (R144). -/
def execFmul (o : V3) (s : State) : Result := aluWord (.fmul o) o false .f (onWord fun r x y _ => fMul fp32 r x y) s
/-- FFMA (R144). -/
def execFfma (o : V3) (s : State) : Result := aluWord (.ffma o) o true .f (onWord fun r x y z => fFma fp32 r x y z) s
/-- FMIN (R145). -/
def execFmin (o : V3) (s : State) : Result := aluWord (.fmin o) o false .f (onWord fun _ x y _ => fMinMax fp32 false x y) s
/-- FMAX (R145). -/
def execFmax (o : V3) (s : State) : Result := aluWord (.fmax o) o false .f (onWord fun _ x y _ => fMinMax fp32 true x y) s

/-! ### Packed arithmetic (R146) -/

/-- Both halves of an element independently. -/
def onHalves (g : Nat → Nat → Nat → Nat → Nat) (m : Mods) (x y z : W32) : W32 :=
  let half (n : Nat) : Nat := g (rmOf m) (bitsOf x.toNat n 16) (bitsOf y.toNat n 16) (bitsOf z.toNat n 16)
  BitVec.ofNat 32 (half 0 + 65536 * half 16)

/-- HADD2 (R146). -/
def execHadd2 (o : V3) (s : State) : Result := aluWord (.hadd2 o) o false .h (onHalves fun r x y _ => fAdd fp16 r x y) s
/-- HMUL2 (R146). -/
def execHmul2 (o : V3) (s : State) : Result := aluWord (.hmul2 o) o false .h (onHalves fun r x y _ => fMul fp16 r x y) s
/-- HFMA2 (R146). -/
def execHfma2 (o : V3) (s : State) : Result := aluWord (.hfma2 o) o true .h (onHalves fun r x y z => fFma fp16 r x y z) s
/-- BADD2 (R146). -/
def execBadd2 (o : V3) (s : State) : Result := aluWord (.badd2 o) o false .b (onHalves fun r x y _ => fAdd bf16 r x y) s
/-- BMUL2 (R146). -/
def execBmul2 (o : V3) (s : State) : Result := aluWord (.bmul2 o) o false .b (onHalves fun r x y _ => fMul bf16 r x y) s
/-- BFMA2 (R146). -/
def execBfma2 (o : V3) (s : State) : Result := aluWord (.bfma2 o) o true .b (onHalves fun r x y z => fFma bf16 r x y z) s

/-! ### The unary ALU group (R147 to R149) -/

/-- MOV (R147). -/
def execMov (o : VU) (s : State) : Result := unaryWord (.mov o) o .i (fun _ x => x) s
/-- NOT (R147). -/
def execNot (o : VU) (s : State) : Result := unaryWord (.not o) o .i (fun _ x => ~~~x) s
/-- NEG (R147). -/
def execNeg (o : VU) (s : State) : Result := unaryWord (.neg o) o .i (fun m x => satInt m (-x.toInt)) s
/-- IABS (R147). -/
def execIabs (o : VU) (s : State) : Result := unaryWord (.iabs o) o .i (fun m x => satInt m x.toInt.natAbs) s
/-- Number of one bits of a word (R147). -/
def popCount (x : W32) : Nat := ((upFrom 0 32).filter fun i => x.getLsbD i).length
/-- POPC (R147). -/
def execPopc (o : VU) (s : State) : Result := unaryWord (.popc o) o .i (fun _ x => BitVec.ofNat 32 (popCount x)) s
/-- Leading zero bits of a word (R147). -/
def leadingZeros (x : W32) : Nat := ((upFrom 0 32).takeWhile fun i => !x.getLsbD (31 - i)).length
/-- CLZ (R147). -/
def execClz (o : VU) (s : State) : Result := unaryWord (.clz o) o .i (fun _ x => BitVec.ofNat 32 (leadingZeros x)) s
/-- Trailing zero bits of a word (R147). -/
def trailingZeros (x : W32) : Nat := ((upFrom 0 32).takeWhile fun i => !x.getLsbD i).length
/-- CTZ (R147). -/
def execCtz (o : VU) (s : State) : Result := unaryWord (.ctz o) o .i (fun _ x => BitVec.ofNat 32 (trailingZeros x)) s
/-- BREV (R147). -/
def execBrev (o : VU) (s : State) : Result := unaryWord (.brev o) o .i (fun _ x => x.reverse) s
/-- FABS (R147). -/
def execFabs (o : VU) (s : State) : Result := unaryWord (.fabs o) o .i (fun _ x => x &&& 0x7FFFFFFF) s
/-- FNEG (R147). -/
def execFneg (o : VU) (s : State) : Result := unaryWord (.fneg o) o .i (fun _ x => x ^^^ 0x80000000) s

/-- A function of a rounding mode and an FP32 code. -/
def onFloat (g : Nat → Nat → Nat) (m : Mods) (x : W32) : W32 := BitVec.ofNat 32 (g (rmOf m) x.toNat)

/-- RCP (R149). -/
def execRcp (o : VU) (s : State) : Result := unaryWord (.rcp o) o .f (onFloat fRcp) s
/-- RSQ (R149). -/
def execRsq (o : VU) (s : State) : Result := unaryWord (.rsq o) o .f (onFloat fRsq) s
/-- SQRT (R149). -/
def execSqrt (o : VU) (s : State) : Result := unaryWord (.sqrt o) o .f (onFloat fSqrt) s
/-- EXP2 (R149). -/
def execExp2 (o : VU) (s : State) : Result := unaryWord (.exp2 o) o .f (onFloat fExp2) s
/-- LOG2 (R149). -/
def execLog2 (o : VU) (s : State) : Result := unaryWord (.log2 o) o .f (onFloat fLog2) s
/-- SIN (R149). -/
def execSin (o : VU) (s : State) : Result := unaryWord (.sin o) o .f (onFloat fSin) s
/-- COS (R149). -/
def execCos (o : VU) (s : State) : Result := unaryWord (.cos o) o .f (onFloat fCos) s
/-- FLR (R148). -/
def execFlr (o : VU) (s : State) : Result := unaryWord (.flr o) o .f (fun _ x => BitVec.ofNat 32 (fIntegral 2 x.toNat)) s
/-- CEIL (R148). -/
def execCeil (o : VU) (s : State) : Result := unaryWord (.ceil o) o .f (fun _ x => BitVec.ofNat 32 (fIntegral 3 x.toNat)) s
/-- TRUNC (R148). -/
def execTrunc (o : VU) (s : State) : Result := unaryWord (.trunc o) o .f (fun _ x => BitVec.ofNat 32 (fIntegral 1 x.toNat)) s
/-- RNDE (R148). -/
def execRnde (o : VU) (s : State) : Result := unaryWord (.rnde o) o .f (fun _ x => BitVec.ofNat 32 (fIntegral 0 x.toNat)) s

/-! ### Scalar conversions (R150, R151) -/

/-- CVTFI (R150). -/
def execCvtfi (o : VU) (s : State) : Result :=
  unaryWord (.cvtfi o) o .f (fun m x => BitVec.ofInt 32 (convertInt (-(2 ^ 31)) (2 ^ 31 - 1) (rmOf m) (decodeF fp32 x.toNat))) s
/-- CVTFU (R150). -/
def execCvtfu (o : VU) (s : State) : Result :=
  unaryWord (.cvtfu o) o .f (fun m x => BitVec.ofInt 32 (convertInt 0 (2 ^ 32 - 1) (rmOf m) (decodeF fp32 x.toNat))) s
/-- CVTIF (R150). -/
def execCvtif (o : VU) (s : State) : Result :=
  unaryWord (.cvtif o) o .i (fun m x => BitVec.ofNat 32 (convertF fp32 (rmOf m) false false (valOfInt false x.toInt 0))) s
/-- CVTUF (R150). -/
def execCvtuf (o : VU) (s : State) : Result :=
  unaryWord (.cvtuf o) o .i (fun m x => BitVec.ofNat 32 (convertF fp32 (rmOf m) false false (valOfInt false x.toNat 0))) s
/-- CVTHF (R151). DEDUCED (log entry 91): an inline integer delivers its 32-bit pattern. -/
def execCvthf (o : VU) (s : State) : Result :=
  unaryWord (.cvthf o) o .i (fun _ x => BitVec.ofNat 32 (convertF fp32 0 false false (decodeF fp16 (bitsOf x.toNat 0 16)))) s
/-- CVTBF (R151). DEDUCED (log entry 91): an inline integer delivers its 32-bit pattern. -/
def execCvtbf (o : VU) (s : State) : Result :=
  unaryWord (.cvtbf o) o .i (fun _ x => BitVec.ofNat 32 (convertF fp32 0 false false (decodeF bf16 (bitsOf x.toNat 0 16)))) s
/-- CVTFH (R151). -/
def execCvtfh (o : VU) (s : State) : Result :=
  unaryWord (.cvtfh o) o .f (fun m x => BitVec.ofNat 32 (convertF fp16 (rmOf m) m.sat false (decodeF fp32 x.toNat))) s
/-- CVTFB (R151). -/
def execCvtfb (o : VU) (s : State) : Result :=
  unaryWord (.cvtfb o) o .f (fun m x => BitVec.ofNat 32 (convertF bf16 (rmOf m) m.sat false (decodeF fp32 x.toNat))) s

/-! ### Packed conversions (R152 to R155) -/

/-- The bits an element takes in storage. -/
def packBits (fmt : Nat) : Nat := if fmtWidth fmt = 6 then 8 else fmtWidth fmt

/-- The element that NRWn writes: n source registers narrowed into group grp of the old element d, whose other groups are kept;
sc: the scale element (R154). -/
def packElems (o : VPack) (n : Nat) (sc d : Elem) (x : Strand) : Elem :=
  let m := o.ext.getD Mods.none
  let fmt := o.fmt.toNat
  let w := packBits fmt
  let scale := if m.sz = 0x68 then 127 else sc.val.toNat
  let step (a : Nat × Bool) (j : Nat) : Nat × Bool :=
    let e := x.reg (o.sx.toNat + j)
    let v := if m.nx then e.val ^^^ 0x80000000 else e.val
    let q := narrowElem fmt (rmOf m) m.sat m.ny scale v.toNat
    let at' := (o.grp.toNat * n + j) * w
    (a.1 - bitsOf a.1 at' w * 2 ^ at' + q % 2 ^ w * 2 ^ at', a.2 || e.poison)
  let r := (upFrom 0 n).foldl step (d.val.toNat, sc.poison)
  { val := BitVec.ofNat 32 r.1, poison := r.2 || (decide (n * w < 32) && d.poison) }

/-- What an NRWn word names. -/
def usesNrw (o : VPack) (n : Nat) : Uses :=
  let m := o.ext.getD Mods.none
  let run := upFrom o.sx.toNat n
  { codes := (run.map fun r => BitVec.ofNat 7 r) ++ [m.sz, o.vd.setWidth 7],
    frees := (if o.lx then run else []) ++ markReg m.sz m.lz, holds := (if o.hx then run else []) ++ markReg m.sz m.hz,
    dests := [o.vd.toNat], len := wordsOf o.ext }

/-- NRWn: n registers from SX into group GRP of VD, whose other groups are kept (R154). -/
def nrwWord (i : Instr) (n : Nat) (o : VPack) (s : State) : Result :=
  let m := o.ext.getD Mods.none
  let u := usesNrw o n
  runWord i s u fun c =>
    c.done u (writeStrands fun x => [(o.vd.toNat, packElems o n (c.rd .i m.sz x) (x.reg o.vd.toNat) x)])

/-- NRW2 (R154). -/
def execNrw2 (o : VPack) (s : State) : Result := nrwWord (.nrw2 o) 2 o s
/-- NRW4 (R154). -/
def execNrw4 (o : VPack) (s : State) : Result := nrwWord (.nrw4 o) 4 o s
/-- NRW8 (R154). -/
def execNrw8 (o : VPack) (s : State) : Result := nrwWord (.nrw8 o) 8 o s

/-- What a WDNn word names. -/
def usesWdn (o : VPack) (n : Nat) : Uses :=
  let m := o.ext.getD Mods.none
  { codes := [o.sx, m.sz], frees := markReg o.sx o.lx ++ markReg m.sz m.lz, holds := markReg o.sx o.hx ++ markReg m.sz m.hz,
    dests := upFrom o.vd.toNat n, len := wordsOf o.ext }

/-- Element j of group grp of a source, widened; sc: the scale element (R155). -/
def unpackElem (o : VPack) (n : Nat) (sc a : Elem) (j : Nat) : Elem :=
  let m := o.ext.getD Mods.none
  let fmt := o.fmt.toNat
  let w := packBits fmt
  let scale := if m.sz = 0x68 then 127 else sc.val.toNat
  { val := BitVec.ofNat 32 (widenElem fmt (rmOf m) scale (bitsOf a.val.toNat ((o.grp.toNat * n + j) * w) w)),
    poison := a.poison || sc.poison }

/-- How WDNn reads SX: packed constants of its format (R153). -/
def unpackKind (o : VPack) : Kind := if o.fmt = 2 then .h else if o.fmt = 1 then .b else .i

/-- WDNn: group GRP of SX into n registers from VD (R155). -/
def wdnWord (i : Instr) (n : Nat) (o : VPack) (s : State) : Result :=
  let m := o.ext.getD Mods.none
  let u := usesWdn o n
  runWord i s u fun c =>
    c.done u (writeStrands fun x =>
      (upFrom 0 n).map fun j =>
        (o.vd.toNat + j, unpackElem o n (c.rd .i m.sz x) (c.rd (unpackKind o) o.sx x) j))

/-- WDN2 (R155). -/
def execWdn2 (o : VPack) (s : State) : Result := wdnWord (.wdn2 o) 2 o s
/-- WDN4 (R155). -/
def execWdn4 (o : VPack) (s : State) : Result := wdnWord (.wdn4 o) 4 o s
/-- WDN8 (R155). -/
def execWdn8 (o : VPack) (s : State) : Result := wdnWord (.wdn8 o) 8 o s

end Sys2Proof.Machine
end

