-- ==== Sys2Proof/Machine/VecLanes.lean ====
section
/-! DEFINITION. Mask operations, shuffles, votes, ballot, scans and reductions, REGROUP and UNGROUP (09). -/

namespace Sys2Proof.Machine

open Sys2Proof

/-- A mask operation on every strand that holds a lane (R158). -/
def maskWord (i : Instr) (o : VMask) (op : Bool → Bool → Bool) (s : State) : Result :=
  let m := o.ext.getD Mods.none
  let u := usesNone (wordsOf o.ext)
  runWord i s u fun c =>
    c.done u fun w =>
      { w with strands := w.strands.map fun x =>
          x.setMask o.md.toNat (op (x.mask o.mx.toNat != m.nx) (x.mask o.my.toNat != m.ny)) }

/-- MAND (R158). -/
def execMand (o : VMask) (s : State) : Result := maskWord (.mand o) o (fun a b => a && b) s
/-- MOR (R158). -/
def execMor (o : VMask) (s : State) : Result := maskWord (.mor o) o (fun a b => a || b) s

/-- A shuffle: SX of the lane that f names for a lane and the value of SY (R157, R159). -/
def shuffle (c : VCtx) (sx sy : BitVec 7) (f : Nat → Nat → Int) (x : Strand) : Elem :=
  let y := c.rd .i sy x
  let t := f x.lane y.val.toNat
  if t < 0 || (c.wd : Int) ≤ t then { val := 0, poison := y.poison }
  else
    match c.w.at t.toNat with
    | none => { val := 0, poison := y.poison }
    | some z =>
      let e := c.rd .i sx z
      { e with poison := e.poison || y.poison }

/-- A shuffle word. -/
def shuffleWord (i : Instr) (o : V3) (f : Nat → Nat → Int) (s : State) : Result :=
  let u := usesV3 o false [o.vd.toNat]
  runWord i s u fun c => c.done u (writeStrands fun x => [(o.vd.toNat, shuffle c o.sx o.sy f x)])

/-- SHFL (R159). -/
def execShfl (o : V3) (s : State) : Result := shuffleWord (.shfl o) o (fun _ y => y) s
/-- SHFLUP (R159). -/
def execShflup (o : V3) (s : State) : Result := shuffleWord (.shflup o) o (fun l y => (l : Int) - y) s
/-- SHFLDN (R159). -/
def execShfldn (o : V3) (s : State) : Result := shuffleWord (.shfldn o) o (fun l y => (l : Int) + y) s
/-- SHFLX (R159). -/
def execShflx (o : V3) (s : State) : Result := shuffleWord (.shflx o) o (fun l y => ((l ^^^ y : Nat) : Int)) s

/-- What BCAST names. -/
def usesBcast (o : VBcast) : Uses :=
  { codes := [o.sx, o.sy], frees := markReg o.sx o.lx, holds := markReg o.sx o.hx, dests := [o.vd.toNat], len := wordsOf o.ext }

/-- BCAST (R159). -/
def execBcast (o : VBcast) (s : State) : Result :=
  let u := usesBcast o
  runWord (.bcast o) s u fun c =>
    c.done u (writeStrands fun x => [(o.vd.toNat, shuffle c o.sx o.sy (fun _ y => y) x)])

/-- A vote: every active strand receives one result, with the OR of the active strands' poison (R160). -/
def voteWord (i : Instr) (o : VU) (op : List W32 → W32) (s : State) : Result :=
  let u := usesVU o [o.vd.toNat]
  runWord i s u fun c =>
    let es := c.w.active'.map fun x => c.rd .i o.sx x
    c.done u (writeStrands fun _ => [(o.vd.toNat, { val := op (es.map (·.val)), poison := es.any (·.poison) })])

/-- VANY (R160). -/
def execVany (o : VU) (s : State) : Result := voteWord (.vany o) o (fun l => if l.any (· ≠ 0) then 1 else 0) s
/-- VALL (R160). -/
def execVall (o : VU) (s : State) : Result := voteWord (.vall o) o (fun l => if l.all (· ≠ 0) then 1 else 0) s

/-- What BALLOT names. -/
def usesBallot (o : VBallot) : Uses :=
  { codes := [o.sx], frees := markReg o.sx o.lx, holds := markReg o.sx o.hx, dests := [o.vd.toNat], len := wordsOf o.ext }

/-- BALLOT: one half of the weft (R161). -/
def execBallot (o : VBallot) (s : State) : Result :=
  let u := usesBallot o
  runWord (.ballot o) s u fun c =>
    let bits := c.lanes fun x => (c.rd .i o.sx x).val ≠ 0
    let p := c.w.active'.any fun x => (c.rd .i o.sx x).poison
    c.done u (writeStrands fun _ =>
      [(o.vd.toNat, { val := BitVec.ofNat 32 (bits >>> (if o.half then 32 else 0)), poison := p })])

/-! ### Scans and reductions (R162 to R164) -/

/-- Integer operations of SCAN and RED. -/
def scanInt (opc : Nat) (a b : W32) : W32 :=
  match opc with
  | 0 => a + b
  | 1 => if a.toInt ≤ b.toInt then a else b
  | 2 => if a.toInt ≤ b.toInt then b else a
  | 3 => if a.toNat ≤ b.toNat then a else b
  | 4 => if a.toNat ≤ b.toNat then b else a
  | 5 => a &&& b
  | 6 => a ||| b
  | _ => a ^^^ b

/-- Identities of the integer operations. -/
def identInt (opc : Nat) : W32 :=
  match opc with
  | 1 => 0x7FFFFFFF
  | 2 => 0x80000000
  | 3 => 0xFFFFFFFF
  | 5 => 0xFFFFFFFF
  | _ => 0

/-- Operations of FSCAN and FRED. -/
def scanFloat (opc rm : Nat) (a b : W32) : W32 :=
  BitVec.ofNat 32 (match opc with
    | 0 => fAdd fp32 rm a.toNat b.toNat
    | 1 => fMinMax fp32 false a.toNat b.toNat
    | _ => fMinMax fp32 true a.toNat b.toNat)

/-- Identities of the floating operations. -/
def identFloat (opc : Nat) : W32 :=
  match opc with
  | 1 => 0x7F800000
  | 2 => 0xFF800000
  | _ => 0

/-- Fold elements in order: the first enters unchanged; an empty list gives the identity with poison clear (R163, R164). -/
def foldElems (op : W32 → W32 → W32) (ident : W32) : List Elem → Elem
  | [] => { val := ident, poison := false }
  | e :: t => t.foldl (fun a b => { val := op a.val b.val, poison := a.poison || b.poison }) e

/-- The value of a scan at a lane: the fold over contributors at lower lanes, and at its own lane unless exclusive (R163). -/
def scanAt (c : VCtx) (k : Kind) (sx : BitVec 7) (ex : Bool) (op : W32 → W32 → W32) (ident : W32) (x : Strand) : Elem :=
  foldElems op ident ((c.w.active'.filter fun y => decide (y.lane < x.lane) || (!ex && decide (y.lane = x.lane))).map fun y => c.rd k sx y)

/-- What a scan word names. -/
def usesScan (o : VScan) : Uses :=
  { codes := [o.sx], frees := markReg o.sx o.lx, holds := markReg o.sx o.hx, dests := [o.vd.toNat], len := wordsOf o.ext }

/-- SCAN (R163). -/
def execScan (o : VScan) (s : State) : Result :=
  let u := usesScan o
  runWord (.scan o) s u fun c =>
    c.done u (writeStrands fun x => [(o.vd.toNat, scanAt c .i o.sx o.ex (scanInt o.opc.toNat) (identInt o.opc.toNat) x)])

/-- FSCAN (R163, R164). -/
def execFscan (o : VScan) (s : State) : Result :=
  let u := usesScan o
  let rm := rmOf (o.ext.getD Mods.none)
  runWord (.fscan o) s u fun c =>
    c.done u (writeStrands fun x => [(o.vd.toNat, scanAt c .f o.sx o.ex (scanFloat o.opc.toNat rm) (identFloat o.opc.toNat) x)])

/-- RED (R163). -/
def execRed (o : VScan) (s : State) : Result :=
  let u := usesScan o
  runWord (.red o) s u fun c =>
    let r := foldElems (scanInt o.opc.toNat) (identInt o.opc.toNat) (c.w.active'.map fun y => c.rd .i o.sx y)
    c.done u (writeStrands fun _ => [(o.vd.toNat, r)])

/-- One level of FRED's tree over lane positions (R164). -/
def treeLevel (op : W32 → W32 → W32) : List (Option Elem) → List (Option Elem)
  | a :: b :: t =>
    (match a, b with
     | some x, some y => some { val := op x.val y.val, poison := x.poison || y.poison }
     | some x, none => some x
     | none, y => y) :: treeLevel op t
  | l => l

/-- The tree from the lanes to its single top node. -/
def treeTop (op : W32 → W32 → W32) : Nat → List (Option Elem) → Option Elem
  | 0, l => l.headD none
  | n + 1, l => treeTop op n (treeLevel op l)

/-- FRED (R164). -/
def execFred (o : VScan) (s : State) : Result :=
  let u := usesScan o
  let rm := rmOf (o.ext.getD Mods.none)
  runWord (.fred o) s u fun c =>
    let leaf (l : Nat) : Option Elem := match c.w.at l with | some x => if x.em then some (c.rd .f o.sx x) else none | none => none
    let r := treeTop (scanFloat o.opc.toNat rm) 6 ((upFrom 0 c.wd).map leaf)
    c.done u (writeStrands fun _ => [(o.vd.toNat, r.getD { val := identFloat o.opc.toNat, poison := false })])

/-! ### REGROUP and UNGROUP (R165) -/

/-- Arrive at a REGROUP or UNGROUP rendezvous: the word issues there, so its destination is allocated (07 R120; log entry 71). em must equal the live mask, and RPOS that of the wefts that already wait there. -/
def arriveRegroup (i : Instr) (un : Bool) (vd : BitVec 6) (s : State) : Result :=
  runWord i s { usesNone 1 with dests := [vd.toNat] } fun c =>
    let differs := c.t.live.any fun w => sameRegroup w un c.w.pos.clause c.w.pos.word && decide (w.rpos ≠ c.w.rpos)
    if c.w.strands.any (fun x => !x.em) || differs then trapWord c.s c.t c.w 3 0 0 c.w.emBits
    else
      let s := updWeft c.s c.t.tid c.w.wid fun w => w.allocate [vd.toNat]
      .next (tryRegroup (swapOut s c.t.tid c.w.wid (.regroup un vd c.w.pos.clause c.w.pos.word)) c.t.tid c.w.wid)

/-- REGROUP (R165 to R167). -/
def execRegroup (vd : BitVec 6) (s : State) : Result := arriveRegroup (.regroup vd) false vd s
/-- UNGROUP (R165 to R167). -/
def execUngroup (vd : BitVec 6) (s : State) : Result := arriveRegroup (.ungroup vd) true vd s

end Sys2Proof.Machine
end

