-- ==== Sys2Proof/Machine/Dispatch.lean ====
section
/-! DEFINITION. The meaning of every step: one arm for each constructor of Instr. -/

namespace Sys2Proof.Machine

open Sys2Proof

def exec (i : Instr) (s : State) : Host.Outcome State Fault Refusal :=
  match i with
  | .iadd o => Sys2Proof.Machine.execIadd o s
  | .isub o => Sys2Proof.Machine.execIsub o s
  | .imul o => Sys2Proof.Machine.execImul o s
  | .imulh o => Sys2Proof.Machine.execImulh o s
  | .imulhu o => Sys2Proof.Machine.execImulhu o s
  | .imad o => Sys2Proof.Machine.execImad o s
  | .imin o => Sys2Proof.Machine.execImin o s
  | .imax o => Sys2Proof.Machine.execImax o s
  | .umin o => Sys2Proof.Machine.execUmin o s
  | .umax o => Sys2Proof.Machine.execUmax o s
  | .and o => Sys2Proof.Machine.execAnd o s
  | .or o => Sys2Proof.Machine.execOr o s
  | .xor o => Sys2Proof.Machine.execXor o s
  | .andn o => Sys2Proof.Machine.execAndn o s
  | .shl o => Sys2Proof.Machine.execShl o s
  | .shr o => Sys2Proof.Machine.execShr o s
  | .sra o => Sys2Proof.Machine.execSra o s
  | .rotl o => Sys2Proof.Machine.execRotl o s
  | .bfx o => Sys2Proof.Machine.execBfx o s
  | .bfxs o => Sys2Proof.Machine.execBfxs o s
  | .bfi o => Sys2Proof.Machine.execBfi o s
  | .perm o => Sys2Proof.Machine.execPerm o s
  | .sel o => Sys2Proof.Machine.execSel o s
  | .cmpeq o => Sys2Proof.Machine.execCmpeq o s
  | .cmpne o => Sys2Proof.Machine.execCmpne o s
  | .cmplt o => Sys2Proof.Machine.execCmplt o s
  | .cmple o => Sys2Proof.Machine.execCmple o s
  | .cmpltu o => Sys2Proof.Machine.execCmpltu o s
  | .cmpleu o => Sys2Proof.Machine.execCmpleu o s
  | .fcmpeq o => Sys2Proof.Machine.execFcmpeq o s
  | .fcmplt o => Sys2Proof.Machine.execFcmplt o s
  | .fcmple o => Sys2Proof.Machine.execFcmple o s
  | .fcmpun o => Sys2Proof.Machine.execFcmpun o s
  | .fadd o => Sys2Proof.Machine.execFadd o s
  | .fsub o => Sys2Proof.Machine.execFsub o s
  | .fmul o => Sys2Proof.Machine.execFmul o s
  | .ffma o => Sys2Proof.Machine.execFfma o s
  | .fmin o => Sys2Proof.Machine.execFmin o s
  | .fmax o => Sys2Proof.Machine.execFmax o s
  | .hadd2 o => Sys2Proof.Machine.execHadd2 o s
  | .hmul2 o => Sys2Proof.Machine.execHmul2 o s
  | .hfma2 o => Sys2Proof.Machine.execHfma2 o s
  | .badd2 o => Sys2Proof.Machine.execBadd2 o s
  | .bmul2 o => Sys2Proof.Machine.execBmul2 o s
  | .bfma2 o => Sys2Proof.Machine.execBfma2 o s
  | .movi o => Sys2Proof.Machine.execMovi o s
  | .iaddi o => Sys2Proof.Machine.execIaddi o s
  | .cvtfi o => Sys2Proof.Machine.execCvtfi o s
  | .cvtfu o => Sys2Proof.Machine.execCvtfu o s
  | .cvtif o => Sys2Proof.Machine.execCvtif o s
  | .cvtuf o => Sys2Proof.Machine.execCvtuf o s
  | .nrw2 o => Sys2Proof.Machine.execNrw2 o s
  | .nrw4 o => Sys2Proof.Machine.execNrw4 o s
  | .nrw8 o => Sys2Proof.Machine.execNrw8 o s
  | .wdn2 o => Sys2Proof.Machine.execWdn2 o s
  | .wdn4 o => Sys2Proof.Machine.execWdn4 o s
  | .wdn8 o => Sys2Proof.Machine.execWdn8 o s
  | .mov o => Sys2Proof.Machine.execMov o s
  | .not o => Sys2Proof.Machine.execNot o s
  | .neg o => Sys2Proof.Machine.execNeg o s
  | .iabs o => Sys2Proof.Machine.execIabs o s
  | .popc o => Sys2Proof.Machine.execPopc o s
  | .clz o => Sys2Proof.Machine.execClz o s
  | .ctz o => Sys2Proof.Machine.execCtz o s
  | .brev o => Sys2Proof.Machine.execBrev o s
  | .fabs o => Sys2Proof.Machine.execFabs o s
  | .fneg o => Sys2Proof.Machine.execFneg o s
  | .rcp o => Sys2Proof.Machine.execRcp o s
  | .rsq o => Sys2Proof.Machine.execRsq o s
  | .sqrt o => Sys2Proof.Machine.execSqrt o s
  | .exp2 o => Sys2Proof.Machine.execExp2 o s
  | .log2 o => Sys2Proof.Machine.execLog2 o s
  | .sin o => Sys2Proof.Machine.execSin o s
  | .cos o => Sys2Proof.Machine.execCos o s
  | .flr o => Sys2Proof.Machine.execFlr o s
  | .ceil o => Sys2Proof.Machine.execCeil o s
  | .trunc o => Sys2Proof.Machine.execTrunc o s
  | .rnde o => Sys2Proof.Machine.execRnde o s
  | .cvthf o => Sys2Proof.Machine.execCvthf o s
  | .cvtbf o => Sys2Proof.Machine.execCvtbf o s
  | .cvtfh o => Sys2Proof.Machine.execCvtfh o s
  | .cvtfb o => Sys2Proof.Machine.execCvtfb o s
  | .ldg8 o => Sys2Proof.Machine.execLdg8 o s
  | .ldg8s o => Sys2Proof.Machine.execLdg8s o s
  | .ldg16 o => Sys2Proof.Machine.execLdg16 o s
  | .ldg16s o => Sys2Proof.Machine.execLdg16s o s
  | .ldg32 o => Sys2Proof.Machine.execLdg32 o s
  | .ldg64 o => Sys2Proof.Machine.execLdg64 o s
  | .stg8 o => Sys2Proof.Machine.execStg8 o s
  | .stg16 o => Sys2Proof.Machine.execStg16 o s
  | .stg32 o => Sys2Proof.Machine.execStg32 o s
  | .stg64 o => Sys2Proof.Machine.execStg64 o s
  | .ldgs o => Sys2Proof.Machine.execLdgs o s
  | .atomg o => Sys2Proof.Machine.execAtomg o s
  | .fence o => Sys2Proof.Machine.execFence o s
  | .waitp o => Sys2Proof.Machine.execWaitp o s
  | .lds8 o => Sys2Proof.Machine.execLds8 o s
  | .lds16 o => Sys2Proof.Machine.execLds16 o s
  | .lds32 o => Sys2Proof.Machine.execLds32 o s
  | .lds64 o => Sys2Proof.Machine.execLds64 o s
  | .sts8 o => Sys2Proof.Machine.execSts8 o s
  | .sts16 o => Sys2Proof.Machine.execSts16 o s
  | .sts32 o => Sys2Proof.Machine.execSts32 o s
  | .sts64 o => Sys2Proof.Machine.execSts64 o s
  | .ldsC o => Sys2Proof.Machine.execLdsC o s
  | .sfull o => Sys2Proof.Machine.execSfull o s
  | .sempty o => Sys2Proof.Machine.execSempty o s
  | .stag o => Sys2Proof.Machine.execStag o s
  | .stset o => Sys2Proof.Machine.execStset o s
  | .stinv o => Sys2Proof.Machine.execStinv o s
  | .atoms o => Sys2Proof.Machine.execAtoms o s
  | .shfl o => Sys2Proof.Machine.execShfl o s
  | .shflup o => Sys2Proof.Machine.execShflup o s
  | .shfldn o => Sys2Proof.Machine.execShfldn o s
  | .shflx o => Sys2Proof.Machine.execShflx o s
  | .bcast o => Sys2Proof.Machine.execBcast o s
  | .vany o => Sys2Proof.Machine.execVany o s
  | .vall o => Sys2Proof.Machine.execVall o s
  | .ballot o => Sys2Proof.Machine.execBallot o s
  | .scan o => Sys2Proof.Machine.execScan o s
  | .fscan o => Sys2Proof.Machine.execFscan o s
  | .red o => Sys2Proof.Machine.execRed o s
  | .fred o => Sys2Proof.Machine.execFred o s
  | .mand o => Sys2Proof.Machine.execMand o s
  | .mor o => Sys2Proof.Machine.execMor o s
  | .regroup vd => Sys2Proof.Machine.execRegroup vd s
  | .ungroup vd => Sys2Proof.Machine.execUngroup vd s
  | .bru o => Sys2Proof.Machine.execBru o s
  | .brk o => Sys2Proof.Machine.execBrk o s
  | .call vd disp => Sys2Proof.Machine.execCall vd disp s
  | .ret sx lx => Sys2Proof.Machine.execRet sx lx s
  | .nbar sx id => Sys2Proof.Machine.execNbar sx id s
  | .kwr kd sx lx => Sys2Proof.Machine.execKwr kd sx lx s
  | .twait scp sx tl lx => Sys2Proof.Machine.execTwait scp sx tl lx s
  | .veer vd sx => Sys2Proof.Machine.execVeer vd sx s
  | .veerMay vd => Sys2Proof.Machine.execVeerMay vd s
  | .trap n => Sys2Proof.Machine.execTrap n s
  | .tret skip => Sys2Proof.Machine.execTret skip s
  | .pacq vd => Sys2Proof.Machine.execPacq vd s
  | .pget vd => Sys2Proof.Machine.execPget vd s
  | .clauseStart h => Sys2Proof.Machine.execClauseStart h s
  | .chunkPageIn obj chunk => Sys2Proof.Machine.execChunkPageIn obj chunk s
  | .loadReturn op => Sys2Proof.Machine.execLoadReturn op s
  | .storeApplied op => Sys2Proof.Machine.execStoreApplied op s
  | .atomicReturn op => Sys2Proof.Machine.execAtomicReturn op s
  | .ldgsComplete op => Sys2Proof.Machine.execLdgsComplete op s
  | .remoteAcknowledge op data => Sys2Proof.Machine.execRemoteAcknowledge op data s
  | .coreMoveComplete cluster core => Sys2Proof.Machine.execCoreMoveComplete cluster core s
  | .idleCoreMove cluster core pt => Sys2Proof.Machine.execIdleCoreMove cluster core pt s
  | .imageRestore image cluster => Sys2Proof.Machine.execImageRestore image cluster s
  | .pageMigration fn va die sram => Sys2Proof.Machine.execPageMigration fn va die sram s
  | .homeSwitch fn va => Sys2Proof.Machine.execHomeSwitch fn va s
  | .copyStep cluster ch num => Sys2Proof.Machine.execCopyStep cluster ch num s
  | .multicastHop cluster ch num => Sys2Proof.Machine.execMulticastHop cluster ch num s
  | .taskMigration fn tcb die => Sys2Proof.Machine.execTaskMigration fn tcb die s
  | .cardDelivery card => Sys2Proof.Machine.execCardDelivery card s
  | .pairCompare tid => Sys2Proof.Machine.execPairCompare tid s
  | .uqpush rs1 => Sys2Proof.Machine.execUqpush rs1 s
  | .uqtry rd rs1 => Sys2Proof.Machine.execUqtry rd rs1 s
  | .tlrd rd iss tl => Sys2Proof.Machine.execTlrd rd iss tl s
  | .tlwait rd rs1 scp tl => Sys2Proof.Machine.execTlwait rd rs1 scp tl s
  | .xfence ord scp => Sys2Proof.Machine.execXfence ord scp s
  | .hartLoad wd rd rs1 imm => Sys2Proof.Machine.execHartLoad wd rd rs1 imm s
  | .hartStore wd rs1 rs2 imm => Sys2Proof.Machine.execHartStore wd rs1 rs2 imm s
  | .hartAmo op dword aq rl rd rs1 rs2 => Sys2Proof.Machine.execHartAmo op dword aq rl rd rs1 rs2 s
  | .lr dword aq rl rd rs1 => Sys2Proof.Machine.execLr dword aq rl rd rs1 s
  | .sc dword aq rl rd rs1 rs2 => Sys2Proof.Machine.execSc dword aq rl rd rs1 rs2 s
  | .hartFence fm pred succ => Sys2Proof.Machine.execHartFence fm pred succ s
  | .csrAccess op imm csr rd rs1 => Sys2Proof.Machine.execCsrAccess op imm csr rd rs1 s
  | .rv64Instruction op => Sys2Proof.Machine.execRv64Instruction op s
  | .mmulMap rd rs1 rs2 => Sys2Proof.Machine.execMmulMap rd rs1 rs2 s
  | .mmulFeed rd fd rs2 => Sys2Proof.Machine.execMmulFeed rd fd rs2 s
  | .mmulWest rd rs2 => Sys2Proof.Machine.execMmulWest rd rs2 s
  | .mldw rd rs1 rs2 => Sys2Proof.Machine.execMldw rd rs1 rs2 s
  | .mdrain rd rs1 rs2 => Sys2Proof.Machine.execMdrain rd rs1 rs2 s
  | .mzero rd rs1 => Sys2Proof.Machine.execMzero rd rs1 s
  | .mstat rd => Sys2Proof.Machine.execMstat rd s
  | .mbegin rd feeds => Sys2Proof.Machine.execMbegin rd feeds s
  | .mend rd => Sys2Proof.Machine.execMend rd s
  | .mchain rd rs1 len pos => Sys2Proof.Machine.execMchain rd rs1 len pos s
  | .tenq rd rs1 => Sys2Proof.Machine.execTenq rd rs1 s
  | .tsig rd rs1 => Sys2Proof.Machine.execTsig rd rs1 s
  | .tcard rd rs1 => Sys2Proof.Machine.execTcard rd rs1 s
  | .doorbell q v => Sys2Proof.Machine.execDoorbell q v s
  | .cconsWrite q v => Sys2Proof.Machine.execCconsWrite q v s
  | .econsWrite q v => Sys2Proof.Machine.execEconsWrite q v s
  | .rstctlReset v => Sys2Proof.Machine.execRstctlReset v s
  | .registerWrite off size v => Sys2Proof.Machine.execRegisterWrite off size v s
  | .frameUnknownOpc f => Sys2Proof.Machine.execFrameUnknownOpc f s
  | .queueReset f => Sys2Proof.Machine.execQueueReset f s
  | .map f => Sys2Proof.Machine.execMap f s
  | .unmap f => Sys2Proof.Machine.execUnmap f s
  | .protect f => Sys2Proof.Machine.execProtect f s
  | .place f => Sys2Proof.Machine.execPlace f s
  | .portBind f => Sys2Proof.Machine.execPortBind f s
  | .objLoad f => Sys2Proof.Machine.execObjLoad f s
  | .objUnload f => Sys2Proof.Machine.execObjUnload f s
  | .launch f => Sys2Proof.Machine.execLaunch f s
  | .gangLaunch f => Sys2Proof.Machine.execGangLaunch f s
  | .taskEnq f => Sys2Proof.Machine.execTaskEnq f s
  | .taskReplay f => Sys2Proof.Machine.execTaskReplay f s
  | .taskCancel f => Sys2Proof.Machine.execTaskCancel f s
  | .teamResume f => Sys2Proof.Machine.execTeamResume f s
  | .teamEnd f => Sys2Proof.Machine.execTeamEnd f s
  | .pipeBind f => Sys2Proof.Machine.execPipeBind f s
  | .fenceCommand f => Sys2Proof.Machine.execFenceCommand f s
  | .signal f => Sys2Proof.Machine.execSignal f s
  | .wait f => Sys2Proof.Machine.execWait f s
  | .waitSatisfied q => Sys2Proof.Machine.execWaitSatisfied q s
  | .partition f => Sys2Proof.Machine.execPartition f s
  | .functionReset f => Sys2Proof.Machine.execFunctionReset f s
  | .resetScrub fn => Sys2Proof.Machine.execResetScrub fn s
  | .preempt f => Sys2Proof.Machine.execPreempt f s
  | .resume f => Sys2Proof.Machine.execResume f s
  | .checkpoint f => Sys2Proof.Machine.execCheckpoint f s
  | .restore f => Sys2Proof.Machine.execRestore f s
  | .debugStop f => Sys2Proof.Machine.execDebugStop f s
  | .debugResume f => Sys2Proof.Machine.execDebugResume f s
  | .debugPlant f => Sys2Proof.Machine.execDebugPlant f s
  | .debugRemove f => Sys2Proof.Machine.execDebugRemove f s
  | .debugRead f => Sys2Proof.Machine.execDebugRead f s
  | .powerSet f => Sys2Proof.Machine.execPowerSet f s
  | .telemetrySet f => Sys2Proof.Machine.execTelemetrySet f s
  | .patchLoad f => Sys2Proof.Machine.execPatchLoad f s
  | .attest f => Sys2Proof.Machine.execAttest f s
  | .eccCorrected u => Sys2Proof.Machine.execEccCorrected u s
  | .eccUncorrectable u => Sys2Proof.Machine.execEccUncorrectable u s
  | .unpoisonedStateError u => Sys2Proof.Machine.execUnpoisonedStateError u s
  | .patrolScrub fn addr => Sys2Proof.Machine.execPatrolScrub fn addr s
  | .waitPeriodExpiry w => Sys2Proof.Machine.execWaitPeriodExpiry w s
  | .clusterPeriodCheck die n => Sys2Proof.Machine.execClusterPeriodCheck die n s
  | .heartbeat observer target missed => Sys2Proof.Machine.execHeartbeat observer target missed s
  | .functionTagDrop cluster fn addr => Sys2Proof.Machine.execFunctionTagDrop cluster fn addr s
  | .vaneSample mw => Sys2Proof.Machine.execVaneSample mw s
  | .telemetryRecord tj dies => Sys2Proof.Machine.execTelemetryRecord tj dies s
  | .ptpSync m => Sys2Proof.Machine.execPtpSync m s
  | .ptpFollowUp origin => Sys2Proof.Machine.execPtpFollowUp origin s
  | .ptpDelayResp seq received => Sys2Proof.Machine.execPtpDelayResp seq received s
  | .weaveRequest r => Sys2Proof.Machine.execWeaveRequest r s
  | .undeliverableTimeout op => Sys2Proof.Machine.execUndeliverableTimeout op s
  | .hostWindowAccess r => Sys2Proof.Machine.execHostWindowAccess r s
  | .chunkEviction obj chunk => Sys2Proof.Machine.execChunkEviction obj chunk s
  | .hartStoreApplied tid idx => Sys2Proof.Machine.execHartStoreApplied tid idx s
  | .exit => Sys2Proof.Machine.execExit s
  | .bar => Sys2Proof.Machine.execBar s
  | .kown => Sys2Proof.Machine.execKown s
  | .kfree => Sys2Proof.Machine.execKfree s
  | .yield => Sys2Proof.Machine.execYield s
  | .bkpt => Sys2Proof.Machine.execBkpt s
  | .prel => Sys2Proof.Machine.execPrel s
  | .pdone => Sys2Proof.Machine.execPdone s
  | .weftCease => Sys2Proof.Machine.execWeftCease s
  | .teamDispatch => Sys2Proof.Machine.execTeamDispatch s
  | .clusterPreemptStop => Sys2Proof.Machine.execClusterPreemptStop s
  | .imageSave => Sys2Proof.Machine.execImageSave s
  | .pageWalk => Sys2Proof.Machine.execPageWalk s
  | .weightLatch => Sys2Proof.Machine.execWeightLatch s
  | .matrixStep => Sys2Proof.Machine.execMatrixStep s
  | .quiescentStop => Sys2Proof.Machine.execQuiescentStop s
  | .drainWrite => Sys2Proof.Machine.execDrainWrite s
  | .hend => Sys2Proof.Machine.execHend s
  | .hpause => Sys2Proof.Machine.execHpause s
  | .fenceI => Sys2Proof.Machine.execFenceI s
  | .wfi => Sys2Proof.Machine.execWfi s
  | .ecall => Sys2Proof.Machine.execEcall s
  | .ebreak => Sys2Proof.Machine.execEbreak s
  | .hartMemoryReturn => Sys2Proof.Machine.execHartMemoryReturn s
  | .mModeInterrupt => Sys2Proof.Machine.execMModeInterrupt s
  | .selfReset => Sys2Proof.Machine.execSelfReset s
  | .ptpHoldover => Sys2Proof.Machine.execPtpHoldover s
  | .flitCheckFail => Sys2Proof.Machine.execFlitCheckFail s
  | .powerOn => Sys2Proof.Machine.execPowerOn s
  | .portTrainingComplete => Sys2Proof.Machine.execPortTrainingComplete s

end Sys2Proof.Machine
end

