-- ==== Sys2Proof/Machine/Fetch.lean ====
section
/-! DEFINITION. Who moves, and what it executes: the turn of a weft (02 R36, 06 R100 to R104), of a hart (15 R211, R220), of a command
processor (23 R330, R334), the events of the device, and the arrival of writes (03 R52, R55). -/

namespace Sys2Proof.Machine

open Sys2Proof

/-- What a turn comes to: the step's answer at once, or an instruction to execute in a state. -/
inductive Fetch where
  | done (r : Result)
  | run (s : State) (i : Instr)

/-- The steps that are no words, instructions or frames: events of the device and of what surrounds it. -/
def isEvent (i : Instr) : Bool :=
  match i with
  | .chunkPageIn _ _ | .loadReturn _ | .storeApplied _ | .atomicReturn _ | .ldgsComplete _ | .remoteAcknowledge _ _
  | .coreMoveComplete _ _ | .idleCoreMove _ _ _ | .weftCease | .teamDispatch | .clusterPreemptStop | .imageSave
  | .imageRestore _ _ | .pageMigration _ _ _ _ | .homeSwitch _ _ | .pageWalk | .copyStep _ _ _ | .multicastHop _ _ _
  | .weightLatch | .matrixStep | .quiescentStop | .drainWrite | .taskMigration _ _ _ | .cardDelivery _
  | .pairCompare _ | .hartMemoryReturn | .mModeInterrupt | .doorbell _ _ | .cconsWrite _ _ | .econsWrite _ _
  | .rstctlReset _ | .registerWrite _ _ _ | .waitSatisfied _ | .resetScrub _ | .eccCorrected _ | .eccUncorrectable _
  | .unpoisonedStateError _ | .patrolScrub _ _ | .waitPeriodExpiry _ | .clusterPeriodCheck _ _ | .heartbeat _ _ _ | .selfReset
  | .functionTagDrop _ _ _ | .vaneSample _ | .telemetryRecord _ _ | .ptpSync _ | .ptpFollowUp _ | .ptpDelayResp _ _
  | .ptpHoldover | .flitCheckFail | .weaveRequest _ | .undeliverableTimeout _ | .hostWindowAccess _ | .powerOn
  | .chunkEviction _ _ | .hartStoreApplied _ _ | .portTrainingComplete => true
  | _ => false

/-! ### Wefts -/

/-- Nothing of a team issues: it is held, or stopped by debug (03 R49, 23 R348). -/
def Team.still (t : Team) : Bool := t.held.isSome || t.stopped

/-- A weft may issue: its team is not held or stopped, its core does not move, and a pre-emption of its cluster has not stopped it: it
stops at clause boundaries and in waits (02 R22, R37). -/
def mayIssue (s : State) (t : Team) (w : Weft) : Bool :=
  !t.still && (getCore s t.place.cluster (weftCore t w)).moving.isNone &&
  match (getCluster s t.place.cluster).preempt with
  | .none => true
  | .requested => w.active && w.pos.started && decide (w.wait = .none)
  | .stopped => false

/-- A weft could issue now: it is active in its slot, waits for nothing and may issue. -/
def canIssue (s : State) (t : Team) (w : Weft) : Bool :=
  w.active && decide (w.wait = .none) && !w.strands.isEmpty && mayIssue s t w

/-- It is an active weft's turn in its slot: the slot issues clauses, round robin among its active wefts that are ready (02 R36). The weft
that it served last goes on where its clause has not ended; else the next one in dispatch and WID order that could issue. -/
def slotTurn (s : State) (t : Team) (w : Weft) : Bool :=
  let core := weftCore t w
  let l := slotWefts s t.place.cluster core w.slot
  let last := spGet (0, 0) (getCore s t.place.cluster core).last w.slot
  let isLast (x : Team × Weft) : Bool := decide ((x.1.tid, x.2.wid) = last)
  let goesOn := l.any fun x => isLast x && x.2.pos.started && canIssue s x.1 x.2
  let ring := l.dropWhile (fun x => !isLast x) ++ l.takeWhile (fun x => !isLast x)
  let ring := if goesOn then ring else ring.filter (fun x => !isLast x) ++ ring.filter isLast
  match ring.find? fun x => canIssue s x.1 x.2 with
  | some x => decide ((x.1.tid, x.2.wid) = (t.tid, w.wid))
  | none => false

/-- The slot of a weft serves it. -/
def serveSlot (s : State) (t : Team) (w : Weft) : State :=
  updCore s t.place.cluster (weftCore t w) fun k => { k with last := spSet (0, 0) k.last w.slot (t.tid, w.wid) }

/-- The text that a weft's next fetch needs is there (05 R85). -/
def spanReady (s : State) (t : Team) (w : Weft) : Bool :=
  let n := match getObj s t.obj with | some o => 4 * o.vtext.length | none => 0
  (fetchSpan s t w).all fun a => decide (n ≤ a) || textReady s t false a

/-- A weft's next header or word. -/
def fetchWord (s : State) (t : Team) (w : Weft) : Fetch :=
  if !spanReady s t w then .done (retryWord s t.tid w.wid .chunk)
  else if !w.pos.started then
    match vtextWord s t w w.pos.clause with
    | none => .done (pollOr s t w (illegalClause s t w))
    | some h => .run s (.clauseStart (decodeHeader h))
  else
    match vtextWord s t w w.pos.offset with
    | none => .done (pollOr s t w (illegalWord s t w))
    | some a =>
      match decodeVector a ((vtextWord s t w (w.pos.offset + 4)).getD 0) with
      | .ok i => .run s i
      | .error _ => .done (pollOr s t w (illegalWord s t w))

/-- A weft's turn: an active weft executes its next header or word where its slot's turn is its own; a pending weft may enter its
active set; a rendezvous that it waits at may complete; one whose word waits finds out whether it may go on (02 R36). -/
def fetchWeft (s : State) (tid wid : Nat) : Fetch :=
  match getTeam s tid with
  | none => .done (.next s)
  | some t =>
    match t.weft? wid with
    | none => .done (.next s)
    | some w =>
      let s := { s with cur := .weft tid wid }
      if w.strands.isEmpty || !mayIssue s t w then .done (.next s)
      else
        match w.wait with
        | .none =>
          if w.active then if slotTurn s t w then fetchWord (serveSlot s t w) t w else .done (.next s)
          else .done (.next (if mayEnter s t w then updWeft s tid wid fun w => { w with active := true } else s))
        | .retry _ => fetchWord s t w
        | .bar => .done (.next (tryBar s tid))
        | .nbar i _ => .done (.next (tryNbar s tid i))
        | .veer _ _ _ => .done (.next (tryVeer s tid wid))
        | .regroup _ _ _ _ => .done (.next (tryRegroup s tid wid))
        | .pairAccess | .pageFault | .chunk | .bkpt => .done (.next s)

/-! ### Harts -/

/-- A hart may issue: it has not ended, its team is not held or stopped, its cluster is not being pre-empted. -/
def hartMayIssue (s : State) (t : Team) (h : Hart) : Bool :=
  !h.ended && !t.still && decide ((getCluster s t.place.cluster).preempt = .none)

/-- A hart of a cluster is ready: the Loom does not hold it, it waits for nothing and has not paused in this turn (15 R220). -/
def hartReady (s : State) (t : Team) (h : Hart) : Bool := hartMayIssue s t h && decide (h.wait = .none) && !h.paused

/-- The numbers of a cluster's ready harts that have not issued in the present turn. -/
def hartsLeft (s : State) (c : Nat) : List Nat :=
  s.teams.filterMap fun t =>
    match t.hart with
    | some h => if decide (t.place.cluster = c) && hartReady s t h && decide ((getCluster s c).lastHart ≤ h.num) then some h.num else none
    | none => none

/-- The hart of a number has its turn still to come, or paused in this one. -/
def pausedHart (s : State) (c n : Nat) : Bool :=
  s.teams.any fun t => match t.hart with | some h => decide (t.place.cluster = c) && decide (h.num = n) && h.paused | none => false

/-- The present turn of a cluster's control core is over where every ready hart has issued in it: the next one begins, and no hart of it
has paused (15 R220, R235). -/
def turnFor (s : State) (c n : Nat) : State :=
  if (hartsLeft s c).isEmpty && (decide (n < (getCluster s c).lastHart) || pausedHart s c n) then
    let s := updCluster s c fun k => { k with lastHart := 0 }
    { s with teams := s.teams.map fun t =>
        if t.place.cluster = c then { t with hart := t.hart.map fun h => { h with paused := false } } else t }
  else s

/-- In the present turn it is the hart of this number that issues: none before it is left. -/
def hartTurn (s : State) (c n : Nat) : Bool :=
  decide ((getCluster s c).lastHart ≤ n) && (hartsLeft s c).all fun m => decide (n ≤ m)

/-- The control core serves a hart: one instruction in a turn. -/
def serveHart (s : State) (c n : Nat) : State := updCluster s c fun k => { k with lastHart := n + 1 }

/-- A hart's next instruction: outside the control text the fetch is an access fault; a matrix word that R227 forbids has code 1 of
R263 in mtval. -/
def fetchHartWord (s : State) (t : Team) (h : Hart) : Fetch :=
  match (getObj s t.obj).bind fun o => if h.pc.toNat % 4 = 0 then o.ctext[h.pc.toNat / 4]? else none with
  | none => .done (hartPoll s t h (hartException s t h (if h.pc.toNat % 4 ≠ 0 then 0 else 1) h.pc.toNat 0 0 false))
  | some a =>
    if !textReady s t true h.pc.toNat then .done (hartRetry s t .chunk)
    else
      match decodeHart a with
      | .ok i => .run s i
      | .error _ => .done (hartPoll s t h (hartIllegal s t h (ofBool (a.extractLsb' 0 7 = 0x2B))))

/-- A team's hart, once the turn that is over has ended: where it is its turn it issues its next instruction. -/
def issueHart (s : State) (tid : Nat) : Fetch :=
  match getTeam s tid with
  | none => .done (.next s)
  | some t =>
    match t.hart with
    | none => .done (.next s)
    | some h =>
      if hartReady s t h && hartTurn s t.place.cluster h.num then fetchHartWord (serveHart s t.place.cluster h.num) t h else .done (.next s)

/-- A hart's turn: a ready hart issues one instruction in its place of the round robin; one whose instruction waits finds out whether it
may go on (R220, R235). -/
def fetchHart (s : State) (tid : Nat) : Fetch :=
  match getTeam s tid with
  | none => .done (.next s)
  | some t =>
    match t.hart with
    | none => .done (.next s)
    | some h =>
      let s := { s with cur := .hart tid }
      if !hartMayIssue s t h then .done (.next s)
      else
        match h.wait with
        | .none => issueHart (turnFor s t.place.cluster h.num) tid
        | .hend | .retry _ => fetchHartWord s t h
        | .load _ _ _ _ | .lr _ _ _ _ _ | .amo _ _ _ _ _ _ _ | .fault | .bkpt | .pairAccess => .done (.next s)

/-- A hart that no team has executes an instruction of the Loom's M-mode code, in its place of the round robin; one that waits goes on with
the instruction that it waits in (15 R220, R223). -/
def fetchMachine (s : State) (c n : Nat) (i : Instr) : Fetch :=
  let s := { s with cur := .machine c n }
  let bound := s.teams.any fun t => decide (t.place.cluster = c) && match t.hart with | some h => decide (h.num = n) | none => false
  let waits := match (spGet (Hart.reset, none) (getCluster s c).machine n).2 with | some j => decide (j ≠ i) | none => false
  if !machineRuns i || decide (160 ≤ c) || decide (16 ≤ n) || bound || waits then .done (.next s)
  else
    let s := turnFor s c n
    if hartTurn s c n then
      .run (updCluster (serveHart s c n) c fun k =>
        { k with machine := spSet (Hart.reset, none) k.machine n ((spGet (Hart.reset, none) k.machine n).1, some i) }) i
    else .done (.next s)

/-! ### Command processors -/

/-- A command processor's turn at a queue: a FENCE or SIGNAL that has reached the head of the queue's commands is performed; else the
next frame is taken where it may be (R330, R334, R341). -/
def fetchFrame (s : State) (q : Nat) : Fetch :=
  match progress s q with
  | some s => .done (.next s)
  | none =>
    if mayTake s q then
      let k := getQueue s q
      .run { s with cur := .command q k.cons } (decodeFrame (frameAt s q k.cons.toNat))
    else .done (.next s)

/-! ### Turns -/

/-- What a turn comes to. -/
def fetchTurn (s : State) : Turn → Fetch
  | .weft tid wid => fetchWeft s tid wid
  | .hart tid => fetchHart s tid
  | .loom q => fetchFrame s q
  | .event (.machine c n) i => fetchMachine s c n i
  | .event a i => if isEvent i then .run { s with cur := a } i else .done (.next s)
  | .deliver d k => .done (.next (if d < 4 then deliverAt s d k else s))
  | .element op k => .done (.next (elementTurn s op k))

/-- Whose turn it is: the agenda's first, or where it is empty a free choice (log entry 1). -/
def nextMove (s : State) : Option Turn × State :=
  match s.agenda with
  | t :: rest => (some t, { s with agenda := rest })
  | [] => (Config.nextTurn s.tick, { s with tick := s.tick + 1 })

/-! ### One instruction where the next step fetches it -/

/-- The queue that takes a frame of an opcode: queue 0 for the commands it alone takes, else queue 1 (R336). -/
def queueFor (opc : Nat) : Nat := if opc = 0x70 || opc = 0x71 || opc = 0xA0 || opc = 0xA1 || opc = 0xB0 then 0 else 1

/-- Function 0, which holds every cluster and queue 1. -/
def sampleFunc : Func :=
  { secure := false, qlo := 1, qhi := 1, clusters := BitVec.allOnes 160, squota := 3584, gquota := 183105 }

/-- A frame as the next one of a queue. -/
def placeFrame (s : State) (f : Frame) : State :=
  let q := queueFor f.opc.toNat
  { s with
    agenda := [.loom q],
    loom := { s.loom with
      funcs := [(0, some sampleFunc)], deadCp := [],
      queues := spSet Queue.reset s.loom.queues q { Queue.reset with prod := 1 },
      ctl := memWrite s.loom.ctl (blockOf q) (leBytes 128 f.toNat) } }

/-- An object of one chunk of vector text or of control text. -/
def sampleObj (vt ct : List W32) : Obj :=
  { handle := 1, fn := 0, secure := false, vmaj := 3, vmin := 2, root := [], leaves := [[1]], image := 0, vbase := 0, cbase := 0, tbase := 1, vtext := vt,
    ctext := ct, hasCtext := !ct.isEmpty, ventry := 0, centry := 0, headers := [0], veer := [], traps := [], templates := [],
    decl := { scrMin := 0, tags := 16, hart := !ct.isEmpty, acc := 1, floor := 8, width := 64, pt := 2, nstrMax := 2048 }, data := [] }

/-- A launch of one team. -/
def sampleLaunch : Launch :=
  { fn := 0, lid := 1, queue := 1, ctag := 0, flags := 0, cmdSeq := 0, opc := 0x30, cls := 1, obj := 1, vent := 0, cent := 0, nstr := 1,
    scrsize := 4096, args := [], teams := 1, next := 1, ended := 0, faulted := 0, pair := false, seq := 0, gang := none, parked := false,
    stopped := false, planted := [], copies := [], aborted := false, die := 0, acq := [], rel := [] }

/-- A weft of one strand, active at the first word of clause 0. -/
def sampleWeft : Weft :=
  { wid := 0, strands := [{ sid := 0, lane := 0, em := true, m := 0, regs := [] }], alloc := 0, rpos := 0,
    pos := { clause := 0, word := 0, started := true },
    trap := { clause := 0, word := 0, xv := false, mem := 0, cause := 0, info := 0, mask := 0 }, pv := false, pdone := 0, wait := .none,
    holds := [], slot := 0, active := true, readyAt := 0, expiries := 0, once := false, granted := false,
    loadSeq := 0, anchor := 0 }

/-- A hart at the start of the control text. -/
def sampleHart : Hart := Hart.reset

/-- A team on cluster 0, core 0, with context 0 of its matrix engine. -/
def sampleTeam (hart : Bool) : Team :=
  { tid := 0, ref := .launch 0 1 0, fn := 0, secure := false, cls := 1, obj := 1, nstr := 1, queue := 1,
    place := { cluster := 0, core := 0, pair := false, scrBase := 0, scrSize := 4096, ctx := some 0, acc := 1, accBase := 0 },
    uni := { k := List.replicate 32 0, kpend := [], kowner := none, krel := [], uq := [], uqRel := [], tail := 0 }, paths := [[], [], [], []], nbars := [],
    tags := List.replicate 16 { valid := false, tag := 0, slot := 0, rel := [] }, wefts := [sampleWeft], hart := if hart then some sampleHart else none,
    held := none, stopped := false, commit := false, deferred := [], partner := none, visible := [], pairLoads := [],
    hists := [], start := [] }

/-- A team that has loaded text, whose weft or hart moves next. -/
def placeTeam (s : State) (hart : Bool) (vt ct : List W32) : State :=
  { s with
    agenda := [if hart then .hart 0 else .weft 0 0], nextId := Nat.max 1 s.nextId, teams := [sampleTeam hart], vops := [],
    clusters := [(0, { Cluster.reset with
      mx := { Matrix.reset with ctxs := [(0, { Ctx.reset with tid := some 0, cls := 1 })] }, cores := [(0, { pt := 2, moving := none, last := [] })] })],
    loom := { s.loom with
      funcs := [(0, some sampleFunc)], objs := [sampleObj vt ct], chunks := [{ fn := 0, secure := false, leaf := [1], bytes := [] }],
      launches := [sampleLaunch] } }

/-- The header of a clause of one vector word, with its extension word where it has one: no flag, no wait (06 R100). -/
def headerFor (a : W32) : W32 :=
  (0 : BitVec 4) ++ (0 : BitVec 1) ++ (15 : BitVec 4) ++ (15 : BitVec 4) ++ (0 : BitVec 12) ++
    BitVec.ofNat 3 (classOf (a.extractLsb' 25 7).toNat) ++ (if a.getLsbD 0 then (2 : BitVec 4) else 1)

/-- The vector word or the hart word that decodeTableWord reads from these bits. -/
def isHartWord (w : Nat) : Bool :=
  let a : W32 := BitVec.ofNat 32 w
  let custom := a.extractLsb' 0 7 = 0x0B || a.extractLsb' 0 7 = 0x2B || a.extractLsb' 0 7 = 0x5B
  (custom && (okOpt (decodeHart a)).isSome) || ((okOpt (decodeVector a (BitVec.ofNat 32 (w / 2 ^ 32)))).isNone && (okOpt (decodeHart a)).isSome)

/-- One instruction, numbered as the opcode table numbers its bits, where the next step fetches it. -/
def placeWord (s : State) (nbits w : Nat) : State :=
  let a : W32 := BitVec.ofNat 32 w
  if nbits = 1024 then placeFrame s (BitVec.ofNat 1024 w)
  else if isHartWord w then placeTeam s true [] [a]
  else placeTeam s false (if a.getLsbD 0 then [headerFor a, a, BitVec.ofNat 32 (w / 2 ^ 32)] else [headerFor a, a]) []

end Sys2Proof.Machine
end

