-- ==== Sys2Proof/Machine/Step.lean ====
section
/-! DEFINITION. One step of the module: the agent whose turn it is executes what it fetches. -/

namespace Sys2Proof.Machine

open Sys2Proof

/-- One step. -/
def step (s : State) : Host.Outcome State Fault Refusal :=
  match nextMove s with
  | (none, s') => .next s'
  | (some t, s') =>
    match fetchTurn s' t with
    | .done r => r
    | .run s'' i => exec i s''

/-- s with one instruction, numbered as the opcode table numbers its bits, where the next step fetches it: a frame at the head of a
queue, a vector word at an active weft, a hart word at a hart; a program is loaded from outside (log entry 29). -/
def State.withFetchWord (s : State) (nbits w : Nat) : State := placeWord s nbits w

end Sys2Proof.Machine
end

