-- ==== Sys2Proof/Safety.lean ====
section
/-! DEFINITION. What counts as a safe run, and the terms that statements use for what a step leaves alone: the canonical form of the
module's memories, runs that do not stop, and states that differ in one weft, in one hart, or in one queue only. -/

namespace Sys2Proof

open Sys2Proof.Machine

/-! ### Runs -/

/-- Global memory, as every die sees it, and the control area are in canonical form. -/
def Safety.MemoryOk (s : State) : Prop :=
  (∀ v ∈ s.mem.views, Memory.wf v.mem = true) ∧ Memory.wf s.loom.ctl = true

/-- A state that one step leads to. -/
def Safety.StepsTo (s t : State) : Prop := step s = .next t

/-- A state that a run from another leads to. -/
inductive Safety.Reaches : State → State → Prop where
  | refl (s : State) : Safety.Reaches s s
  | tail {s t u : State} : Safety.Reaches s t → Safety.StepsTo t u → Safety.Reaches s u

/-- No run from a state stops. -/
def Safety.Safe (s : State) : Prop := ∀ t, Safety.Reaches s t → ∃ u, Safety.StepsTo t u

/-! ### Frames -/

/-- An outstanding operation without the registers whose result it discards. -/
def Safety.kept (o : VOp) : VOp := { o with discard := [] }

/-- The same global memory: every byte, every poison bit and every reservation on every die, and the writes in transit. -/
structure Safety.SameMemory (s t : State) : Prop where
  views : t.mem.views = s.mem.views
  transit : t.mem.transit = s.mem.transit

/-- The same state but for the teams: memory, translation, clusters with their scratchpads, copy channels and matrix engines,
outstanding operations, tasks, pipes, the Loom, power, time and the fabric. -/
structure Safety.SameOutside (s t : State) : Prop where
  memory : Safety.SameMemory s t
  xlat : t.xlat = s.xlat
  clusters : t.clusters = s.clusters
  vops : t.vops.map Safety.kept = s.vops.map Safety.kept
  tasks : t.tasks = s.tasks
  heddle : t.heddle = s.heddle
  loom : t.loom = s.loom
  vane : t.vane = s.vane
  ptp : t.ptp = s.ptp
  weave : t.weave = s.weave

/-- A team without one weft. -/
def Safety.butWeft (tid wid : Nat) (t : Team) : Team :=
  if t.tid = tid then { t with wefts := t.wefts.filter fun w => decide (w.wid ≠ wid) } else t

/-- A team without its hart. -/
def Safety.butHart (tid : Nat) (t : Team) : Team := if t.tid = tid then { t with hart := none } else t

/-- States that differ in one weft only (and in the model's own counters). -/
structure Safety.OnlyWeft (s t : State) (tid wid : Nat) : Prop where
  outside : Safety.SameOutside s t
  teams : t.teams.map (Safety.butWeft tid wid) = s.teams.map (Safety.butWeft tid wid)

/-- States that differ in one hart only (and in the model's own counters). -/
structure Safety.OnlyHart (s t : State) (tid : Nat) : Prop where
  outside : Safety.SameOutside s t
  teams : t.teams.map (Safety.butHart tid) = s.teams.map (Safety.butHart tid)

/-! ### Looking at a state -/

/-- The weft of a team. -/
def Safety.weftIn (s : State) (tid wid : Nat) : Option Weft := (getTeam s tid).bind fun t => t.weft? wid

/-- The hart of a team. -/
def Safety.hartIn (s : State) (tid : Nat) : Option Hart := (getTeam s tid).bind fun t => t.hart

/-- The elements of a register, one for each strand in lane order. -/
def Safety.column (w : Weft) (r : Nat) : List Elem := w.strands.map fun x => x.reg r

/-- The strands and their masks: SID, lane, em, m1 to m7. -/
def Safety.masks (w : Weft) : List (Nat × Nat × Bool × BitVec 7) := w.strands.map fun x => (x.sid, x.lane, x.em, x.m)

/-! ### Vector words -/

/-- The registers, special operands and words that each vector word names; none of anything that is no vector word. -/
def Safety.usesOf : Instr → Option Uses
  | .iadd o | .isub o | .imul o | .imulh o | .imulhu o | .imin o | .imax o | .umin o | .umax o | .and o | .or o | .xor o | .andn o
  | .shl o | .shr o | .sra o | .rotl o | .bfx o | .bfxs o | .sel o | .fadd o | .fsub o | .fmul o | .fmin o | .fmax o
  | .hadd2 o | .hmul2 o | .badd2 o | .bmul2 o | .shfl o | .shflup o | .shfldn o | .shflx o => some (usesV3 o false [o.vd.toNat])
  | .imad o | .bfi o | .perm o | .ffma o | .hfma2 o | .bfma2 o => some (usesV3 o true [o.vd.toNat])
  | .cmpeq o | .cmpne o | .cmplt o | .cmple o | .cmpltu o | .cmpleu o | .fcmpeq o | .fcmplt o | .fcmple o | .fcmpun o =>
    some (usesCmp o)
  | .movi o => some (usesMovi o)
  | .iaddi o => some (usesIaddi o)
  | .cvtfi o | .cvtfu o | .cvtif o | .cvtuf o | .mov o | .not o | .neg o | .iabs o | .popc o | .clz o | .ctz o | .brev o
  | .fabs o | .fneg o | .rcp o | .rsq o | .sqrt o | .exp2 o | .log2 o | .sin o | .cos o | .flr o | .ceil o | .trunc o | .rnde o
  | .cvthf o | .cvtbf o | .cvtfh o | .cvtfb o | .vany o | .vall o => some (usesVU o [o.vd.toNat])
  | .nrw2 o => some (usesNrw o 2)
  | .nrw4 o => some (usesNrw o 4)
  | .nrw8 o => some (usesNrw o 8)
  | .wdn2 o => some (usesWdn o 2)
  | .wdn4 o => some (usesWdn o 4)
  | .wdn8 o => some (usesWdn o 8)
  | .ldg8 o | .ldg8s o | .ldg16 o | .ldg16s o | .ldg32 o => some (usesVM o true [] [o.vd.toNat])
  | .ldg64 o => some (usesVM o true [] [o.vd.toNat, o.vd.toNat + 1])
  | .stg8 o | .stg16 o | .stg32 o | .ldgs o => some (usesVM o true [o.vd.toNat] [])
  | .stg64 o => some (usesVM o true [o.vd.toNat, o.vd.toNat + 1] [])
  | .atomg o => some (usesVM o true (atomRegs (aopOf o) o.vd) (if o.nt then [] else [o.vd.toNat]))
  | .fence _ => some { codes := [], frees := [], holds := [], dests := [], len := 2 }
  | .waitp o => some { codes := [o.sx], frees := [], holds := [], dests := [], len := 1 }
  | .lds8 o | .lds16 o | .lds32 o | .ldsC o => some (usesVM o false [] [o.vd.toNat])
  | .lds64 o => some (usesVM o false [] [o.vd.toNat, o.vd.toNat + 1])
  | .sts8 o | .sts16 o | .sts32 o => some (usesVM o false [o.vd.toNat] [])
  | .sts64 o => some (usesVM o false [o.vd.toNat, o.vd.toNat + 1] [])
  | .atoms o => some (usesVM o false (atomRegs (aopOf o) o.vd) (if o.nt then [] else [o.vd.toNat]))
  | .sfull o | .sempty o => some (usesLine o)
  | .stag o => some (usesTag o [o.vd.toNat])
  | .stinv o => some (usesTag o [])
  | .stset o =>
    let e := o.ext.getD MExt.none
    some { codes := wideCodes o.sx ++ [e.sz], frees := (if o.lx then wideRegs o.sx else []) ++ markReg e.sz e.lz,
           holds := markReg e.sz e.hz, dests := [o.vd.toNat], len := 2 }
  | .bcast o => some (usesBcast o)
  | .ballot o => some (usesBallot o)
  | .scan o | .fscan o | .red o | .fred o => some (usesScan o)
  | .mand o | .mor o => some (usesNone (wordsOf o.ext))
  | .regroup vd | .ungroup vd => some { usesNone 1 with dests := [vd.toNat] }
  | .bru o => some (usesCtl [o.sx] (markReg o.sx o.lx) [] 2)
  | .brk o => some (usesCtl [o.sx] [] [] 2)
  | .call vd _ => some (usesCtl [] [] [vd.toNat] 2)
  | .ret sx lx | .kwr _ sx lx => some (usesCtl [sx] (markReg sx lx) [] 1)
  | .nbar sx _ => some (usesCtl [sx] [] [] 1)
  | .twait _ sx _ lx => some (usesCtl (wideCodes sx) (if lx then wideRegs sx else []) [] 1)
  | .veer vd sx => some (usesCtl [sx] [] [vd.toNat] 1)
  | .veerMay vd => some (usesCtl [] [] [vd.toNat] 1)
  | .pacq vd | .pget vd => some (usesPipe vd)
  | .exit | .bar | .kown | .kfree | .yield | .trap _ | .bkpt | .tret _ | .prel | .pdone => some (usesCtl [] [] [] 1)
  | _ => none

/-- Weft wid of team tid is about to execute a word that issues: it does not stand outside its active set for a word to go on, and nothing makes
it wait or trap before it reads its operands (02 R36, 06 R117, 07 R122, R127). c is what it reads: the state, the team and the weft after results in flight have landed. -/
structure Safety.Issues (i : Instr) (s : State) (u : Uses) (tid wid : Nat) (c : VCtx) : Prop where
  cur : s.cur = .weft tid wid
  word : ∃ t w, getTeam s tid = some t ∧ t.weft? wid = some w ∧ w.polls = false ∧ issues i s t w u = true ∧ prologue s t w u = some c

/-- Registers that a word frees: those it last-reads and does not write (07 R121). -/
def Safety.freed (u : Uses) : List Nat := u.frees.filter fun r => !u.dests.contains r

/-- The state of a context once its word has read the uniform queue, where it reads it: the read acquires what the push of its entry released
(15 R230). -/
def Safety.taken (c : VCtx) (u : Uses) : State :=
  if u.codes.contains 0x60 then acquireIds c.s c.t c.w.keys (spGet [] c.t.uni.uqRel (c.w.rpos.toNat % 64)) else c.s

/-- What every word that completes leaves: only its weft differs from what the context holds once a queue entry that it reads is acquired; the
weft is w at a position, its queue position has advanced where
the word read the uniform queue, its destinations are allocated and its last-read registers are not; its trap registers, progress
index and slot are as before. -/
structure Safety.Completes (c : VCtx) (u : Uses) (tid wid : Nat) (t : State) (w : Weft) (pos : Pos) : Prop where
  only : Safety.OnlyWeft (Safety.taken c u) t tid wid
  weft : Safety.weftIn t tid wid = some w
  pos : w.pos = pos
  wait : w.wait = .none
  rpos : w.rpos = c.w.rpos + (if u.codes.contains 0x60 then 1 else 0)
  alloc : w.alloc = (c.w.alloc ||| regBits u.dests) &&& ~~~(regBits (Safety.freed u))
  trap : w.trap = c.w.trap
  progress : w.pv = c.w.pv ∧ w.pdone = c.w.pdone
  slot : w.slot = c.w.slot

/-- Registers after a word that writes none. -/
def Safety.unwritten (c : VCtx) (u : Uses) (q : Nat) : List Elem :=
  c.w.strands.map fun x => if q ∈ Safety.freed u then Elem.zero else x.reg q

/-- A word i that names u completes in a context, goes on at a position, and writes no register and no mask. -/
def Safety.Passes (i : Instr) (s : State) (c : VCtx) (u : Uses) (tid wid : Nat) (pos : Pos) : Prop :=
  ∃ t w, exec i s = .next t ∧ Safety.Completes c u tid wid t w pos ∧ Safety.masks w = Safety.masks c.w ∧
    ∀ q, Safety.column w q = Safety.unwritten c u q

/-- Register q of every strand after a word that writes v in register vd of the active strands. -/
def Safety.written (c : VCtx) (u : Uses) (vd : Nat) (v : Strand → Elem) (q : Nat) : List Elem :=
  c.w.strands.map fun x =>
    if q = vd then (if x.em then v x else x.reg q) else if q ∈ Safety.freed u then Elem.zero else x.reg q

/-- A word i that names u completes, writes v in register vd of the active strands, and changes nothing else. -/
def Safety.RegWord (i : Instr) (u : Uses) (vd : Nat) (v : VCtx → Strand → Elem) : Prop :=
  ∀ s tid wid c, Safety.Issues i s u tid wid c →
    ∃ t w, exec i s = .next t ∧ Safety.Completes c u tid wid t w (followPos c.s c.t c.w u.len) ∧
      Safety.masks w = Safety.masks c.w ∧ ∀ q, Safety.column w q = Safety.written c u vd (v c) q

end Sys2Proof
end

