-- ==== Sys2Proof/Certificates/Slice0/Obligations.lean ====
section
/-! DEFINITION. The statements for the provers, and the tables of results that they name. -/

open Sys2Proof Sys2Proof.Machine

/-! ### Vector register words -/

/-- The result of a word with two or three sources: op of the sources, with the OR of their poison. -/
def Sys2Proof.Spec.three (o : V3) (z : Bool) (k : Kind) (op : Mods → W32 → W32 → W32 → W32) (c : VCtx) (x : Strand) : Elem :=
  let m := o.ext.getD Mods.none
  let a := c.srcX m k o.sx x
  let b := c.srcY m k o.sy x
  let d := if z then c.rd k m.sz x else Elem.zero
  { val := op m a.val b.val d.val, poison := a.poison || b.poison || d.poison }

/-- The result of a word with one source. -/
def Sys2Proof.Spec.one (o : VU) (k : Kind) (op : Mods → W32 → W32) (c : VCtx) (x : Strand) : Elem :=
  let m := o.ext.getD Mods.none
  { val := op m (c.srcX m k o.sx x).val, poison := (c.srcX m k o.sx x).poison }

/-- An exact integer, wrapped to 32 bits, or clamped to the signed range under SAT (08 R136). -/
def Sys2Proof.Spec.sat (m : Mods) (e : Int) : W32 :=
  if m.sat then (if e < -2147483648 then 0x80000000 else if 2147483647 < e then 0x7FFFFFFF else BitVec.ofInt 32 e) else BitVec.ofInt 32 e

/-- Integer and logic words with two or three sources: whether the word reads SZ, and what it computes (08 R136, R138). -/
def Sys2Proof.Spec.integer (o : V3) : List (Instr × Bool × (Mods → W32 → W32 → W32 → W32)) :=
  [(.iadd o, false, fun m x y _ => if m.sat then Spec.sat m (x.toInt + y.toInt) else x + y),
  (.isub o, false, fun m x y _ => if m.sat then Spec.sat m (x.toInt - y.toInt) else x - y),
  (.imul o, false, fun m x y _ => if m.sat then Spec.sat m (x.toInt * y.toInt) else x * y),
  (.imulh o, false, fun _ x y _ => BitVec.ofInt 32 (x.toInt * y.toInt / 2 ^ 32)),
  (.imulhu o, false, fun _ x y _ => BitVec.ofNat 32 (x.toNat * y.toNat / 2 ^ 32)),
  (.imad o, true, fun m x y z => if m.sat then Spec.sat m (x.toInt * y.toInt + z.toInt) else x * y + z),
  (.imin o, false, fun _ x y _ => if x.toInt ≤ y.toInt then x else y),
  (.imax o, false, fun _ x y _ => if y.toInt ≤ x.toInt then x else y),
  (.umin o, false, fun _ x y _ => if x.toNat ≤ y.toNat then x else y),
  (.umax o, false, fun _ x y _ => if y.toNat ≤ x.toNat then x else y),
  (.and o, false, fun _ x y _ => x &&& y),
  (.or o, false, fun _ x y _ => x ||| y),
  (.xor o, false, fun _ x y _ => x ^^^ y),
  (.andn o, false, fun _ x y _ => x &&& ~~~y),
  (.shl o, false, fun _ x y _ => x <<< y.toNat),
  (.shr o, false, fun _ x y _ => x >>> y.toNat),
  (.sra o, false, fun _ x y _ => x.sshiftRight y.toNat),
  (.rotl o, false, fun _ x y _ => x.rotateLeft (y.toNat % 32))]

/-- IADD to ROTL (08 R136, R138): each completes, and writes what its rule says. -/
def Obligations.IntegerWordsComplete : Prop :=
  ∀ o i z op, (i, z, op) ∈ Spec.integer o →
    Safety.RegWord i (usesV3 o z [o.vd.toNat]) o.vd.toNat (Spec.three o z .i op)

/-- Bit j of a word. -/
def Sys2Proof.Spec.bit (x : W32) (j : Nat) : Bool := x.getLsbD j

/-- Bit fields, PERM and SEL write what 08 R139 to R141 say. BFX, BFXS and BFI are said bit by bit: POS is bits 4:0 of SY, LEN is
bits 13:8, taken as 32 where greater; a bit of SX beyond bit 31 is 0. -/
def Obligations.FieldWordsComplete : Prop :=
  (∀ o : V3, ∃ f : W32 → W32 → W32 → W32,
    Safety.RegWord (.bfx o) (usesV3 o false [o.vd.toNat]) o.vd.toNat (Spec.three o false .i fun _ => f) ∧
    ∀ x y z j, j < 32 → Spec.bit (f x y z) j = (decide (j < fieldLen y) && Spec.bit x (fieldPos y + j))) ∧
  (∀ o : V3, ∃ f : W32 → W32 → W32 → W32,
    Safety.RegWord (.bfxs o) (usesV3 o false [o.vd.toNat]) o.vd.toNat (Spec.three o false .i fun _ => f) ∧
    ∀ x y z j, j < 32 → Spec.bit (f x y z) j =
      (decide (0 < fieldLen y) && Spec.bit x (fieldPos y + Nat.min j (fieldLen y - 1)))) ∧
  (∀ o : V3, ∃ f : W32 → W32 → W32 → W32,
    Safety.RegWord (.bfi o) (usesV3 o true [o.vd.toNat]) o.vd.toNat (Spec.three o true .i fun _ => f) ∧
    ∀ x y z j, j < 32 → Spec.bit (f x y z) j =
      (if fieldPos y ≤ j ∧ j < fieldPos y + fieldLen y then Spec.bit x (j - fieldPos y) else Spec.bit z j)) ∧
  (∀ o : V3, ∃ f : W32 → W32 → W32 → W32,
    Safety.RegWord (.perm o) (usesV3 o true [o.vd.toNat]) o.vd.toNat (Spec.three o true .i fun _ => f) ∧
    ∀ x y z j, j < 4 → bitsOf (f x y z).toNat (8 * j) 8 = permByte (x.toNat + 2 ^ 32 * z.toNat) (bitsOf y.toNat (8 * j) 8)) ∧
  (∀ o : V3, Safety.RegWord (.sel o) (usesV3 o false [o.vd.toNat]) o.vd.toNat fun c x =>
    let m := o.ext.getD Mods.none
    if x.mask m.sz.toNat then c.xsrc m .i o.sx x else c.rd .i o.sy x)

/-- MOVI writes its immediate with clear poison in every active strand, IADDI the sum of its source and its immediate, modulo 2^32,
with the source's poison (08 R137). -/
def Obligations.ImmediateWordsComplete : Prop :=
  (∀ o : VMovi, Safety.RegWord (.movi o) (usesMovi o) o.vd.toNat fun _ _ => { val := o.imm, poison := false }) ∧
  (∀ o : VAddi, Safety.RegWord (.iaddi o) (usesIaddi o) o.vd.toNat fun c x =>
    { val := (c.rd .i o.sx x).val + o.imm, poison := (c.rd .i o.sx x).poison })

/-- FP32 and packed words with two or three sources: kind of source, whether they read SZ, and what they compute with the rounding mode
of the modifier word (08 R144 to R146); the half words on each 16-bit half. -/
def Sys2Proof.Spec.floating (o : V3) : List (Instr × Kind × Bool × (Mods → W32 → W32 → W32 → W32)) :=
  [(.fadd o, .f, false, fun m x y _ => BitVec.ofNat 32 (fAdd fp32 m.rm.toNat x.toNat y.toNat)),
  (.fsub o, .f, false, fun m x y _ => BitVec.ofNat 32 (fSub fp32 m.rm.toNat x.toNat y.toNat)),
  (.fmul o, .f, false, fun m x y _ => BitVec.ofNat 32 (fMul fp32 m.rm.toNat x.toNat y.toNat)),
  (.ffma o, .f, true, fun m x y z => BitVec.ofNat 32 (fFma fp32 m.rm.toNat x.toNat y.toNat z.toNat)),
  (.fmin o, .f, false, fun _ x y _ => BitVec.ofNat 32 (fMinMax fp32 false x.toNat y.toNat)),
  (.fmax o, .f, false, fun _ x y _ => BitVec.ofNat 32 (fMinMax fp32 true x.toNat y.toNat)),
  (.hadd2 o, .h, false, onHalves fun r x y _ => fAdd fp16 r x y),
  (.hmul2 o, .h, false, onHalves fun r x y _ => fMul fp16 r x y),
  (.hfma2 o, .h, true, onHalves fun r x y z => fFma fp16 r x y z),
  (.badd2 o, .b, false, onHalves fun r x y _ => fAdd bf16 r x y),
  (.bmul2 o, .b, false, onHalves fun r x y _ => fMul bf16 r x y),
  (.bfma2 o, .b, true, onHalves fun r x y z => fFma bf16 r x y z)]

/-- FADD to BFMA2 (08 R144 to R146): each completes, and writes what its rule says. -/
def Obligations.FloatingWordsComplete : Prop :=
  ∀ o i k z op, (i, k, z, op) ∈ Spec.floating o →
    Safety.RegWord i (usesV3 o z [o.vd.toNat]) o.vd.toNat (Spec.three o z k op)

/-- Words with one source (08 R147 to R151). -/
def Sys2Proof.Spec.unary (o : VU) : List (Instr × Kind × (Mods → W32 → W32)) :=
  [(.mov o, .i, fun _ x => x),
  (.not o, .i, fun _ x => ~~~x),
  (.neg o, .i, fun m x => if m.sat then Spec.sat m (-x.toInt) else -x),
  (.iabs o, .i, fun m x => if m.sat then Spec.sat m (if x.toInt < 0 then -x.toInt else x.toInt)
      else if x.toInt < 0 then -x else x),
  (.popc o, .i, fun _ x => BitVec.ofNat 32 (popCount x)),
  (.clz o, .i, fun _ x => BitVec.ofNat 32 (leadingZeros x)),
  (.ctz o, .i, fun _ x => BitVec.ofNat 32 (trailingZeros x)),
  (.brev o, .i, fun _ x => x.reverse),
  (.fabs o, .i, fun _ x => x &&& 0x7FFFFFFF),
  (.fneg o, .i, fun _ x => x ^^^ 0x80000000),
  (.rcp o, .f, fun m x => BitVec.ofNat 32 (fRcp m.rm.toNat x.toNat)),
  (.rsq o, .f, fun m x => BitVec.ofNat 32 (fRsq m.rm.toNat x.toNat)),
  (.sqrt o, .f, fun m x => BitVec.ofNat 32 (fSqrt m.rm.toNat x.toNat)),
  (.exp2 o, .f, fun m x => BitVec.ofNat 32 (fExp2 m.rm.toNat x.toNat)),
  (.log2 o, .f, fun m x => BitVec.ofNat 32 (fLog2 m.rm.toNat x.toNat)),
  (.sin o, .f, fun m x => BitVec.ofNat 32 (fSin m.rm.toNat x.toNat)),
  (.cos o, .f, fun m x => BitVec.ofNat 32 (fCos m.rm.toNat x.toNat)),
  (.flr o, .f, fun _ x => BitVec.ofNat 32 (fIntegral 2 x.toNat)),
  (.ceil o, .f, fun _ x => BitVec.ofNat 32 (fIntegral 3 x.toNat)),
  (.trunc o, .f, fun _ x => BitVec.ofNat 32 (fIntegral 1 x.toNat)),
  (.rnde o, .f, fun _ x => BitVec.ofNat 32 (fIntegral 0 x.toNat)),
  (.cvtfi o, .f, fun m x => BitVec.ofInt 32 (convertInt (-(2 ^ 31)) (2 ^ 31 - 1) m.rm.toNat (decodeF fp32 x.toNat))),
  (.cvtfu o, .f, fun m x => BitVec.ofInt 32 (convertInt 0 (2 ^ 32 - 1) m.rm.toNat (decodeF fp32 x.toNat))),
  (.cvtif o, .i, fun m x => BitVec.ofNat 32 (convertF fp32 m.rm.toNat false false (valOfInt false x.toInt 0))),
  (.cvtuf o, .i, fun m x => BitVec.ofNat 32 (convertF fp32 m.rm.toNat false false (valOfInt false x.toNat 0))),
  (.cvthf o, .i, fun _ x => BitVec.ofNat 32 (convertF fp32 0 false false (decodeF fp16 (bitsOf x.toNat 0 16)))),
  (.cvtbf o, .i, fun _ x => BitVec.ofNat 32 (convertF fp32 0 false false (decodeF bf16 (bitsOf x.toNat 0 16)))),
  (.cvtfh o, .f, fun m x => BitVec.ofNat 32 (convertF fp16 m.rm.toNat m.sat false (decodeF fp32 x.toNat))),
  (.cvtfb o, .f, fun m x => BitVec.ofNat 32 (convertF bf16 m.rm.toNat m.sat false (decodeF fp32 x.toNat)))]

/-- MOV to CVTFB (08 R147 to R151): each completes, and writes what its rule says. -/
def Obligations.UnaryWordsComplete : Prop :=
  ∀ o i k op, (i, k, op) ∈ Spec.unary o → Safety.RegWord i (usesVU o [o.vd.toNat]) o.vd.toNat (Spec.one o k op)

/-- NRWn writes one register: source j narrowed stands in group element j, the bits outside the group are the old ones (08 R154).
WDNn writes n registers from VD, element j of the group widened (R155). -/
def Obligations.PackedWordsComplete : Prop :=
  (∀ i o n, (i, n) ∈ [(Instr.nrw2 o, 2), (Instr.nrw4 o, 4), (Instr.nrw8 o, 8)] →
    Safety.RegWord i (usesNrw o n) o.vd.toNat fun c x =>
      packElems o n (c.rd .i (o.ext.getD Mods.none).sz x) (x.reg o.vd.toNat) x) ∧
  (∀ i o n, (i, n) ∈ [(Instr.wdn2 o, 2), (Instr.wdn4 o, 4), (Instr.wdn8 o, 8)] →
    ∀ s tid wid c, Safety.Issues i s (usesWdn o n) tid wid c →
      ∃ t w, exec i s = .next t ∧
        Safety.Completes c (usesWdn o n) tid wid t w (followPos c.s c.t c.w (wordsOf o.ext)) ∧
        Safety.masks w = Safety.masks c.w ∧
        ∀ q, Safety.column w q = c.w.strands.map fun x =>
          if o.vd.toNat ≤ q ∧ q < o.vd.toNat + n then
            (if x.em then unpackElem o n (c.rd .i (o.ext.getD Mods.none).sz x) (c.rd (unpackKind o) o.sx x) (q - o.vd.toNat) else x.reg q)
          else if q ∈ Safety.freed (usesWdn o n) then Elem.zero else x.reg q)

/-- Comparisons (08 R142): what the mask bit of each active strand becomes. -/
def Sys2Proof.Spec.compare (o : VCmp) : List (Instr × Kind × (W32 → W32 → Bool)) :=
  [(.cmpeq o, .i, fun x y => decide (x = y)),
  (.cmpne o, .i, fun x y => decide (x ≠ y)),
  (.cmplt o, .i, fun x y => decide (x.toInt < y.toInt)),
  (.cmple o, .i, fun x y => decide (x.toInt ≤ y.toInt)),
  (.cmpltu o, .i, fun x y => decide (x.toNat < y.toNat)),
  (.cmpleu o, .i, fun x y => decide (x.toNat ≤ y.toNat)),
  (.fcmpeq o, .f, fun x y => fCmpEq x.toNat y.toNat),
  (.fcmplt o, .f, fun x y => fCmpLt x.toNat y.toNat),
  (.fcmple o, .f, fun x y => fCmpLe x.toNat y.toNat),
  (.fcmpun o, .f, fun x y => fCmpUn x.toNat y.toNat)]

/-- The masks after a comparison into mask md: only that mask, and only in active strands. -/
def Sys2Proof.Spec.maskWritten (c : VCtx) (md : Nat) (g : Strand → Bool) : List (Nat × Nat × Bool × BitVec 7) :=
  c.w.strands.map fun x => let y := if x.em then x.setMask md (g x) else x; (x.sid, x.lane, y.em, y.m)

/-- A comparison of operands without poison writes its mask bit in the active strands; a poisoned operand of an active strand ends the
team, reported as POISONED (cause 9) with those lanes (08 R142, R143, 25 R355). -/
def Obligations.ComparisonsComplete : Prop :=
  ∀ o i k op, (i, k, op) ∈ Spec.compare o → ∀ s tid wid c, Safety.Issues i s (usesCmp o) tid wid c →
    let m := o.ext.getD Mods.none
    let bad := c.lanes fun x => (c.srcX m k o.sx x).poison || (c.srcY m k o.sy x).poison
    (bad = 0 → ∃ t w, exec i s = .next t ∧
      Safety.Completes c (usesCmp o) tid wid t w (followPos c.s c.t c.w (wordsOf o.ext)) ∧
      Safety.masks w = Spec.maskWritten c o.md.toNat (fun x => op (c.srcX m k o.sx x).val (c.srcY m k o.sy x).val) ∧
      ∀ q, Safety.column w q = Safety.unwritten c (usesCmp o) q) ∧
    (bad ≠ 0 → exec i s = .next (endTeam c.s tid { EndCause.silent with
      entry := some { kind := 0x10, cause := 9, pc := c.w.pos.xpc, lanes := bad, core := coreIndex c.s c.t c.w }, cause := 9, mayReplay := false }))

/-! ### Lanes (09) -/

/-- The shuffles: the lane that each names for a lane and the value of SY (09 R159). -/
def Sys2Proof.Spec.shuffles (o : V3) : List (Instr × (Nat → Nat → Int)) :=
  [(.shfl o, fun _ y => (y : Int)),
   (.shflup o, fun l y => (l : Int) - (y : Int)),
   (.shfldn o, fun l y => (l : Int) + (y : Int)),
   (.shflx o, fun l y => ((l ^^^ y : Nat) : Int))]

/-- The element of SX at the lane that f names, with its poison and that of SY; 0 with SY's poison where no live strand is there (09
R157, R159). -/
def Sys2Proof.Spec.shuffled (c : VCtx) (sx sy : BitVec 7) (f : Nat → Nat → Int) (x : Strand) : Elem :=
  let y := c.rd .i sy x
  match c.w.strands.find? fun z => decide ((z.lane : Int) = f x.lane y.val.toNat) && decide (f x.lane y.val.toNat < c.wd) with
  | some z => { val := (c.rd .i sx z).val, poison := (c.rd .i sx z).poison || y.poison }
  | none => { val := 0, poison := y.poison }

/-- The active strands' elements of a source, in lane order. -/
def Sys2Proof.Spec.activeElems (c : VCtx) (k : Kind) (sx : BitVec 7) : List Elem :=
  (c.w.strands.filter (·.em)).map fun y => c.rd k sx y

/-- SHFL, SHFLUP, SHFLDN, SHFLX and BCAST read the lane they name; VANY, VALL and BALLOT give every active strand one result (09 R159 to
R161). -/
def Obligations.ShuffleAndVoteWordsComplete : Prop :=
  (∀ o i f, (i, f) ∈ Spec.shuffles o →
    Safety.RegWord i (usesV3 o false [o.vd.toNat]) o.vd.toNat fun c x => Spec.shuffled c o.sx o.sy f x) ∧
  (∀ o : VBcast, Safety.RegWord (.bcast o) (usesBcast o) o.vd.toNat fun c x => Spec.shuffled c o.sx o.sy (fun _ y => y) x) ∧
  (∀ o : VU, Safety.RegWord (.vany o) (usesVU o [o.vd.toNat]) o.vd.toNat fun c _ =>
    { val := if ∃ e ∈ Spec.activeElems c .i o.sx, e.val ≠ 0 then 1 else 0, poison := (Spec.activeElems c .i o.sx).any (·.poison) }) ∧
  (∀ o : VU, Safety.RegWord (.vall o) (usesVU o [o.vd.toNat]) o.vd.toNat fun c _ =>
    { val := if ∀ e ∈ Spec.activeElems c .i o.sx, e.val ≠ 0 then 1 else 0, poison := (Spec.activeElems c .i o.sx).any (·.poison) }) ∧
  (∀ o : VBallot, Safety.RegWord (.ballot o) (usesBallot o) o.vd.toNat fun c _ =>
    { val := BitVec.ofNat 32 (c.lanes (fun x => decide ((c.rd .i o.sx x).val ≠ 0)) / (if o.half then 2 ^ 32 else 1)),
      poison := (Spec.activeElems c .i o.sx).any (·.poison) })

/-- SCAN and FSCAN give an active strand the fold, in lane order, of the active strands below it, and itself unless EX is set; RED the
fold of all of them, FRED the tree over lane positions; an empty fold gives the identity with poison clear (09 R162 to R164). -/
def Obligations.ScanWordsComplete : Prop :=
  (∀ o : VScan, Safety.RegWord (.scan o) (usesScan o) o.vd.toNat fun c x =>
    scanAt c .i o.sx o.ex (scanInt o.opc.toNat) (identInt o.opc.toNat) x) ∧
  (∀ o : VScan, Safety.RegWord (.fscan o) (usesScan o) o.vd.toNat fun c x =>
    scanAt c .f o.sx o.ex (scanFloat o.opc.toNat (o.ext.getD Mods.none).rm.toNat) (identFloat o.opc.toNat) x) ∧
  (∀ o : VScan, Safety.RegWord (.red o) (usesScan o) o.vd.toNat fun c _ =>
    foldElems (scanInt o.opc.toNat) (identInt o.opc.toNat) (Spec.activeElems c .i o.sx)) ∧
  (∀ o : VScan, Safety.RegWord (.fred o) (usesScan o) o.vd.toNat fun c _ =>
    (treeTop (scanFloat o.opc.toNat (o.ext.getD Mods.none).rm.toNat) 6 ((upFrom 0 c.wd).map fun l =>
      (c.w.at l).bind fun x => if x.em then some (c.rd .f o.sx x) else none)).getD
      { val := identFloat o.opc.toNat, poison := false })

/-- MAND and MOR write their mask in every strand that holds a lane, active or not, from two masks, each complemented under NX or NY;
no register changes (09 R158). -/
def Obligations.MaskWordsComplete : Prop :=
  ∀ i o op, (i, op) ∈ [(Instr.mand o, and), (Instr.mor o, or)] → ∀ s tid wid c, Safety.Issues i s (usesNone (wordsOf o.ext)) tid wid c →
    let m := o.ext.getD Mods.none
    ∃ t w, exec i s = .next t ∧
      Safety.Completes c (usesNone (wordsOf o.ext)) tid wid t w (followPos c.s c.t c.w (wordsOf o.ext)) ∧
      (Safety.masks w = c.w.strands.map fun x =>
        let y := x.setMask o.md.toNat (op (x.mask o.mx.toNat != m.nx) (x.mask o.my.toNat != m.ny))
        (x.sid, x.lane, y.em, y.m)) ∧
      ∀ q, Safety.column w q = Safety.column c.w q

/-! ### Control words (11) -/

/-- BRU falls through where no active strand holds its condition and goes to its recorded target where all do; where some do it raises
NONUNIFORM (cause 3) with them in XMASK; poison in an active strand ends the team. BRK does the same on a uniform operand. A target that
no header was recorded at raises ILLEGALCLAUSE (cause 2) at the branch (11 R189 to R191, 06 R101). -/
def Obligations.ConditionalBranches : Prop :=
  (∀ o s tid wid c, Safety.Issues (.bru o) s (usesCtl [o.sx] (markReg o.sx o.lx) [] 2) tid wid c →
    let u := usesCtl [o.sx] (markReg o.sx o.lx) [] 2
    let bad := c.lanes fun x => (c.rd .i o.sx x).poison
    let yes := c.lanes fun x => decide ((c.rd .i o.sx x).val ≠ 0) != o.inv
    let target := (BitVec.ofNat 32 c.w.pos.clause + o.disp).toNat
    (bad ≠ 0 → exec (.bru o) s = poisonWord c.s c.t c.w bad) ∧
    (bad = 0 → yes ≠ 0 → yes ≠ c.w.emBits → exec (.bru o) s = trapWord c.s c.t c.w 3 0 0 yes) ∧
    (bad = 0 → yes = 0 → Safety.Passes (.bru o) s c u tid wid (Pos.atClause (nextClause c))) ∧
    (bad = 0 → yes ≠ 0 → yes = c.w.emBits → ∀ b, getObj c.s c.t.obj = some b →
      (target ∈ b.headers → Safety.Passes (.bru o) s c u tid wid (Pos.atClause target)) ∧
      (target ∉ b.headers → exec (.bru o) s = trapWord c.s c.t c.w 2 0 0 c.w.emBits))) ∧
  (∀ o s tid wid c, Safety.Issues (.brk o) s (usesCtl [o.sx] [] [] 2) tid wid c →
    let u := usesCtl [o.sx] [] [] 2
    let taken := decide ((c.rd .i o.sx noStrand).val ≠ 0) != o.inv
    let target := (BitVec.ofNat 32 c.w.pos.clause + o.disp).toNat
    (taken = false → Safety.Passes (.brk o) s c u tid wid (Pos.atClause (nextClause c))) ∧
    (taken = true → ∀ b, getObj c.s c.t.obj = some b →
      (target ∈ b.headers → Safety.Passes (.brk o) s c u tid wid (Pos.atClause target)) ∧
      (target ∉ b.headers → exec (.brk o) s = trapWord c.s c.t c.w 2 0 0 c.w.emBits)))

/-- CALL writes the offset of the clause that follows into VD of every live strand, active or not, and goes to its target; RET goes to the
common value of the live strands, raises NONUNIFORM where they differ, with the strands that differ from the lowest lane's in XMASK, and
ends the team where one is poisoned (11 R192). -/
def Obligations.CallAndReturn : Prop :=
  (∀ vd disp s tid wid c b, Safety.Issues (.call vd disp) s (usesCtl [] [] [vd.toNat] 2) tid wid c → getObj c.s c.t.obj = some b →
    let target := (BitVec.ofNat 32 c.w.pos.clause + disp).toNat
    (target ∈ b.headers → ∃ t w, exec (.call vd disp) s = .next t ∧
      Safety.Completes c (usesCtl [] [] [vd.toNat] 2) tid wid t w (Pos.atClause target) ∧ Safety.masks w = Safety.masks c.w ∧
      ∀ q, Safety.column w q = c.w.strands.map fun x =>
        if q = vd.toNat then { val := BitVec.ofNat 32 (nextClause c), poison := false } else x.reg q) ∧
    (target ∉ b.headers → exec (.call vd disp) s = trapWord c.s c.t c.w 2 0 0 c.w.emBits)) ∧
  (∀ sx lx s tid wid c b v, Safety.Issues (.ret sx lx) s (usesCtl [sx] (markReg sx lx) [] 1) tid wid c →
    getObj c.s c.t.obj = some b → c.w.strands ≠ [] →
    (∀ x ∈ c.w.strands, c.rd .i sx x = { val := v, poison := false }) → v.toNat ∈ b.headers →
    Safety.Passes (.ret sx lx) s c (usesCtl [sx] (markReg sx lx) [] 1) tid wid (Pos.atClause v.toNat)) ∧
  (∀ sx lx s tid wid c, Safety.Issues (.ret sx lx) s (usesCtl [sx] (markReg sx lx) [] 1) tid wid c →
    let bad := c.w.bits fun x => (c.rd .i sx x).poison
    (bad ≠ 0 → exec (.ret sx lx) s = poisonWord c.s c.t c.w bad) ∧
    (∀ low ∈ c.w.strands, bad = 0 → (∀ y ∈ c.w.strands, y = low ∨ low.lane < y.lane) →
      let differ := c.w.bits fun y => decide ((c.rd .i sx y).val ≠ (c.rd .i sx low).val)
      differ ≠ 0 → exec (.ret sx lx) s = trapWord c.s c.t c.w 3 0 0 differ))

/-- EXIT takes its active strands off their lanes; the others go on at the next clause; KOWNER becomes NONE where the owner exits (11
R193). WEFT_CEASE takes a weft without strands and without outstanding operations out of its team, and the team ends where it was the
last (R193). -/
def Obligations.ExitAndCease : Prop :=
  (∀ s tid wid c, Safety.Issues .exit s (usesCtl [] [] [] 1) tid wid c →
    holdsRecord c.s c.t ((c.w.strands.filter (·.em)).map (·.sid)) = false →
    heldPoison c.s c.t ((c.w.strands.filter (·.em)).map (·.sid)) = false →
    ∃ t w, exec .exit s = .next t ∧ Safety.SameOutside c.s t ∧ Safety.weftIn t tid wid = some w ∧
      w.strands = c.w.strands.filter (fun x => !x.em) ∧ w.pos = Pos.atClause (nextClause c) ∧
      (∀ o tm, c.t.uni.kowner = some o → getTeam t tid = some tm →
        tm.uni.kowner = if o ∈ (c.w.strands.filter (·.em)).map (·.sid) then none else some o)) ∧
  (∀ s tid wid c, Safety.Issues .exit s (usesCtl [] [] [] 1) tid wid c →
    let gone := (c.w.strands.filter (·.em)).map (·.sid)
    ownUndone c.s tid wid = false → commitReady c.s c.t = true → heldPoison c.s c.t gone = false →
    ∃ t w, exec .exit s = .next t ∧ Safety.weftIn t tid wid = some w ∧ w.strands = c.w.strands.filter (fun x => !x.em) ∧
      w.pos = Pos.atClause (nextClause c) ∧ t.heddle = (releaseHeld (publishHeld c.s c.t c.w gone) c.t c.w gone).heddle) ∧
  (∀ s tid wid t w, s.cur = .weft tid wid → getTeam s tid = some t → t.weft? wid = some w →
    (w.strands ≠ [] ∨ weftOps s tid wid ≠ [] → exec .weftCease s = .next s) ∧
    (w.strands = [] → weftOps s tid wid = [] →
      exec .weftCease s = .next (checkTeamEnd (updTeam s tid fun t => { t with wefts := t.wefts.filter fun x => x.wid ≠ wid }) tid)))

/-- A weft of the team goes on after its barrier or rendezvous: it waits no more, and stands after its word with the strands it had. -/
def Sys2Proof.Spec.goesOn (c : VCtx) (t : State) (tid : Nat) (w : Weft) : Prop :=
  ∃ v, Safety.weftIn t tid w.wid = some v ∧ v.wait = .none ∧ v.pos = followPos c.s c.t w 1 ∧ v.strands = w.strands

/-- Each strand of a weft has released at team scope: it holds back every later write of its own (03 R53). -/
def Sys2Proof.Spec.released (c : VCtx) (t : State) (tid : Nat) : Prop :=
  ∃ tm, getTeam t tid = some tm ∧ ∀ x ∈ c.w.strands, (tm.hist x.sid).rel = widest (c.t.hist x.sid).rel (some 1)

/-- BAR and NBAR always answer a next state. Where every other weft of the team that holds a live strand waits at a BAR, and what all of them
did before it is performed, they all go on after their own BAR; else this weft waits there (11 R194). NBAR with a count of 0 or above
2,048 is ILLEGAL; with a count other than the open barrier's it raises NONUNIFORM. Once what its weft did before is performed the weft
arrives: it opens an idle barrier with its count; where the wefts that wait at it hold that count of live strands, they go on and the
barrier is idle; else this weft waits (R195). Both release at team scope (03 R53). That a BAR completes, and a weft arrives at an NBAR,
only once earlier accesses are performed is log entry 44 (DEDUCED). -/
def Obligations.Barriers : Prop :=
  (∀ s tid wid c, Safety.Issues .bar s (usesCtl [] [] [] 1) tid wid c → (c.t.wefts.map (·.wid)).Nodup →
    let complete := c.w.strands ≠ [] ∧ ∀ w ∈ c.t.wefts, w.strands ≠ [] → (w.wid = wid ∨ w.wait = .bar) ∧ ownUndone c.s tid w.wid = false
    ∃ t, exec .bar s = .next t ∧ Spec.released c t tid ∧
      (complete → ∀ w ∈ c.t.wefts, w.strands ≠ [] → Spec.goesOn c t tid w) ∧
      (c.w.strands ≠ [] → ¬complete →
        ∃ w, Safety.weftIn t tid wid = some w ∧ w.wait = .bar ∧ w.pos = c.w.pos ∧ w.strands = c.w.strands)) ∧
  (∀ sx id s tid wid c, Safety.Issues (.nbar sx id) s (usesCtl [sx] [] [] 1) tid wid c → (c.t.wefts.map (·.wid)).Nodup →
    let n := (c.rd .i sx noStrand).val.toNat
    let isOpen := spGet 0 c.t.nbars id.toNat
    let there := c.t.wefts.filter fun w => !w.strands.isEmpty &&
      (decide (w.wid = wid) || match w.wait with | .nbar i _ => decide (i = id.toNat) | _ => false)
    let complete := n ≤ (there.map (·.strands.length)).sum
    (n = 0 ∨ 2048 < n → exec (.nbar sx id) s = illegalWord c.s c.t c.w) ∧
    (0 < n → n ≤ 2048 → isOpen ≠ 0 → isOpen ≠ n → exec (.nbar sx id) s = trapWord c.s c.t c.w 3 0 0 c.w.emBits) ∧
    (0 < n → n ≤ 2048 → isOpen = 0 ∨ isOpen = n → ownUndone c.s tid wid = true →
      exec (.nbar sx id) s = .next (swapOut c.s tid wid (c.w.retries .order))) ∧
    (0 < n → n ≤ 2048 → isOpen = 0 ∨ isOpen = n → ownUndone c.s tid wid = false → ∃ t tm, exec (.nbar sx id) s = .next t ∧ getTeam t tid = some tm ∧
      Spec.released c t tid ∧
      (complete → (∀ w ∈ there, Spec.goesOn c t tid w) ∧ spGet 0 tm.nbars id.toNat = 0) ∧
      (¬complete → spGet 0 tm.nbars id.toNat = n ∧
        ∃ w, Safety.weftIn t tid wid = some w ∧ w.wait = .nbar id.toNat n ∧ w.pos = c.w.pos ∧ w.strands = c.w.strands)))

/-- KOWN with an active strand and no owner claims for the strand of the lowest SID; by the owning weft, or without active strands, it does
nothing; while another weft owns it waits. KFREE by the owner frees; by any other weft it does nothing. KWR by the owning weft writes its k
register from the lowest active lane, whose poison ends the team; by any other weft it raises UOWN (cause 7, XINFO the register) (11 R196,
R197). -/
def Obligations.UniformOwnership : Prop :=
  (∀ s tid wid c, Safety.Issues .kown s (usesCtl [] [] [] 1) tid wid c →
    let u := usesCtl [] [] [] 1
    let pos := followPos c.s c.t c.w 1
    (c.w.strands.filter (·.em) = [] ∨ ownsK c.t c.w = true → Safety.Passes .kown s c u tid wid pos) ∧
    (∀ sid, lowestSid (c.w.strands.filter (·.em)) = some sid → c.t.uni.kowner = none →
      ∃ t w tm, exec .kown s = .next t ∧ Safety.SameOutside (acquireIds c.s c.t c.w.keys c.t.uni.krel) t ∧ Safety.weftIn t tid wid = some w ∧ w.pos = pos ∧
        w.strands = c.w.strands ∧ getTeam t tid = some tm ∧ tm.uni = { c.t.uni with kowner := some sid }) ∧
    (c.w.strands.filter (·.em) ≠ [] → c.t.uni.kowner.isSome = true → ownsK c.t c.w = false →
      exec .kown s = .next (swapOut c.s tid wid (c.w.retries .kown)))) ∧
  (∀ s tid wid c, Safety.Issues .kfree s (usesCtl [] [] [] 1) tid wid c →
    (ownsK c.t c.w = false → Safety.Passes .kfree s c (usesCtl [] [] [] 1) tid wid (followPos c.s c.t c.w 1)) ∧
    (ownsK c.t c.w = true → ownUndone c.s tid wid = false →
      ∃ t w tm, exec .kfree s = .next t ∧ Safety.SameOutside c.s t ∧ Safety.weftIn t tid wid = some w ∧
        w.pos = followPos c.s c.t c.w 1 ∧ getTeam t tid = some tm ∧ tm.uni.kowner = none ∧ tm.uni.k = c.t.uni.k ∧
        tm.uni.krel = inTransit c.s.mem (c.t.done c.w.keys))) ∧
  (∀ kd sx lx s tid wid c, Safety.Issues (.kwr kd sx lx) s (usesCtl [sx] (markReg sx lx) [] 1) tid wid c →
    (ownsK c.t c.w = false → exec (.kwr kd sx lx) s = trapWord c.s c.t c.w 7 0 kd.toNat c.w.emBits) ∧
    (c.w.strands.filter (·.em) = [] → ownsK c.t c.w = true →
      Safety.Passes (.kwr kd sx lx) s c (usesCtl [sx] (markReg sx lx) [] 1) tid wid (followPos c.s c.t c.w 1)) ∧
    (∀ x ∈ c.w.strands, x.em = true → (∀ y ∈ c.w.strands, y.em = true → y = x ∨ x.lane < y.lane) → ownsK c.t c.w = true →
      (c.rd .i sx x).poison = true → exec (.kwr kd sx lx) s = poisonWord c.s c.t c.w (2 ^ x.lane)) ∧
    (∀ x ∈ c.w.strands, x.em = true → (∀ y ∈ c.w.strands, y.em = true → y = x ∨ x.lane < y.lane) → ownsK c.t c.w = true →
      (c.rd .i sx x).poison = false →
      ∃ t w tm, exec (.kwr kd sx lx) s = .next t ∧ Safety.SameOutside (Safety.taken c (usesCtl [sx] (markReg sx lx) [] 1)) t ∧ Safety.weftIn t tid wid = some w ∧
        w.pos = followPos c.s c.t c.w 1 ∧ getTeam t tid = some tm ∧
        tm.uni.k = updAt (fun _ => (c.rd .i sx x).val) kd.toNat c.t.uni.k))

/-- TWAIT without active strands goes on; with a target that its counter has reached in every active strand it goes on, and has acquired what
the operations up to the greatest target released; with a greater one it waits; a poisoned one ends the team; a code that names no counter
of the team is ILLEGAL (11 R198). YIELD orders and writes nothing; it goes on after itself, out of the active set exactly where another
pending weft of its slot is ready (11 R199). -/
def Obligations.TimelineWaitsAndYield : Prop :=
  (
    ∀ scp sx tl lx s tid wid c, Safety.Issues (.twait scp sx tl lx) s (usesCtl (wideCodes sx) (if lx then wideRegs sx else []) [] 1) tid wid c →
      let u := usesCtl (wideCodes sx) (if lx then wideRegs sx else []) [] 1
      let pos := followPos c.s c.t c.w 1
      let bad := c.lanes fun x => (c.rd64 sx x).2
      (timelineOf c.s c.t tl.toNat = none → exec (.twait scp sx tl lx) s = illegalWord c.s c.t c.w) ∧
      (∀ n, timelineOf c.s c.t tl.toNat = some n →
        (c.w.strands.filter (·.em) = [] → Safety.Passes (.twait scp sx tl lx) s c u tid wid pos) ∧
        (bad ≠ 0 → exec (.twait scp sx tl lx) s = poisonWord c.s c.t c.w bad) ∧
        (bad = 0 → ∀ y ∈ c.w.strands, y.em = true → (∀ x ∈ c.w.strands, x.em = true → (c.rd64 sx x).1.toNat ≤ (c.rd64 sx y).1.toNat) →
          let target := (c.rd64 sx y).1.toNat
          (target ≤ n → Safety.Passes (.twait scp sx tl lx) s
            { c with s := acquireIds c.s c.t c.w.keys (timelineRel c.s c.t tl.toNat target) } u tid wid pos) ∧
          (n < target → exec (.twait scp sx tl lx) s = .next (swapOut c.s tid wid (c.w.retries .timeline)))))) ∧
  (
    ∀ s tid wid c, Safety.Issues .yield s (usesCtl [] [] [] 1) tid wid c →
      ∃ t w, exec .yield s = .next t ∧ Safety.OnlyWeft c.s t tid wid ∧ Safety.weftIn t tid wid = some w ∧
        w.pos = followPos c.s c.t c.w 1 ∧ w.wait = .none ∧ w.strands = c.w.strands ∧ w.alloc = c.w.alloc ∧
        w.active = (c.w.active && !pendingReady c.s c.t c.w))

/-- The state in which a weft waits at a REGROUP or UNGROUP, its destination allocated. -/
def Sys2Proof.Spec.atRegroup (c : VCtx) (un : Bool) (vd : BitVec 6) (tid wid : Nat) : State :=
  swapOut (updWeft c.s tid wid fun w => w.allocate [vd.toNat]) tid wid (.regroup un vd c.w.pos.clause c.w.pos.word)

/-- Every other live weft of the team waits at the same REGROUP or UNGROUP, with the same queue position. -/
def Sys2Proof.Spec.lastAtRegroup (c : VCtx) (un : Bool) (wid : Nat) : Prop :=
  (c.t.wefts.map (·.wid)).Nodup ∧ c.w.strands ≠ [] ∧
  ∀ w ∈ c.t.wefts, w.strands ≠ [] → w.wid = wid ∨
    (sameRegroup w un c.w.pos.clause c.w.pos.word = true ∧ w.rpos = c.w.rpos ∧ w.pos = c.w.pos)

/-- Where REGROUP or UNGROUP would seat a strand. -/
def Sys2Proof.Spec.seat (c : VCtx) (un : Bool) (sid : Nat) : Seat := if un then canonical c.wd sid else packed c.t c.wd sid

/-- The status of a REGROUP or UNGROUP that completes: 1 where every strand already sits where it would, 4 where the new layout does not fit on
some core of the team, else 0 (09 R166). -/
def Sys2Proof.Spec.regroupStatus (c : VCtx) (un : Bool) (vd : BitVec 6) : W32 :=
  if c.t.wefts.all fun w => w.strands.all fun x => decide (Spec.seat c un x.sid = (w.wid, x.lane)) then 1
  else if c.t.cores.all fun core =>
      let a := othersFootprint c.s c.t.place.cluster core c.t.tid
      let b := footprint c.wd (floorOf c.s c.t) (newAllocs c.t (Spec.seat c un) core [vd.toNat])
      decide (a.1 + b.1 ≤ 64) && decide (a.2 + b.2 ≤ 65536) then 0
  else 4

/-- REGROUP and UNGROUP raise NONUNIFORM (cause 3) in a weft with an inactive strand, or at another queue position than a weft that waits
there; else the weft waits until every live weft of the team waits at the same word. The last one lets all of them go on: every
strand receives the status in VD, keeps its other registers and its masks, and sits where the layout says where the status is 0, else
where it sat (09 R165 to R167). A change of layout puts every strand where it says and changes nothing of a strand but its lane: its SID,
masks and registers are those it had (02 R27, 09 R167). That VD is allocated at arrival, and counts there, is log entry 71 (DEDUCED). -/
def Obligations.RegroupKeepsStrands : Prop :=
  (
    ∀ i un vd, (i, un) ∈ [(Instr.regroup vd, false), (Instr.ungroup vd, true)] →
      ∀ s tid wid c, Safety.Issues i s { usesNone 1 with dests := [vd.toNat] } tid wid c →
        let differs := ∃ w ∈ c.t.wefts, w.strands ≠ [] ∧ sameRegroup w un c.w.pos.clause c.w.pos.word = true ∧ w.rpos ≠ c.w.rpos
        ((∃ x ∈ c.w.strands, x.em = false) ∨ differs → exec i s = trapWord c.s c.t c.w 3 0 0 c.w.emBits) ∧
        ((∀ x ∈ c.w.strands, x.em = true) → ¬differs →
          (∃ w ∈ c.t.wefts, w.strands ≠ [] ∧ w.wid ≠ wid ∧ sameRegroup w un c.w.pos.clause c.w.pos.word = false) →
          exec i s = .next (Spec.atRegroup c un vd tid wid)) ∧
        ((∀ x ∈ c.w.strands, x.em = true) → Spec.lastAtRegroup c un wid →
          let st := Spec.regroupStatus c un vd
          ∃ t tm, exec i s = .next t ∧ getTeam t tid = some tm ∧ ∀ w ∈ c.t.wefts, ∀ x ∈ w.strands,
            ∃ v ∈ tm.wefts, ∃ y ∈ v.strands, v.wait = .none ∧ v.pos = followPos c.s c.t c.w 1 ∧ y.sid = x.sid ∧
              (v.wid, y.lane) = (if st = 0 then Spec.seat c un x.sid else (w.wid, x.lane)) ∧ y.em = x.em ∧ y.m = x.m ∧
              ∀ q, y.reg q = if q = vd.toNat then { val := st, poison := false } else x.reg q)) ∧
  (
    ∀ s tid f t t', getTeam s tid = some t → getTeam (relayout s tid f) tid = some t' →
      ∀ w ∈ t'.wefts, ∀ x ∈ w.strands, f x.sid = (w.wid, x.lane) ∧
        ∃ v ∈ t.wefts, ∃ y ∈ v.strands, x = { y with lane := x.lane })

/-- VEER and VEER.MAY in a clause that no veer-table entry names give every active strand status 2 and go on. In a named clause, with em
all ones and the wefts that already wait there agreeing on queue position and target, the weft waits at the rendezvous, which is
tried; where em is not all ones it raises VEERDIV (cause 4) with XINFO 1, else where a weft that waits there has another queue position
with XINFO 2, else where its target is above 3, or not the one that the first weft to arrive there named, with XINFO 3. Where every live
weft on the cores waits and the Vane grants another point that fits, the cores begin to move to it; where the point is the cores' own,
where the Vane refuses, and where the footprint does not fit, every waiting weft has status 1, 3 or 4 in VD and goes on.
CORE_MOVE_COMPLETE puts a moving core, and the core that moves with it, at its point, and every strand of their teams on the lane that the
canonical layout gives it there, where it waits no more; an idle core that the dispatcher does not need elsewhere goes to ZEPHYR, and no other does (11 R200, 02 R22
to R28, 26 R366). That VD is allocated at arrival is log entry 71 (DEDUCED); that only wefts at the same clause address are compared is
log entry 72 (DESIGN CHOICE). -/
def Obligations.VeerMovesCores : Prop :=
  (∀ i vd sx codes target, (i, codes, target) ∈ [(Instr.veer vd sx, [sx], fun (c : VCtx) => some (c.rd .i sx noStrand).val.toNat),
      (Instr.veerMay vd, [], fun _ => none)] →
    ∀ s tid wid c o, Safety.Issues i s (usesCtl codes [] [vd.toNat] 1) tid wid c → getObj c.s c.t.obj = some o →
      (c.w.pos.clause ∉ o.veer →
        ∃ t w, exec i s = .next t ∧ Safety.Completes c (usesCtl codes [] [vd.toNat] 1) tid wid t w (followPos c.s c.t c.w 1) ∧
          ∀ q, Safety.column w q = Safety.written c (usesCtl codes [] [vd.toNat] 1) vd.toNat (fun _ => { val := 2, poison := false }) q) ∧
      (c.w.pos.clause ∈ o.veer → (∀ x ∈ c.w.strands, x.em = true) → (∀ p, target c = some p → p ≤ 3) →
        (∀ w ∈ c.t.wefts, atVeer w c.w.pos.clause = true → w.rpos = c.w.rpos) →
        (∀ tm ∈ c.s.teams, ∀ w ∈ tm.wefts, ∀ d q a, w.wait = .veer d q a → a = c.w.pos.clause → q = target c) →
        exec i s = .next (tryVeer (swapOut (updWeft c.s tid wid fun w => w.allocate [vd.toNat]) tid wid
          (.veer vd (target c) c.w.pos.clause)) tid wid)) ∧
      (c.w.pos.clause ∈ o.veer → (∃ x ∈ c.w.strands, x.em = false) → exec i s = trapWord c.s c.t c.w 4 0 1 c.w.emBits) ∧
      (c.w.pos.clause ∈ o.veer → (∀ x ∈ c.w.strands, x.em = true) →
        (∃ w ∈ c.t.live, atVeer w c.w.pos.clause = true ∧ w.rpos ≠ c.w.rpos) → exec i s = trapWord c.s c.t c.w 4 0 2 c.w.emBits) ∧
      (c.w.pos.clause ∈ o.veer → (∀ x ∈ c.w.strands, x.em = true) →
        (∀ w ∈ c.t.wefts, atVeer w c.w.pos.clause = true → w.rpos = c.w.rpos) →
        let cores := (c.t.cores.flatMap (coresWith c.s c.t.place.cluster)).foldl (fun a i => insNat i a) []
        ((∃ p, target c = some p ∧ 3 < p) ∨
          ∃ q, veerTarget (teamsOnAny c.s c.t.place.cluster cores) c.w.pos.clause = some q ∧ q ≠ target c) →
        exec i s = trapWord c.s c.t c.w 4 0 3 c.w.emBits)) ∧
  (∀ s tid wid t w vd tgt addr p, getTeam s tid = some t → t.weft? wid = some w → w.wait = .veer vd tgt addr →
    let cl := t.place.cluster
    let cores := (t.cores.flatMap (coresWith s cl)).foldl (fun a i => insNat i a) []
    let cur := (getCore s cl t.place.core).pt.toNat
    (getCore s cl t.place.core).moving = none → (∀ tm ∈ teamsOnAny s cl cores, ∀ v ∈ tm.live, atVeer v addr = true) →
    vaneAnswer s cur tgt = some p → p ≠ cur → (∀ i ∈ cores, fitsAt s cl i (widthOf (BitVec.ofNat 2 p)) = true) →
    ∀ i ∈ cores, (getCore (tryVeer s tid wid) cl i).moving = some (BitVec.ofNat 2 p)) ∧
  (∀ s tid wid t w vd tgt addr (st : W32), getTeam s tid = some t → t.weft? wid = some w → w.wait = .veer vd tgt addr →
    let cl := t.place.cluster
    let cores := (t.cores.flatMap (coresWith s cl)).foldl (fun a i => insNat i a) []
    let cur := (getCore s cl t.place.core).pt.toNat
    (getCore s cl t.place.core).moving = none → (∀ tm ∈ teamsOnAny s cl cores, ∀ v ∈ tm.live, atVeer v addr = true) →
    (s.teams.map (·.tid)).Nodup → (∀ tm ∈ s.teams, (tm.wefts.map (·.wid)).Nodup) →
    (vaneAnswer s cur tgt = some cur ∧ st = 1 ∨ vaneAnswer s cur tgt = none ∧ st = 3 ∨
      (∃ p, vaneAnswer s cur tgt = some p ∧ p ≠ cur ∧ ∃ i ∈ cores, fitsAt s cl i (widthOf (BitVec.ofNat 2 p)) = false) ∧ st = 4) →
    ∀ tm ∈ teamsOnAny s cl cores, ∀ v ∈ tm.live, ∀ d q a, v.wait = .veer d q a →
      ∃ v', Safety.weftIn (tryVeer s tid wid) tm.tid v.wid = some v' ∧ v'.wait = .none ∧ v'.pos = followPos s tm v 1 ∧
        Safety.masks v' = Safety.masks v ∧
        ∀ r, Safety.column v' r = v.strands.map fun x => if r = d.toNat then { val := st, poison := false } else x.reg r) ∧
  (∀ cl core p s, (getCore s cl core).moving = some p → (s.teams.map (·.tid)).Nodup →
    let cores := (coresWith s cl core).filter fun i => decide ((getCore s cl i).moving = some p)
    ∃ t, exec (.coreMoveComplete cl core) s = .next t ∧ (∀ i ∈ cores, getCore t cl i = { getCore s cl i with pt := p, moving := none }) ∧
      core ∈ cores ∧ ∀ tm ∈ teamsOnAny s cl cores, ∀ tm', getTeam t tm.tid = some tm' →
        ∀ w ∈ tm'.wefts, (∀ x ∈ w.strands, canonical (widthOf p) x.sid = (w.wid, x.lane)) ∧
          (w.strands ≠ [] → ∀ vd tgt a, w.wait ≠ .veer vd tgt a)) ∧
  (∀ cl core s, (getCore s cl core).moving = none → exec (.coreMoveComplete cl core) s = .next s) ∧
  (∀ cl core s, cl < 160 → core < 4 → coreIdle s cl core = true → (getCore s cl core).pt ≠ 3 → (cl, core) ∉ wantedCores s →
    ∃ t, exec (.idleCoreMove cl core 3) s = .next t ∧ getCore t cl core = { getCore s cl core with moving := some 3 }) ∧
  (∀ cl core pt s, pt ≠ 3 ∨ coreIdle s cl core = false ∨ (cl, core) ∈ wantedCores s → exec (.idleCoreMove cl core pt) s = .next s)

/-- The seven elements of a trap record, v57 to v63 (11 R201). -/
def Sys2Proof.Spec.recordOf (cause reason info mask clause word : Nat) : List W32 :=
  [BitVec.ofNat 32 (2 ^ 31 + 65536 * reason + cause), BitVec.ofNat 32 word, BitVec.ofNat 32 clause, BitVec.ofNat 32 info,
   BitVec.ofNat 32 (info / 2 ^ 32), BitVec.ofNat 32 mask, BitVec.ofNat 32 (mask / 2 ^ 32)]

/-- A weft of a state takes a trap: the trap registers hold the clause and word, the cause, the memory reason, the information and the mask;
v57 to v63 of every strand hold the record; the weft goes to its handler; its masks, other registers and queue position stay. -/
def Sys2Proof.Spec.takesTrap (s : State) (w : Weft) (tid wid cause reason info mask clause word entry : Nat) (s' : State) : Prop :=
  ∃ w', Safety.OnlyWeft s s' tid wid ∧ Safety.weftIn s' tid wid = some w' ∧ w'.pos = Pos.atClause entry ∧ w'.wait = .none ∧ w'.rpos = w.rpos ∧
    w'.trap = { clause := BitVec.ofNat 32 clause, word := BitVec.ofNat 32 word, xv := true, mem := BitVec.ofNat 4 reason,
                cause := BitVec.ofNat 16 cause, info := BitVec.ofNat 64 info, mask := BitVec.ofNat 64 mask } ∧
    Safety.masks w' = Safety.masks w ∧
    ∀ q, Safety.column w' q = w.strands.map fun x =>
      match (Spec.recordOf cause reason info mask clause word)[q - 57]? with
      | some v => if 57 ≤ q then { val := v, poison := false } else x.reg q
      | none => x.reg q

/-- A trap that its weft takes goes to the handler of the cause, or to the default handler (07 R129, 11 R201, 05 R88). A trap that is
raised while another is handled, or for which the object has no handler, ends the team with the trap's cause (07 R129, 05 R88). That the host
is told of the one as of the other is log entry 90 (DESIGN CHOICE). -/
def Obligations.TrapEntry : Prop :=
  (
    ∀ s tid wid t w o entry cause reason info mask clause word, getTeam s tid = some t → t.weft? wid = some w → w.trap.xv = false →
      getObj s t.obj = some o → handlerOf o cause = some entry → poolAllows s t w [57, 58, 59, 60, 61, 62, 63] = true →
      ∃ s', trapAt s t w cause reason info mask clause word = .next s' ∧
        Spec.takesTrap s w tid wid cause reason info mask clause word entry s') ∧
  (
    ∀ s t w cause reason info mask clause word,
      (w.trap.xv = true ∨ (getObj s t.obj).bind (handlerOf · cause) = none) →
      trapAt s t w cause reason info mask clause word = .next (endTeam s t.tid { EndCause.silent with
        entry := some { kind := 0x10, cause := cause, reason := reason, addr := info, pc := 2 ^ 32 * clause + word, lanes := mask,
                        core := coreIndex s t w },
        cause := cause, reason := reason, addr := info }))

/-- A word of a team's object at an offset. -/
def Sys2Proof.Spec.textAt (c : VCtx) (off : Nat) : W32 := ((getObj c.s c.t.obj).bind fun o => o.vtext[off / 4]?).getD 0

/-- TRAP n raises USERTRAP n (cause 0x100 + n) at its own word, with em as XMASK: its weft takes the trap, waits for the registers of its
record, or, while a trap is handled or without a handler, ends its team (11 R202, R201). TRET, as the last word of its clause while a trap
is handled, clears XV and goes back to the trapping word, or, with SKIP, past it and its extension word; elsewhere, or with SKIP for a
trap at a header, it is ILLEGAL (R204). BKPT reports its weft and holds its team: the weft waits at the BKPT, at which its strands,
registers and position stand (11 R203). Which words a SKIP goes over is log entry 43 and the wait for the record's registers log entry 58
(both DEDUCED); that a debugger's launch is told and held as any other is log entry 97 (DESIGN CHOICE). -/
def Obligations.TrapAndBreakpointWords : Prop :=
  (
    (∀ n s tid wid c, Safety.Issues (.trap n) s (usesCtl [] [] [] 1) tid wid c →
      let handler := (getObj c.s c.t.obj).bind (handlerOf · (0x100 + n.toNat))
      (∀ entry, c.w.trap.xv = false → handler = some entry → poolAllows c.s c.t c.w [57, 58, 59, 60, 61, 62, 63] = true →
        ∃ t, exec (.trap n) s = .next t ∧
          Spec.takesTrap c.s c.w tid wid (0x100 + n.toNat) 0 0 c.w.emBits c.w.pos.clause c.w.pos.offset entry t) ∧
      (c.w.trap.xv = false → handler.isSome = true → poolAllows c.s c.t c.w [57, 58, 59, 60, 61, 62, 63] = false →
        exec (.trap n) s = .next (swapOut c.s tid wid (c.w.retries .registers))) ∧
      (c.w.trap.xv = true ∨ handler = none →
        exec (.trap n) s = .next (endTeam c.s tid { EndCause.silent with
          entry := some { kind := 0x10, cause := 0x100 + n.toNat, pc := c.w.pos.xpc, lanes := c.w.emBits, core := coreIndex c.s c.t c.w },
          cause := 0x100 + n.toNat }))) ∧
    (∀ skip s tid wid c, Safety.Issues (.tret skip) s (usesCtl [] [] [] 1) tid wid c →
      let tr := c.w.trap
      let back := posAt tr.clause.toNat tr.word.toNat
      headerCnt (clauseHeader c.s c.t c.w) ≤ c.w.pos.word + 1 → tr.xv = true → (skip = true → tr.word ≠ tr.clause) →
      ∃ t w, exec (.tret skip) s = .next t ∧ Safety.OnlyWeft c.s t tid wid ∧ Safety.weftIn t tid wid = some w ∧
        w.trap = { tr with xv := false } ∧ w.strands = c.w.strands ∧ w.wait = .none ∧ w.rpos = c.w.rpos ∧ w.alloc = c.w.alloc ∧
        w.pos = if skip then
            back.after (headerCnt (Spec.textAt c tr.clause.toNat)) (if Spec.bit (Spec.textAt c tr.word.toNat) 0 then 2 else 1)
          else back) ∧
    (∀ skip s tid wid c, Safety.Issues (.tret skip) s (usesCtl [] [] [] 1) tid wid c →
      (c.w.trap.xv = false ∨ c.w.pos.word + 1 < headerCnt (clauseHeader c.s c.t c.w) ∨ (skip = true ∧ c.w.trap.word = c.w.trap.clause)) →
      exec (.tret skip) s = illegalWord c.s c.t c.w)) ∧
  (
    ∀ s tid wid c, Safety.Issues .bkpt s (usesCtl [] [] [] 1) tid wid c →
      ∃ t w tm, exec .bkpt s = .next t ∧ Safety.weftIn t tid wid = some w ∧ w.wait = .bkpt ∧ w.pos = c.w.pos ∧ w.strands = c.w.strands ∧
        getTeam t tid = some tm ∧ tm.held = some (c.t.held.getD .breakpoint) ∧ Safety.SameMemory c.s t ∧
        t.loom = (report c.s c.t { kind := 0x14, cause := 0x0A, heldTeam := true, pc := c.w.pos.xpc, lanes := c.w.emBits,
                                   core := coreIndex c.s c.t c.w }).loom)

/-- A clause starts where none of the flags it waits for is set and its header passes every check; with a flag set the weft waits, and a
weft that waited outside its active set is ready once none is; a header that fails raises ILLEGALCLAUSE (cause 2), whose word is the
header (06 R101, R102, 02 R36). -/
def Obligations.ClauseStarts : Prop :=
  ∀ h s tid wid t w, s.cur = .weft tid wid → getTeam s tid = some t → t.weft? wid = some w →
    let ok := clauseOk h (clauseWords s t w.pos.clause h.cnt.toNat)
    let waits := waitFlags s tid wid h.wm
    (waits = true → exec (.clauseStart h) s = .next (swapOut s tid wid (w.retries .flags))) ∧
    (waits = false → ok = true → w.polls = true → exec (.clauseStart h) s = .next (wake s tid wid)) ∧
    (waits = false → ok = false → w.polls = false →
      exec (.clauseStart h) s = trapAt s t w 2 0 0 w.emBits w.pos.clause w.pos.clause) ∧
    (waits = false → ok = true → w.polls = false → ∃ s' w', exec (.clauseStart h) s = .next s' ∧
      Safety.OnlyWeft (if h.wm = 0 then s else waitAs s t w.keys fun p => match p.flag with | some f => h.wm.getLsbD f | none => false) s' tid wid ∧
      Safety.weftIn s' tid wid = some w' ∧ w'.pos = { clause := w.pos.clause, word := 0, started := true } ∧ w'.wait = .none ∧
      w'.strands = w.strands)

/-- Executing a vector word that its checks refuse raises ILLEGAL (cause 1) at itself, for the whole weft: XMASK is em (06 R117). -/
def Obligations.IllegalWordsTrap : Prop :=
  ∀ i u s tid wid t w, Safety.usesOf i = some u → s.cur = .weft tid wid → getTeam s tid = some t → t.weft? wid = some w →
    w.polls = false → (legal i = false ∨ tooNew i s t = true) → exec i s = trapWord s t w 1 0 0 w.emBits

/-- A vector word that reads an empty uniform queue, or that needs registers the pool cannot give, waits before issue: only its weft's wait and
place in the active set change (07 R122, R127, 02 R36). -/
def Obligations.WordsWaitBeforeIssue : Prop :=
  ∀ i u s tid wid t w, Safety.usesOf i = some u → s.cur = .weft tid wid → getTeam s tid = some t → t.weft? wid = some w → legal i = true →
    tooNew i s t = false → ((0x60 ∈ u.codes ∧ w.rpos = t.uni.tail) ∨ poolAllows s t w u.dests = false) →
    ∃ s' w', exec i s = .next s' ∧ Safety.OnlyWeft s s' tid wid ∧ Safety.weftIn s' tid wid = some w' ∧
      w'.pos = w.pos ∧ w'.strands = w.strands ∧ w'.alloc = w.alloc ∧ w'.rpos = w.rpos ∧ w'.wait ≠ .none

/-- Registers after PACQ or PGET: in active strands VD and VD+1 hold an address and VD+2 an index. -/
def Sys2Proof.Spec.pipeWords (c : VCtx) (vd : BitVec 6) (addr idx q : Nat) : List Elem :=
  c.w.strands.map fun x =>
    if !x.em then x.reg q
    else if q = vd.toNat then ⟨BitVec.ofNat 32 addr, false⟩
    else if q = vd.toNat + 1 then ⟨BitVec.ofNat 32 (addr / 2 ^ 32), false⟩
    else if q = vd.toNat + 2 then ⟨BitVec.ofNat 32 idx, false⟩ else x.reg q

/-- PACQ or PGET completes with an address and an index, and leaves the pipes so. -/
def Sys2Proof.Spec.givesRecord (i : Instr) (s : State) (c : VCtx) (vd : BitVec 6) (tid wid : Nat) (h : Heddle) (addr idx : Nat) : Prop :=
  ∃ t w, exec i s = .next t ∧ Safety.weftIn t tid wid = some w ∧ w.wait = .none ∧ w.pos = followPos c.s c.t c.w 1 ∧
    Safety.masks w = Safety.masks c.w ∧ (∀ q, Safety.column w q = Spec.pipeWords c vd addr idx q) ∧ t.heddle = h

/-- PACQ or PGET waits for its record, and leaves the pipes so. -/
def Sys2Proof.Spec.waitsRecord (i : Instr) (s : State) (c : VCtx) (y : Why) (tid wid : Nat) (h : Heddle) : Prop :=
  ∃ t w, exec i s = .next t ∧ Safety.weftIn t tid wid = some w ∧ w.wait = c.w.retries y ∧ w.pos = c.w.pos ∧ w.strands = c.w.strands ∧
    t.heddle = h

/-- An access of a redundant pair's member has been compared; an ordinary team has nothing to compare (25 R362). -/
def Sys2Proof.Spec.compared (c : VCtx) : Prop := c.t.partner = none ∨ c.w.granted = true

/-- PACQ takes the next record of the stage's output pipe for its lowest active strand, unless an active strand holds one already, and, its
slot free, gives every active strand the slot's address and the record's index; until then it waits. PGET does so for the next
published record of the input pipe. Without active strands both write nothing; with nobody attached PACQ gives address 0, and at the
end of a closed pipe, or without an attachment, so does PGET (21 R319, R320, R322). PREL publishes the output records that active strands
hold and PDONE releases the input records that they hold, once the weft's earlier accesses are performed; without any they go on (21
R321, R323). -/
def Obligations.Pipes : Prop :=
  (
    (∀ vd s tid wid c, Safety.Issues (.pacq vd) s (usesPipe vd) tid wid c → ∀ i g pi p, stageOf c.s c.t = some (i, g) → g.out = some pi →
      getPipe c.s pi = some p →
      let held := leastHeld p.holders c.w
      let r := held.getD p.acq
      let h := if held.isSome then c.s.heddle
        else (updPipe c.s pi fun p => { p with acq := p.acq + 1, holders := p.holders ++ [(p.acq, lowestLane c.w)] }).heddle
      let free := r < p.nslot ∨ p.slotFree (r - p.nslot) = true
      (c.w.strands.filter (·.em) = [] → Safety.Passes (.pacq vd) s c (usesPipe vd) tid wid (followPos c.s c.t c.w 1)) ∧
      (c.w.strands.filter (·.em) ≠ [] → Spec.compared c →
        (held = none → (p.attached = false ∨ p.acq = 2 ^ 32 - 1) → Spec.givesRecord (.pacq vd) s c vd tid wid c.s.heddle 0 p.acq) ∧
        (held.isSome = true ∨ (p.attached = true ∧ p.acq ≠ 2 ^ 32 - 1) →
          (free → Spec.givesRecord (.pacq vd) s c vd tid wid h (p.slotAddr r) r) ∧
          (¬free → Spec.waitsRecord (.pacq vd) s c .slot tid wid h)))) ∧
    (∀ vd s tid wid c, Safety.Issues (.pget vd) s (usesPipe vd) tid wid c → ∀ i g pi p, stageOf c.s c.t = some (i, g) → g.inp = some pi →
      getPipe c.s pi = some p →
      (c.w.strands.filter (·.em) = [] → Safety.Passes (.pget vd) s c (usesPipe vd) tid wid (followPos c.s c.t c.w 1)) ∧
      (c.w.strands.filter (·.em) ≠ [] → Spec.compared c →
        (p.attachOf i = none → Spec.givesRecord (.pget vd) s c vd tid wid c.s.heddle 0 p.pub) ∧
        (∀ a, p.attachOf i = some a →
          let held := leastHeld a.holders c.w
          let r := held.getD a.nxt
          let took := if held.isSome then c.s
            else updPipe c.s pi fun p => p.updAttach i fun a => { a with nxt := a.nxt + 1, holders := a.holders ++ [(r, lowestLane c.w)] }
          (r < p.pub → Spec.givesRecord (.pget vd) s c vd tid wid took.heddle (p.slotAddr r) r) ∧
          (p.pub ≤ r → p.closed = true → Spec.givesRecord (.pget vd) s c vd tid wid
            (updPipe took pi fun p => p.updAttach i fun a => { a with holders := a.holders.filter fun h => h.1 ≠ r }).heddle 0 p.pub) ∧
          (p.pub ≤ r → p.closed = false → Spec.waitsRecord (.pget vd) s c .record tid wid took.heddle))))) ∧
  (
    (∀ s tid wid c, Safety.Issues .prel s (usesCtl [] [] [] 1) tid wid c → ∀ i g pi p, stageOf c.s c.t = some (i, g) → g.out = some pi →
      getPipe c.s pi = some p →
      let sids := (c.w.strands.filter (·.em)).map (·.sid)
      (heldBy p.holders sids = [] → Safety.Passes .prel s c (usesCtl [] [] [] 1) tid wid (followPos c.s c.t c.w 1)) ∧
      (heldBy p.holders sids ≠ [] → Spec.compared c → ownUndone c.s tid wid = false → commitReady c.s c.t = true →
        heldPoison c.s c.t sids = false →
        ∃ t w, exec .prel s = .next t ∧ Safety.weftIn t tid wid = some w ∧ w.pos = followPos c.s c.t c.w 1 ∧
          w.strands = c.w.strands ∧ t.heddle = (publishHeld c.s c.t c.w sids).heddle)) ∧
    (∀ s tid wid c, Safety.Issues .pdone s (usesCtl [] [] [] 1) tid wid c → ∀ i g pi p a, stageOf c.s c.t = some (i, g) → g.inp = some pi →
      getPipe c.s pi = some p → p.attachOf i = some a →
      let sids := (c.w.strands.filter (·.em)).map (·.sid)
      (heldBy a.holders sids = [] → Safety.Passes .pdone s c (usesCtl [] [] [] 1) tid wid (followPos c.s c.t c.w 1)) ∧
      (heldBy a.holders sids ≠ [] → Spec.compared c → ownUndone c.s tid wid = false →
        ∃ t w, exec .pdone s = .next t ∧ Safety.weftIn t tid wid = some w ∧ w.pos = followPos c.s c.t c.w 1 ∧
          w.strands = c.w.strands ∧ t.heddle = (releaseHeld c.s c.t c.w sids).heddle)))


/-! ### Memory words (10) -/

/-- An access that a strand makes, not yet performed: what it is a release and an acquire for; an acquire comes before every later access
of its strand, across modules at system scope (06 R102, 03 R52, R53, R56). id: its operation's number. -/
def Sys2Proof.Spec.access (c : VCtx) (i : Issue) (id : Nat) (x : Strand) (addr : Nat) (data : W64) (data2 : W32) (poison remote : Bool) : Acc :=
  let acq := if i.kind.reads && i.ord.getLsbD 0 then some i.scp.toNat else none
  { sid := x.sid, addr := addr, data := data, data2 := data2, poison := poison, result := 0, resPoison := false, remote := remote,
    rel := if i.kind.writes then widest (if i.ord.getLsbD 1 then some i.scp.toNat else none) (c.t.hist x.sid).rel else none,
    acq := acq, lead := if acq.isSome then some (id + 1) else none, far := if isSystem acq then some (id + 1) else none,
    given := none, done := false, landed := false }

/-- The operation that a word of a context issues under a number: its accesses, and the flag that its clause's header gives it (06 R102). -/
def Sys2Proof.Spec.operation (c : VCtx) (i : Issue) (accs : Nat → List Acc) (id : Nat) : VOp :=
  { id := id, tid := c.t.tid, kind := i.kind, size := i.size, vd := i.vd, accs := accs id, owners := [c.w.wid],
    flag := flagFor (clauseHeader c.s c.t c.w) i.isLoad, discard := [] }

/-- A word issued an operation under a new number and goes on (06 R102, 03 R50): the operation joins those outstanding, every path it
counts on is one higher, memory is unchanged, and of the weft's registers only those change that the word freed. -/
structure Sys2Proof.Spec.Issued (c : VCtx) (u : Uses) (tid wid : Nat) (t : State) (o : Nat → VOp) : Prop where
  memory : Safety.SameMemory (Safety.taken c u) t
  issued : ∃ id, c.s.nextId ≤ id ∧ t.vops.map Safety.kept = (c.s.vops ++ [o id]).map Safety.kept ∧
    ∀ tm p, getTeam t tid = some tm → p < c.t.paths.length → tm.pathCount p = c.t.pathCount p + (if p ∈ (o id).paths then 1 else 0)
  weft : ∃ w, Safety.weftIn t tid wid = some w ∧ w.pos = followPos c.s c.t c.w u.len ∧ w.wait = .none ∧
    w.alloc = (c.w.alloc ||| regBits u.dests) &&& ~~~(regBits (Safety.freed u)) ∧ Safety.masks w = Safety.masks c.w ∧
    ∀ q, Safety.column w q = Safety.unwritten c u q

/-- The checks of a memory word before it makes any access: a poisoned address of an active strand ends the team; else the lowest reason
code of any access traps, with the address of the lowest lane that meets it and the lanes that meet its cause (10 R171, 07 R129, 03 R49). -/
def Sys2Proof.Spec.Checked (i : Instr) (s : State) (c : VCtx) (addr : Strand → AddrOf) (code : Strand → Option Nat) : Prop :=
  let bad := c.lanes fun x => (addr x).poison
  (bad ≠ 0 → exec i s = poisonWord c.s c.t c.w bad) ∧
  (bad = 0 → ∀ k x, x ∈ c.w.active' → code x = some k → (∀ y ∈ c.w.active', ∀ k', code y = some k' → k ≤ k') →
    (∀ y ∈ c.w.active', code y = some k → y = x ∨ x.lane < y.lane) →
    exec i s = memTrap c.s c.t c.w k (infoOf (addr x).sum)
      (c.lanes fun y => match code y with | some j => decide (causeOf j = causeOf k) | none => false))

/-- A team may issue: it is no member of a redundant pair, and none of its paths is full (03 R50, 25 R362). -/
def Sys2Proof.Spec.mayIssue (t : Team) : Prop := t.partner = none ∧ ∀ p, t.pathCount p < 4095

/-- No byte of the accesses of a word lies in a chunk of an object that is not resident (05 R85). -/
def Sys2Proof.Spec.resident (c : VCtx) (size : Nat) (addr : Strand → AddrOf) : Prop :=
  missingOf c.s c.t.fn (c.w.active'.flatMap fun x => upFrom (addr x).sum.toNat size) = none

/-- No earlier access of a strand comes before an access of these bytes that a word makes at issue (03 R52). -/
def Sys2Proof.Spec.unblocked (c : VCtx) (x : Strand) (ranges : List (Bool × Nat × Nat)) (rel : Option Nat) : Prop :=
  ∀ n, c.s.nextId ≤ n → blocked c.s c.t.tid x.sid { id := n, ranges := ranges, rel := rel, remote := false } = false

/-- The v registers of a value of a size. -/
def Sys2Proof.Spec.regsOf (size : Nat) (vd : BitVec 6) : List Nat := if size = 8 then [vd.toNat, vd.toNat + 1] else [vd.toNat]

/-- LDG8 to LDG64 and STG8 to STG64: their checks, and, where every access passes them and its translation is at hand, one operation with
one access for each active strand, in lane order, at base plus index plus scaled offset (10 R169, R171, R175, R176). -/
def Obligations.GlobalLoadsAndStoresIssue : Prop :=
  (∀ o i size sext, (i, size, sext) ∈ [(Instr.ldg8 o, 1, false), (.ldg8s o, 1, true), (.ldg16 o, 2, false), (.ldg16s o, 2, true),
      (.ldg32 o, 4, false), (.ldg64 o, 8, false)] →
    let u := usesVM o true [] (Spec.regsOf size o.vd)
    ∀ s tid wid c, Safety.Issues i s u tid wid c →
      let e := o.ext.getD MExt.none
      let addr := c.gaddr o.sx o.ofs e.sz size
      Spec.Checked i s c addr (fun x => globalCode c (.load sext) size (addr x).sum) ∧
      (Spec.mayIssue c.t → (∀ x ∈ c.w.active', (addr x).poison = false ∧
          checkAccess c.s c.t.fn c.t.secure (addr x).sum size true [.read] = none) →
        (tlbAll c.s c.t.place.cluster c.t.fn (c.w.active'.map fun x => (addr x).sum.toNat)).1 = true → Spec.resident c size addr →
        let it : Issue := { kind := .load sext, size := size, vd := o.vd, isLoad := true, ord := e.ord, scp := e.scp }
        ∃ t, exec i s = .next t ∧ t.clusters = c.s.clusters ∧
          Spec.Issued c u tid wid t (Spec.operation c it fun id => c.w.active'.map fun x =>
            Spec.access c it id x (addr x).sum.toNat 0 0 false (isRemote c.s c.t.fn (addr x).sum.toNat)))) ∧
  (∀ o i size, (i, size) ∈ [(Instr.stg8 o, 1), (.stg16 o, 2), (.stg32 o, 4), (.stg64 o, 8)] →
    let u := usesVM o true (Spec.regsOf size o.vd) []
    ∀ s tid wid c, Safety.Issues i s u tid wid c →
      let e := o.ext.getD MExt.none
      let addr := c.gaddr o.sx o.ofs e.sz size
      Spec.Checked i s c addr (fun x => globalCode c .store size (addr x).sum) ∧
      (Spec.mayIssue c.t → (∀ x ∈ c.w.active', (addr x).poison = false ∧
          checkAccess c.s c.t.fn c.t.secure (addr x).sum size true [.write] = none ∧
          ((storeData size o.vd x).2 = true → e.ord.getLsbD 1 = false ∧ isRemote c.s c.t.fn (addr x).sum.toNat = false)) →
        (tlbAll c.s c.t.place.cluster c.t.fn (c.w.active'.map fun x => (addr x).sum.toNat)).1 = true →
        let it : Issue := { kind := .store, size := size, vd := o.vd, isLoad := false, ord := e.ord, scp := e.scp }
        ∃ t, exec i s = .next t ∧ t.clusters = c.s.clusters ∧
          Spec.Issued c u tid wid t (Spec.operation c it fun id => c.w.active'.map fun x =>
            Spec.access c it id x (addr x).sum.toNat (storeData size o.vd x).1 0 (storeData size o.vd x).2
              (isRemote c.s c.t.fn (addr x).sum.toNat))))

/-- ATOMG issues one access of four bytes for each active strand, with its operands; poison in an operand ends the team. A task that has not
committed commits with it, once the team's earlier accesses are performed where it defers work. LDGS ends the team where an active
strand's address or offset is poisoned; traps with the lowest reason that an address or an offset of an active strand meets; and issues
the sixteen bytes of each active strand as four accesses, from global memory to its scratchpad offset (10 R171, R177, R183, 19 R298,
R304). That a trap names the address where address and offset both meet its reason is log entry 95 (DESIGN CHOICE). -/
def Obligations.AtomicsAndStagingIssue : Prop :=
  (∀ o s tid wid c,
    let u := usesVM o true (atomRegs (aopOf o) o.vd) (if o.nt then [] else [o.vd.toNat])
    Safety.Issues (.atomg o) s u tid wid c →
      let e := o.ext.getD MExt.none
      let addr := c.gaddr o.sx o.ofs e.sz 4
      let bad := c.lanes fun x => (atomData (aopOf o) o.vd x).2.2
      Spec.Checked (.atomg o) s c addr (fun x => checkAccess c.s c.t.fn c.t.secure (addr x).sum 4 true [.write]) ∧
      ((∀ x ∈ c.w.active', (addr x).poison = false ∧ checkAccess c.s c.t.fn c.t.secure (addr x).sum 4 true [.write] = none) →
        (bad ≠ 0 → exec (.atomg o) s = poisonWord c.s c.t c.w bad) ∧
        (bad = 0 → Spec.mayIssue c.t → (∀ tm, getTeam s tid = some tm → defersWork c.t = true → commitReady s tm = true) →
          (tlbAll c.s c.t.place.cluster c.t.fn (c.w.active'.map fun x => (addr x).sum.toNat)).1 = true → Spec.resident c 4 addr →
          let it : Issue := { kind := .atomic (aopOf o) o.nt, size := 4, vd := o.vd, isLoad := false, ord := e.ord, scp := e.scp }
          ∃ t, exec (.atomg o) s = .next (if defersWork c.t = true ∧ c.w.active' ≠ [] then commitEvent t tid else t) ∧
            t.clusters = c.s.clusters ∧
            Spec.Issued c u tid wid t (Spec.operation c it fun id => c.w.active'.map fun x =>
              Spec.access c it id x (addr x).sum.toNat (atomData (aopOf o) o.vd x).1 (atomData (aopOf o) o.vd x).2.1 false
                (isRemote c.s c.t.fn (addr x).sum.toNat))) ∧
        (bad = 0 → Spec.mayIssue c.t → defersWork c.t = true → c.w.active' ≠ [] →
          (tlbAll c.s c.t.place.cluster c.t.fn (c.w.active'.map fun x => (addr x).sum.toNat)).1 = true → Spec.resident c 4 addr →
          ∀ tm w, getTeam s tid = some tm → tm.weft? wid = some w → commitReady s tm = false →
            exec (.atomg o) s = .next (swapOut s tid wid (w.retries .order))))) ∧
  (∀ o s tid wid c,
    Safety.Issues (.ldgs o) s (usesVM o true [o.vd.toNat] []) tid wid c →
      let addr := c.gaddr o.sx o.ofs (o.ext.getD MExt.none).sz 16
      let ofs (x : Strand) : Nat := (x.reg o.vd.toNat).val.toNat
      let bad := c.lanes fun x => (addr x).poison || (x.reg o.vd.toNat).poison
      let atAddr (x : Strand) := checkAccess c.s c.t.fn c.t.secure (addr x).sum 16 true [.read]
      let atOfs (x : Strand) := if ofs x % 16 ≠ 0 then some 2 else if c.t.place.scrSize < ofs x + 16 then some 6 else none
      let code (x : Strand) := match atAddr x, atOfs x with
        | some a, some b => some (Nat.min a b)
        | some a, none => some a
        | none, b => b
      (bad ≠ 0 → exec (.ldgs o) s = poisonWord c.s c.t c.w bad) ∧
      (bad = 0 → ∀ k x, x ∈ c.w.active' → code x = some k → (∀ y ∈ c.w.active', ∀ k', code y = some k' → k ≤ k') →
        (∀ y ∈ c.w.active', code y = some k → y = x ∨ x.lane < y.lane) →
        exec (.ldgs o) s = memTrap c.s c.t c.w k (infoOf (if atAddr x = some k then (addr x).sum else (ofs x : Int)))
          (c.lanes fun y => match code y with | some j => decide (causeOf j = causeOf k) | none => false))) ∧
  (∀ o s tid wid c,
    let u := usesVM o true [o.vd.toNat] []
    Safety.Issues (.ldgs o) s u tid wid c → Spec.mayIssue c.t →
      let e := o.ext.getD MExt.none
      let addr := c.gaddr o.sx o.ofs e.sz 16
      (∀ x ∈ c.w.active', (addr x).poison = false ∧ (x.reg o.vd.toNat).poison = false ∧
        checkAccess c.s c.t.fn c.t.secure (addr x).sum 16 true [.read] = none ∧ (x.reg o.vd.toNat).val.toNat % 16 = 0 ∧
        (x.reg o.vd.toNat).val.toNat + 16 ≤ c.t.place.scrSize) →
      (tlbAll c.s c.t.place.cluster c.t.fn (c.w.active'.map fun x => (addr x).sum.toNat)).1 = true → Spec.resident c 16 addr →
      let it : Issue := { kind := .ldgs, size := 4, vd := o.vd, isLoad := false, ord := 0, scp := 0 }
      ∃ t, exec (.ldgs o) s = .next t ∧ t.clusters = c.s.clusters ∧
        Spec.Issued c u tid wid t (Spec.operation c it fun id => c.w.active'.flatMap fun x => (upFrom 0 4).map fun j =>
          Spec.access c it id x ((addr x).sum.toNat + 4 * j) ((x.reg o.vd.toNat).val.setWidth 64 + BitVec.ofNat 64 (4 * j)) 0 false
            (isRemote c.s c.t.fn (addr x).sum.toNat)))

/-- The scratchpad loads that wefts of a team are held at, in the order of its wefts (10 R179). -/
def Sys2Proof.Spec.heldAt (s : State) (t : Team) : List HeldLoad := t.wefts.filterMap (heldLoad s t)

/-- A held load reads, and its weft goes on. -/
def Sys2Proof.Spec.served (s : State) (tid : Nat) (h : HeldLoad) (s' : State) : Prop :=
  exec h.word { s with cur := .weft tid h.wid } = .next s' ∧ stillWaits (.next s') tid h.wid = false

/-- LDS8 to LDS64, LDS.C, STS8 to STS64 and ATOMS: their checks, and their issue. A scratchpad load waits while an earlier access of its
strands must come first, and at an empty line; of full lines it has read its bytes and their poison when it issues; LDS.C empties the
lines it read in the same step. A step that fills a line lets a load that is held at it read in the same step, and of two LDS.C held
at it the one that became held first, which leaves the other held (10 R170, R171, R178, R179, R183; log entry 102, DEDUCED). -/
def Obligations.ScratchpadWordsIssue : Prop :=
  (∀ o i size take, (i, size, take) ∈ [(Instr.lds8 o, 1, false), (.lds16 o, 2, false), (.lds32 o, 4, false), (.lds64 o, 8, false),
      (.ldsC o, 4, true)] →
    let u := usesVM o false [] (Spec.regsOf size o.vd)
    ∀ s tid wid c, Safety.Issues i s u tid wid c →
      let e := o.ext.getD MExt.none
      let addr := c.saddr o.sx o.ofs e.sz size
      let k := getCluster c.s c.t.place.cluster
      let line (x : Strand) : Nat := (c.t.place.scrBase + (addr x).sum.toNat) / 128
      Spec.Checked i s c addr (fun x => scrCode c.t size (addr x).sum) ∧
      ((∀ x ∈ c.w.active', (addr x).poison = false ∧ scrCode c.t size (addr x).sum = none) →
        ((∃ x ∈ c.w.active', blocked c.s c.t.tid x.sid
            { id := c.s.nextId, ranges := [(true, (addr x).sum.toNat, size)], rel := none, remote := false } = true) →
          exec i s = .next (swapOut c.s c.t.tid c.w.wid (c.w.retries .order))) ∧
        ((∃ x ∈ c.w.active', spGet false k.empty (line x) = true) →
          (∀ x ∈ c.w.active', Spec.unblocked c x [(true, (addr x).sum.toNat, size)] none) →
          exec i s = .next (swapOut c.s c.t.tid c.w.wid (c.w.retries .line))) ∧
        (Spec.mayIssue c.t → (∀ x ∈ c.w.active', spGet false k.empty (line x) = false) →
          (∀ x ∈ c.w.active', Spec.unblocked c x [(true, (addr x).sum.toNat, size)] none) →
          let it : Issue := { kind := .scrLoad false, size := size, vd := o.vd, isLoad := true, ord := e.ord, scp := e.scp }
          ∃ t, exec i s = .next t ∧
            (∀ l, spGet false (getCluster t c.t.place.cluster).empty l =
              if take = true ∧ l ∈ c.w.active'.map line then true else spGet false k.empty l) ∧
            (getCluster t c.t.place.cluster).scr = k.scr ∧ (getCluster t c.t.place.cluster).scrPoison = k.scrPoison ∧
            Spec.Issued c u tid wid t (Spec.operation c it fun id => c.w.active'.map fun x =>
              { Spec.access c it id x (addr x).sum.toNat 0 0 false false with
                done := true, result := BitVec.ofNat 64 (leNat (scrRead k (c.t.place.scrBase + (addr x).sum.toNat) size)),
                resPoison := scrPoisonAt k (c.t.place.scrBase + (addr x).sum.toNat) })))) ∧
  (∀ o i size, (i, size) ∈ [(Instr.sts8 o, 1), (.sts16 o, 2), (.sts32 o, 4), (.sts64 o, 8)] →
    let u := usesVM o false (Spec.regsOf size o.vd) []
    ∀ s tid wid c, Safety.Issues i s u tid wid c →
      let e := o.ext.getD MExt.none
      let addr := c.saddr o.sx o.ofs e.sz size
      Spec.Checked i s c addr (fun x => scrCode c.t size (addr x).sum) ∧
      (Spec.mayIssue c.t → (∀ x ∈ c.w.active', (addr x).poison = false ∧ scrCode c.t size (addr x).sum = none ∧
          ((storeData size o.vd x).2 = true → e.ord.getLsbD 1 = false)) →
        let it : Issue := { kind := .scrStore o.nt, size := size, vd := o.vd, isLoad := false, ord := e.ord, scp := e.scp }
        ∃ t, exec i s = .next t ∧ t.clusters = c.s.clusters ∧
          Spec.Issued c u tid wid t (Spec.operation c it fun id => c.w.active'.map fun x =>
            Spec.access c it id x (addr x).sum.toNat (storeData size o.vd x).1 0 (storeData size o.vd x).2 false))) ∧
  (∀ o s tid wid c,
    let u := usesVM o false (atomRegs (aopOf o) o.vd) (if o.nt then [] else [o.vd.toNat])
    Safety.Issues (.atoms o) s u tid wid c →
      let e := o.ext.getD MExt.none
      let addr := c.saddr o.sx o.ofs e.sz 4
      Spec.Checked (.atoms o) s c addr (fun x => scrCode c.t 4 (addr x).sum) ∧
      (Spec.mayIssue c.t → (∀ x ∈ c.w.active', (addr x).poison = false ∧ scrCode c.t 4 (addr x).sum = none ∧
          (atomData (aopOf o) o.vd x).2.2 = false) →
        let it : Issue := { kind := .scrAtomic (aopOf o) o.nt, size := 4, vd := o.vd, isLoad := false, ord := e.ord, scp := e.scp }
        ∃ t, exec (.atoms o) s = .next t ∧ t.clusters = c.s.clusters ∧
          Spec.Issued c u tid wid t (Spec.operation c it fun id => c.w.active'.map fun x =>
            Spec.access c it id x (addr x).sum.toNat (atomData (aopOf o) o.vd x).1 (atomData (aopOf o) o.vd x).2.1 false false))) ∧
  (∀ cl before s t l, filled (getCluster before cl) (getCluster s cl) = [l] → (s.teams.filter fun t => t.place.cluster = cl) = [t] →
    getTeam s t.tid = some t →
    let ready (h : HeldLoad) := l ∈ h.lines ∧ ∀ m ∈ h.lines, lineFull s cl m = true
    (Spec.heldAt s t = [] → serveFills cl before s = s) ∧
    (∀ h s', Spec.heldAt s t = [h] → ready h → Spec.served s t.tid h s' → serveFills cl before s = { s' with cur := s.cur }) ∧
    (∀ h g s', Spec.heldAt s t = [h, g] → h.take = true → g.take = true → h.since ≤ g.since → ready h → ready g →
      Spec.served s t.tid h s' → lineFull s' cl l = false → serveFills cl before s = { s' with cur := s.cur })) ∧
  (∀ cl before s, filled (getCluster before cl) (getCluster s cl) = [] → serveFills cl before s = s)

/-- A tag entry without the releases that a read of it returns. -/
def Sys2Proof.Spec.entry (e : TagEntry) : Bool × BitVec 48 × BitVec 13 := (e.valid, e.tag, e.slot)

/-- Installing the tags of strands one after another: the entries, and what each strand's VD receives (10 R182). -/
def Sys2Proof.Spec.installs : List TagEntry → List (Nat × BitVec 48 × BitVec 13) → List TagEntry × List (Nat × W32)
  | l, [] => (l, [])
  | l, (sid, g, n) :: r =>
    match installTag l g with
    | some i =>
      let l := updAt (fun e => { e with valid := true, tag := g, slot := n }) i l
      ((Spec.installs l r).1, (sid, BitVec.ofNat 32 i) :: (Spec.installs l r).2)
    | none => ((Spec.installs l r).1, (sid, 0xFFFFFFFF) :: (Spec.installs l r).2)

/-- The bytes that a tag word's look-up reads: every entry (10 R182). -/
def Sys2Proof.Spec.everyEntry : List (Bool × Nat × Nat) := [(true, tagPlace 0, 16 * 256)]

/-- SFULL and SEMPTY set the full bits of the lines that active strands name, once the weft's earlier stores are performed, and nothing
else; the loads that are held at lines which SFULL fills then read (10 R179, R180). That LDGS and ATOMS count among those stores is log
entry 96 (DEDUCED). STAG answers the slot of the entry that holds the tag, or FFFF_FFFFh; STSET installs tags in lane order and answers the
entry used; STINV invalidates the entry of each tag (10 R182). -/
def Obligations.LineAndTagWordsComplete : Prop :=
  (∀ o i full, (i, full) ∈ [(Instr.sfull o, true), (.sempty o, false)] → ∀ s tid wid c, Safety.Issues i s (usesLine o) tid wid c →
    let e := o.ext.getD MExt.none
    let addr := c.saddr o.sx o.ofs e.sz 128
    let line (x : Strand) : Nat := c.t.place.scrBase / 128 + (addr x).sum.toNat / 128
    let k := getCluster c.s c.t.place.cluster
    (∀ x ∈ c.w.active', (addr x).poison = false ∧ 0 ≤ (addr x).sum ∧ (addr x).sum < (c.t.place.scrSize : Int)) →
    (∀ q ∈ weftOps c.s tid wid, q.kind.writes = true → ∀ a ∈ q.accs, a.done = true) →
    ∃ t w, exec i s = .next (if full then serveFills c.t.place.cluster c.s t else t) ∧ Safety.SameMemory (Safety.taken c (usesLine o)) t ∧ t.vops.map Safety.kept = c.s.vops.map Safety.kept ∧
      Safety.weftIn t tid wid = some w ∧
      w.pos = followPos c.s c.t c.w (usesLine o).len ∧ Safety.masks w = Safety.masks c.w ∧
      (∀ q, Safety.column w q = Safety.unwritten c (usesLine o) q) ∧
      (getCluster t c.t.place.cluster).scr = k.scr ∧ (getCluster t c.t.place.cluster).scrPoison = k.scrPoison ∧
      ∀ l, spGet false (getCluster t c.t.place.cluster).empty l =
        if l ∈ c.w.active'.map line then !full else spGet false k.empty l) ∧
  (∀ o s tid wid c, Safety.Issues (.stag o) s (usesTag o [o.vd.toNat]) tid wid c → Spec.mayIssue c.t →
    (∀ x ∈ c.w.active', Spec.unblocked c x Spec.everyEntry none) →
    let it : Issue := { kind := .stag, size := 8, vd := o.vd, isLoad := true, ord := 0, scp := 0 }
    ∃ t, exec (.stag o) s = .next t ∧ t.clusters = c.s.clusters ∧
      Spec.Issued c (usesTag o [o.vd.toNat]) tid wid t (Spec.operation c it fun id => c.w.active'.map fun x =>
        { Spec.access c it id x 0 (c.rd64 o.sx x).1 0 (c.rd64 o.sx x).2 false with
          done := true, resPoison := (c.rd64 o.sx x).2,
          result := match c.t.tags.find? fun e => e.valid && decide (e.tag = (c.rd64 o.sx x).1.setWidth 48) with
            | some e => e.slot.setWidth 64
            | none => 0xFFFFFFFF })) ∧
  (∀ o s tid wid c,
    let e := o.ext.getD MExt.none
    let u : Uses := { codes := wideCodes o.sx ++ [e.sz], frees := (if o.lx then wideRegs o.sx else []) ++ markReg e.sz e.lz,
                      holds := markReg e.sz e.hz, dests := [o.vd.toNat], len := 2 }
    Safety.Issues (.stset o) s u tid wid c →
    let slot (x : Strand) : Elem := c.rd .i e.sz x
    let r := Spec.installs c.t.tags (c.w.active'.map fun x => (x.sid, (c.rd64 o.sx x).1.setWidth 48, (slot x).val.setWidth 13))
    (∀ x ∈ c.w.active', (c.rd64 o.sx x).2 = false ∧ (slot x).poison = false ∧ (slot x).val.toNat < c.t.place.scrSize / 128) →
    (∀ x ∈ c.w.active', Spec.unblocked c x Spec.everyEntry (c.t.hist x.sid).rel) →
    ∃ t w tm, exec (.stset o) s = .next t ∧ Safety.SameOutside (Safety.taken c u) t ∧ Safety.weftIn t tid wid = some w ∧
      getTeam t tid = some tm ∧ tm.tags.map Spec.entry = r.1.map Spec.entry ∧ w.pos = followPos c.s c.t c.w 2 ∧ Safety.masks w = Safety.masks c.w ∧
      ∀ q, Safety.column w q = Safety.written c u o.vd.toNat
        (fun x => { val := ((r.2.find? fun p => p.1 = x.sid).map (·.2)).getD 0, poison := false }) q) ∧
  (∀ o s tid wid c, Safety.Issues (.stinv o) s (usesTag o []) tid wid c → (∀ x ∈ c.w.active', (c.rd64 o.sx x).2 = false) →
    (∀ x ∈ c.w.active', Spec.unblocked c x Spec.everyEntry (c.t.hist x.sid).rel) →
    ∃ t w tm, exec (.stinv o) s = .next t ∧ Safety.SameOutside (Safety.taken c (usesTag o [])) t ∧ Safety.weftIn t tid wid = some w ∧
      getTeam t tid = some tm ∧ w.pos = followPos c.s c.t c.w (usesTag o []).len ∧ Safety.masks w = Safety.masks c.w ∧
      (∀ q, Safety.column w q = Safety.unwritten c (usesTag o []) q) ∧
      tm.tags.map Spec.entry = (c.w.active'.foldl (fun l x =>
        match l.findIdx? fun e => e.valid && decide (e.tag = (c.rd64 o.sx x).1.setWidth 48) with
        | some i => updAt (fun e => { e with valid := false }) i l
        | none => l) c.t.tags).map Spec.entry)

/-- An access of an operation after an acquire fence of a weft at a scope, under a number: a read not yet performed is an acquire, before
every access from that number on (03 R53). -/
def Sys2Proof.Spec.fenced (c : VCtx) (scp : Nat) (q : VOp) : VOp :=
  if q.tid ≠ c.t.tid ∨ q.kind.reads = false then q
  else { q with accs := q.accs.map fun a =>
    if a.sid ∈ c.w.strands.map (·.sid) ∧ a.done = false then
      { a with acq := widest a.acq (some scp), lead := least a.lead c.s.nextId, far := if scp < 5 then a.far else least a.far c.s.nextId }
    else a }

/-- FENCE goes on at once: a release fence makes every later write of its strands a release at its scope, an acquire fence makes an acquire
of every read of theirs that is still to be performed. WAITP goes on where its path's counter is at most the threshold, so that its
strands' later accesses follow those that have returned, else waits (10 R185, R186, 03 R52, R53). -/
def Obligations.FenceAndWaitp : Prop :=
  (∀ o s tid wid c, Safety.Issues (.fence o) s { codes := [], frees := [], holds := [], dests := [], len := 2 } tid wid c →
    ∃ t w tm, exec (.fence o) s = .next t ∧ Safety.SameMemory c.s t ∧ t.clusters = c.s.clusters ∧ Safety.weftIn t tid wid = some w ∧
      w.pos = followPos c.s c.t c.w 2 ∧ w.strands = c.w.strands ∧ w.wait = .none ∧ getTeam t tid = some tm ∧
      (∀ x ∈ c.w.strands, (tm.hist x.sid).rel =
        if o.ord.getLsbD 1 then widest (c.t.hist x.sid).rel (some o.scp.toNat) else (c.t.hist x.sid).rel) ∧
      t.vops.map Safety.kept = (c.s.vops.map fun q => Safety.kept (if o.ord.getLsbD 0 then Spec.fenced c o.scp.toNat q else q))) ∧
  (∀ o s tid wid c, let u : Uses := { codes := [o.sx], frees := [], holds := [], dests := [], len := 1 }
    Safety.Issues (.waitp o) s u tid wid c →
      let n := (c.rd .i o.sx noStrand).val.toNat
      let out := (nthD [] c.t.paths o.path.toNat).map (·.1)
      (c.t.pathCount o.path.toNat ≤ n → Safety.Passes (.waitp o) s
        { c with s := waitAs c.s c.t c.w.keys fun p => p.paths.contains o.path.toNat && !out.contains p.id } u tid wid
        (followPos c.s c.t c.w 1)) ∧
      (n < c.t.pathCount o.path.toNat → exec (.waitp o) s = .next (swapOut c.s tid wid (c.w.retries .path))))

/-- An outstanding operation of one access that may be performed now (03 R52). -/
structure Sys2Proof.Spec.Ready (s : State) (op : Nat) (o : VOp) (a : Acc) (t : Team) : Prop where
  found : getOp s op = some o
  one : o.accs = [a]
  team : getTeam s o.tid = some t
  fresh : a.done = false ∧ a.landed = false ∧ a.remote = false ∧ a.given = none
  unblocked : blocked s o.tid a.sid (o.next a) = false
  alone : unmatched s o = false
  die : t.die < s.mem.views.length

/-- A strand of a team whose weft holds a register (07 R119, 06 R103). -/
structure Sys2Proof.Spec.Holds (t : Team) (o : VOp) (sid : Nat) (w : Weft) (regs : List Nat) : Prop where
  weft : t.weftOfSid sid = some w
  named : t.weft? w.wid = some w
  allocated : ∀ r ∈ regs, w.alloc.getLsbD r = true
  wanted : o.discard = []

/-- What a register of the strand of a SID holds. -/
def Sys2Proof.Spec.elemOf (s : State) (tid wid sid r : Nat) : Option Elem :=
  (Safety.weftIn s tid wid).bind fun w => (w.strands.find? fun x => x.sid = sid).map fun x => x.reg r

/-- An operation may return: every access of it that is still to be performed is this module's, and nothing must come before it; without
accesses the earlier operations of its weft on its paths are over; of a redundant pair, both members have made it (03 R50, R52, 10 R173,
25 R362). -/
structure Sys2Proof.Spec.Returns (s : State) (op : Nat) (o : VOp) (t : Team) : Prop where
  found : getOp s op = some o
  team : getTeam s o.tid = some t
  undone : ∀ a ∈ o.accs, a.done = false → a.remote = false ∧ blocked s o.tid a.sid (o.next a) = false
  empty : o.accs = [] → emptyReady s o = true
  alone : unmatched s o = false

/-- An operation has returned: it is over, on its paths too; memory and scratchpads are as its accesses, performed in lane order, leave them;
each result is in its register, where the register is still wanted. -/
def Sys2Proof.Spec.over (s : State) (op : Nat) (o : VOp) (t : Team) (s' : State) : Prop :=
  let p := performAll s op
  getOp s' op = none ∧ s'.mem = p.mem ∧ s'.clusters = p.clusters ∧
  (∀ tm, getTeam s' o.tid = some tm → ∀ l ∈ tm.paths, (op, false) ∉ l) ∧
  ∃ o', getOp p op = some o' ∧ (∀ a ∈ o'.accs, a.done = true) ∧
    ((o'.accs.map (·.sid)).Nodup → ∀ a ∈ o'.accs, a.landed = false → ∀ r e w, (r, e) ∈ o'.results a → Spec.Holds t o' a.sid w [r] →
      Spec.elemOf s' o.tid w.wid a.sid r = some e)

/-- The accesses of an operation once another module has acknowledged those of its memory, with what it returned, in order. -/
def Sys2Proof.Spec.acked (ldgs : Bool) : List Acc → List (W64 × Bool) → List Acc
  | [], _ => []
  | a :: l, ds =>
    let d := ds.headD (0, false)
    if a.remote && !a.done then
      { a with done := true, result := d.1, resPoison := d.2, poison := if ldgs then d.2 else a.poison } :: Spec.acked ldgs l ds.tail
    else a :: Spec.acked ldgs l ds

/-- The returns of operations. An operation whose accesses may all be performed returns: it is over, and its results are in their
registers; a load's are the values that its die sees, extended to 32 bits, with their granules' poison. Of one access, a load leaves
memory alone; a store's bytes are in memory, and no other byte differs but by earlier writes that the die had to apply first; an
atomic returns the old value and leaves the new one; an access of LDGS copies its bytes to scratchpad; scratchpad and tag results land.
A store of FL fills the lines it covers, and the loads held at them then
read. An access that the order rules hold back is not performed. Accesses of another module's memory that may be performed are performed with
the values that the module returned, while a port is up (06 R102, R103, 03 R50, R52, R56, 10 R176 to R178, R182, R183, 26 R377). -/
def Obligations.OperationsReturn : Prop :=
  (∀ s op o t i (kinds : OpKind → Prop), (i, kinds) ∈
      [(Instr.loadReturn op, fun k => (∃ x, k = .load x) ∨ (∃ x, k = .scrLoad x) ∨ k = .stag),
       (.storeApplied op, fun k => k = .store ∨ k = .scrStore false),
       (.atomicReturn op, fun k => (∃ a r, k = .atomic a r) ∨ ∃ a r, k = .scrAtomic a r), (.ldgsComplete op, fun k => k = .ldgs)] →
    kinds o.kind → Spec.Returns s op o t → ∃ s', exec i s = .next s' ∧ Spec.over s op o t s') ∧
  (∀ s op o t, o.kind = .scrStore true → Spec.Returns s op o t →
    ∃ s', exec (.storeApplied op) s = .next (serveFills t.place.cluster s s') ∧ Spec.over s op o t s') ∧
  (∀ s op o t sext, o.kind = .load sext → Spec.Returns s op o t → (o.accs.map (·.sid)).Nodup →
    ∃ s', exec (.loadReturn op) s = .next s' ∧ Safety.SameMemory s s' ∧ s'.clusters = s.clusters ∧
      ∀ a ∈ o.accs, a.done = false → a.landed = false → a.given = none → a.addr < apertureBase → ∀ w r e, Spec.Holds t o a.sid w [r] →
        (r, e) ∈ o.results { a with result := BitVec.ofNat 64 (readNat s t.die (gkey t.fn a.addr) o.size),
                                    resPoison := poisonAt s t.die (gkey t.fn a.addr) } →
        Spec.elemOf s' o.tid w.wid a.sid r = some e) ∧
  (∀ s op o a t sext, Spec.Ready s op o a t → o.kind = .load sext → a.addr < apertureBase →
    ∃ s', exec (.loadReturn op) s = .next s' ∧ getOp s' op = none ∧ Safety.SameMemory s s' ∧ s'.clusters = s.clusters ∧
      (∀ w, o.size ≠ 8 → Spec.Holds t o a.sid w [o.vd.toNat] →
        Spec.elemOf s' o.tid w.wid a.sid o.vd.toNat =
          some ⟨extend32 o.size sext (BitVec.ofNat 64 (readNat s t.die (gkey t.fn a.addr) o.size)).toNat,
            poisonAt s t.die (gkey t.fn a.addr)⟩) ∧
      (∀ w, o.size = 8 → Spec.Holds t o a.sid w [o.vd.toNat, o.vd.toNat + 1] →
        Spec.elemOf s' o.tid w.wid a.sid (o.vd.toNat + 1) =
          some ⟨BitVec.ofNat 32 (readNat s t.die (gkey t.fn a.addr) 8 / 2 ^ 32), poisonAt s t.die (gkey t.fn a.addr)⟩)) ∧
  (∀ s op o a t, Spec.Ready s op o a t → o.kind = .store → a.poison = false →
    let k := gkey t.fn a.addr
    ∃ s', exec (.storeApplied op) s = .next s' ∧ getOp s' op = none ∧ s'.clusters = s.clusters ∧
      readBytes s' t.die k o.size = leBytes o.size a.data.toNat ∧
      ∀ b, b < k ∨ k + o.size ≤ b →
        memGet (viewOf s'.mem t.die).mem b = memGet (viewOf (catchUp s.mem t.die k o.size) t.die).mem b) ∧
  (∀ s op o a t aop nr, Spec.Ready s op o a t → o.kind = .atomic aop nr →
    let k := gkey t.fn a.addr
    let m := viewOf (catchUp s.mem t.die k 4) t.die
    let old : W32 := BitVec.ofNat 32 (leNat (memRead m.mem k 4))
    ∃ s', exec (.atomicReturn op) s = .next s' ∧ getOp s' op = none ∧ s'.clusters = s.clusters ∧
      readBytes s' t.die k 4 = leBytes 4 (atomicNew aop old (a.data.setWidth 32) a.data2).toNat ∧
      ∀ w, nr = false → Spec.Holds t o a.sid w [o.vd.toNat] →
        Spec.elemOf s' o.tid w.wid a.sid o.vd.toNat = some ⟨old, spGet false m.poison (k / 64)⟩) ∧
  (∀ s op o a t, Spec.Ready s op o a t → o.kind = .ldgs →
    ∃ s', exec (.ldgsComplete op) s = .next s' ∧ getOp s' op = none ∧ Safety.SameMemory s s' ∧
      scrRead (getCluster s' t.place.cluster) (t.place.scrBase + a.data.toNat) 4 = readBytes s t.die (gkey t.fn a.addr) 4) ∧
  (∀ s op o a t fill, Spec.Ready s op o a t → o.kind = .scrStore fill → a.poison = false →
    ∃ s', exec (.storeApplied op) s = .next (if fill then serveFills t.place.cluster s s' else s') ∧ getOp s' op = none ∧ Safety.SameMemory s s' ∧
      scrRead (getCluster s' t.place.cluster) (t.place.scrBase + a.addr) o.size = leBytes o.size a.data.toNat ∧
      ∀ b, b < t.place.scrBase + a.addr ∨ t.place.scrBase + a.addr + o.size ≤ b →
        memGet (getCluster s' t.place.cluster).scr b = memGet (getCluster s t.place.cluster).scr b) ∧
  (∀ s op o a t aop nr, Spec.Ready s op o a t → o.kind = .scrAtomic aop nr →
    let old : W32 := BitVec.ofNat 32 (leNat (scrRead (getCluster s t.place.cluster) (t.place.scrBase + a.addr) 4))
    ∃ s', exec (.atomicReturn op) s = .next s' ∧ getOp s' op = none ∧ Safety.SameMemory s s' ∧
      scrRead (getCluster s' t.place.cluster) (t.place.scrBase + a.addr) 4 =
        leBytes 4 (atomicNew aop old (a.data.setWidth 32) a.data2).toNat) ∧
  (∀ s op o a t w, getOp s op = some o → o.accs = [a] → getTeam s o.tid = some t → o.kind = .stag → a.done = true → a.landed = false →
    unmatched s o = false →
    Spec.Holds t o a.sid w [o.vd.toNat] →
    ∃ s', exec (.loadReturn op) s = .next s' ∧ getOp s' op = none ∧ Safety.SameMemory s s' ∧ s'.clusters = s.clusters ∧
      Spec.elemOf s' o.tid w.wid a.sid o.vd.toNat = some ⟨a.result.setWidth 32, a.resPoison⟩) ∧
  (∀ s op o a t i, (i, o.kind) ∈ [(Instr.storeApplied op, OpKind.store), (.loadReturn op, .load false), (.ldgsComplete op, .ldgs)] →
    getOp s op = some o → o.accs = [a] → getTeam s o.tid = some t → a.done = false →
    blocked s o.tid a.sid (o.next a) = true → exec i s = .next s) ∧
  (∀ s op o t data, getOp s op = some o → getTeam s o.tid = some t → linked s = true →
    (∀ a ∈ o.accs, a.done = false → a.remote = true ∧ blocked s o.tid a.sid (o.next a) = false) →
    ∃ s', exec (.remoteAcknowledge op data) s = .next s' ∧ Safety.SameMemory s s' ∧ (o.kind ≠ .ldgs → s'.clusters = s.clusters) ∧
      getOp s' op = some { o with accs := Spec.acked (decide (o.kind = .ldgs)) o.accs data }) ∧
  (∀ s op o a t d, getOp s op = some o → getTeam s o.tid = some t → linked s = true → o.kind = .ldgs → o.accs = [a] → a.done = false →
    a.remote = true → blocked s o.tid a.sid (o.next a) = false →
    ∃ s', exec (.remoteAcknowledge op [d]) s = .next s' ∧
      scrRead (getCluster s' t.place.cluster) (t.place.scrBase + a.data.toNat) 4 = leBytes 4 d.1.toNat) ∧
  (∀ s op data, linked s = false → exec (.remoteAcknowledge op data) s = .next s)


/-! ### Control core (15) -/

/-- The hart of team tid, in U-mode, is about to execute an instruction that is one of its instructions: it does not stand at one that waits to
go on (15 R220, R223, R227). -/
structure Sys2Proof.Spec.HartAt (i : Instr) (s : State) (tid : Nat) (t : Team) (h : Hart) : Prop where
  cur : s.cur = .hart tid
  team : getTeam s tid = some t
  hart : t.hart = some h
  user : t.inM = false
  goes : h.wait ≠ .hend ∧ ∀ k, h.wait ≠ .retry k
  legal : legal i = true

/-- A hart that waits; each wait has a timer of its own (15 R220, 25 R358). -/
def Sys2Proof.Spec.waiting (w : HWait) (h : Hart) : Hart := { h with wait := w, expiries := if h.wait = w then h.expiries else 0 }

/-- A hart retired an instruction (15 R212, R220): the hart is f of what it was, at a pc, instret is one higher, cycle at least one
higher, and it does not wait. -/
def Sys2Proof.Spec.retiredHart (s : State) (tid : Nat) (h : Hart) (pc : W64) (f : Hart → Hart) : Prop :=
  ∃ c : W64, Safety.hartIn s tid =
    some { f h with pc := pc, instret := (f h).instret + 1, cycle := (f h).cycle + 1 + c, wait := .none, expiries := 0 }

/-- An instruction retires: its hart changes so, and nothing else does of a state that holds the instruction's other effects. -/
def Sys2Proof.Spec.RetiresFrom (b : State) (i : Instr) (s : State) (tid : Nat) (h : Hart) (pc : W64) (f : Hart → Hart) : Prop :=
  ∃ t, exec i s = .next t ∧ Safety.OnlyHart b t tid ∧ Spec.retiredHart t tid h pc f

/-- An instruction retires: its hart changes so, and nothing else does. -/
def Sys2Proof.Spec.Retires (i : Instr) (s : State) (tid : Nat) (h : Hart) (pc : W64) (f : Hart → Hart) : Prop :=
  Spec.RetiresFrom s i s tid h pc f

/-- A team without its hart and without the record of what its agents and its partner have accessed. -/
def Sys2Proof.Spec.butRecord (tid : Nat) (t : Team) : Team := if t.tid = tid then { t with hart := none, hists := [], pairLoads := [] } else t

/-- An access retires: its hart changes so, and of everything else only the record of accesses does. -/
def Sys2Proof.Spec.RetiresAccess (i : Instr) (s : State) (tid : Nat) (h : Hart) (pc : W64) (f : Hart → Hart) : Prop :=
  ∃ t, exec i s = .next t ∧ Safety.SameOutside s t ∧ t.teams.map (Spec.butRecord tid) = s.teams.map (Spec.butRecord tid) ∧
    Spec.retiredHart t tid h pc f

/-- 64-bit operations of RV64I and M (15 R211). -/
def Sys2Proof.Spec.rvAlu : List (RvAlu × (W64 → W64 → W64)) :=
  [(.add, fun a b => a + b), (.sub, fun a b => a - b), (.sll, fun a b => a <<< (b.toNat % 64)),
   (.slt, fun a b => if a.slt b then 1 else 0), (.sltu, fun a b => if a.ult b then 1 else 0),
   (.xor, fun a b => a ^^^ b), (.srl, fun a b => a >>> (b.toNat % 64)), (.sra, fun a b => a.sshiftRight (b.toNat % 64)),
   (.or, fun a b => a ||| b), (.and, fun a b => a &&& b), (.mul, fun a b => a * b),
   (.mulh, fun a b => BitVec.ofInt 64 (a.toInt * b.toInt / 2 ^ 64)),
   (.mulhsu, fun a b => BitVec.ofInt 64 (a.toInt * (b.toNat : Int) / 2 ^ 64)),
   (.mulhu, fun a b => BitVec.ofNat 64 (a.toNat * b.toNat / 2 ^ 64)),
   (.div, fun a b => if b = 0 then -1 else a.sdiv b), (.divu, fun a b => if b = 0 then -1 else a / b),
   (.rem, fun a b => if b = 0 then a else a.srem b), (.remu, fun a b => if b = 0 then a else a % b)]

/-- 32-bit operations of RV64I and M; their results are sign-extended (15 R211). -/
def Sys2Proof.Spec.rvAluW : List (RvAlu × (W32 → W32 → W32)) :=
  [(.add, fun a b => a + b), (.sub, fun a b => a - b), (.sll, fun a b => a <<< (b.toNat % 32)),
   (.srl, fun a b => a >>> (b.toNat % 32)), (.sra, fun a b => a.sshiftRight (b.toNat % 32)), (.mul, fun a b => a * b),
   (.div, fun a b => if b = 0 then -1 else a.sdiv b), (.divu, fun a b => if b = 0 then -1 else a / b),
   (.rem, fun a b => if b = 0 then a else a.srem b), (.remu, fun a b => if b = 0 then a else a % b)]

/-- Branch conditions (15 R211). -/
def Sys2Proof.Spec.rvCond : List (RvCond × (W64 → W64 → Bool)) :=
  [(.eq, fun a b => a == b), (.ne, fun a b => a != b), (.lt, fun a b => a.slt b), (.ge, fun a b => !a.slt b),
   (.ltu, fun a b => a.ult b), (.geu, fun a b => !a.ult b)]

/-- RV64I and M: results carry the OR of their sources' poison bits; a jump or taken branch goes to its target where it is a multiple of
4 and else raises mcause 0 there; a branch or jump on a poisoned register ends the team; x0 reads 0 and discards (15 R211, R213,
R217). -/
def Obligations.HartArithmetic : Prop :=
  (∀ op f rd rs1 rs2 s tid t h, (op, f) ∈ Spec.rvAlu → Spec.HartAt (.rv64Instruction (.alu op rd rs1 rs2)) s tid t h →
    Spec.Retires (.rv64Instruction (.alu op rd rs1 rs2)) s tid h (h.pc + 4)
      fun h => h.wr rd (f (h.rd rs1) (h.rd rs2)) (h.pd rs1 || h.pd rs2)) ∧
  (∀ op f rd rs1 imm s tid t h, (op, f) ∈ Spec.rvAlu → Spec.HartAt (.rv64Instruction (.aluImm op rd rs1 imm)) s tid t h →
    Spec.Retires (.rv64Instruction (.aluImm op rd rs1 imm)) s tid h (h.pc + 4)
      fun h => h.wr rd (f (h.rd rs1) (imm.signExtend 64)) (h.pd rs1)) ∧
  (∀ op f rd rs1 rs2 s tid t h, (op, f) ∈ Spec.rvAluW → Spec.HartAt (.rv64Instruction (.aluW op rd rs1 rs2)) s tid t h →
    Spec.Retires (.rv64Instruction (.aluW op rd rs1 rs2)) s tid h (h.pc + 4)
      fun h => h.wr rd ((f ((h.rd rs1).setWidth 32) ((h.rd rs2).setWidth 32)).signExtend 64) (h.pd rs1 || h.pd rs2)) ∧
  (∀ op f rd rs1 imm s tid t h, (op, f) ∈ Spec.rvAluW → Spec.HartAt (.rv64Instruction (.aluImmW op rd rs1 imm)) s tid t h →
    Spec.Retires (.rv64Instruction (.aluImmW op rd rs1 imm)) s tid h (h.pc + 4)
      fun h => h.wr rd ((f ((h.rd rs1).setWidth 32) (imm.signExtend 32)).signExtend 64) (h.pd rs1)) ∧
  (∀ rd imm s tid t h, Spec.HartAt (.rv64Instruction (.lui rd imm)) s tid t h →
    Spec.Retires (.rv64Instruction (.lui rd imm)) s tid h (h.pc + 4) fun h => h.wr rd (BitVec.ofInt 64 (imm.toInt * 4096)) false) ∧
  (∀ rd imm s tid t h, Spec.HartAt (.rv64Instruction (.auipc rd imm)) s tid t h →
    Spec.Retires (.rv64Instruction (.auipc rd imm)) s tid h (h.pc + 4)
      fun h => h.wr rd (h.pc + BitVec.ofInt 64 (imm.toInt * 4096)) false) ∧
  (∀ rd off s tid t h, Spec.HartAt (.rv64Instruction (.jal rd off)) s tid t h →
    let target := h.pc + off.signExtend 64
    (target.toNat % 4 = 0 → Spec.Retires (.rv64Instruction (.jal rd off)) s tid h target fun h => h.wr rd (h.pc + 4) false) ∧
    (target.toNat % 4 ≠ 0 → exec (.rv64Instruction (.jal rd off)) s = hartException s t h 0 target.toNat 0 0 false)) ∧
  (∀ rd rs1 imm s tid t h, Spec.HartAt (.rv64Instruction (.jalr rd rs1 imm)) s tid t h →
    let target := (h.rd rs1 + imm.signExtend 64) &&& ~~~(1 : W64)
    (h.pd rs1 = true → exec (.rv64Instruction (.jalr rd rs1 imm)) s = poisonHart s t h) ∧
    (h.pd rs1 = false → target.toNat % 4 = 0 →
      Spec.Retires (.rv64Instruction (.jalr rd rs1 imm)) s tid h target fun h => h.wr rd (h.pc + 4) false) ∧
    (h.pd rs1 = false → target.toNat % 4 ≠ 0 →
      exec (.rv64Instruction (.jalr rd rs1 imm)) s = hartException s t h 0 target.toNat 0 0 false)) ∧
  (∀ cond f rs1 rs2 off s tid t h, (cond, f) ∈ Spec.rvCond → Spec.HartAt (.rv64Instruction (.branch cond rs1 rs2 off)) s tid t h →
    let i := Instr.rv64Instruction (.branch cond rs1 rs2 off)
    let target := h.pc + off.signExtend 64
    let taken := f (h.rd rs1) (h.rd rs2)
    ((h.pd rs1 || h.pd rs2) = true → exec i s = poisonHart s t h) ∧
    ((h.pd rs1 || h.pd rs2) = false → taken = false → Spec.Retires i s tid h (h.pc + 4) id) ∧
    ((h.pd rs1 || h.pd rs2) = false → taken = true → target.toNat % 4 = 0 → Spec.Retires i s tid h target id) ∧
    ((h.pd rs1 || h.pd rs2) = false → taken = true → target.toNat % 4 ≠ 0 →
      exec i s = hartException s t h 0 target.toNat 0 0 false)) ∧
  (∀ (h : Hart) r v p, h.x.length = 32 →
    (h.wr r v p).x.length = 32 ∧ (∀ q, (h.wr r v p).rd q = if q = 0 then 0 else if q = r then v else h.rd q) ∧
    ∀ q, (h.wr r v p).pd q = if q = 0 then false else if q = r then p else h.pd q)

/-- An access of a hart that passes its checks: its address is not poisoned, may be accessed, is not in the copy aperture, its translation is
at hand, and no chunk that a read needs is missing; the team is no member of a pair (15 R213, R214, R217, 25 R362). -/
structure Sys2Proof.Spec.Allowed (s : State) (t : Team) (h : Hart) (rs1 : BitVec 5) (a : W64) (n : Nat) (need : Need) : Prop where
  clear : h.pd rs1 = false
  allowed : checkAccess s t.fn t.secure (a.toNat : Int) n true [need] = none
  ready : (tlbLookup s t.place.cluster t.fn a.toNat).1 = true
  resident : need = .read → missingOf s t.fn (upFrom a.toNat n) = none
  single : t.partner = none

/-- A hart waits for the memory system, and nothing else of the module changed but a translation kept nearer (15 R220, 03 R48). -/
def Sys2Proof.Spec.WaitsFor (s : State) (t : State) (tid : Nat) (h : Hart) (w : HWait) : Prop :=
  Safety.SameMemory s t ∧ t.clusters = s.clusters ∧ t.vops = s.vops ∧ t.teams.map (Safety.butHart tid) = s.teams.map (Safety.butHart tid) ∧
    Safety.hartIn t tid = some (Spec.waiting w h)

/-- Loads, LR and AMOs of a hart wait for the memory system; HART_MEMORY_RETURN gives the value, with its granule's poison, in rd; LR also
reserves its granule, and an AMO writes its result; another module's memory gives any value (15 R214 to R217, R220). A refused access raises
its exception, and a poisoned address, or a poisoned operand of an AMO, ends the team; where a chunk that an AMO reads is not resident, the
AMO waits (05 R85). -/
def Obligations.HartLoadsAndAtomics : Prop :=
  (∀ wd rd rs1 imm s tid t h, Spec.HartAt (.hartLoad wd rd rs1 imm) s tid t h →
    let a := h.rd rs1 + imm.signExtend 64
    (Spec.Allowed s t h rs1 a (rvSize wd) .read →
      ∃ s', exec (.hartLoad wd rd rs1 imm) s = .next s' ∧ Spec.WaitsFor s s' tid h (.load rd a (rvSize wd) (rvSigned wd))) ∧
    (h.pd rs1 = true → exec (.hartLoad wd rd rs1 imm) s = poisonHart s t h) ∧
    (∀ k, h.pd rs1 = false → apertureOk (.load false) (rvSize wd) a.toNat = false →
      checkAccess s t.fn t.secure (a.toNat : Int) (rvSize wd) true [.read] = some k →
      exec (.hartLoad wd rd rs1 imm) s = hartMemFault s t h false k a)) ∧
  (∀ dword aq rl rd rs1 s tid t h, Spec.HartAt (.lr dword aq rl rd rs1) s tid t h →
    let i := Instr.lr dword aq rl rd rs1
    let n := if dword then 8 else 4
    (Spec.Allowed s t h rs1 (h.rd rs1) n .read → ∃ s', exec i s = .next s' ∧ Spec.WaitsFor s s' tid h (.lr rd (h.rd rs1) n aq rl)) ∧
    (h.pd rs1 = true → exec i s = poisonHart s t h) ∧
    (∀ k, h.pd rs1 = false → checkAccess s t.fn t.secure ((h.rd rs1).toNat : Int) n true [.read] = some k →
      exec i s = hartMemFault s t h false k (h.rd rs1))) ∧
  (∀ op dword aq rl rd rs1 rs2 s tid t h, Spec.HartAt (.hartAmo op dword aq rl rd rs1 rs2) s tid t h →
    let i := Instr.hartAmo op dword aq rl rd rs1 rs2
    let n := if dword then 8 else 4
    let w := HWait.amo op rd (h.rd rs1) (h.rd rs2) n aq rl
    ((h.pd rs1 || h.pd rs2) = true → exec i s = poisonHart s t h) ∧
    (∀ k, (h.pd rs1 || h.pd rs2) = false → checkAccess s t.fn t.secure ((h.rd rs1).toNat : Int) n true [.write] = some k →
      exec i s = hartMemFault s t h true k (h.rd rs1)) ∧
    (∀ o c, Spec.Allowed s t h rs1 (h.rd rs1) n .write → h.pd rs2 = false →
      missingOf (tlbLookup s t.place.cluster t.fn (h.rd rs1).toNat).2 t.fn (upFrom (h.rd rs1).toNat n) = some (o, c) →
      ∃ s', exec i s = .next s' ∧ Safety.hartIn s' tid = some (Spec.waiting (.retry (Why.data o c).code) h)) ∧
    (Spec.Allowed s t h rs1 (h.rd rs1) n .write → h.pd rs2 = false → commitReady s t = true →
      missingOf (tlbLookup s t.place.cluster t.fn (h.rd rs1).toNat).2 t.fn (upFrom (h.rd rs1).toNat n) = none →
      (∃ s', exec i s = .next s' ∧ Safety.hartIn s' tid = some (Spec.waiting w h)) ∧
      ((∀ fn tcb, t.ref ≠ .task fn tcb) → ∃ s', exec i s = .next s' ∧ Spec.WaitsFor s s' tid h w))) ∧
  (∀ s tid t h rd a n sext, s.cur = .hart tid → getTeam s tid = some t → t.hart = some h → h.wait = .load rd a n sext → t.partner = none →
    (a.toNat < apertureBase → isRemote s t.fn a.toNat = false →
      (∀ x ∈ h.stores, overlap x.addr.toNat x.bytes.length a.toNat n = false) →
      Spec.RetiresAccess .hartMemoryReturn s tid h (h.pc + 4) fun h =>
        { h.wr rd (if sext then BitVec.ofInt 64 (signedOf (8 * n) (readNat s t.die (gkey t.fn a.toNat) n))
            else BitVec.ofNat 64 (readNat s t.die (gkey t.fn a.toNat) n)) (poisonAt s t.die (gkey t.fn a.toNat)) with granted := false }) ∧
    (a.toNat < apertureBase → isRemote s t.fn a.toNat = true → linked s = true →
      ∃ v p, Spec.RetiresAccess .hartMemoryReturn s tid h (h.pc + 4) fun h => { h.wr rd v p with granted := false })) ∧
  (∀ s tid t h rd a n aq rl, s.cur = .hart tid → getTeam s tid = some t → t.hart = some h → h.wait = .lr rd a n aq rl →
    t.partner = none → a.toNat < apertureBase → isRemote s t.fn a.toNat = false → h.stores = [] → t.die < s.mem.views.length →
    ∃ s', exec .hartMemoryReturn s = .next s' ∧ resvOf s' t.die tid = some (gkey t.fn a.toNat / 64) ∧
      Spec.retiredHart s' tid h (h.pc + 4) fun h =>
        { h.wr rd (BitVec.ofInt 64 (signedOf (8 * n) (readNat s t.die (gkey t.fn a.toNat) n)))
            (poisonAt s t.die (gkey t.fn a.toNat)) with granted := false }) ∧
  (∀ s tid t h op rd a d n aq rl, s.cur = .hart tid → getTeam s tid = some t → t.hart = some h → h.wait = .amo op rd a d n aq rl →
    t.partner = none → a.toNat < apertureBase → isRemote s t.fn a.toNat = false → h.stores = [] → t.die < s.mem.views.length →
    let k := gkey t.fn a.toNat
    let old : W64 := BitVec.ofInt 64 (signedOf (8 * n) (readNat { s with mem := catchUp s.mem t.die k n } t.die k n))
    ∃ s', exec .hartMemoryReturn s = .next s' ∧ readBytes s' t.die k n = leBytes n (amoNew op n old d).toNat ∧
      Spec.retiredHart s' tid h (h.pc + 4) fun h =>
        { h.wr rd old (poisonAt { s with mem := catchUp s.mem t.die k n } t.die k) with granted := false })

/-- A store of a hart retires with its bytes still to be applied; HART_STORE_APPLIED applies them on the hart's die, after those to common
bytes that came first, and, of a release, after all that came first; SC writes, and answers 0, where the reservation of its granule stands, and else stores nothing and answers 1; in
both cases the reservation is gone. One that succeeds commits its task, and waits first where deferred work must follow earlier
accesses of the team; what one stores to another module's memory is not this module's, and it waits while no port is up (15 R214 to
R217, R235, 19 R298, R304, 03 R52, 26 R377). That an SC fails for no other reason is log entry 45 (DEDUCED). -/
def Obligations.HartStores : Prop :=
  (∀ wd rs1 rs2 imm s tid t h, Spec.HartAt (.hartStore wd rs1 rs2 imm) s tid t h →
    let a := h.rd rs1 + imm.signExtend 64
    Spec.Allowed s t h rs1 a (rvSize wd) .write → (h.pd rs2 = true → isRemote s t.fn a.toNat = false) →
    ∃ s', exec (.hartStore wd rs1 rs2 imm) s = .next s' ∧ Safety.SameMemory s s' ∧
      Spec.retiredHart s' tid h (h.pc + 4) fun h =>
        { h with granted := false,
                 stores := h.stores ++ [{ addr := a, bytes := leBytes (rvSize wd) (h.rd rs2).toNat, poison := h.pd rs2,
                                          rel := (t.hist hartWho).rel, num := s.nextId }] }) ∧
  (∀ tid idx s t h x, getTeam s tid = some t → t.hart = some h → h.stores[idx]? = some x →
    let remote := isRemote s t.fn x.addr.toNat
    let meets (y : HStore) : Bool := !isRemote s t.fn y.addr.toNat && !remote && overlap y.addr.toNat y.bytes.length x.addr.toNat x.bytes.length
    ((∃ y ∈ h.stores, y.num < x.num ∧ meets y = true) ∨ (remote = true ∧ linked s = false) → exec (.hartStoreApplied tid idx) s = .next s) ∧
    ((∀ y ∈ h.stores, y.num < x.num → x.rel = none ∧ meets y = false) → (remote = true → linked s = true) →
      ∃ s', exec (.hartStoreApplied tid idx) s = .next s' ∧
        Safety.hartIn s' tid = some { h with stores := h.stores.filter fun y => y.num ≠ x.num } ∧
        (remote = false → t.die < s.mem.views.length → readBytes s' t.die (gkey t.fn x.addr.toNat) x.bytes.length = x.bytes))) ∧
  (∀ dword aq rl rd rs1 rs2 s tid t h, Spec.HartAt (.sc dword aq rl rd rs1 rs2) s tid t h →
    let n := if dword then 8 else 4
    let k := gkey t.fn (h.rd rs1).toNat
    let m : State := { s with mem := catchUp s.mem t.die k n }
    Spec.Allowed s t h rs1 (h.rd rs1) n .write → isRemote s t.fn (h.rd rs1).toNat = false → h.pd rs2 = false → h.stores = [] →
    t.die < s.mem.views.length → (resvOf m t.die tid = some (k / 64) → commitReady s t = true) →
    ∃ s', exec (.sc dword aq rl rd rs1 rs2) s = .next s' ∧ resvOf s' t.die tid = none ∧
      (resvOf m t.die tid = some (k / 64) → readBytes s' t.die k n = leBytes n (h.rd rs2).toNat ∧
        (∀ fn tcb, t.ref = .task fn tcb → ∃ tm, getTeam s' tid = some tm ∧ tm.commit = true) ∧
        Spec.retiredHart s' tid h (h.pc + 4) fun h => { h.wr rd 0 false with granted := false }) ∧
      (resvOf m t.die tid ≠ some (k / 64) → readBytes s' t.die k n = readBytes m t.die k n ∧
        Spec.retiredHart s' tid h (h.pc + 4) fun h => { h.wr rd 1 false with granted := false })) ∧
  (∀ dword aq rl rd rs1 rs2 s tid t h, Spec.HartAt (.sc dword aq rl rd rs1 rs2) s tid t h →
    let i := Instr.sc dword aq rl rd rs1 rs2
    let n := if dword then 8 else 4
    let k := gkey t.fn (h.rd rs1).toNat
    let remote := isRemote s t.fn (h.rd rs1).toNat
    let m : State := if remote then s else { s with mem := catchUp s.mem t.die k n }
    ((h.pd rs1 || h.pd rs2) = true → exec i s = poisonHart s t h) ∧
    (∀ c, (h.pd rs1 || h.pd rs2) = false → checkAccess s t.fn t.secure ((h.rd rs1).toNat : Int) n true [.write] = some c →
      exec i s = hartMemFault s t h true c (h.rd rs1)) ∧
    (Spec.Allowed s t h rs1 (h.rd rs1) n .write → h.pd rs2 = false →
      ((resvOf m t.die tid = some (k / 64) ∧ commitReady s t = false) ∨ (remote = true ∧ linked s = false) →
        ∃ s', exec i s = .next s' ∧ Safety.hartIn s' tid = some (Spec.waiting (.retry Why.order.code) h)) ∧
      (remote = true → linked s = true → h.stores = [] → (∀ fn tcb, t.ref ≠ .task fn tcb) → t.die < s.mem.views.length →
        ∃ s', exec i s = .next s' ∧ resvOf s' t.die tid = none ∧
          (∀ d b, memGet (viewOf s'.mem d).mem b = memGet (viewOf s.mem d).mem b) ∧
          Spec.retiredHart s' tid h (h.pc + 4) fun h =>
            { h.wr rd (if resvOf s t.die tid = some (k / 64) then 0 else 1) false with granted := false })))

/-- What the release half of a fence of a hart at a scope leaves: every later write of the hart is a release at that scope (03 R53). -/
def Sys2Proof.Spec.hartReleased (s' : State) (tid : Nat) (t : Team) (rel : Bool) (scp : Nat) : Prop :=
  ∃ tm, getTeam s' tid = some tm ∧ (tm.hist hartWho).rel = if rel then widest (t.hist hartWho).rel (some scp) else (t.hist hartWho).rel

/-- The uniform queue after a push of a value, with what the hart has done (15 R229, R230). -/
def Sys2Proof.Spec.pushed (s : State) (t : Team) (v : W64) : Uniform :=
  let i := t.uni.tail.toNat % 64
  { t.uni with uq := spSet 0 t.uni.uq i v, uqRel := spSet [] t.uni.uqRel i (inTransit s.mem (t.done [hartWho])), tail := t.uni.tail + 1 }

/-- FENCE, FENCE.I, XFENCE and HPAUSE retire at once; a release fence makes every later write of the hart a release. UQPUSH and UQTRY put the
value of RS1 at the tail of the uniform queue once the hart's stores are applied, UQPUSH waits and UQTRY answers 1 at a full queue; TLRD
reads a counter, TLWAIT waits until it has reached its target, at a scope wider than weft, which holds the hart alone, acquires what the
operations up to it released, and then reads it (15 R211, R215, R229 to R235). That an illegal TLRD or TLWAIT has mtval 0 is log entry 38
(DEDUCED). -/
def Obligations.HartOrderingAndQueues : Prop :=
  (∀ ord scp s tid t h, Spec.HartAt (.xfence ord scp) s tid t h →
    ∃ s', exec (.xfence ord scp) s = .next s' ∧
      Safety.OnlyHart (fenceAs s t [hartWho] (ord.getLsbD 0) (ord.getLsbD 1) scp.toNat) s' tid ∧ Spec.retiredHart s' tid h (h.pc + 4) id ∧
      Spec.hartReleased s' tid t (ord.getLsbD 1) scp.toNat) ∧
  (∀ fm pred succ s tid t h, Spec.HartAt (.hartFence fm pred succ) s tid t h →
    let orders : Bool := decide (pred.extractLsb' 0 2 ≠ 0) && decide (succ.extractLsb' 0 2 ≠ 0)
    ∃ s', exec (.hartFence fm pred succ) s = .next s' ∧
      Safety.OnlyHart (if orders then fenceAs s t [hartWho] true true 4 else s) s' tid ∧ Spec.retiredHart s' tid h (h.pc + 4) id ∧
      Spec.hartReleased s' tid t orders 4) ∧
  (∀ s tid t h, Spec.HartAt .fenceI s tid t h → Spec.Retires .fenceI s tid h (h.pc + 4) id) ∧
  (∀ s tid t h, Spec.HartAt .hpause s tid t h → Spec.Retires .hpause s tid h (h.pc + 4) fun h => { h with paused := true }) ∧
  (∀ rs1 s tid t h, Spec.HartAt (.uqpush rs1) s tid t h →
    (h.pd rs1 = true → exec (.uqpush rs1) s = poisonHart s t h) ∧
    (h.pd rs1 = false → uqUsed t = 64 → exec (.uqpush rs1) s = .next (updHart s tid (Spec.waiting (.retry Why.queue.code)))) ∧
    (h.pd rs1 = false → uqUsed t ≠ 64 → h.stores ≠ [] →
      exec (.uqpush rs1) s = .next (updHart s tid (Spec.waiting (.retry Why.order.code)))) ∧
    (h.pd rs1 = false → uqUsed t ≠ 64 → h.stores = [] →
      ∃ s' tm, exec (.uqpush rs1) s = .next s' ∧ Safety.SameOutside s s' ∧ Spec.retiredHart s' tid h (h.pc + 4) id ∧
        getTeam s' tid = some tm ∧ tm.wefts = t.wefts ∧ tm.uni = Spec.pushed s t (h.rd rs1))) ∧
  (∀ rd rs1 s tid t h, Spec.HartAt (.uqtry rd rs1) s tid t h →
    (h.pd rs1 = true → exec (.uqtry rd rs1) s = poisonHart s t h) ∧
    (h.pd rs1 = false → uqUsed t = 64 → Spec.Retires (.uqtry rd rs1) s tid h (h.pc + 4) fun h => h.wr rd 1 false) ∧
    (h.pd rs1 = false → uqUsed t ≠ 64 → h.stores = [] →
      ∃ s' tm, exec (.uqtry rd rs1) s = .next s' ∧ Safety.SameOutside s s' ∧
        Spec.retiredHart s' tid h (h.pc + 4) (fun h => h.wr rd 0 false) ∧ getTeam s' tid = some tm ∧ tm.wefts = t.wefts ∧
        tm.uni = Spec.pushed s t (h.rd rs1))) ∧
  (∀ rd iss tl s tid t h, Spec.HartAt (.tlrd rd iss tl) s tid t h →
    (timelineOf s t tl.toNat = none → exec (.tlrd rd iss tl) s = hartException s t h 2 0 1 0 false) ∧
    (∀ n, t.partner = none → timelineOf s t tl.toNat = some n →
      Spec.Retires (.tlrd rd iss tl) s tid h (h.pc + 4) fun h =>
        { h.wr rd (BitVec.ofNat 64 (if iss then issuedOn s t tl.toNat else n)) false with granted := false })) ∧
  (∀ rd rs1 scp tl s tid t h, Spec.HartAt (.tlwait rd rs1 scp tl) s tid t h →
    (timelineOf s t tl.toNat = none → exec (.tlwait rd rs1 scp tl) s = hartException s t h 2 0 1 0 false) ∧
    (∀ n, timelineOf s t tl.toNat = some n →
      (h.pd rs1 = true → exec (.tlwait rd rs1 scp tl) s = poisonHart s t h) ∧
      (h.pd rs1 = false → (h.rd rs1).toNat ≤ n → t.partner = none →
        Spec.RetiresFrom (if scp = 0 then s else acquireIds s t [hartWho] (timelineRel s t tl.toNat (h.rd rs1).toNat)) (.tlwait rd rs1 scp tl) s tid h (h.pc + 4)
          fun h => { h.wr rd (BitVec.ofNat 64 n) false with granted := false }) ∧
      (h.pd rs1 = false → n < (h.rd rs1).toNat →
        exec (.tlwait rd rs1 scp tl) s = .next (updHart s tid (Spec.waiting (.retry Why.timeline.code))))))

/-- The CSRs that U-mode reads, beside time (15 R212, R224). -/
def Sys2Proof.Spec.csrs (s : State) (t : Team) (h : Hart) : List (BitVec 12 × W64) :=
  [(0xC00, h.cycle), (0xC02, h.instret), (0xCC0, BitVec.ofNat 64 t.ref.number), (0xCC1, BitVec.ofNat 64 t.nstr),
   (0xCC2, BitVec.ofNat 64 ((t.wefts.map fun w => w.strands.length).foldl Nat.add 0)), (0xCC3, (pointOf s t).zeroExtend 64),
   (0xCC4, BitVec.ofNat 64 (1024 * (t.place.cluster / 40) + 256 * t.place.core + t.place.cluster)),
   (0xCC5, BitVec.ofNat 64 (65536 * uqUsed t + t.uni.tail.toNat)), (0xCC6, BitVec.ofNat 64 (t.fn + if t.secure then 4 else 0)),
   (0xCC7, BitVec.ofNat 64 t.place.scrSize)]

/-- The Loom's M-mode code executes on hart n of a cluster, which no team has (15 R223). -/
structure Sys2Proof.Spec.MachineAt (s : State) (c n : Nat) (h : Hart) : Prop where
  cur : s.cur = .machine c n
  mine : (spGet (Hart.reset, none) (getCluster s c).machine n).1 = h
  goes : h.wait = .none
  free : ∀ t ∈ s.teams, t.place.cluster = c → ∀ g, t.hart = some g → g.num ≠ n
  fresh : ∀ t ∈ s.teams, t.tid ≠ s.nextId

/-- An instruction of M-mode code leaves its hart so, and the teams as they were. -/
def Sys2Proof.Spec.machineLeaves (r : Result) (s : State) (c n : Nat) (g : Hart → Prop) (P : State → Prop) : Prop :=
  ∃ t h, r = .next t ∧ t.teams = s.teams ∧ spGet (Hart.reset, none) (getCluster t c).machine n = (h, none) ∧ g h ∧ P t

/-- An instruction of M-mode code retires. -/
def Sys2Proof.Spec.machineRetires (r : Result) (s : State) (c n : Nat) (h : Hart) (pc : W64) (f : Hart → Hart) (P : State → Prop) : Prop :=
  Spec.machineLeaves r s c n (fun g => ∃ x : W64, g = { f { h with num := n } with
    pc := pc, instret := (f h).instret + 1, cycle := (f h).cycle + 1 + x, wait := .none, expiries := 0 }) P

/-- A memory access of M-mode code that may be made, with no write to its bytes in transit. -/
def Sys2Proof.Spec.machineMay (s : State) (a : W64) (size : Nat) : Prop :=
  a.toNat % size = 0 ∧ a.toNat + size ≤ 2 ^ 56 ∧ meeting s.mem (gkey 4 a.toNat) size = []

/-- A CSR read gives its value; a write, or an unknown number, is illegal. ECALL, WFI and every illegal instruction raise their exception;
EBREAK reports and holds the team. HEND waits for the hart's stores and matrix operations and then ends the hart. An interrupt that M-mode
takes changes nothing that U-mode reads but time (15 R211 to R213, R223, R224, R227, R235, 11 R203). mtval is 0 at EBREAK by log entry 46,
and at an illegal instruction by log entry 38 (both DEDUCED). M-mode code loads, stores, and executes AMOs, LR, SC and MRET, in a memory of its
own; which memory that is, and where its exceptions go, is log entry 73 (DESIGN CHOICE). -/
def Obligations.HartSystem : Prop :=
  (∀ op imm csr rd rs1 s tid t h v, Spec.HartAt (.csrAccess op imm csr rd rs1) s tid t h → t.partner = none →
    (csr, v) ∈ Spec.csrs s t h →
    ((op = .rw ∨ rs1 ≠ 0) → exec (.csrAccess op imm csr rd rs1) s = hartException s t h 2 0 1 0 false) ∧
    (op ≠ .rw → rs1 = 0 → Spec.Retires (.csrAccess op imm csr rd rs1) s tid h (h.pc + 4) fun h =>
      { h.wr rd v false with granted := false })) ∧
  (∀ op imm rd rs1 s tid t h, Spec.HartAt (.csrAccess op imm 0xC01 rd rs1) s tid t h → t.partner = none →
    ((op = .rw ∨ rs1 ≠ 0) → exec (.csrAccess op imm 0xC01 rd rs1) s = hartException (passTime s) t h 2 0 1 0 false) ∧
    (op ≠ .rw → rs1 = 0 → ∃ s', exec (.csrAccess op imm 0xC01 rd rs1) s = .next s' ∧ Safety.SameMemory s s' ∧
      s'.ptp = (passTime s).ptp ∧
      Spec.retiredHart s' tid h (h.pc + 4) fun h => { h.wr rd (BitVec.ofNat 64 (timeNs (passTime s))) false with granted := false })) ∧
  (∀ op imm csr rd rs1 s tid t h, Spec.HartAt (.csrAccess op imm csr rd rs1) s tid t h → csr ≠ 0xC01 →
    (∀ v, (csr, v) ∉ Spec.csrs s t h) → exec (.csrAccess op imm csr rd rs1) s = hartException s t h 2 0 1 0 false) ∧
  (∀ s tid t h, Spec.HartAt .ecall s tid t h → exec .ecall s = .next (endTeam (enterLoom s t 8 0) tid { EndCause.silent with
    entry := some { kind := 0x11, cause := 0x8008, pc := h.pc.toNat }, cause := 0x8008 })) ∧
  (∀ s tid t h, Spec.HartAt .wfi s tid t h → exec .wfi s = .next (endTeam (enterLoom s t 2 0) tid { EndCause.silent with
    entry := some { kind := 0x11, cause := 1, pc := h.pc.toNat }, cause := 1 })) ∧
  (∀ s tid t h, Spec.HartAt .ebreak s tid t h →
    ∃ s' tm, exec .ebreak s = .next s' ∧ getTeam s' tid = some tm ∧ tm.held = some .breakpoint ∧
      Safety.hartIn s' tid = some { h with wait := .bkpt, mepc := h.pc, mcause := 3, mtval := 0 }) ∧
  (∀ s t h mcause mtval, getTeam s t.tid = some t → t.hart = some h → t.die < s.mem.views.length →
    Safety.hartIn (enterLoom s t mcause mtval) t.tid =
      some { h with mepc := h.pc, mcause := BitVec.ofNat 64 mcause, mtval := BitVec.ofNat 64 mtval } ∧
    resvOf (enterLoom s t mcause mtval) t.die t.tid = none ∧ Safety.OnlyHart (setResv s t.die t.tid none) (enterLoom s t mcause mtval) t.tid) ∧
  (∀ s tid t h, Spec.HartAt .hend s tid t h →
    let busy := ∃ i, t.place.ctx = some i ∧ (getCtx (getCluster s t.place.cluster).mx i).ops ≠ []
    (busy ∨ h.stores ≠ [] → exec .hend s = .next (updHart s tid (Spec.waiting .hend))) ∧
    (¬ busy → h.stores = [] → ∃ s', exec .hend s = .next (checkTeamEnd s' tid) ∧ Safety.OnlyHart s s' tid ∧
      Spec.retiredHart s' tid h (h.pc + 4) fun h => { h with ended := true }) ∧
    (¬ busy → h.stores = [] → t.wefts ≠ [] → Spec.Retires .hend s tid h (h.pc + 4) fun h => { h with ended := true })) ∧
  (∀ s tid t h, s.cur = .hart tid → getTeam s tid = some t → t.hart = some h →
    ∃ s' c, exec .mModeInterrupt s = .next s' ∧ Safety.OnlyHart s s' tid ∧
      Safety.hartIn s' tid = some { h with cycle := h.cycle + BitVec.ofNat 64 c }) ∧
  (∀ i s tid t h body, s.cur = .hart tid → getTeam s tid = some t → t.hart = some h → t.inM = false → h.wait ≠ .hend →
    (∀ k, h.wait ≠ .retry k) → legal i = false →
    runHart i s body = hartException s t h 2 0 1 0 false) ∧
  (∀ s c n h, Spec.MachineAt s c n h →
    let die := dieOf c
    Spec.machineRetires (exec (.rv64Instruction .mret) s) s c n h (h.mepc &&& ~~~3)
      (fun h => { h with csrs := spSet 0 h.csrs 0x300 (returnStatus (spGet 0 h.csrs 0x300)) }) (fun _ => True) ∧
    (∀ wd rd rs1 imm, h.pd rs1 = false → legal (.hartLoad wd rd rs1 imm) = true →
      let a := h.rd rs1 + imm.signExtend 64
      let k := gkey 4 a.toNat
      (Spec.machineMay s a (rvSize wd) → Spec.machineRetires (exec (.hartLoad wd rd rs1 imm) s) s c n h (h.pc + 4)
        (fun h => h.wr rd (loadValue (rvSize wd) (rvSigned wd) (readNat s die k (rvSize wd))) (poisonAt s die k)) (Safety.SameMemory s)) ∧
      (a.toNat % rvSize wd ≠ 0 → Spec.machineLeaves (exec (.hartLoad wd rd rs1 imm) s) s c n (fun g => g.mepc = h.pc ∧ g.mcause = 4 ∧
        g.mtval = a ∧ g.pc = spGet 0 h.csrs 0x305 &&& ~~~3 ∧ spGet 0 g.csrs 0x300 = trapStatus (spGet 0 h.csrs 0x300) ∧ g.x = h.x)
        (fun t => ∀ d b, readBytes t d b 1 = readBytes s d b 1))) ∧
    (∀ wd rs1 rs2 imm, h.pd rs1 = false → legal (.hartStore wd rs1 rs2 imm) = true →
      Spec.machineMay s (h.rd rs1 + imm.signExtend 64) (rvSize wd) → die < s.mem.views.length →
      Spec.machineRetires (exec (.hartStore wd rs1 rs2 imm) s) s c n h (h.pc + 4) id fun t =>
        readNat t die (gkey 4 (h.rd rs1 + imm.signExtend 64).toNat) (rvSize wd) = (h.rd rs2).toNat % 2 ^ (8 * rvSize wd)) ∧
    (∀ dword aq rl rd rs1 rs2,
      let size := if dword then 8 else 4
      let k := gkey 4 (h.rd rs1).toNat
      h.pd rs1 = false → h.pd rs2 = false → Spec.machineMay s (h.rd rs1) size → die < s.mem.views.length →
      let old := loadValue size true (readNat s die k size)
      (∀ op, Spec.machineRetires (exec (.hartAmo op dword aq rl rd rs1 rs2) s) s c n h (h.pc + 4)
        (fun g => g.wr rd old (poisonAt s die k)) fun t => readNat t die k size = (amoNew op size old (h.rd rs2)).toNat % 2 ^ (8 * size)) ∧
      Spec.machineRetires (exec (.lr dword aq rl rd rs1) s) s c n h (h.pc + 4)
        (fun g => g.wr rd old (poisonAt s die k)) (fun t => resvOf t die (2 ^ 64 + 16 * c + n) = some (k / 64)) ∧
      (resvOf s die (2 ^ 64 + 16 * c + n) = some (k / 64) →
        Spec.machineRetires (exec (.sc dword aq rl rd rs1 rs2) s) s c n h (h.pc + 4) (fun g => g.wr rd 0 false) fun t =>
          readNat t die k size = (h.rd rs2).toNat % 2 ^ (8 * size) ∧ resvOf t die (2 ^ 64 + 16 * c + n) = none) ∧
      (resvOf s die (2 ^ 64 + 16 * c + n) ≠ some (k / 64) →
        Spec.machineRetires (exec (.sc dword aq rl rd rs1 rs2) s) s c n h (h.pc + 4) (fun g => g.wr rd 1 false)
          fun t => resvOf t die (2 ^ 64 + 16 * c + n) = none ∧ ∀ d b, readBytes t d b 1 = readBytes s d b 1)))

/-! ### Matrix engine (16, 17) -/

/-- A matrix instruction is numbered and issued: rd receives its number, the operation joins its context's, with what the hart has released to
it, and memory, scratchpad and slots stay (17 R265, 16 R244). x: the context as the instruction leaves it, but for its operations. -/
def Sys2Proof.Spec.Numbered (i : Instr) (s : State) (tid : Nat) (t : Team) (h : Hart) (c : Nat) (rd : BitVec 5) (k : MKind) (x : Ctx) : Prop :=
  let old := getCtx (getCluster s t.place.cluster).mx c
  old.ops.length < 64 → h.stores = [] →
  ∃ s', exec i s = .next s' ∧ Safety.SameMemory s s' ∧
    (getCluster s' t.place.cluster).scr = (getCluster s t.place.cluster).scr ∧
    (getCluster s' t.place.cluster).mx.slots = (getCluster s t.place.cluster).mx.slots ∧
    getCtx (getCluster s' t.place.cluster).mx c = { x with
      issued := old.issued + 1
      ops := old.ops ++ [{ num := old.issued + 1, kind := k, acq := inTransit s.mem (t.done [hartWho]), pc := h.pc }] } ∧
    Spec.retiredHart s' tid h (h.pc + 4) fun h => h.wr rd (BitVec.ofNat 64 (old.issued + 1)) false

/-- A size code of a descriptor: 16, 32 or 64 (17 R261). -/
def Sys2Proof.Spec.size (v : W64) (at' : Nat) (n : Nat) : Prop := (bitsOf v.toNat at' 2, n) ∈ [(1, 16), (2, 32), (3, 64)]

/-- What every form of MMUL needs of its descriptor, its context and its slot (17 R263, R264, R268). -/
structure Sys2Proof.Spec.MmulOk (t : Team) (x : Ctx) (v : W64) (mask : W64) (b : Binding) (m fa ga : Nat) : Prop where
  fields : v &&& ~~~mask = 0
  bound : x.binding = some b
  rows : Spec.size v 20 m
  pair : pairOk fa b.bmap.fmt ga b.bmap.gs = true
  kind : kindOk (x.kindOf (bitsOf v.toNat 0 4)) fa = true
  slot : bitsOf v.toNat 0 4 < t.place.acc

/-- The context after an MMUL: its slot is of the pairing's kind (17 R264). -/
def Sys2Proof.Spec.afterMmul (x : Ctx) (v : W64) (fa : Nat) : Ctx :=
  { x with kinds := spSet .none x.kinds (bitsOf v.toNat 0 4) (if fmtFamily fa = .integer then .integer else .floating) }

/-- The matrix instructions that are numbered: where each passes its checks, what it leaves (17 R260 to R275). MSTAT reads its context's
status and is not numbered (R277). A poisoned operand ends the team; a team without a context meets check 6 (R263). -/
def Obligations.MatrixInstructionsIssue : Prop :=
  (∀ rd rs1 rs2 s tid t h c n, Spec.HartAt (.mldw rd rs1 rs2) s tid t h → t.place.ctx = some c →
    h.pd rs1 = false → h.pd (rs1 + 1) = false → h.pd rs2 = false →
    let v := h.rd rs2
    let m := mapOf h rs1 (v.getLsbD 16)
    let k := 16 * bitsOf v.toNat 32 12
    v &&& ~~~(0x00000FFF00C10000 : W64) = 0 → m.ok = true → Spec.size v 22 n → k ≠ 0 → k % m.group = 0 →
    mapBeyond m n k t.place.scrSize = false → (m.gs = 0 ∨ m.gax = m.t) →
    let x := getCtx (getCluster s t.place.cluster).mx c
    Spec.Numbered (.mldw rd rs1 rs2) s tid t h c rd .mldw { x with binding := some { bmap := m, n := n, k := k } }) ∧
  (∀ rd rs1 rs2 s tid t h c b m, Spec.HartAt (.mmulMap rd rs1 rs2) s tid t h → t.place.ctx = some c →
    h.pd rs1 = false → h.pd (rs1 + 1) = false → h.pd rs2 = false →
    let v := h.rd rs2
    let a := mapOf h rs1 (v.getLsbD 16)
    let x := getCtx (getCluster s t.place.cluster).mx c
    Spec.MmulOk t x v 0x000000000031001F b m a.fmt a.gs → v.getLsbD 4 = false → a.ok = true → b.k % a.group = 0 →
    mapBeyond a m b.k t.place.scrSize = false → (a.gs = 0 ∨ a.gax = a.t) →
    Spec.Numbered (.mmulMap rd rs1 rs2) s tid t h c rd
      (.mmul b (.map a) m (bitsOf v.toNat 0 4) (match x.chain with | some g => decide (g.pos = 0) | none => false))
      (Spec.afterMmul x v a.fmt)) ∧
  (∀ rd fd rs2 s tid t h c b m f, Spec.HartAt (.mmulFeed rd fd rs2) s tid t h → t.place.ctx = some c → h.pd rs2 = false →
    let v := h.rd rs2
    let fmt := bitsOf v.toNat 24 4
    let x := getCtx (getCluster s t.place.cluster).mx c
    Spec.MmulOk t x v 0x000000000F30001F b m fmt 0 → v.getLsbD 4 = false → streamFmt fmt = true → x.batch = some f →
    4096 * fd.toNat + streamBytes fmt m b.k ≤ 16384 → feedsNamed f fd.toNat (streamBytes fmt m b.k) = true →
    Spec.Numbered (.mmulFeed rd fd rs2) s tid t h c rd
      (.mmul b (.feed fd.toNat fmt) m (bitsOf v.toNat 0 4) (match x.chain with | some g => decide (g.pos = 0) | none => false))
      (Spec.afterMmul x v fmt)) ∧
  (∀ rd rs2 s tid t h c b m g, Spec.HartAt (.mmulWest rd rs2) s tid t h → t.place.ctx = some c → h.pd rs2 = false →
    let v := h.rd rs2
    let fmt := bitsOf v.toNat 24 4
    let x := getCtx (getCluster s t.place.cluster).mx c
    Spec.MmulOk t x v 0x000000000F30001F b m fmt 0 → v.getLsbD 4 = false → streamFmt fmt = true → x.batch ≠ none →
    x.chain = some g → g.pos ≠ 0 →
    Spec.Numbered (.mmulWest rd rs2) s tid t h c rd (.mmul b (.west fmt) m (bitsOf v.toNat 0 4) false) (Spec.afterMmul x v fmt)) ∧
  (∀ rd rs1 rs2 s tid t h c m n, Spec.HartAt (.mdrain rd rs1 rs2) s tid t h → t.place.ctx = some c →
    h.pd rs1 = false → h.pd (rs1 + 1) = false → h.pd rs2 = false →
    let v := h.rd rs2
    let d := mapOf h rs1 (v.getLsbD 16)
    let x := getCtx (getCluster s t.place.cluster).mx c
    let slot := bitsOf v.toNat 0 4
    v &&& ~~~(0x0000000000FD001F : W64) = 0 → d.ok = true → Spec.size v 20 m → Spec.size v 22 n → v.getLsbD 4 = false →
    slot < t.place.acc → mapBeyond d m n t.place.scrSize = false → d.gs = 0 →
    drainFmtOk (x.kindOf slot) d.fmt (v.getLsbD 19) (v.getLsbD 18) = true →
    Spec.Numbered (.mdrain rd rs1 rs2) s tid t h c rd
      (.mdrain d m n slot (v.getLsbD 19) (v.getLsbD 18) (decide (x.kindOf slot = .integer) || decide (8 ≤ d.fmt))) x) ∧
  (∀ rd rs1 s tid t h c, Spec.HartAt (.mzero rd rs1) s tid t h → t.place.ctx = some c → h.pd rs1 = false →
    h.rd rs1 &&& ~~~(0x3FFFF : W64) = 0 → (h.rd rs1).toNat < 2 ^ t.place.acc →
    let x := getCtx (getCluster s t.place.cluster).mx c
    Spec.Numbered (.mzero rd rs1) s tid t h c rd (.mzero ((h.rd rs1).setWidth 18))
      { x with kinds := x.kinds.filter fun e => !(h.rd rs1).getLsbD e.1 }) ∧
  (∀ rd feeds s tid t h c, Spec.HartAt (.mbegin rd feeds) s tid t h → t.place.ctx = some c →
    let x := getCtx (getCluster s t.place.cluster).mx c
    x.batch = none → Spec.Numbered (.mbegin rd feeds) s tid t h c rd (.mbegin feeds) { x with batch := some feeds }) ∧
  (∀ rd s tid t h c, Spec.HartAt (.mend rd) s tid t h → t.place.ctx = some c →
    let x := getCtx (getCluster s t.place.cluster).mx c
    x.batch ≠ none → Spec.Numbered (.mend rd) s tid t h c rd .mend { x with batch := none, chain := none }) ∧
  (∀ rd rs1 len pos s tid t h c, Spec.HartAt (.mchain rd rs1 len pos) s tid t h → t.place.ctx = some c → h.pd rs1 = false →
    let x := getCtx (getCluster s t.place.cluster).mx c
    let g : Chain := { len := len.toNat + 1, pos := pos.toNat, tag := (h.rd rs1).setWidth 32 }
    x.batch ≠ none → x.chain = none → pos.toNat ≤ t.place.cluster % 10 → t.place.cluster % 10 - pos.toNat + len.toNat ≤ 9 →
    Spec.Numbered (.mchain rd rs1 len pos) s tid t h c rd (.mchain g.len g.pos g.tag) { x with chain := some g }) ∧
  (∀ rd s tid t h c, Spec.HartAt (.mstat rd) s tid t h → t.place.ctx = some c →
    let k := getCluster s t.place.cluster
    let x := getCtx k.mx c
    Spec.Retires (.mstat rd) s tid h (h.pc + 4) fun h => h.wr rd (BitVec.ofNat 64
      ((if x.batch.isSome then 2 ^ 49 else 0) + (if x.formed.isSome && !x.closing then 2 ^ 48 else 0) + 2 ^ 32 * x.retired + 2 ^ 16 * x.corr +
        bitsNat ((upFrom 0 t.place.acc).map fun i => (getSlot k (t.place.accBase + i)).flag))) false) ∧
  (∀ i regs rd rs1 rs2 fd s tid t h, (i, regs) ∈ [(Instr.mldw rd rs1 rs2, [rs1, rs1 + 1, rs2]), (.mmulMap rd rs1 rs2, [rs1, rs1 + 1, rs2]),
      (.mdrain rd rs1 rs2, [rs1, rs1 + 1, rs2]), (.mmulFeed rd fd rs2, [rs2]), (.mmulWest rd rs2, [rs2]), (.mzero rd rs1, [rs1])] →
    Spec.HartAt i s tid t h →
    ((∃ r ∈ regs, h.pd r = true) → exec i s = poisonHart s t h) ∧
    ((∀ r ∈ regs, h.pd r = false) → (∀ r ∈ regs, h.rd r = 0) → t.place.ctx = none →
      exec i s = hartException s t h 2 6 1 0 false))

/-- An operation is the next one of a context of a cluster where no chain is formed, and it is the engine's turn. -/
structure Sys2Proof.Spec.Serves (s : State) (c i : Nat) (o : MOp) (rest : List MOp) : Prop where
  cur : s.cur = .cluster c
  ctx : i < 5
  head : (getCtx (getCluster s c).mx i).ops = o :: rest
  free : ∀ j, (getCtx (getCluster s c).mx j).formed = none

/-- A context whose next operation has been counted: its completion releases what its issue released to it (16 R244, 03 R57). -/
def Sys2Proof.Spec.counted (s : State) (x : Ctx) (o : MOp) (rest : List MOp) : Ctx :=
  { x with ops := rest, steps := 0, latches := 0, stopped := false,
           rel := ((x.rel ++ [(o.num, o.acq)]).map fun e => (e.1, inTransit s.mem e.2)).filter fun e => !e.2.isEmpty }

/-- A row of A that a step reads from an operand map or from feed registers, where every line or feed row that it reads is full; step: how
many steps the operation has taken (16 R241, R242, 17 R269). -/
def Sys2Proof.Spec.rowAtHand (k : Cluster) (wh : Where) (a : AForm) (n r seg step : Nat) (row : List (Nat × Nat × Bool)) : Prop :=
  match a with
  | .map m => runFull k wh m r (segRange m.fmt n seg) = true ∧ row = fetchRun k wh m r (segRange m.fmt n seg)
  | .feed fd fmt =>
    let byte (κ : Nat) : Nat := step * chunkBytes fmt + (κ % segElems fmt) * fmtWidth fmt / 8
    let feed (κ : Nat) : Feed := getFeed k (fd + byte κ / 4096)
    let size := if fmtWidth fmt ≤ 8 then 1 else fmtWidth fmt / 8
    (∀ κ ∈ segRange fmt n seg, spGet false (feed κ).full (byte κ / 64 % 64) = true) ∧
    row = (segRange fmt n seg).map fun κ =>
      (pickCode (fmtWidth fmt) κ (memRead (feed κ).bytes (byte κ % 4096) size), 0, spGet false (feed κ).pois (byte κ / 64 % 64))
  | .west _ => False

/-- The weights that a context has latched are those of a segment of an operation. -/
def Sys2Proof.Spec.holdsWeights (k : Cluster) (i : Nat) (o : MOp) (seg : Nat) (l : Latch) : Prop :=
  k.mx.latch = some l ∧ l.ctx = i ∧ l.num = o.num ∧ l.seg = seg

/-- A chain of two: the head's forwarded operation o, with A from a, is paired with the west form o' of the other member, both have their
arrays, and nothing of the chain is to be retired (17 R275, R276). -/
structure Sys2Proof.Spec.Paired (s : State) (hd m : Nat × Nat) (o o' : MOp) (b b' : Binding) (a : AForm) (rows slot slot' : Nat) : Prop where
  apart : hd.1 ≠ m.1
  ctxs : hd.2 < 4 ∧ m.2 < 4
  formed : ∃ id, formedId s hd.1 (getCtx (getCluster s hd.1).mx hd.2) = some id ∧
    formedId s m.1 (getCtx (getCluster s m.1).mx m.2) = some id ∧ chainMembers s id = [hd, m]
  first : ∃ g, (getCtx (getCluster s hd.1).mx hd.2).formed = some g ∧ g.pos = 0
  head : (getCtx (getCluster s hd.1).mx hd.2).ops.head? = some o ∧ o.kind = .mmul b a rows slot true
  member : (getCtx (getCluster s m.1).mx m.2).ops.head? = some o' ∧ ∃ n f, o'.kind = .mmul b' (.west a.fmt) n slot' f
  shape : b'.k = b.k
  turn : (getCtx (getCluster s m.1).mx m.2).forwarded = (getCtx (getCluster s hd.1).mx hd.2).forwarded
  running : (getCluster s hd.1).mx.running = some hd.2 ∧ (getCluster s m.1).mx.running = some m.2
  settled : settleChain s hd.1 = s ∧ settleChain s m.1 = s

/-- Operations that need no array are counted where the engine serves their context next: MLDW as it is, MZERO with its slots zeroed, MBEGIN
with its feed registers claimed, MEND with its context's feed registers released. The array latches the weights of the next k-segment,
and each step adds the k-block of a row of A, from an operand map or from feed registers, into that row of the slot; in a chain of two the
member of a west form latches its own weights, and one step adds the row that the head reads into the slots of both. A drain writes its next element, and compares its slot before the
first. A stopped operation keeps its slots and its progress. An engine that is disabled or fenced does none of it (16 R241, R244, R246,
R249, R250, R253, 17 R267, R269 to R271, R273 to R276). The engine passes over what cannot go yet by log entry 48, and the k-blocks of a step
enter a row from column 0 upward by log entry 99 (both DESIGN CHOICE). -/
def Obligations.MatrixOperationsRun : Prop :=
  (∀ s c i o rest, Spec.Serves s c i o rest → (getCluster s c).mx.running = none → (getCluster s c).preempt = .none →
    selectCtx s c = some i →
    let k := getCluster s c
    let x := getCtx k.mx i
    ∃ t, exec .matrixStep s = .next t ∧ (engineRuns s c = false → t = s) ∧ (engineRuns s c = true →
      (o.kind = .mldw → getCtx (getCluster t c).mx i = Spec.counted s x o rest) ∧
      (∀ m, o.kind = .mzero m → (getCtx (getCluster t c).mx i).ops = rest ∧
        (x.tid ≠ none → ∀ j, j < 16 →
          getSlot (getCluster t c) (slotIndex s x j) = if m.getLsbD j then Slot.reset else getSlot k (slotIndex s x j)) ∧
        (x.tid = none → ∀ j, j < 2 → getSlot (getCluster t c) (64 + j) = if m.getLsbD (16 + j) then Slot.reset else getSlot k (64 + j))) ∧
      (∀ f, o.kind = .mbegin f → getCtx (getCluster t c).mx i = Spec.counted s x o rest ∧
        ∀ j, j < 4 → getFeed (getCluster t c) j = if f.getLsbD j then ({ Feed.reset with holder := some i } : Feed) else getFeed k j) ∧
      (o.kind = .mend → getCtx (getCluster t c).mx i = Spec.counted s x o rest ∧
        ∀ j, j < 4 → getFeed (getCluster t c) j = if (getFeed k j).holder = some i then Feed.reset else getFeed k j))) ∧
  (∀ s c i o rest b a m slot fwd, Spec.Serves s c i o rest → o.kind = .mmul b a m slot fwd → (∀ f, a ≠ .west f) →
    (getCluster s c).mx.running = some i →
    let k := getCluster s c
    let x := getCtx k.mx i
    let seg := x.steps / Nat.max 1 m
    let r := x.steps % Nat.max 1 m
    let ks := segRange b.bmap.fmt b.k seg
    let wh := whereOf s c x
    (∃ t, exec .weightLatch s = .next t ∧ (engineRuns s c = false → t = s) ∧
      (engineRuns s c = true → latched k i o seg = false → (∀ j, j < b.n → runFull k wh b.bmap j ks = true) →
        (getCluster t c).mx.latch =
          some { ctx := i, num := o.num, seg := seg, cols := (upFrom 0 b.n).map fun j => fetchRun k wh b.bmap j ks } ∧
        (getCluster t c).mx.slots = k.mx.slots ∧ (getCluster t c).scr = k.scr)) ∧
    (∀ l row, Spec.holdsWeights k i o seg l → Spec.rowAtHand k wh a b.k r seg x.steps row →
      ∃ t, exec .matrixStep s = .next t ∧ (engineRuns s c = false → t = s) ∧ (engineRuns s c = true →
        (getSlot (getCluster t c) (slotIndex s x slot) = stepSlot (getSlot k (slotIndex s x slot)) r a.fmt b.bmap.fmt (groupOf a) seg
          row l.cols) ∧
        (∀ j, j ≠ slotIndex s x slot → getSlot (getCluster t c) j = getSlot k j) ∧
        (x.steps + 1 < m * segCount a.fmt b.k → (getCtx (getCluster t c).mx i).steps = x.steps + 1 ∧
          (getCtx (getCluster t c).mx i).ops = o :: rest ∧ (getCluster t c).mx.running = some i) ∧
        (m * segCount a.fmt b.k ≤ x.steps + 1 → (getCtx (getCluster t c).mx i).ops = rest ∧ (getCluster t c).mx.running = none))) ∧
    (k.preempt ≠ .none → ∃ t, exec .quiescentStop s = .next t ∧ (getCluster t c).mx.running = none ∧
      (getCluster t c).mx.slots = k.mx.slots ∧ getCtx (getCluster t c).mx i = { x with stopped := true }) ∧
    (k.preempt = .none → (∀ j, j < 5 → rankOf x i < rankOf (getCtx k.mx j) j → (getCtx k.mx j).ops = []) →
      exec .quiescentStop s = .next s)) ∧
  (∀ s hd m o o' b b' a rows slot slot', Spec.Paired s hd m o o' b b' a rows slot slot' →
    let x := getCtx (getCluster s hd.1).mx hd.2
    let y := getCtx (getCluster s m.1).mx m.2
    let wh := whereOf s m.1 y
    (s.cur = .cluster m.1 → engineRuns s m.1 = true → latched (getCluster s m.1) m.2 o' (y.steps / Nat.max 1 rows) = false →
      let ks := segRange b'.bmap.fmt b'.k (y.steps / Nat.max 1 rows)
      (∀ j, j < b'.n → runFull (getCluster s m.1) wh b'.bmap j ks = true) →
      ∃ t, exec .weightLatch s = .next t ∧ (getCluster t m.1).mx.latch =
        some { ctx := m.2, num := o'.num, seg := y.steps / Nat.max 1 rows,
               cols := (upFrom 0 b'.n).map fun j => fetchRun (getCluster s m.1) wh b'.bmap j ks }) ∧
    (s.cur = .cluster hd.1 → engineRuns s hd.1 = true → ∀ l l' row,
      let seg := x.steps / Nat.max 1 rows
      let r := x.steps % Nat.max 1 rows
      Spec.holdsWeights (getCluster s hd.1) hd.2 o seg l → Spec.holdsWeights (getCluster s m.1) m.2 o' seg l' →
      Spec.rowAtHand (getCluster s hd.1) (whereOf s hd.1 x) a b.k r seg x.steps row →
      ∃ t, exec .matrixStep s = .next t ∧
        getSlot (getCluster t hd.1) (slotIndex s x slot) =
          stepSlot (getSlot (getCluster s hd.1) (slotIndex s x slot)) r a.fmt b.bmap.fmt (groupOf a) seg row l.cols ∧
        getSlot (getCluster t m.1) (slotIndex s y slot') =
          stepSlot (getSlot (getCluster s m.1) (slotIndex s y slot')) r a.fmt b'.bmap.fmt (groupOf a) seg row l'.cols)) ∧
  (∀ s c i o rest d m n slot nan sat integer, Spec.Serves s c i o rest → o.kind = .mdrain d m n slot nan sat integer →
    (getCluster s c).mx.running = some i →
    let e := (getCtx (getCluster s c).mx i).steps
    let s' := if e = 0 then compareAtDrain s c i slot integer else s
    let k := getCluster s' c
    let x := getCtx k.mx i
    let p := drainAt d (e / n) (e % n)
    let at' := (whereOf s' c x).base + d.addr p.1 p.2
    let v := ((getSlot k (slotIndex s' x slot)).at (e / n) (e % n)).val
    ∃ t, exec .drainWrite s = .next t ∧ (engineRuns s c = false → t = s) ∧ (engineRuns s c = true →
      (getCluster t c).scr = memWrite k.scr at' (drainBytes k at' d.fmt p.2 (drainCode d.fmt nan sat integer v)) ∧
      (getCluster t c).mx.slots = k.mx.slots ∧
      (e + 1 < m * n → (getCtx (getCluster t c).mx i).steps = e + 1) ∧
      (m * n ≤ e + 1 → (getCtx (getCluster t c).mx i).ops = rest ∧ (getCluster t c).mx.running = none)))

/-! ### Copies (18) -/

/-- A copy of a channel that may go on now; team t is the one whose space it uses: its issuer, or a hop's receiver (18 R285, R287, R289). -/
structure Sys2Proof.Spec.Moves (s : State) (c ch num : Nat) (x : Copy) (t : Team) : Prop where
  found : findCopy s c ch num = some x
  going : x.finished = false ∧ x.halted = false ∧ channelsRun s c = true
  more : x.prog < x.tmpl.bytes ∧ x.prog ∉ x.ahead
  team : copyTeam s x = some t
  home : t.place.cluster = c

/-- A byte of a copy, by its place in shape order, that is still to be written. -/
def Sys2Proof.Spec.toWrite (x : Copy) (i : Nat) : Prop := x.prog ≤ i ∧ i < x.tmpl.bytes ∧ x.landed i = false

/-- A copy reads its bytes from global memory, here. -/
def Sys2Proof.Spec.readsMemory (x : Copy) : Prop := x.hop = 0 ∧ x.tmpl.dec = false ∧ x.tmpl.srcScratch = false

/-- The address that a copy without a decoder reads byte i from: byte i % ESZ of element i / ESZ (18 R283). -/
def Sys2Proof.Spec.sourceAt (x : Copy) (i : Nat) : Nat := (x.tmpl.sa x.disp (i / x.tmpl.esz)).toNat + i % x.tmpl.esz

/-- Byte i of a copy's source, with its poison, and the decoder's next position: of a hop's tile as the last hop wrote it, the next decoded
value, of scratchpad, or of memory, which gives any byte where it is another module's and a port is up (18 R285 to R287). -/
def Sys2Proof.Spec.Gives (s : State) (x : Copy) (t : Team) (i : Nat) (b : Byte × Bool) (pos : Nat) : Prop :=
  let a := Spec.sourceAt x i
  (x.hop ≠ 0 ∧ x.tmpl.dec = false ∧ b = nthD (0, false) x.carried i ∧ pos = 0) ∨
  (x.hop = 0 ∧ x.tmpl.dec = true ∧ ∃ y v p, (∀ rm, loadTable s rm t x = .ok y) ∧
     (∀ rm, decodeByte s rm t y.table (x.tmpl.sbase x.disp).toNat x.bitpos 15 x.bitpos 0 false = .ok (v, p, pos)) ∧ b = (v, p || y.tablePoison)) ∨
  (x.hop = 0 ∧ x.tmpl.dec = false ∧ x.tmpl.srcScratch = true ∧ pos = 0 ∧
     b = (memGet (getCluster s t.place.cluster).scr (t.place.scrBase + a), scrPoisonAt (getCluster s t.place.cluster) (t.place.scrBase + a))) ∨
  (Spec.readsMemory x ∧ pos = 0 ∧ checkAccess s t.fn t.secure (a : Int) 1 false [.read] = none ∧ missingOf s t.fn [a] = none ∧
     (isRemote s t.fn a = true → linked s = true) ∧
     (isRemote s t.fn a = false → b = (memGet (viewOf s.mem t.die).mem (gkey t.fn a), poisonAt s t.die (gkey t.fn a))))

/-- The destination of byte i of a copy takes it: scratchpad and feed registers always do, memory where it may be written; another module's
memory takes only clean bytes, and only through a port that is up (18 R285, R288, 26 R377). -/
def Sys2Proof.Spec.CopyTakes (s : State) (x : Copy) (t : Team) (i : Nat) (poison : Bool) : Prop :=
  let a := x.tmpl.byteAt x.disp i
  x.tmpl.dstScratch = true ∨ x.tmpl.dstFeed = true ∨
    checkAccess s t.fn t.secure (a : Int) 1 false [.write] = none ∧ (isRemote s t.fn a = true → poison = false ∧ linked s = true)

/-- A step of a copy reads one byte that is still to be written and not yet read, and changes nothing else; a decoder yields its values in
order (18 R285, R286). -/
def Sys2Proof.Spec.reads (s : State) (c ch num : Nat) (x : Copy) (t : Team) : Prop :=
  ∃ s' y i b pos, exec (.copyStep c ch num) s = .next s' ∧ Spec.toWrite x i ∧ x.got i = none ∧ Spec.Gives s x t (x.source i) b pos ∧
    Safety.SameMemory s s' ∧ (getCluster s' c).scr = (getCluster s c).scr ∧ findCopy s' c ch num = some y ∧ y.prog = x.prog ∧
    y.ahead = x.ahead ∧ y.finished = false ∧ y.bitpos = pos ∧
    y.fetched = x.fetched ++ [{ idx := x.source i, byte := b.1, poison := b.2, start := x.bitpos }]

/-- What the writing of one byte of a copy leaves (18 R283, R285, R287): the byte stands at its destination, in the receiving team's
allocation (and its partner's), in its feed registers, or in memory; no other byte of the cluster's scratchpad changed, and no memory did but
at a destination in memory; of its bytes this one more is written, and with the last one the copy is finished. -/
def Sys2Proof.Spec.Lands (s s' : State) (c ch num : Nat) (x : Copy) (t : Team) (f : Fetched) : Prop :=
  let a := x.tmpl.byteAt x.disp f.idx
  (x.tmpl.dstScratch = true → ∀ d, getTeam s x.dstTid = some d →
    (∀ base ∈ copyBases s d, memGet (getCluster s' c).scr (base + a) = f.byte ∧
      (f.poison = true → ∀ q ∈ copyBases s d, q % 64 = 0 → scrPoisonAt (getCluster s' c) (q + a) = true)) ∧
    ∀ q, (∀ base ∈ copyBases s d, q ≠ base + a) → memGet (getCluster s' c).scr q = memGet (getCluster s c).scr q) ∧
  (x.tmpl.dstScratch = false → (getCluster s' c).scr = (getCluster s c).scr) ∧
  (x.tmpl.dstScratch = false → x.tmpl.dstFeed = true → memGet (getFeed (getCluster s' c) (a / 4096)).bytes (a % 4096) = f.byte) ∧
  (x.hop = 0 → x.tmpl.dstScratch = true ∨ x.tmpl.dstFeed = true ∨ isRemote s t.fn a = true → Safety.SameMemory s s') ∧
  (x.hop = 0 → x.tmpl.dstScratch = false → x.tmpl.dstFeed = false → isRemote s t.fn a = false → t.die < s.mem.views.length →
    memGet (viewOf s'.mem t.die).mem (gkey t.fn a) = f.byte) ∧
  ((∃ i, Spec.toWrite x i ∧ i ≠ f.idx) → ∃ y, findCopy s' c ch num = some y ∧ y.finished = false ∧
    ∀ i, y.landed i = (x.landed i || decide (i = f.idx))) ∧
  ((∀ i, Spec.toWrite x i → i = f.idx) → ∀ y, findCopy s' c ch num = some y → y.finished = true)

/-- A step of a copy writes one byte that it has read, no earlier one for the same place being still to be written; the loads that are held at a
line which it fills then read (18 R285, 10 R179). -/
def Sys2Proof.Spec.writes (s : State) (c ch num : Nat) (x : Copy) (t : Team) : Prop :=
  ∃ s' f, exec (.copyStep c ch num) s = .next (serveFills c s s') ∧ f ∈ x.fetched ∧ Spec.toWrite x f.idx ∧
    (∀ i, Spec.toWrite x i → i < f.idx → x.tmpl.byteAt x.disp i ≠ x.tmpl.byteAt x.disp f.idx) ∧ Spec.Lands s s' c ch num x t f

/-- A store to the copy aperture numbers a copy on its channel, or is refused as R284 says. COPY_STEP reads or writes
one byte, at the place that the template gives, and no other: every direction, a decoder's values, and a hop's tile; which byte it is of
those still to be written is free, but a byte is written only once it and all before it are read. A copy that is halted, finished or on a
fenced cluster does not move; unmapped pages that cannot be mapped on demand halt it and hold its team. MULTICAST_HOP numbers the next hop
on the cluster of its team, waits for a team that is still to come, and passes by one that has ended (18 R279, R280, R283 to R288, 03 R57,
R59). -/
def Obligations.CopiesRun : Prop :=
  (∀ rs1 rs2 imm s tid t h ch, Spec.HartAt (.hartStore .d rs1 rs2 imm) s tid t h → h.pd rs1 = false → h.pd rs2 = false →
    ch < 16 → (h.rd rs1 + imm.signExtend 64).toNat = apertureBase + 8 * ch → missingTemplate s t (storeIndex (h.rd rs2)) = none →
    (∀ f, copyCheck s t (h.rd rs2) = some f →
      exec (.hartStore .d rs1 rs2 imm) s = hartException s t h 2 (infoOf f.info) f.cause f.reason false) ∧
    (copyCheck s t (h.rd rs2) = none → t.partner = none → h.stores = [] →
      channelRoom s t.place.cluster ch 1 = true →
      ∃ s' x, exec (.hartStore .d rs1 rs2 imm) s = .next s' ∧ Safety.SameMemory s s' ∧
        (getChan s' t.place.cluster ch).issued = (getChan s t.place.cluster ch).issued + 1 ∧
        (getChan s' t.place.cluster ch).copies = (getChan s t.place.cluster ch).copies ++ [x] ∧
        x.num = (getChan s t.place.cluster ch).issued + 1 ∧ x.prog = 0 ∧ x.ahead = [] ∧ x.fetched = [] ∧ x.hop = 0 ∧ x.finished = false ∧ x.tid = tid ∧
        x.disp = storeDisp (h.rd rs2) ∧ x.acq = inTransit s.mem (t.done [hartWho]) ∧
        (∃ o, getObj s t.obj = some o ∧ o.templates[storeIndex (h.rd rs2)]? = some x.tmpl) ∧
        (getCluster s' t.place.cluster).scr = (getCluster s t.place.cluster).scr ∧
        Spec.retiredHart s' tid h (h.pc + 4) fun h => { h with granted := false })) ∧
  (∀ s c ch num x t, Spec.Moves s c ch num x t →
    (∀ i, Spec.toWrite x i → x.got i = none → ∃ b pos, Spec.Gives s x t (x.source i) b pos) →
    (∀ i f, Spec.toWrite x i → x.got i = some f → Spec.CopyTakes s x t i f.poison) →
    (Spec.reads s c ch num x t ∨ Spec.writes s c ch num x t) ∧
    ((∀ i, Spec.toWrite x i → x.got i = none) → Spec.reads s c ch num x t) ∧
    ((∀ i, Spec.toWrite x i → (x.got i).isSome = true) → Spec.writes s c ch num x t)) ∧
  (∀ s c ch num x t, Spec.Moves s c ch num x t → Spec.readsMemory x → x.fetched = [] →
    (∀ i, Spec.toWrite x i → checkAccess s t.fn t.secure (Spec.sourceAt x i : Int) 1 false [.read] = some 3) →
    mapOnDemand s t.fn (Spec.sourceAt x x.prog) = none →
    ∃ s' y tm, exec (.copyStep c ch num) s = .next s' ∧ Safety.SameMemory s s' ∧ findCopy s' c ch num = some y ∧ y.halted = true ∧
      y.prog = x.prog ∧ y.ahead = x.ahead ∧ getTeam s' t.tid = some tm ∧
      tm.held = some (t.held.getD (.copyFault c ch num (Spec.sourceAt x x.prog)))) ∧
  (∀ s c ch num x, findCopy s c ch num = some x → (x.finished = true ∨ x.halted = true ∨ (getCluster s c).fenced = true) →
    exec (.copyStep c ch num) s = .next s) ∧
  (∀ s c ch num ch' x fn lid n, (getCluster s c).hops.find? (fun e => decide (e.1 = ch) && decide (e.2.num = num)) = some (ch', x) →
    x.launch = some (fn, lid, n) →
    let team := n + (x.hop + 1) * x.tmpl.mcs
    let rest := (getCluster s c).hops.eraseP fun e => decide (e.1 = ch) && decide (e.2.num = num)
    (∀ d, launchTeam s fn lid team = some d → channelRoom s d.place.cluster ch 1 = true → channelsRun s d.place.cluster = true →
      ∃ s' y, exec (.multicastHop c ch num) s = .next s' ∧ Safety.SameMemory s s' ∧
        (getChan s' d.place.cluster ch).issued = (getChan s d.place.cluster ch).issued + 1 ∧
        (getChan s' d.place.cluster ch).copies = (getChan s d.place.cluster ch).copies ++ [y] ∧
        y.num = (getChan s d.place.cluster ch).issued + 1 ∧ y.hop = x.hop + 1 ∧ y.dstTid = d.tid ∧ y.prog = 0 ∧ y.ahead = [] ∧ y.fetched = [] ∧
        y.carried = x.carried ∧ (getCluster s' c).hops = rest) ∧
    (launchTeam s fn lid team = none → teamToCome s fn lid team = true → exec (.multicastHop c ch num) s = .next s) ∧
    (launchTeam s fn lid team = none → teamToCome s fn lid team = false →
      ∃ s', exec (.multicastHop c ch num) s = .next s' ∧ Safety.SameMemory s s' ∧
        (getCluster s' c).hops = rest ++ (if x.hop + 1 < x.tmpl.mcn then [(ch, { x with hop := x.hop + 1 })] else [])))

/-! ### Tasks and teams (02, 19, 25) -/

/-- A task instruction reads its structure, once the team's earlier accesses have been performed (19 R301, R304). -/
structure Sys2Proof.Spec.TaskAt (i : Instr) (s : State) (tid : Nat) (t : Team) (h : Hart) (rs1 : BitVec 5) (n : Nat) : Prop where
  runs : Spec.HartAt i s tid t h
  allowed : Spec.Allowed s t h rs1 (h.rd rs1) n .read
  drained : teamPerformed s t = true
  here : isRemote s t.fn (h.rd rs1).toNat = false

/-- What the task engine reads of other modules at its next look: any values, of requests that are not lost (19 R301). -/
def Sys2Proof.Spec.look (s : State) : Look := { (lookNow s).1 with lost := false }

/-- A task instruction answers a status in rd and retires (19 R301). -/
def Sys2Proof.Spec.answers (t : State) (tid : Nat) (h : Hart) (rd : BitVec 5) (v : Nat) : Prop :=
  Spec.retiredHart t tid h (h.pc + 4) fun h => { h.wr rd (BitVec.ofNat 64 v) false with granted := false }

/-- A task joins the engine: it takes the sequence number, is ready where its counter is 0, and carries at least the writes given (19 R294,
R304). -/
def Sys2Proof.Spec.joins (s s' : State) (k : Task) (ids : List Nat) : Prop :=
  ∃ acq, (∀ i ∈ ids, i ∈ acq) ∧
    s'.tasks.tasks = s.tasks.tasks ++ [{ k with seq := s.tasks.seq, state := if k.dep = 0 then 2 else 1, acq := acq }]

/-- TENQ, TSIG and TCARD answer a status wherever their structure may be read. A TCB that cannot be read answers 2; one that may be enqueued
is: it takes the sequence number and is ready where its counter is 0; in a task that has not committed the enqueue is deferred and answers 1.
TSIG answers the counter before its decrement, and the task whose counter it brings to 0 is ready. TCARD hands a card to the Shuttle, or
answers why not. A structure in another module is asked for: with the module's answer the instruction goes on, and where the request is
lost the structure counts as poisoned (19 R293, R294, R297, R298, R301, R302, 26 R377). -/
def Obligations.TaskInstructions : Prop :=
  (∀ rd rs1 s tid t h, Spec.TaskAt (.tenq rd rs1) s tid t h rs1 128 →
    let a := (h.rd rs1).toNat
    (∃ s' v, exec (.tenq rd rs1) s = .next s' ∧ Spec.answers s' tid h rd v) ∧
    (readTcb s (Spec.look s) t.die t.fn t.secure a = none →
      ∃ s', exec (.tenq rd rs1) s = .next s' ∧ s'.tasks = s.tasks ∧ Safety.SameMemory s s' ∧ Spec.answers s' tid h rd 2) ∧
    (∀ k b, readTcb s (Spec.look s) t.die t.fn t.secure a = some (k, b) →
      (∀ st, enqStatus s k b (decide (t.cls = 3)) = st → st = 2 ∨ st = 3 ∨ (st = 4 ∧ defers t = false) →
        ∃ s', exec (.tenq rd rs1) s = .next s' ∧ s'.tasks = s.tasks ∧ Safety.SameMemory s s' ∧ Spec.answers s' tid h rd st) ∧
      (enqStatus s k b (decide (t.cls = 3)) = 0 → defers t = false →
        ∃ s', exec (.tenq rd rs1) s = .next s' ∧ s'.tasks.seq = s.tasks.seq + 1 ∧ Spec.answers s' tid h rd 0 ∧
          Spec.joins s s' k (inTransit s.mem t.doneAll)) ∧
      (enqStatus s k b (decide (t.cls = 3)) = 0 ∨ enqStatus s k b (decide (t.cls = 3)) = 4 → defers t = true →
        ∃ s' tm, exec (.tenq rd rs1) s = .next s' ∧ s'.tasks = s.tasks ∧ getTeam s' tid = some tm ∧
          tm.deferred = t.deferred ++ [.tenq a] ∧ Spec.answers s' tid h rd 1))) ∧
  (∀ rd rs1 s tid t h, Spec.TaskAt (.tsig rd rs1) s tid t h rs1 128 →
    let a := (h.rd rs1).toNat
    (∃ s' v, exec (.tsig rd rs1) s = .next s' ∧ Spec.answers s' tid h rd v) ∧
    (poisonAt s t.die (gkey t.fn (a + 0x18)) = true →
      ∃ s', exec (.tsig rd rs1) s = .next s' ∧ s'.tasks = s.tasks ∧ Spec.answers s' tid h rd (2 ^ 64 - 1)) ∧
    (poisonAt s t.die (gkey t.fn (a + 0x18)) = false → defers t = false →
      (∀ k, getTask s t.fn a = some k → k.dep ≠ 0 →
        ∃ s' k', exec (.tsig rd rs1) s = .next s' ∧ getTask s' t.fn a = some k' ∧ k'.dep = k.dep - 1 ∧
          k'.state = (if k.dep = 1 ∧ k.state = 1 then 2 else k.state) ∧ Spec.answers s' tid h rd k.dep.toNat) ∧
      (∀ k, getTask s t.fn a = some k → k.dep = 0 →
        ∃ s', exec (.tsig rd rs1) s = .next s' ∧ s'.tasks = s.tasks ∧ Safety.SameMemory s s' ∧ Spec.answers s' tid h rd 0) ∧
      (getTask s t.fn a = none → t.die < s.mem.views.length →
        let d := depInMemory s (Spec.look s) t.die t.fn a
        ∃ s', exec (.tsig rd rs1) s = .next s' ∧ s'.tasks = s.tasks ∧ Spec.answers s' tid h rd d ∧
          (d ≠ 0 → (findPage s.xlat t.fn (a + 0x18)).isSome = true →
            readNat s' t.die (gkey t.fn (a + 0x18)) 4 = d - 1)))) ∧
  (∀ rd rs1 s tid t h, Spec.TaskAt (.tcard rd rs1) s tid t h rs1 64 →
    (∃ s' v, exec (.tcard rd rs1) s = .next s' ∧ Spec.answers s' tid h rd v) ∧
    (readCard s (Spec.look s) t t.die (h.rd rs1).toNat = none →
      ∃ s', exec (.tcard rd rs1) s = .next s' ∧ s'.tasks = s.tasks ∧ Spec.answers s' tid h rd 2) ∧
    ∀ c b, readCard s (Spec.look s) t t.die (h.rd rs1).toNat = some (c, b) →
    let r := checkCard s (Spec.look s) t t.die c b
    (r.1 = 2 ∨ r.1 = 3 ∨ (r.1 = 4 ∧ defers t = false) →
      ∃ s', exec (.tcard rd rs1) s = .next s' ∧ s'.tasks = s.tasks ∧ Spec.answers s' tid h rd r.1) ∧
    (r.1 = 0 → defers t = false → ∃ s' i, exec (.tcard rd rs1) s = .next s' ∧ Spec.answers s' tid h rd 0 ∧
      s'.tasks.cards = s.tasks.cards ++ [{ r.2 with id := i, acq := inTransit s.mem t.doneAll }]) ∧
    (r.1 = 0 ∨ r.1 = 4 → defers t = true →
      ∃ s' tm, exec (.tcard rd rs1) s = .next s' ∧ s'.tasks = s.tasks ∧ getTeam s' tid = some tm ∧
        tm.deferred = t.deferred ++ [.tcard (h.rd rs1).toNat] ∧ Spec.answers s' tid h rd 1)) ∧
  (∀ i rd rs1 n refused, (i, n, refused) ∈ [(Instr.tenq rd rs1, 128, 2), (.tsig rd rs1, 128, 2 ^ 64 - 1), (.tcard rd rs1, 64, 2)] →
    ∀ s tid t h, s.cur = .hart tid → getTeam s tid = some t → t.hart = some h → t.inM = false →
      Spec.Allowed s t h rs1 (h.rd rs1) n .read → teamPerformed s t = true → isRemote s t.fn (h.rd rs1).toNat = true →
      let asked (lost : Bool) : HWait := .retry (Why.remote (h.rd rs1).toNat lost).code
      (Spec.HartAt i s tid t h →
        ∃ s', exec i s = .next s' ∧ s'.tasks = s.tasks ∧ Safety.hartIn s' tid = some (Spec.waiting (asked false) h)) ∧
      (h.wait = asked false → linked s = true → ∃ s' v, exec i s = .next s' ∧ Spec.answers s' tid h rd v) ∧
      (h.wait = asked true → ∃ s', exec i s = .next s' ∧ s'.tasks = s.tasks ∧ Spec.answers s' tid h rd refused))

/-- A new team (02 R19, 03 R40, R44, 07 R119, R124, 15 R219): its wefts under the canonical mapping at the entry clause, every mask bit
clear and em set, its k registers and its hart's registers from the arguments, its scratchpad zero, full and not poisoned. -/
def Sys2Proof.Spec.NewTeam (s : State) (r : Req) (c : Nat) (t : Team) : Prop :=
  let wd := widthOf (objPoint r.obj)
  (∀ i, i < 32 → nthD 0 t.uni.k i = if i < 8 then nthD 0 r.args i else 0) ∧
  (∀ w ∈ t.wefts, w.pos = Pos.atClause r.vent ∧ w.trap.xv = false ∧ w.wait = .none ∧ ∀ x ∈ w.strands,
    x.sid = wd * w.wid + x.lane ∧ x.lane < wd ∧ x.sid < r.nstr ∧ x.em = true ∧ x.m = 0 ∧ x.regs = []) ∧
  (∀ sid, sid < r.nstr → ∃ w ∈ t.wefts, ∃ x ∈ w.strands, x.sid = sid) ∧
  (∀ h, t.hart = some h → h.pc = (centryOf r.obj r.cent).setWidth 64 ∧ h.pois = 0 ∧ h.rd 5 = BitVec.ofNat 64 r.ref.number ∧
    h.rd 6 = BitVec.ofNat 64 r.nstr ∧ h.rd 7 = BitVec.ofNat 64 r.scrsize ∧ h.rd 1 = 0 ∧
    ∀ i : Nat, i < 8 → h.rd (BitVec.ofNat 5 (10 + i)) = (nthD 0 r.args i).setWidth 64) ∧
  (∀ o, o < r.scrsize → memGet (getCluster s c).scr (t.place.scrBase + o) = 0) ∧
  (r.scrsize % 128 = 0 → t.place.scrBase % 128 = 0 → ∀ o, o < r.scrsize →
    spGet false (getCluster s c).empty ((t.place.scrBase + o) / 128) = false ∧ scrPoisonAt (getCluster s c) (t.place.scrBase + o) = false)

/-- TASK_MIGRATION moves a ready task to another die with room; CARD_DELIVERY takes a card away and enqueues its task where its tiles can be
read and the task may be enqueued; PAIR_COMPARE lets both members go on where their first accesses agree, and else logs code 6 and ends the pair as poisoned at the
access;
TEAM_DISPATCH takes what its die serves next: it seats it, pre-empts a cluster for it, or does nothing; a team that is seated starts as its
rules say (02 R19, R31, R32, R35, 19 R294, R303, 25 R362). -/
def Obligations.TasksAndTeamsStart : Prop :=
  (∀ fn tcb die s k, getTask s fn tcb = some k →
    (k.state = 2 → k.die ≠ die.toNat → engineLoad s die.toNat < 65536 →
      ∃ t, exec (.taskMigration fn tcb die) s = .next t ∧ Safety.SameMemory s t ∧ t.teams = s.teams ∧
        getTask t fn tcb = some { k with die := die.toNat }) ∧
    (k.state ≠ 2 ∨ k.die = die.toNat ∨ 65536 ≤ engineLoad s die.toNat → exec (.taskMigration fn tcb die) s = .next s)) ∧
  (∀ card s c, s.tasks.cards.find? (fun c => c.id = card) = some c →
    let m := bring s c.die c.acq
    let l := (lookNow s).1
    ∃ t, exec (.cardDelivery card) s = .next t ∧ t.tasks.cards = s.tasks.cards.filter (fun x => x.id ≠ card) ∧
      (c.remote = true ∨ c.tiles.any (tileFault s c) = true → t.tasks.tasks = s.tasks.tasks ∧ Safety.SameMemory s t) ∧
      (c.remote = false → c.tiles.any (tileFault s c) = false →
        (∀ k b, readTcb m l c.die c.fn c.secure c.tcb = some (k, b) → enqStatus s k b (decide (c.cls = 3)) = 0 →
          Spec.joins s t k (inTransit m.mem c.acq)) ∧
        (∀ k b, readTcb m l c.die c.fn c.secure c.tcb = some (k, b) → enqStatus s k b (decide (c.cls = 3)) ≠ 0 →
          t.tasks.tasks = s.tasks.tasks) ∧
        (readTcb m l c.die c.fn c.secure c.tcb = none → t.tasks.tasks = s.tasks.tasks))) ∧
  (∀ tid s t p u a b l m, getTeam s tid = some t → t.partner = some p → p ≠ tid → getTeam s p = some u → t.visible = a :: l →
    u.visible = b :: m →
    (a.kind = b.kind → a.data = b.data →
      ∃ s' t' u', exec (.pairCompare tid) s = .next s' ∧ getTeam s' tid = some t' ∧ getTeam s' p = some u' ∧ t'.visible = l ∧
        u'.visible = m ∧ Safety.SameMemory s s' ∧
        (a.who = 4096 → ∀ h, t.hart = some h → ∃ h', t'.hart = some h' ∧ h'.granted = true ∧ h'.wait = .none) ∧
        (a.who ≠ 4096 → ∀ w, t.weft? a.who = some w → ∃ w', t'.weft? a.who = some w' ∧ w'.granted = true ∧ w'.wait = .none) ∧
        (b.who = 4096 → ∀ h, u.hart = some h → ∃ h', u'.hart = some h' ∧ h'.granted = true ∧ h'.wait = .none) ∧
        (b.who ≠ 4096 → ∀ w, u.weft? b.who = some w → ∃ w', u'.weft? b.who = some w' ∧ w'.granted = true ∧ w'.wait = .none)) ∧
    (¬ (a.kind = b.kind ∧ a.data = b.data) →
      let checked (core : Nat) : State :=
        machineCheck s 6 (some t) { kind := 0x20, cluster := t.place.cluster, core := t.place.core + core, addr := a.addr }
      (a.who = 4096 → ∀ h, t.hart = some h → exec (.pairCompare tid) s = .next (poisonedEnd (checked 0) tid h.pc.toNat 0 0)) ∧
      (a.who ≠ 4096 → ∀ w, t.weft? a.who = some w →
        exec (.pairCompare tid) s =
          .next (poisonedEnd (checked (coreIndex s t w)) tid w.pos.xpc w.emBits (coreIndex s t w))))) ∧
  (∀ s d, s.cur = .die d →
    (∀ cls seq s', pick s d [3, 2, 1, 0] = .seated cls seq s' →
      ∃ t, exec .teamDispatch s = .next t ∧ t.teams = s'.teams ∧ t.clusters = s'.clusters ∧ t.mem = s'.mem) ∧
    (∀ c, pick s d [3, 2, 1, 0] = .evict c → c < 160 →
      ∃ t, exec .teamDispatch s = .next t ∧ Safety.SameMemory s t ∧ t.teams = s.teams ∧ (getCluster t c).preempt ≠ .none) ∧
    (∀ i, pick s d [3, 2, 1, 0] = .image i → exec .teamDispatch s = .next s) ∧
    (pick s d [3, 2, 1, 0] = .nothing → exec .teamDispatch s = .next s)) ∧
  (∀ s r c core, (∀ t ∈ s.teams, t.tid ≠ s.nextId) →
    ∃ t, getTeam (seatOne s r c core none).2 s.nextId = some t ∧ t.ref = r.ref ∧ t.fn = r.fn ∧ t.secure = r.secure ∧ t.nstr = r.nstr ∧
      t.place.cluster = c ∧ t.place.core = core ∧ Spec.NewTeam (seatOne s r c core none).2 r c t)

/-! ### Commands (23) -/

/-- What a command finds: its queue's command processor takes its frame, the queue may give it, and every byte of its body that it does not
name is zero (23 R330, R331, R333, R336). c is what it acts on: the state after its frame was taken, its queue, its queue's function and
world, its entry. -/
structure Sys2Proof.Spec.Takes (opc : Nat) (admin own : Bool) (named : List (Nat × Nat)) (f : Frame) (s : State) (c : Cmd) : Prop where
  cur : ∃ n, s.cur = .command c.q n
  opc : f.opc.toNat = opc
  gives : (if c.q = 0 then admin else own) = true
  zero : reservedZero f named = true
  cmd : c = { s := (takeFrame s c.q f).2, q := c.q, fn := (fnOfQueue s c.q).getD 0, secure := secureQueue s c.q, p := (takeFrame s c.q f).1,
              f := f }

/-- A command completes with a status and does nothing else. -/
def Sys2Proof.Spec.refused (r : Result) (c : Cmd) (st : Nat) : Prop := r = .next (finish c.s c.q c.p st 0)

/-- A command completes with status 0 and a result, and leaves a state of which P holds. -/
def Sys2Proof.Spec.acts (r : Result) (c : Cmd) (res : Nat) (P : State → Prop) : Prop := ∃ t, r = .next (finish t c.q c.p 0 res) ∧ P t

/-- Bytes of a function's range read zero on every die, and every other byte reads as before. -/
def Sys2Proof.Spec.zeroed (s t : State) (fn va n : Nat) : Prop :=
  ∀ d, d < 4 → ∀ a, readBytes t d a 1 = if gkey fn va ≤ a ∧ a < gkey fn va + n then [0] else readBytes s d a 1

/-- The fields of MAP that make it malformed (23 R337). -/
def Sys2Proof.Spec.mapMalformed (c : Cmd) (f : Frame) : Prop :=
  let psz := nthD 0x1000 pageSizes (fld f 0x18 1)
  12 ≤ fld f 0x18 1 ∨ 8 ≤ fld f 0x19 1 ∨ 8 ≤ fld f 0x1C 1 ∨ hintOk (fld f 0x1A 1) (fld f 0x1B 1) = false ∨
    badRange (fld f 8 8) (fld f 0x10 8) psz = true ∨ meetsAperture (fld f 8 8) (fld f 0x10 8) = true ∨
    meetsMapping c.s c.fn (fld f 8 8) (fld f 0x10 8) = true

/-- The pages that MAP adds: one after another over the range, with its size, rights, world and remote place (23 R337). -/
def Sys2Proof.Spec.newPages (c : Cmd) (f : Frame) (l : List Page) : Prop :=
  let psz := nthD 0x1000 pageSizes (fld f 0x18 1)
  l.length = fld f 0x10 8 / psz ∧ ∀ i p, l[i]? = some p →
    p.fn = c.fn ∧ p.va = fld f 8 8 + psz * i ∧ p.size = psz ∧ p.secure = c.secure ∧ p.obj = none ∧ p.migrating = none ∧
    p.r = (fld f 0x19 1).testBit 0 ∧ p.w = (fld f 0x19 1).testBit 1 ∧ p.x = (fld f 0x19 1).testBit 2 ∧
    (striped psz = true → p.home.sram = false) ∧
    p.remote = if (fld f 0x1C 1).testBit 1 then some (fld f 0x24 4, fld f 0x20 4, fld f 0x28 8 + psz * i) else none

/-- Pages that differ from others only in where they live and whether they are under way (03 R47). -/
def Sys2Proof.Spec.samePages (l m : List Page) : Prop :=
  let place (p : Page) : Page := { p with home := { die := 0, sram := false }, migrating := none }
  l.map place = m.map place

/-- MAP maps zero-filled pages, or declares a range on demand, or maps pages of another module; PORT.BIND binds a port; PLACE keeps a hint;
each is refused as its rule says (23 R336, R337; 05 R92; a range declared on demand counts as a mapping: log entry 17, DEDUCED). New pages go where the
quotas have room, to make which other pages of the function may move. UNMAP removes every
page and declared part of its range, with their translations and bytes; PROTECT changes the rights of whole pages; where one waits for
accesses through the old translation, its frame is not yet taken (03 R48, 23 R337; log entry 59, DEDUCED). The placement engine moves a page from a migration to
one indivisible switch of its home, which the receiving memory's quota must hold; one of a die's walkers at work fills the TLBs (03 R47, R48). -/
def Obligations.MappingCommands : Prop :=
  (
    (∀ f s c, Spec.Takes 0x10 false true [(8, 21), (0x20, 16)] f s c →
      let r := exec (.map f) s
      let mf := fld f 0x1C 1
      let n := fld f 0x10 8
      let psz := nthD 0x1000 pageSizes (fld f 0x18 1)
      (mf.testBit 2 = true ∧ c.secure = false → Spec.refused r c 13) ∧
      ((mf.testBit 2 = true → c.secure = true) →
        (Spec.mapMalformed c f → Spec.refused r c 1) ∧
        (¬ Spec.mapMalformed c f →
          (mf.testBit 0 = true → mf.testBit 1 = false → Spec.acts r c 0 fun t =>
            { t with xlat := c.s.xlat } = c.s ∧ t.xlat = { c.s.xlat with onDemand := c.s.xlat.onDemand ++
              [{ fn := c.fn, va := fld f 8 8, size := n, psz := psz, r := (fld f 0x19 1).testBit 0, w := (fld f 0x19 1).testBit 1,
                 x := (fld f 0x19 1).testBit 2, secure := c.secure, hint := fld f 0x1A 1, hintDie := fld f 0x1B 1 }] }) ∧
          (mf.testBit 0 = false → mf.testBit 1 = false → quotaAllows c.s c.fn n (if striped psz then n else 0) = false → Spec.refused r c 3) ∧
          (mf.testBit 1 = true ∨ (mf.testBit 0 = false ∧ quotaAllows c.s c.fn n (if striped psz then n else 0) = true) →
            Spec.acts r c 0 fun t => { t with xlat := c.s.xlat, mem := c.s.mem } = c.s ∧ (c.s.mem.views.length = 4 → Spec.zeroed c.s t c.fn (fld f 8 8) n) ∧
              ∃ old l, Spec.newPages c f l ∧ t.xlat = { c.s.xlat with pages := old ++ l } ∧ Spec.samePages old c.s.xlat.pages ∧
                (memoryRoom c.s c.fn n true = true → memoryRoom c.s c.fn n false = true → old = c.s.xlat.pages))))) ∧
    (∀ f s c, Spec.Takes 0x14 false true [(8, 21)] f s c →
      let r := exec (.portBind f) s
      let bad := 8 ≤ fld f 0x1C 1 ∨ 2 ^ 56 < fld f 8 8 + fld f 0x10 8
      let bound := ∃ p ∈ c.s.xlat.ports, p.port = fld f 0x18 4
      (bad → Spec.refused r c 1) ∧ (¬ bad → bound → Spec.refused r c 4) ∧
      (¬ bad → ¬ bound → Spec.acts r c 0 fun t => { t with xlat := c.s.xlat } = c.s ∧ t.xlat = { c.s.xlat with ports := c.s.xlat.ports ++
        [{ fn := c.fn, port := fld f 0x18 4, va := fld f 8 8, size := fld f 0x10 8, rights := BitVec.ofNat 3 (fld f 0x1C 1) }] })) ∧
    (∀ f s c, Spec.Takes 0x13 false true [(8, 18)] f s c →
      let r := exec (.place f) s
      let bad := hintOk (fld f 0x18 1) (fld f 0x19 1) = false ∨ badRange (fld f 8 8) (fld f 0x10 8) 4096 = true
      (bad → Spec.refused r c 1) ∧
      (¬ bad → Spec.acts r c 0 fun t => { t with xlat := c.s.xlat } = c.s ∧ t.xlat.hints = c.s.xlat.hints ++
          [{ fn := c.fn, va := fld f 8 8, size := fld f 0x10 8, hint := fld f 0x18 1, die := fld f 0x19 1 }] ∧
        ∀ va p, findPage c.s.xlat c.fn va = some p → findPage t.xlat c.fn va =
          some (if p.meets c.fn (fld f 8 8) (fld f 0x10 8) then { p with hint := fld f 0x18 1, hintDie := fld f 0x19 1 } else p)))) ∧
  (
    (∀ f s c, Spec.Takes 0x11 false true [(8, 16)] f s c →
      let r := exec (.unmap f) s
      let va := fld f 8 8
      let n := fld f 0x10 8
      let bad := badRange va n 4096 = true ∨ meetsAperture va n = true
      (bad → Spec.refused r c 1) ∧
      (¬ bad → (∀ p ∈ c.s.xlat.pages, p.meets c.fn va n = false) → Spec.refused r c 2) ∧
      (¬ bad → (∃ p ∈ c.s.xlat.pages, p.meets c.fn va n = true ∧ (p.va < va ∨ va + n < p.va + p.size)) → Spec.refused r c 1) ∧
      (¬ bad → wholePages c.s c.fn va n = true → (∃ p ∈ c.s.xlat.pages, p.meets c.fn va n = true) →
        ((∃ p ∈ c.s.xlat.pages, p.meets c.fn va n = true ∧ p.obj ≠ none) → Spec.refused r c 4) ∧
        ((∀ p ∈ c.s.xlat.pages, p.meets c.fn va n = true → p.obj = none) →
          (outstandingOn c.s c.fn va n = true → r = .next s) ∧
          (outstandingOn c.s c.fn va n = false → Spec.acts r c 0 fun t => { t with xlat := c.s.xlat, mem := c.s.mem } = c.s ∧
            (c.s.mem.views.length = 4 → Spec.zeroed c.s t c.fn va n) ∧ t.xlat.pages = c.s.xlat.pages.filter (fun p => !p.meets c.fn va n) ∧
            (∀ r ∈ t.xlat.onDemand, r.fn = c.fn → overlap r.va r.size va n = false) ∧
            (∀ r ∈ c.s.xlat.onDemand, r.fn ≠ c.fn → r ∈ t.xlat.onDemand) ∧
            ∀ e ∈ t.xlat.utlb ++ t.xlat.dtlb, ∀ a ∈ e.2, a.1 = c.fn → a.2 < va ∨ va + n ≤ a.2)))) ∧
    (∀ f s c, Spec.Takes 0x12 false true [(8, 17)] f s c →
      let r := exec (.protect f) s
      let va := fld f 8 8
      let n := fld f 0x10 8
      let rights := fld f 0x18 1
      let bad := 8 ≤ rights ∨ badRange va n 4096 = true ∨ meetsAperture va n = true
      let less := ∃ p ∈ c.s.xlat.pages, p.meets c.fn va n = true ∧
        ((p.r = true ∧ rights.testBit 0 = false) ∨ (p.w = true ∧ rights.testBit 1 = false) ∨ (p.x = true ∧ rights.testBit 2 = false))
      (bad → Spec.refused r c 1) ∧
      (¬ bad → (∀ p ∈ c.s.xlat.pages, p.meets c.fn va n = false) → Spec.refused r c 2) ∧
      (¬ bad → wholePages c.s c.fn va n = true → (∃ p ∈ c.s.xlat.pages, p.meets c.fn va n = true) →
        (less → outstandingOn c.s c.fn va n = true → r = .next s) ∧
        (¬ less ∨ outstandingOn c.s c.fn va n = false → Spec.acts r c 0 fun t => { t with xlat := c.s.xlat } = c.s ∧
          (∀ a p, findPage c.s.xlat c.fn a = some p → findPage t.xlat c.fn a = some (if p.meets c.fn va n then
            { p with r := rights.testBit 0, w := rights.testBit 1, x := rights.testBit 2 } else p)) ∧
          (less → ∀ e ∈ t.xlat.utlb ++ t.xlat.dtlb, ∀ a ∈ e.2, a.1 = c.fn → a.2 < va ∨ va + n ≤ a.2)))) ∧
    (∀ fn va die sram s p, findPage s.xlat fn va = some p →
      ((striped p.size = true ∨ p.remote ≠ none ∨ p.migrating ≠ none ∨ quotaRoom s p sram = false) →
        exec (.pageMigration fn va die sram) s = .next s) ∧
      (striped p.size = false → p.remote = none → p.migrating = none → quotaRoom s p sram = true →
        ∃ t, exec (.pageMigration fn va die sram) s = .next t ∧ { t with xlat := s.xlat } = s ∧
          findPage t.xlat fn va = some { p with migrating := some { die := die.toNat, sram := sram } }) ∧
      (∀ h, p.migrating = some h → ∃ t, exec (.homeSwitch fn va) s = .next t ∧ { t with xlat := s.xlat } = s ∧
        findPage t.xlat fn va =
          some (if memoryRoom s p.fn 0 h.sram = true then { p with home := h, migrating := none } else { p with migrating := none }))) ∧
    (∀ s d, s.cur = .die d → walking s.xlat d ≠ [] →
      ∃ t w, w ∈ walking s.xlat d ∧ exec .pageWalk s = .next t ∧ Safety.SameMemory s t ∧ t.clusters = s.clusters ∧ t.teams = s.teams ∧
        t.xlat.walks = s.xlat.walks.erase w ∧ t.xlat.pages = s.xlat.pages ∧
        ∀ p, findPage s.xlat w.fn w.va = some p → (w.fn, p.va) ∈ dtlbOf t.xlat d ∧ (w.fn, p.va) ∈ utlbOf t.xlat w.cluster) ∧
    (∀ s d, s.cur = .die d → walking s.xlat d = [] →
      ∃ t, exec .pageWalk s = .next t ∧ t.xlat = s.xlat ∧ Safety.SameMemory s t ∧ t.teams = s.teams))

/-- OBJ.LOAD loads an image that every check of R83 passes, maps its DATA pages and answers its handle; OBJ.UNLOAD of an object that nothing
uses removes it, its DATA pages and the chunks that no object lists; a chunk whose bytes match its leaf becomes resident, and one that is
evicted is not (05 R83 to R85, R91; 23 R336). Which handle is answered is log entry 6 (DESIGN CHOICE), and that an image may stand where no page
is mapped log entry 86 (DEDUCED). -/
def Obligations.ObjectCommands : Prop :=
  (∀ f s c, Spec.Takes 0x20 false true [(8, 16)] f s c →
    let r := exec (.objLoad f) s
    let a := fld f 8 8
    let n := fld f 0x10 8
    (imageReadable c a n = false → Spec.refused r c 2) ∧
    (imageReadable c a n = true →
      (parseImage c.fn c.secure c.s.loom.nextHandle a (c.read a n) = none → Spec.refused r c 1) ∧
      ∀ p, parseImage c.fn c.secure c.s.loom.nextHandle a (c.read a n) = some p →
        let apt := ∃ d ∈ p.obj.data, meetsAperture d.1 d.2.1 = true
        (apt → Spec.refused r c 1) ∧
        (¬ apt → quotaAllows c.s c.fn (dataBytes p) 0 = false → Spec.refused r c 3) ∧
        (¬ apt → quotaAllows c.s c.fn (dataBytes p) 0 = true → dataOverlaps c.s c.fn p.obj.data = true → Spec.refused r c 4) ∧
        (¬ apt → quotaAllows c.s c.fn (dataBytes p) 0 = true → dataOverlaps c.s c.fn p.obj.data = false →
          Spec.acts r c p.obj.handle fun t => t.loom.nextHandle = c.s.loom.nextHandle + 1 ∧ t.teams = c.s.teams ∧ t.tasks = c.s.tasks ∧
            (∃ o ∈ t.loom.objs, { o with vtext := [], ctext := [] } = { p.obj with vtext := [], ctext := [] }) ∧
            (∀ e ∈ p.data, ∀ i, i < (e.1.size + 4095) / 4096 → ∃ g ∈ t.xlat.pages, g.fn = c.fn ∧ g.va = e.1.vaddr + 4096 * i ∧
              g.size = 4096 ∧ g.r = true ∧ g.w = e.1.rights.testBit 1 ∧ g.x = false ∧ g.secure = c.secure ∧ g.obj = some p.obj.handle) ∧
            (∀ e, p.data = [e] → cpDie c.q < c.s.mem.views.length →
              readBytes t (cpDie c.q) (gkey c.fn e.1.vaddr) e.2.length = e.2)))) ∧
  (∀ f s c, Spec.Takes 0x21 false true [(8, 4)] f s c →
    let r := exec (.objUnload f) s
    (∀ o, getObj c.s (fld f 8 4) = some o → o.fn ≠ c.fn → Spec.refused r c 13) ∧
    ((∀ o, getObj c.s (fld f 8 4) = some o → o.fn = c.fn) →
      (ownObj c.s c.fn c.secure (fld f 8 4) = none → Spec.refused r c 2) ∧
      ∀ o, ownObj c.s c.fn c.secure (fld f 8 4) = some o →
        (objInUse c.s o = true → Spec.refused r c 4) ∧
        (objInUse c.s o = false → Spec.acts r c 0 fun t =>
          { t with xlat := c.s.xlat, mem := c.s.mem, loom := c.s.loom } = c.s ∧
          t.loom.objs = c.s.loom.objs.filter (fun x => x.handle ≠ o.handle) ∧
          t.xlat.pages = c.s.xlat.pages.filter (fun p => o.data.all fun d => !p.meets o.fn d.1 d.2.1) ∧
          ∀ k, k ∈ t.loom.chunks ↔ k ∈ c.s.loom.chunks ∧ ∃ x ∈ t.loom.objs, x.fn = k.fn ∧ x.secure = k.secure ∧ k.leaf ∈ x.leaves))) ∧
  (∀ h i s o leaf, getObj s h = some o → o.leaves[i]? = some leaf →
    (stored s o i = true → ∃ t, exec (.chunkPageIn h i) s = .next t ∧ Safety.SameMemory s t ∧ t.teams = s.teams ∧ t.xlat = s.xlat ∧
      t.loom.objs = s.loom.objs ∧ t.loom.chunks = s.loom.chunks) ∧
    (stored s o i = false →
      let first := imageChunk s o i
      let second := imageChunk first.2 o i
      ∃ t, exec (.chunkPageIn h i) s = .next t ∧
        (leafHash first.1 = leaf ∨ leafHash second.1 = leaf →
          stored t o i = true ∧ t.teams = s.teams ∧ Safety.SameMemory s t ∧ t.xlat = s.xlat)) ∧
    ∃ t, exec (.chunkEviction h i) s = .next t ∧ stored t o i = false ∧ Safety.SameMemory s t ∧ t.teams = s.teams ∧ t.xlat = s.xlat ∧
      t.loom.objs = s.loom.objs)

/-- The launch that a body gives on a queue (23 R338). -/
def Sys2Proof.Spec.launchOfBody (c : Cmd) (b : List Byte) : Launch :=
  bodyLaunch b (launchFn c.q c.fn b) c.q c.p

/-- The first status that refuses the bodies of a launch or of a gang, in the order of their checks (23 R333, R338). -/
structure Sys2Proof.Spec.Acceptable (c : Cmd) (bs : List (List Byte)) : Prop where
  allowed : ∀ b ∈ bs, bodyDenied c.s c.q (launchFn c.q c.fn b) b = false
  formed : ∀ b ∈ bs, bodyMalformed c.q b = false
  known : ∀ b ∈ bs, getFunc c.s (launchFn c.q c.fn b) ≠ none ∧ ∃ o, getObj c.s (Spec.launchOfBody c b).obj = some o ∧
    bodyUnfit o (Spec.launchOfBody c b) = false

/-- LAUNCH and GANG.LAUNCH: a refused body completes with the first status that applies; an accepted one becomes a launch, or several that
start together, with its enqueue sequence numbers, in a die's ready queue, and no record is written yet (02 R31, 19 R294, 23 R338, R339). On
queue 0 a gang's bodies are read in a function's space that they name themselves: the model's reading (log entry 19). -/
def Obligations.LaunchCommands : Prop :=
  (∀ f s c, Spec.Takes 0x30 true true [(8, 120)] f s c →
    let r := exec (.launch f) s
    let b := frameBody f
    let l := Spec.launchOfBody c b
    (bodyDenied c.s c.q (launchFn c.q c.fn b) b = true → Spec.refused r c 13) ∧
    (bodyDenied c.s c.q (launchFn c.q c.fn b) b = false →
      (bodyMalformed c.q b = true → Spec.refused r c 1) ∧
      (bodyMalformed c.q b = false → (getFunc c.s l.fn = none ∨ getObj c.s l.obj = none) → Spec.refused r c 2) ∧
      (∀ o, bodyMalformed c.q b = false → getFunc c.s l.fn ≠ none → getObj c.s l.obj = some o → bodyUnfit o l = true → Spec.refused r c 1)) ∧
    (Spec.Acceptable c [b] → ∀ q, launchReq c.s l 0 = some q →
      (neverFit c.s [q] = true → Spec.refused r c 3) ∧
      (neverFit c.s [q] = false → (getLaunch c.s l.fn l.lid).isSome = true → Spec.refused r c 4) ∧
      (neverFit c.s [q] = false → getLaunch c.s l.fn l.lid = none →
        ∃ t d, r = .next t ∧ t.loom.launches = c.s.loom.launches ++ [{ l with seq := c.s.tasks.seq, die := d }] ∧ d < 4 ∧
          t.tasks.seq = c.s.tasks.seq + 1 ∧
          t.tasks.tasks = c.s.tasks.tasks ∧ t.teams = c.s.teams ∧ t.mem = c.s.mem ∧ t.xlat = c.s.xlat ∧ t.loom.ctl = c.s.loom.ctl ∧
          (getQueue t c.q).cprod = (getQueue c.s c.q).cprod ∧ (getQueue t c.q).cons = (getQueue c.s c.q).cons))) ∧
  (∀ f s c, Spec.Takes 0x31 true true [(8, 9)] f s c →
    let r := exec (.gangLaunch f) s
    let a := fld f 8 8
    let n := fld f 0x10 1
    let spaces := (gangSpaces c a (120 * n)).filter fun g =>
      (loomRange c.s g (match getFunc c.s g with | some x => x.secure | none => false) a (120 * n) [.read]).isNone
    (spaces = [] → Spec.refused r c (if n < 2 ∨ 16 < n then 1 else 2)) ∧
    (spaces ≠ [] → (n < 2 ∨ 16 < n) → Spec.refused r c 1 ∨ Spec.refused r c 13) ∧
    (∀ g, spaces = [g] →
      let bs := chunksOf 120 n (loomRead c.s c.q g a (120 * n))
      let ls := bs.map (Spec.launchOfBody c)
      let lids := ls.map (·.lid)
      let qs := ls.flatMap fun l => (upFrom 0 (Nat.min 40961 l.teams)).filterMap fun i => launchReq c.s l i
      2 ≤ n → n ≤ 16 → Spec.Acceptable c bs → ∀ fn, (∀ b ∈ bs, launchFn c.q c.fn b = fn) →
      (neverFit c.s qs = true → Spec.refused r c 3) ∧
      (neverFit c.s qs = false → (¬ lids.Nodup ∨ ∃ l ∈ ls, (getLaunch c.s fn l.lid).isSome = true) → Spec.refused r c 4) ∧
      (neverFit c.s qs = false → lids.Nodup → (∀ l ∈ ls, getLaunch c.s fn l.lid = none) →
        ∃ t g d, r = .next t ∧ d < 4 ∧ t.tasks.seq = c.s.tasks.seq + BitVec.ofNat 64 n ∧ t.tasks.tasks = c.s.tasks.tasks ∧
          t.teams = c.s.teams ∧ t.mem = c.s.mem ∧ t.xlat = c.s.xlat ∧ t.loom.ctl = c.s.loom.ctl ∧
          t.loom.launches = c.s.loom.launches ++ (ls.zip (upFrom 0 n)).map fun x =>
            { x.1 with gang := some g, seq := c.s.tasks.seq + BitVec.ofNat 64 x.2, die := d })))

/-- TASK.ENQ enqueues as TENQ does and answers the sequence number; TASK.REPLAY and TASK.CANCEL act on a task held for replay (19 R294,
R300, 23 R336). TEAM.RESUME lets a team that is held after a fault go on; TEAM.END ends it (23 R340). PIPE.BIND binds a pipeline whose
descriptor passes every check and answers its PID (21 R310 to R316); of one that cannot be read whole, what can be read is judged first (21 R312,
23 R333). Which PID is answered is log entry 6 (DESIGN CHOICE); status 5 for a team held at a breakpoint is log entry 21 and status 1 for TEAM beside
LID 0 log entry 37 (both DEDUCED). -/
def Obligations.TaskTeamAndPipeCommands : Prop :=
  (∀ f s c, Spec.Takes 0x40 false true [(8, 8)] f s c →
    let r := exec (.taskEnq f) s
    let a := fld f 8 8
    let look : Look := { seed := Config.freeNat (c.s.tick - 1), lost := !linked c.s }
    (a % 128 ≠ 0 → Spec.refused r c 1) ∧
    (a % 128 = 0 → c.range a 128 [.read, .write] = false → Spec.refused r c 2) ∧
    (a % 128 = 0 → c.range a 128 [.read, .write] = true →
      (readTcb c.s look (cpDie c.q) c.fn c.secure a = none → Spec.refused r c 1) ∧
      ∀ k b, readTcb c.s look (cpDie c.q) c.fn c.secure a = some (k, b) →
        (enqStatus c.s k b false = 2 → Spec.refused r c 1) ∧
        (∀ st, enqStatus c.s k b false = st → st = 3 ∨ st = 4 → r = .next (finish c.s c.q c.p 4 st)) ∧
        (enqStatus c.s k b false = 0 → Spec.acts r c c.s.tasks.seq.toNat fun t => t.tasks.seq = c.s.tasks.seq + 1 ∧ t.teams = c.s.teams ∧
          Spec.joins c.s t k (inTransit c.s.mem c.p.acq)))) ∧
  (∀ f s c k, Spec.Takes 0x41 false true [(8, 8)] f s c → getTask c.s c.fn (fld f 8 8) = some k → k.die < c.s.mem.views.length →
    (k.state ≠ 5 → Spec.refused (exec (.taskReplay f) s) c 5) ∧
    (k.state = 5 → Spec.acts (exec (.taskReplay f) s) c 0 fun t => t.teams = c.s.teams ∧
      (∃ q, getTask t c.fn (fld f 8 8) = some { k with state := 2, acq := q }) ∧
      ((findPage c.s.xlat c.fn (fld f 8 8 + 0x1C)).isSome → isRemote c.s c.fn (fld f 8 8 + 0x1C) = false → readNat t k.die (gkey c.fn (fld f 8 8 + 0x1C)) 1 = 2))) ∧
  (∀ f s c k, Spec.Takes 0x42 false true [(8, 8)] f s c → getTask c.s c.fn (fld f 8 8) = some k → k.die < c.s.mem.views.length →
    (k.state ≠ 5 → Spec.refused (exec (.taskCancel f) s) c 5) ∧
    (k.state = 5 → Spec.acts (exec (.taskCancel f) s) c 0 fun t => t.teams = c.s.teams ∧ getTask t c.fn (fld f 8 8) = none ∧
      ((findPage c.s.xlat c.fn (fld f 8 8 + 0x1C)).isSome → isRemote c.s c.fn (fld f 8 8 + 0x1C) = false → readNat t k.die (gkey c.fn (fld f 8 8 + 0x1C)) 1 = 6))) ∧
  (∀ f s c (resume : Bool), Spec.Takes (if resume then 0x43 else 0x44) false true [(8, 24)] f s c →
    let r := exec (if resume then .teamResume f else .teamEnd f) s
    let one := (fld f 8 4 ≠ 0 ∧ fld f 0x10 8 = 0 ∧ fld f 0x18 8 = 0) ∨ (fld f 8 4 = 0 ∧ fld f 0x10 8 ≠ 0 ∧ fld f 0x18 8 = 0) ∨
      (fld f 8 4 = 0 ∧ fld f 0x10 8 = 0 ∧ fld f 0x18 8 ≠ 0)
    let bad := ¬ one ∨ (fld f 8 4 = 0 ∧ fld f 0x0C 4 ≠ 0)
    let which := (allTeams c.s).filter (named c.s c.fn f)
    (bad → Spec.refused r c 1) ∧ (¬ bad → which = [] → Spec.refused r c 2) ∧
    (¬ bad → which ≠ [] → (∀ t ∈ which, heldAt t = none) → Spec.refused r c 5) ∧
    (∀ t, ¬ bad → which.find? (fun t => (heldAt t).isSome) = some t → getTeam c.s t.tid = some t →
      Spec.acts r c 0 fun u =>
        (resume = false → getTeam u t.tid = none) ∧
        (resume = true → (∃ tm, getTeam u t.tid = some tm ∧ tm.held = none ∧ (∀ h, tm.hart = some h → h.wait ≠ .fault) ∧ tm.uni = t.uni) ∧
          ∀ e ∈ u.clusters, ∀ h ∈ e.2.chans, ∀ y ∈ h.2.copies, y.tid = t.tid → y.halted = false))) ∧
  (∀ f s c, Spec.Takes 0x50 false true [(8, 8)] f s c →
    let r := exec (.pipeBind f) s
    let a := fld f 8 8
    let n := leAt (c.read a 64) 0 1
    let b := c.read a (64 + 96 * n)
    let l := (upFrom 0 n).map (stageBlock b)
    let start := (leAt b 0x18 1).testBit 0
    let ids := (identities c.s (leBytes 48 (leAt b 0x20 8)) (leAt b 0x1C 4) l).zip l
    let chain := sharedChain c.s c.fn c.secure start ids (n - 1)
    let whole := 2 ≤ n ∧ n ≤ 8 ∧ c.range a (64 + 96 * n) [.read] = true
    let own := ∀ e ∈ l, ∀ x, getObj c.s e.obj = some x → x.fn = c.fn
    (c.range a 64 [.read] = false → Spec.refused r c 2) ∧
    (c.range a 64 [.read] = true → (n < 2 ∨ 8 < n) → Spec.refused r c 1 ∨ Spec.refused r c 13) ∧
    (c.range a 64 [.read] = true → 2 ≤ n → n ≤ 8 → c.range a (64 + 96 * n) [.read] = false →
      let seen := descBytes c a n
      let parts := (upFrom 0 n).map (stageBlock seen)
      (∀ i, i < n → c.range (a + 96 + 96 * i) 32 [.read] = true → ∀ x, getObj c.s (stageBlock seen i).obj = some x → x.fn = c.fn) →
      (descPoisoned c a n = true ∨ descMalformed seen n parts = true → Spec.refused r c 1) ∧
      (descPoisoned c a n = false → descMalformed seen n parts = false → Spec.refused r c 2)) ∧
    (c.range a 64 [.read] = true → whole → own → descMalformed b n l = true → Spec.refused r c 1) ∧
    (c.range a 64 [.read] = true → whole → own → descMalformed b n l = false →
      anyPoison c.s (cpDie c.q) (gkey c.fn a) (64 + 96 * n) = false →
      (c.range a (64 + 96 * n) [.read, .write] = false ∨ (∃ e ∈ l, ownObj c.s c.fn c.secure e.obj = none) ∨ ringsBad c l = true) →
      Spec.refused r c 2) ∧
    (c.range a 64 [.read] = true → whole → own → c.range a (64 + 96 * n) [.read, .write] = true →
      descMalformed b n l = false → anyPoison c.s (cpDie c.q) (gkey c.fn a) (64 + 96 * n) = false → ringsBad c l = false →
      (∀ e ∈ l, ∃ o, ownObj c.s c.fn c.secure e.obj = some o ∧
        ventOk o e.vent = true ∧ centOk o e.cent = true ∧ sizesOk o e.nstr e.scrsize = true ∧
        neverFit c.s
          [{ ref := .stage 0, fn := c.fn, secure := c.secure, cls := leAt b 0x19 1, obj := o, nstr := e.nstr, scrsize := e.scrsize,
             args := e.args, vent := e.vent, cent := e.cent, queue := 0, twice := false, stopped := false, acq := [] }] = false) →
      (c.s.heddle.pipelines.filter fun p => !p.ended).length < 1024 →
      (c.s.heddle.stages.filter fun g => !g.ended).length + n ≤ 4096 →
      cpDie c.q < c.s.mem.views.length →
      Spec.acts r c (freshPid c.s) fun t => ∃ d, t.teams = c.s.teams ∧ t.tasks.seq = c.s.tasks.seq + BitVec.ofNat 64 (n - chain.length) ∧
        t.heddle.pipelines = c.s.heddle.pipelines ++
          [{ pid := freshPid c.s, fn := c.fn, qid := leAt b 0x1A 2,
             stages := chain ++ upFrom c.s.heddle.stages.length (n - chain.length), shared := chain.length,
             order := c.s.heddle.pipelines.length, die := d, ended := false }] ∧
        t.heddle.stages.length = c.s.heddle.stages.length + (n - chain.length) ∧
        readNat t (cpDie c.q) (gkey c.fn (a + 0x10)) 2 = freshPid c.s))

/-- The commands: constructor, code, whether queue 0 and whether a function's queue may give it, the bytes of its body that it names
(23 R336). -/
def Sys2Proof.Spec.commandTable : List ((Frame → Instr) × Nat × Bool × Bool × List (Nat × Nat)) :=
  [(.queueReset, 0x01, true, true, [(8, 2)]), (.map, 0x10, false, true, [(8, 21), (0x20, 16)]), (.unmap, 0x11, false, true, [(8, 16)]),
   (.protect, 0x12, false, true, [(8, 17)]), (.place, 0x13, false, true, [(8, 18)]), (.portBind, 0x14, false, true, [(8, 21)]),
   (.objLoad, 0x20, false, true, [(8, 16)]), (.objUnload, 0x21, false, true, [(8, 4)]), (.launch, 0x30, true, true, [(8, 120)]),
   (.gangLaunch, 0x31, true, true, [(8, 9)]), (.taskEnq, 0x40, false, true, [(8, 8)]), (.taskReplay, 0x41, false, true, [(8, 8)]),
   (.taskCancel, 0x42, false, true, [(8, 8)]), (.teamResume, 0x43, false, true, [(8, 24)]), (.teamEnd, 0x44, false, true, [(8, 24)]),
   (.pipeBind, 0x50, false, true, [(8, 8)]), (.fenceCommand, 0x60, true, true, []), (.signal, 0x61, false, true, [(8, 16)])] ++
  [(.wait, 0x62, false, true, [(8, 16)]), (.partition, 0x70, true, false, [(8, 2), (0x0C, 40)]), (.functionReset, 0x71, true, false, [(8, 1)]),
   (.preempt, 0x80, false, true, [(8, 4)]), (.resume, 0x81, false, true, [(8, 4)]), (.checkpoint, 0x82, false, true, [(8, 4), (0x10, 16)]),
   (.restore, 0x83, false, true, [(8, 4), (0x10, 16)]), (.debugStop, 0x90, false, true, [(8, 4)]), (.debugResume, 0x91, false, true, [(8, 4)]),
   (.debugPlant, 0x92, false, true, [(8, 8)]), (.debugRemove, 0x93, false, true, [(8, 8)]),
   (.debugRead, 0x94, false, true, [(8, 12), (0x18, 16)]), (.powerSet, 0xA0, true, false, [(8, 9)]),
   (.telemetrySet, 0xA1, true, false, [(0x10, 24)]), (.patchLoad, 0xB0, true, false, [(8, 16)]), (.attest, 0xB1, true, true, [(8, 48)])]

/-- A command that its queue may not give completes with status 13, one whose reserved bytes are not all zero with status 1 where status 13
does not come first, a frame of unknown code with status 15; its frame is taken and nothing else happens (23 R331, R333, R336). A completion
writes the record at the slot its count names, and none for a queue whose command processor does not answer (23 R330, 25 R360). -/
def Obligations.CommandsRefused : Prop :=
  (∀ e ∈ Spec.commandTable, ∀ f s q n, s.cur = .command q n → f.opc.toNat = e.2.1 →
    let gives := if q = 0 then e.2.2.1 else e.2.2.2.1
    let refused (st : Nat) := exec (e.1 f) s = .next (finish (takeFrame s q f).2 q (takeFrame s q f).1 st 0)
    (gives = false → refused 13) ∧ (gives = true → reservedZero f e.2.2.2.2 = false → refused 1 ∨ refused 13)) ∧
  (∀ f s q n, s.cur = .command q n →
    exec (.frameUnknownOpc f) s = .next (finish (takeFrame s q f).2 q (takeFrame s q f).1 15 0)) ∧
  (∀ s q p st res, p.flags.getLsbD 1 = false ∨ st ≠ 0 → cpDead s q = true →
    let t := finish s q p st res
    t.loom.ctl = s.loom.ctl ∧ (getQueue t q).cprod = (getQueue s q).cprod ∧ (∃ x ∈ (getQueue t q).pending, x.seq = p.seq) ∧
    ∃ r, (getQueue t q).backlog = (getQueue s q).backlog ++ [r] ∧ r.opc = p.opc ∧ r.status = BitVec.ofNat 16 st ∧ r.ctag = p.ctag) ∧
  (∀ s q p st res, p.flags.getLsbD 1 = false ∨ st ≠ 0 → cpDead s q = false → (getQueue s q).backlog = [] →
    (getQueue s q).cprod - (getQueue s q).ccons ≠ 1024 → res < 2 ^ 128 →
    let t := finish s q p st res
    let a := blockOf q + 0x20000 + 32 * ((getQueue s q).cprod.toNat % 1024)
    memRead t.loom.ctl a 32 = leBytes 2 p.opc.toNat ++ leBytes 2 (st % 65536) ++ leBytes 4 p.ctag.toNat ++ leBytes 8 p.seq.toNat ++
      leBytes 16 res ∧ (getQueue t q).cprod = (getQueue s q).cprod + 1 ∧ (∀ x ∈ (getQueue t q).pending, x.seq ≠ p.seq) ∧
    (getQueue t q).backlog = [] ∧ ∀ b, b < a ∨ a + 32 ≤ b → memGet t.loom.ctl b = memGet s.loom.ctl b)

/-- FENCE and SIGNAL complete when every earlier command of their queue has; WAIT completes once its word has reached its value, and then
acquires; QUEUE.RESET ends a queue's commands with status 14 and clears every count, once no PREEMPT of the queue is still being saved. A DEBUG.STOP
completes at its harts' boundary whatever stands before it (R348). A command processor that does not answer completes nothing (25 R360), and
while every port is down no write of the host and no request to another module goes through (26 R377). PROD, CCONS and ECONS take what the host writes;
RSTCTL bit 0 resets the module; every other field of the control area that software may not write stays (00 R2, R3; 23 R329, R330, R335,
R341, R342; 25 R357; 26 R376, R378). The model keeps its agenda, its counters and the meaning of checkpoints over a reset (log entry 14). -/
def Obligations.QueuesAndRegisters : Prop :=
  (∀ f s c, Spec.Takes 0x60 true true [] f s c →
    ((getQueue s c.q).pending = [] → Spec.acts (exec (.fenceCommand f) s) c 0 fun t => t = c.s) ∧
    ((getQueue s c.q).pending ≠ [] → exec (.fenceCommand f) s = .next c.s)) ∧
  (∀ s q, (getQueue s q).backlog = [] → cpDead s q = false →
    let fn := (fnOfQueue s q).getD 0
    let due := fun p : Pending => decide (p.opc = 0x90) && atBoundary s fn p.lid
    (∀ p, (getQueue s q).pending.find? due = some p → progress s q = some (finish s q p 0 0)) ∧
    (∀ p l, (getQueue s q).pending = p :: l → (getQueue s q).pending.find? due = none →
      (p.opc = 0x60 → progress s q = some (finish s q p 0 0)) ∧
      (p.opc = 0x61 → isRemote s fn p.addr = false ∨ linked s = true → progress s q = some (performSignal s q p)) ∧
      (p.opc = 0x61 → isRemote s fn p.addr = true → linked s = false → progress s q = none) ∧
      (p.opc ≠ 0x60 → p.opc ≠ 0x61 → progress s q = none))) ∧
  (∀ s q, cpDead s q = true → progress s q = none ∧ exec (.waitSatisfied q) s = .next s) ∧
  (∀ f s c, Spec.Takes 0x61 false true [(8, 16)] f s c → (getQueue s c.q).backlog = [] → cpDead s c.q = false →
    let r := exec (.signal f) s
    let a := fld f 8 8
    (a % 8 ≠ 0 → Spec.refused r c 1) ∧ (a % 8 = 0 → c.range a 8 [.write] = false → Spec.refused r c 2) ∧
    (a % 8 = 0 → c.range a 8 [.write] = true → isRemote c.s c.fn a = false → cpDie c.q < c.s.mem.views.length →
      ((getQueue s c.q).pending = [] → ∃ t p, r = .next (finish t c.q p 0 0) ∧ p.seq = c.p.seq ∧ p.ctag = c.p.ctag ∧ p.flags = c.p.flags ∧
        p.opc = c.p.opc ∧ readNat t (cpDie c.q) (gkey c.fn a) 8 = fld f 0x10 8 ∧ t.teams = c.s.teams ∧ t.xlat = c.s.xlat ∧
        ∀ b, b < gkey c.fn a ∨ gkey c.fn a + 8 ≤ b → ¬ (∃ e ∈ c.s.mem.transit, overlap e.addr e.bytes.length (gkey c.fn a) 8 = true) →
          readBytes t (cpDie c.q) b 1 = readBytes c.s (cpDie c.q) b 1) ∧
      (∀ p l, (getQueue s c.q).pending = p :: l → p.opc ≠ 0x60 → p.opc ≠ 0x61 → (∀ x ∈ p :: l, x.opc ≠ 0x90 ∧ x.seq ≠ c.p.seq) →
        ∃ t, r = .next t ∧ t.mem = c.s.mem ∧ t.teams = c.s.teams ∧
        (getQueue t c.q).cprod = (getQueue s c.q).cprod ∧ ∃ x ∈ (getQueue t c.q).pending, x.seq = c.p.seq ∧ x.addr = a ∧
          x.value = BitVec.ofNat 64 (fld f 0x10 8)))) ∧
  (∀ f s c, Spec.Takes 0x62 false true [(8, 16)] f s c →
    let r := exec (.wait f) s
    let a := fld f 8 8
    (a % 8 ≠ 0 → Spec.refused r c 1) ∧ (a % 8 = 0 → c.range a 8 [.read] = false → Spec.refused r c 2) ∧
    (a % 8 = 0 → c.range a 8 [.read] = true → isRemote c.s c.fn a = true → ∃ t, r = .next t ∧ t.teams = c.s.teams ∧ t.xlat = c.s.xlat ∧
      (linked c.s = false → (getQueue t c.q).cprod = (getQueue s c.q).cprod ∧ ∃ x ∈ (getQueue t c.q).pending, x.seq = c.p.seq ∧ x.addr = a ∧
        x.value = BitVec.ofNat 64 (fld f 0x10 8))) ∧
    (a % 8 = 0 → c.range a 8 [.read] = true → isRemote c.s c.fn a = false →
      let ids := gotten (some 5) (syncsWith c.s .loom (seenAt c.s (cpDie c.q) (gkey c.fn a) 8))
      (fld f 0x10 8 ≤ readNat c.s (cpDie c.q) (gkey c.fn a) 8 →
        Spec.acts r c 0 fun t => t.mem = (bring c.s (cpDie c.q) ids).mem ∧ t.teams = c.s.teams ∧ t.xlat = c.s.xlat) ∧
      (readNat c.s (cpDie c.q) (gkey c.fn a) 8 < fld f 0x10 8 → ∃ t, r = .next t ∧ t.mem = c.s.mem ∧
        (getQueue t c.q).cprod = (getQueue s c.q).cprod ∧ ∃ x ∈ (getQueue t c.q).pending, x.seq = c.p.seq ∧ x.addr = a ∧
          x.value = BitVec.ofNat 64 (fld f 0x10 8)))) ∧
  (∀ q s p fn, (getQueue s q).pending.find? (fun p => p.opc = 0x62) = some p → fnOfQueue s q = some fn → (getQueue s q).backlog = [] →
    loomRange s fn (secureQueue s q) p.addr 8 [.read] = none → isRemote s fn p.addr = false →
    cpDead s q = false →
    exec (.waitSatisfied q) s = .next (if p.value.toNat ≤ readNat s (cpDie q) (gkey fn p.addr) 8 then
      finish (waitAcquires s q p.seq fn p.addr) q p 0 0 else s)) ∧
  (∀ s, linked s = false → (∀ q v, exec (.doorbell q v) s = .next s ∧ exec (.cconsWrite q v) s = .next s ∧ exec (.econsWrite q v) s = .next s) ∧
    (∀ v, exec (.rstctlReset v) s = .next s) ∧ ∀ off size v, exec (.registerWrite off size v) s = .next s) ∧
  (∀ q v s, (1024 ≤ q ∨ (q ≠ 0 ∧ fnOfQueue s q = none) ∨ (getQueue s q).stopped = true → exec (.doorbell q v) s = .next s) ∧
    (q < 1024 → linked s = true → (q = 0 ∨ fnOfQueue s q ≠ none) → (getQueue s q).stopped = false → ∃ t, exec (.doorbell q v) s = .next t ∧
      (q ≠ 0 → getQueue t q =
        { getQueue s q with prod := v, acq := inTransit s.mem (unionIds [(getQueue s q).acq, s.weave.hostOwn, s.weave.hostAcq]) }) ∧ (getQueue t q).prod = v ∧ (getQueue t q).cons = (getQueue s q).cons ∧
      t.teams = s.teams ∧ t.xlat = s.xlat ∧
      (q = 0 → cpDead s 0 = false → (∀ w, readWdcfg s = some w → t.loom.wd = w) ∧ (readWdcfg s = none → t.loom.wd = s.loom.wd)) ∧
      (q ≠ 0 ∨ cpDead s 0 = true → t.loom.wd = s.loom.wd))) ∧
  (∀ q v s, q < 1024 → linked s = true → (∃ t, exec (.cconsWrite q v) s = .next t ∧ (getQueue t q).ccons = v ∧ t.mem = s.mem ∧ t.teams = s.teams ∧
      ((getQueue s q).backlog = [] → t = updQueue s q fun k => { k with ccons := v }) ∧
      ∀ r, (getQueue s q).backlog = [r] → cpDead s q = false → (getQueue s q).cprod - v ≠ 1024 → (getQueue t q).backlog = [] ∧
        (getQueue t q).cprod = (getQueue s q).cprod + 1 ∧
        memRead t.loom.ctl (blockOf q + 0x20000 + 32 * ((getQueue s q).cprod.toNat % 1024)) 32 = r.bytes) ∧
    exec (.econsWrite q v) s = .next (updQueue s q fun k => { k with econs := v })) ∧
  (∀ v s, (v.getLsbD 0 = false → exec (.rstctlReset v) s = .next s) ∧
    (v.getLsbD 0 = true → linked s = true → ∃ t, exec (.rstctlReset v) s = .next t ∧
      { t with agenda := State.reset.agenda, tick := State.reset.tick, nextId := State.reset.nextId,
               loom := { t.loom with checkpoints := [] } } = State.reset)) ∧
  (∀ off size v s, ((size ≠ 4 ∧ size ≠ 8) ∨ off % size ≠ 0 → exec (.registerWrite off size v) s = .next s) ∧
    (off % 8 = 0 → ∀ t, exec (.registerWrite off 4 v) s = .next t →
      exec (.registerWrite off 8 v) s = exec (.registerWrite (off + 4) 4 (v >>> 32)) t) ∧
    (off % 4 = 0 → off < 0x10000000 → off % 0x40000 < 0x20000 ∨ (0x30020 ≤ off ∧ off < 0x30040) → linked s = true → ∃ t, exec (.registerWrite off 4 v) s = .next t ∧
      { t with loom := s.loom } = s ∧ memRead t.loom.ctl off 4 = leBytes 4 (v.toNat % 2 ^ 32) ∧
      ∀ b, b < off ∨ off + 4 ≤ b → memGet t.loom.ctl b = memGet s.loom.ctl b) ∧
    (off % 4 = 0 → off < 0x10000000 → 0x20000 ≤ off % 0x40000 → off % 0x40000 < 0x30000 → exec (.registerWrite off 4 v) s = .next s) ∧
    (off % 4 = 0 → off < 0x10000000 → 0x30020 ≤ off % 0x40000 → 0x30040 ≤ off → exec (.registerWrite off 4 v) s = .next s) ∧
    exec (.registerWrite 0x10000000 4 v) s = exec (.rstctlReset (v.setWidth 32)) s ∧
    (0x10000000 < off → exec (.registerWrite off 4 v) s = .next s) ∧
    (∀ q, q < 1024 → exec (.registerWrite (0x40000 * q + 0x30000) 4 v) s = exec (.doorbell q (v.setWidth 32)) s ∧
      exec (.registerWrite (0x40000 * q + 0x30010) 4 v) s = exec (.cconsWrite q (v.setWidth 32)) s ∧
      exec (.registerWrite (0x40000 * q + 0x30018) 4 v) s = exec (.econsWrite q (v.setWidth 32)) s ∧
      ∀ o, o = 0x30004 ∨ o = 0x30008 ∨ o = 0x3000C ∨ o = 0x30014 ∨ o = 0x3001C → exec (.registerWrite (0x40000 * q + o) 4 v) s = .next s)) ∧
  (∀ f s c, Spec.Takes 0x01 true true [(8, 2)] f s c →
    let r := exec (.queueReset f) s
    let k := fld f 8 2
    let denied := k = 0 ∨ k = c.q ∨ (c.q ≠ 0 ∧ ∃ g, fnOfQueue c.s k = some g ∧ g ≠ c.fn)
    (denied → Spec.refused r c 13) ∧ (¬ denied → 1024 ≤ k → Spec.refused r c 1) ∧
    (¬ denied → k < 1024 → fnOfQueue c.s k = none → Spec.refused r c 2) ∧
    (¬ denied → k < 1024 → fnOfQueue c.s k ≠ none →
      let saving := fun p : Pending => p.saves && !heldBack (getQueue c.s k) p
      ((getQueue c.s k).pending.any saving = true → ((getQueue c.s k).pending.map (·.seq)).Nodup → ∃ t, r = .next t ∧ (getQueue t k).stopped = true ∧
        (∀ p ∈ (getQueue t k).pending, p.saves = true) ∧ ∃ x ∈ (getQueue t c.q).pending, x.seq = c.p.seq ∧ x.addr = k) ∧
      ((getQueue c.s k).pending.any saving = false →
        Spec.acts r c (getQueue c.s k).pending.length fun t => { getQueue t k with acq := [], rel := [] } = Queue.reset ∧
          (∀ p, (getQueue c.s k).pending = [p] → p.opc ≠ 0x30 → p.opc ≠ 0x31 → cpDead c.s k = false → (getQueue c.s k).cprod - (getQueue c.s k).ccons ≠ 1024 →
            memRead t.loom.ctl (blockOf k + 0x20000 + 32 * ((getQueue c.s k).cprod.toNat % 1024)) 32 =
              leBytes 2 p.opc.toNat ++ leBytes 2 14 ++ leBytes 4 p.ctag.toNat ++ leBytes 8 p.seq.toNat ++ leBytes 16 0))))

/-- PARTITION assigns a function its world, queues, clusters and quotas, or takes it away; FUNCTION.RESET stops a function and ends
everything of it, and the scrub that follows clears its memory, mappings, objects, ports and clusters, empties every scratchpad line, reopens its queues
and completes the command (23 R344, R346; 24 R352). The sums of SRAM and GDDR7 that a PARTITION may not exceed are log entry 22, and the bytes
that count for a range declared ONDEMAND log entry 23 (both DEDUCED). -/
def Obligations.PartitionAndFunctionReset : Prop :=
  (∀ f s c, Spec.Takes 0x70 true false [(8, 2), (0x0C, 40)] f s c →
    let r := exec (.partition f) s
    let fn := fld f 8 1
    let qlo := fld f 0x0C 2
    let qhi := fld f 0x0E 2
    let clus := fld f 0x10 28
    let x : Func := { secure := decide (fld f 9 1 = 1), qlo := qlo, qhi := qhi, clusters := BitVec.ofNat 160 clus, squota := fld f 0x2C 4,
                      gquota := fld f 0x30 4 }
    let clash := ∃ g h, g ≠ fn ∧ g < 4 ∧ getFunc c.s g = some h ∧ (h.clusters &&& x.clusters ≠ 0 ∨ (h.qlo ≤ qhi ∧ qlo ≤ h.qhi))
    let beyond := sramMiB < x.squota + (otherFuncs c.s fn).foldl (fun a g => a + g.squota) 0 ∨
      gddrMiB < x.gquota + (otherFuncs c.s fn).foldl (fun a g => a + g.gquota) 0
    let bad := 3 < fn ∨ 1 < fld f 9 1 ∨ 2 ^ 160 ≤ clus ∨ (clus ≠ 0 ∧ (qlo = 0 ∨ qhi < qlo ∨ 1023 < qhi ∨ clash ∨ beyond))
    (bad → Spec.refused r c 1) ∧ (¬ bad → funcBusy c.s fn = true → Spec.refused r c 4) ∧
    (¬ bad → funcBusy c.s fn = false → Spec.acts r c 0 fun t => { t with loom := c.s.loom } = c.s ∧ t.loom.ctl = c.s.loom.ctl ∧
      getFunc t fn = (if clus = 0 then none else some x) ∧ (∀ g, g ≠ fn → getFunc t g = getFunc c.s g) ∧
      (clus ≠ 0 → ∀ q, qlo ≤ q → q ≤ qhi → { getQueue t q with acq := [], rel := [] } = Queue.reset) ∧
      ∀ q, clus = 0 ∨ q < qlo ∨ qhi < q → getQueue t q = getQueue c.s q)) ∧
  (∀ f s c, Spec.Takes 0x71 true false [(8, 1)] f s c →
    let r := exec (.functionReset f) s
    let fn := fld f 8 1
    (3 < fn → Spec.refused r c 1) ∧ (fn ≤ 3 → getFunc c.s fn = none → Spec.refused r c 2) ∧
    (∀ x, fn ≤ 3 → getFunc c.s fn = some x → ∃ t, r = .next t ∧ t.loom.draining = some fn ∧ (∀ m ∈ t.teams, m.fn ≠ fn) ∧
      (∀ k ∈ t.tasks.tasks, k.fn ≠ fn) ∧ (∀ k ∈ t.tasks.cards, k.fn ≠ fn) ∧ ∀ p ∈ t.heddle.pipelines, p.fn = fn → p.ended = true)) ∧
  (∀ fn s x, getFunc s (BitVec.toNat fn) = some x →
    (s.loom.draining ≠ some fn.toNat ∨ drained s fn.toNat = false → exec (.resetScrub fn) s = .next s) ∧
    (s.loom.draining = some fn.toNat → drained s fn.toNat = true → s.mem.views.length = 4 →
      ∃ u, (∀ p, x.qlo ≠ 0 → (getQueue s 0).pending.find? (fun p => p.opc = 0x71) = some p →
          exec (.resetScrub fn) s = .next (finishResets (finish u 0 p 0 (mappingBytes s fn.toNat)))) ∧
        ((∀ p ∈ (getQueue s 0).pending, p.opc ≠ 0x71) → exec (.resetScrub fn) s = .next (finishResets u)) ∧
        u.loom.draining = none ∧ u.teams = s.teams ∧ getFunc u fn.toNat = some x ∧ Spec.zeroed s u fn.toNat 0 (2 ^ 56) ∧
        u.xlat.pages = s.xlat.pages.filter (fun p => p.fn ≠ fn.toNat) ∧ u.xlat.onDemand = s.xlat.onDemand.filter (fun p => p.fn ≠ fn.toNat) ∧
        u.xlat.ports = s.xlat.ports.filter (fun p => p.fn ≠ fn.toNat) ∧ u.loom.objs = s.loom.objs.filter (fun o => o.fn ≠ fn.toNat) ∧
        u.loom.chunks = s.loom.chunks.filter (fun k => k.fn ≠ fn.toNat) ∧
        (∀ k, k < 160 → x.clusters.getLsbD k = true →
          { getCluster u k with empty := [] } =
            { Cluster.reset with cores := (getCluster s k).cores, fenced := (getCluster s k).fenced } ∧
          ∀ l, l < 8192 → spGet false (getCluster u k).empty l = true) ∧
        (∀ k, k < 160 → x.clusters.getLsbD k = false → getCluster u k = getCluster s k) ∧
        (∀ q, x.qlo ≤ q → q ≤ x.qhi → { getQueue u q with acq := [], rel := [] } = Queue.reset)))

/-- PREEMPT parks a launch and asks its clusters to stop; RESUME returns it; CHECKPOINT writes a parked launch's images with their SHA-384
and RESTORE makes a parked launch of them; a cluster stops once its teams are quiet, its state becomes an image, and an image goes to a free
cluster when its turn comes (02 R32, R37, R38; 23 R347). The model's readings: what bytes an image has (log entry 14), that a freed cluster
counts from its start (79, DESIGN CHOICE), which die serves an image (83), what its die had applied and a restore brings back (84), that the
Loom's own work stays on the cluster (85, all DEDUCED). A copy stops once it has written no byte beyond its PROG
(18 R288, R289), and a weft that waited at a VEER, a REGROUP or an UNGROUP arrives again (R25, 09 R168). -/
def Obligations.Preemption : Prop :=
  (∀ f s c, Spec.Takes 0x80 false true [(8, 4)] f s c →
    (getLaunch c.s c.fn (fld f 8 4) = none → Spec.refused (exec (.preempt f) s) c 2) ∧
    (∀ l, getLaunch c.s c.fn (fld f 8 4) = some l →
      (launchSaved c.s c.fn (fld f 8 4) = true → Spec.acts (exec (.preempt f) s) c 0 fun t =>
        (∃ m, getLaunch t c.fn (fld f 8 4) = some m ∧ m = { l with parked := true }) ∧ t.teams = c.s.teams ∧ t.mem = c.s.mem) ∧
      (launchSaved c.s c.fn (fld f 8 4) = false → ∃ t, exec (.preempt f) s = .next t ∧ t.teams = c.s.teams ∧ t.mem = c.s.mem ∧
        getLaunch t c.fn (fld f 8 4) = some { l with parked := true } ∧ (getQueue t c.q).cprod = (getQueue s c.q).cprod ∧
        ∀ k ∈ clustersWith c.s l, (getCluster t k).preempt ≠ .none))) ∧
  (∀ f s c, Spec.Takes 0x81 false true [(8, 4)] f s c →
    (getLaunch c.s c.fn (fld f 8 4) = none → Spec.refused (exec (.resume f) s) c 2) ∧
    (∀ l, getLaunch c.s c.fn (fld f 8 4) = some l →
      (l.parked = false → Spec.refused (exec (.resume f) s) c 5) ∧
      (l.parked = true → Spec.acts (exec (.resume f) s) c 0 fun t => { t with loom := c.s.loom } = c.s ∧
        getLaunch t c.fn (fld f 8 4) = some { l with parked := false }))) ∧
  (∀ f s c, Spec.Takes 0x82 false true [(8, 4), (0x10, 16)] f s c →
    let r := exec (.checkpoint f) s
    let a := fld f 0x10 8
    let size := fld f 0x18 8
    (getLaunch c.s c.fn (fld f 8 4) = none → Spec.refused r c 2) ∧
    (∀ l, getLaunch c.s c.fn (fld f 8 4) = some l → (c.range a size [.write] = false → Spec.refused r c 2) ∧
      (c.range a size [.write] = true → (l.parked = false ∨ launchSaved c.s c.fn (fld f 8 4) = false) → Spec.refused r c 5) ∧
      (c.range a size [.write] = true → l.parked = true → launchSaved c.s c.fn (fld f 8 4) = true → cpDie c.q < c.s.mem.views.length →
        ∃ t k b, k.bytes = b ++ sha384 b ∧ k.launch = l ∧
          (size < k.bytes.length → r = .next (finish c.s c.q c.p 4 k.bytes.length)) ∧
          (k.bytes.length ≤ size → r = .next (finish t c.q c.p 0 k.bytes.length) ∧ t.loom.checkpoints = c.s.loom.checkpoints ++ [k] ∧
            readBytes t (cpDie c.q) (gkey c.fn a) k.bytes.length = k.bytes ∧ t.teams = c.s.teams ∧ t.loom.images = c.s.loom.images)))) ∧
  (∀ f s c, Spec.Takes 0x83 false true [(8, 4), (0x10, 16)] f s c →
    let r := exec (.restore f) s
    let lid := fld f 8 4
    let a := fld f 0x10 8
    let size := fld f 0x18 8
    (lid = 0 → Spec.refused r c 1) ∧ (lid ≠ 0 → c.range a size [.read] = false → Spec.refused r c 2) ∧
    (lid ≠ 0 → c.range a size [.read] = true → checkpointAt c a size = none → Spec.refused r c 1) ∧
    (∀ k, lid ≠ 0 → c.range a size [.read] = true → checkpointAt c a size = some k →
      ((∀ o ∈ c.s.loom.objs, o.fn = c.fn → o.secure = c.secure → o.root ≠ k.root) ∨ k.secure ≠ c.secure → Spec.refused r c 1) ∧
      (∀ o ∈ c.s.loom.objs, o.fn = c.fn → o.secure = c.secure → o.root = k.root → k.secure = c.secure →
        ((getLaunch c.s c.fn lid).isSome = true → Spec.refused r c 4) ∧
        (getLaunch c.s c.fn lid = none → Spec.acts r c 0 fun t => t.teams = c.s.teams ∧ t.mem = c.s.mem ∧ t.xlat = c.s.xlat ∧
          t.tasks.seq = c.s.tasks.seq + 1 ∧ t.loom.images.length = c.s.loom.images.length + k.images.length ∧
          ∃ l, getLaunch t c.fn lid = some l ∧ l.parked = true ∧ l.queue = c.q ∧ l.cmdSeq = c.p.seq ∧ l.teams = k.launch.teams ∧
            l.next = k.launch.next ∧ l.ended = k.launch.ended)))) ∧
  (∀ s c, s.cur = .cluster c →
    let moves := ∃ i, i < 4 ∧ (getCore s c i).moving ≠ none
    let beyond := ∃ ch, ch < 16 ∧ ∃ y ∈ (getChan s c ch).copies, y.ahead ≠ []
    let still := ∀ ch, ch < 16 → ∀ y ∈ (getChan s c ch).copies, y.atBoundary = true ∨ y.finished = true ∨ y.halted = true
    ((getCluster s c).preempt ≠ .requested ∨ (∃ t ∈ residents s c, quiet s t = false) ∨ moves ∨ beyond → exec .clusterPreemptStop s = .next s) ∧
    ((getCluster s c).preempt = .requested → (∀ t ∈ residents s c, quiet s t = true) → ¬ moves → ¬ beyond →
      ∃ t, exec .clusterPreemptStop s = .next t ∧ (getCluster t c).preempt = .stopped ∧ (still → Safety.SameMemory s t) ∧
        (still → (getCluster s c).mx.running = none → { t with clusters := s.clusters } = s ∧
          (∀ k, k ≠ c → getCluster t k = getCluster s k) ∧
          getCluster t c = { getCluster s c with preempt := .stopped, chans := (getCluster t c).chans } ∧
          ∀ ch, ch < 16 → (getChan t c ch).issued = (getChan s c ch).issued ∧
            (getChan t c ch).copies = ((getChan s c ch).copies.map Copy.settle).dropWhile (·.finished))) ∧
    ((getCluster s c).preempt ≠ .stopped → exec .imageSave s = .next s) ∧
    ((getCluster s c).preempt = .stopped → ∃ u, exec .imageSave s = .next (finishPreempts u) ∧
      (∀ k, k ≠ c → getCluster u k = getCluster s k) ∧
      (residents s c = [] → { u with clusters := s.clusters } = s ∧ getCluster u c = { getCluster s c with preempt := .none }) ∧
      (residents s c ≠ [] → u.teams = s.teams.filter (fun t => t.place.cluster ≠ c) ∧
        getCluster u c =
          keepMachine (getCluster s c) { Cluster.reset with cores := (getCluster s c).cores, fenced := (getCluster s c).fenced } ∧
        (∀ t ∈ residents s c, resvOf u t.die t.tid = none) ∧ (∀ o ∈ u.vops, ∀ t ∈ residents s c, o.tid ≠ t.tid) ∧
        ∃ m, u.loom.images = s.loom.images ++ [m] ∧ m.teams = residents s c ∧ m.acq = appliedOn s.mem (dieOf c) ∧
        (∀ o ∈ s.vops, (∃ t ∈ residents s c, o.tid = t.tid) → o ∈ m.ops) ∧
        m.cluster = keepMachine Cluster.reset { getCluster s c with preempt := .none, stalled := 0, seen := [] }))) ∧
  (∀ image cluster s, ∃ t, exec (.imageRestore image cluster) s = .next t ∧
    ((∀ m ∈ s.loom.images, m.id ≠ image) → t = s) ∧
    (∀ m, s.loom.images.find? (fun m => m.id = image) = some m →
      let turn := pick s (dieOf m.home) [3, 2, 1, 0]
      let spots := spotsFor s m.fn (imageSet s m) cluster
      (turn ≠ .image image ∨ spots = none → t = s) ∧
      (∀ l, turn = .image image → spots = some l → (∀ e ∈ l, ∀ x ∈ e.1.teams, ∀ w ∈ x.wefts, w.wait ≠ .retry Why.line.code) →
        t.teams.length = s.teams.length + (l.map fun e => e.1.teams.length).sum ∧ (∀ x ∈ t.loom.images, ∀ e ∈ l, x.id ≠ e.1.id) ∧
        (∀ x ∈ s.teams, (∀ e ∈ l, ∀ y ∈ e.1.teams, y.tid ≠ x.tid) → x ∈ t.teams) ∧
        (∀ e ∈ l, ∀ x ∈ e.1.teams, ∃ y ∈ t.teams, y.tid = x.tid ∧ y.place = { x.place with cluster := e.2 } ∧ y.hart = x.hart ∧ y.uni = x.uni ∧
          (y.wefts.map fun w => (w.wid, w.strands, w.pos, w.alloc, w.wait)) = (x.wefts.map fun w => (w.wid, w.strands, w.pos, w.alloc,
            match w.wait with | .veer _ _ _ | .regroup _ _ _ _ => .retry Why.rearrive.code | v => v)) ∧
          ∀ w ∈ y.wefts, w.holds = []) ∧
        (l = [(m, cluster)] → getCluster t cluster = keepMachine (getCluster s cluster)
          { m.cluster with fenced := (getCluster s cluster).fenced, stalled := 0, preempt := .none }))))

/-- DEBUG.STOP stops every team of a launch and completes once no hart of it has an access out, DEBUG.RESUME lets it go on behind what it
stopped at, from a position that is stated, DEBUG.PLANT and DEBUG.REMOVE change the launch's private words once their chunk is resident, DEBUG.READ writes the 17,152 bytes of
one weft's state (05 R85, R86, 23 R348). At a planted word a weft that goes on executes the replaced word once; after a BKPT of the program it
goes on behind it (log entry 33, DEDUCED). -/
def Obligations.DebugCommands : Prop :=
  (∀ f s c, Spec.Takes 0x90 false true [(8, 4)] f s c →
    (getLaunch c.s c.fn (fld f 8 4) = none → Spec.refused (exec (.debugStop f) s) c 2) ∧
    (∀ l, getLaunch c.s c.fn (fld f 8 4) = some l →
      let stopped (t : State) : Prop := t.mem = c.s.mem ∧ t.xlat = c.s.xlat ∧ getLaunch t c.fn (fld f 8 4) = some { l with stopped := true } ∧
        t.teams = c.s.teams.map fun m => if ofLaunch c.fn (fld f 8 4) m then { m with stopped := true } else m
      (atBoundary c.s c.fn (fld f 8 4) = true → Spec.acts (exec (.debugStop f) s) c 0 stopped) ∧
      (atBoundary c.s c.fn (fld f 8 4) = false → ∃ t, exec (.debugStop f) s = .next t ∧ stopped t ∧
        ∃ p ∈ (getQueue t c.q).pending, p.seq = c.p.seq ∧ p.lid = fld f 8 4))) ∧
  (∀ f s c, Spec.Takes 0x91 false true [(8, 4)] f s c →
    (getLaunch c.s c.fn (fld f 8 4) = none → Spec.refused (exec (.debugResume f) s) c 2) ∧
    (∀ l, getLaunch c.s c.fn (fld f 8 4) = some l →
      (l.stopped = false → (∀ m ∈ allTeams c.s, ofLaunch l.fn l.lid m = true → m.held ≠ some .breakpoint) →
        Spec.refused (exec (.debugResume f) s) c 5) ∧
      ((l.stopped = true ∨ ∃ m ∈ allTeams c.s, ofLaunch l.fn l.lid m = true ∧ m.held = some .breakpoint) →
        Spec.acts (exec (.debugResume f) s) c 0 fun t => t.mem = c.s.mem ∧ t.xlat = c.s.xlat ∧
          getLaunch t c.fn (fld f 8 4) = some { l with stopped := false } ∧
          (∀ m ∈ c.s.teams, ofLaunch c.fn (fld f 8 4) m = true → ∃ n ∈ t.teams, n.tid = m.tid ∧
            (n.wefts.map fun v => (v.wid, v.pos, v.once)) = (m.wefts.map fun w =>
              if w.once = false ∧ ∃ p ∈ l.planted, p.1 = w.pos.offset then (w.wid, w.pos, true)
              else if w.wait = .bkpt then (w.wid, w.pos.after (headerCnt (clauseHeader c.s m w)) 1, w.once)
              else (w.wid, w.pos, w.once)) ∧
            ∀ h, m.hart = some h → ∃ g, n.hart = some g ∧ g.pc = if h.wait = .bkpt then h.pc + 4 else h.pc) ∧
          (∀ m ∈ t.teams, ofLaunch c.fn (fld f 8 4) m = true → m.stopped = false ∧ m.held ≠ some .breakpoint ∧
            (∀ w ∈ m.wefts, w.wait ≠ .bkpt) ∧ ∀ h, m.hart = some h → h.wait ≠ .bkpt) ∧
          ∀ m ∈ c.s.teams, ofLaunch c.fn (fld f 8 4) m = false → m ∈ t.teams))) ∧
  (∀ f s c (plant : Bool), Spec.Takes (if plant then 0x92 else 0x93) false true [(8, 8)] f s c →
    let r := exec (if plant then .debugPlant f else .debugRemove f) s
    let off := fld f 0x0C 4
    (getLaunch c.s c.fn (fld f 8 4) = none → Spec.refused r c 2) ∧
    (∀ l o, getLaunch c.s c.fn (fld f 8 4) = some l → getObj c.s l.obj = some o →
      let there := match copyAt l o off with | some p => p.resident | none => stored c.s o (chunkOfText o false off)
      (namesWord o off = false → Spec.refused r c 1) ∧ (namesWord o off = true → l.stopped = false → Spec.refused r c 5) ∧
      (namesWord o off = true → l.stopped = true → there = false → r = .next s) ∧
      (namesWord o off = true → l.stopped = true → there = true → Spec.acts r c 0 fun t =>
        { t with loom := c.s.loom, teams := c.s.teams } = c.s ∧ t.loom.objs = c.s.loom.objs ∧
        ∃ m, getLaunch t c.fn (fld f 8 4) = some m ∧ { m with planted := l.planted, copies := l.copies } = l ∧
          (plant = true → t.teams = c.s.teams ∧ (∃ p ∈ m.planted, p.1 = off) ∧ ((∀ p ∈ l.planted, p.1 ≠ off) →
            m.planted = l.planted ++ [(off, (o.vtext[off / 4]?).getD 0)] ∧
            (copyAt l o off = none → ∃ p, copyAt m o off = some p ∧ p.resident = true ∧ nthD 0 p.words (off % 4096 / 4) = 0xFA000100))) ∧
          (plant = false → m.planted = (l.planted.filter fun p => p.1 ≠ off) ∧
            t.teams = c.s.teams.map fun x =>
              if ofLaunch c.fn (fld f 8 4) x then { x with wefts := x.wefts.map (unplanted off) } else x)))) ∧
  (∀ f s c, Spec.Takes 0x94 false true [(8, 12), (0x18, 16)] f s c →
    let r := exec (.debugRead f) s
    let a := fld f 0x18 8
    let n := fld f 0x20 8
    let which := (allTeams c.s).find? fun t => ofLaunch c.fn (fld f 8 4) t && decide (t.ref.number = fld f 0x0C 4)
    (which = none → Spec.refused r c 2) ∧
    (∀ t, which = some t → (t.weft? (fld f 0x10 4) = none → Spec.refused r c 2) ∧
      ∀ w, t.weft? (fld f 0x10 4) = some w →
        (c.range a (Nat.min 17152 n) [.write] = false → Spec.refused r c 2) ∧
        (c.range a (Nat.min 17152 n) [.write] = true → n < 17152 → Spec.refused r c 4) ∧
        (c.range a (Nat.min 17152 n) [.write] = true → 17152 ≤ n → cpDie c.q < c.s.mem.views.length →
          Spec.acts r c 0 fun u => readBytes u (cpDie c.q) (gkey c.fn a) (weftDump c.s t w).length = weftDump c.s t w ∧
            (t.uni.k.length = 32 → (weftDump c.s t w).length = 17152) ∧ u.teams = c.s.teams ∧
            u.xlat = c.s.xlat ∧ u.loom.objs = c.s.loom.objs ∧ u.loom.launches = c.s.loom.launches ∧
            u.loom.images = c.s.loom.images)))

/-! ### The Vane, time, patches, attestation (23 R349, R350; 26 R366 to R374) -/

/-- A Sync message has been applied: the offset from the master is known; a small one is left to be slewed away, a large forward one is
jumped, and the arrival's stamp with the clock, a large backward one makes the clock run at half rate (26 R372); a Delay_Req leaves, stamped by
the clock as it then is (log entry 24, PRESUMED). -/
structure Sys2Proof.Spec.Synced (s t : State) (origin arrival : Nat) : Prop where
  sync : t.ptp.sync = 1
  diff : t.ptp.syncDiff = (arrival : Int) - origin + ((timeNs t : Int) - timeNs s)
  asks : t.ptp.request = some (s.ptp.nextReq, timeNs t)
  next : t.ptp.nextReq = (s.ptp.nextReq + 1) % 65536
  waiting : t.ptp.twoStep = none
  since : t.ptp.since = 0
  small : (s.ptp.delay - ((arrival : Int) - origin)).natAbs ≤ 10 ^ 6 →
    t.ptp.offset = s.ptp.delay - ((arrival : Int) - origin) ∧ timeNs t = timeNs s ∧ t.ptp.half = false
  forward : (10 : Int) ^ 6 < s.ptp.delay - ((arrival : Int) - origin) →
    timeNs s + (s.ptp.delay - ((arrival : Int) - origin)).natAbs < 2 ^ 48 * 10 ^ 9 →
    timeNs t = timeNs s + (s.ptp.delay - ((arrival : Int) - origin)).natAbs ∧ t.ptp.offset = 0
  backward : s.ptp.delay - ((arrival : Int) - origin) < -(10 : Int) ^ 6 → timeNs t = timeNs s ∧ t.ptp.half = true
  rest : { t with ptp := s.ptp } = s

/-- POWER.SET and TELEMETRY.SET install the settings that their ranges allow; a sample never exceeds the ceiling's and the rise bound's room
and ballast never exceeds its bound; a finished window is described by one record of 64 bytes, sent where the settings at its end say, and a
rendezvous after it finds no flag of it (26 R367 to R371, R373, R374; the course of the limiter within a window is log entry 27, DESIGN CHOICE, the first
window without a bound log entry 7 and RSLOTS in its range wherever TDEST leads log entry 26, both DEDUCED). The clock follows its master (R372; the delay's formula is log entry 24, PRESUMED). PATCH.LOAD makes an
accepted image the active patch of an idle module, ATTEST writes 512 bytes (23 R349, R350; log entries 10, 25 and 28). -/
def Obligations.PowerTimeAndTrust : Prop :=
  (∀ f s c, Spec.Takes 0xA0 true false [(8, 9)] f s c →
    let ok := inRange (fld f 8 2) 200 2200 = true ∧ inRange (fld f 0x0A 2) 1 10000 = true ∧ inRange (fld f 0x0C 2) 1 10000 = true ∧
      inRange (fld f 0x0E 2) 1 800 = true ∧ fld f 0x10 1 < 8
    (¬ ok → Spec.refused (exec (.powerSet f) s) c 1) ∧
    (ok → Spec.acts (exec (.powerSet f) s) c 0 fun t => { t with loom := c.s.loom } = c.s ∧
      t.loom.power = { ceil := if fld f 8 2 = 0 then 2200 else fld f 8 2, rise := if fld f 0x0A 2 = 0 then 200 else fld f 0x0A 2,
                       fall := if fld f 0x0C 2 = 0 then 200 else fld f 0x0C 2, bmax := if fld f 0x0E 2 = 0 then 400 else fld f 0x0E 2,
                       pmode := BitVec.ofNat 3 (fld f 0x10 1) })) ∧
  (∀ f s c, Spec.Takes 0xA1 true false [(0x10, 24)] f s c →
    let slots := fld f 0x1C 4
    let ok := fld f 0x1A 1 < 4 ∧ fld f 0x20 8 % 64 = 0 ∧
      ∃ i, 4 ≤ i ∧ i ≤ 16 ∧ slots = 2 ^ i
    (¬ ok → Spec.refused (exec (.telemetrySet f) s) c 1) ∧
    (ok → Spec.acts (exec (.telemetrySet f) s) c 0 fun t => { t with loom := c.s.loom } = c.s ∧
      t.loom.telem = { raddr := BitVec.ofNat 64 (fld f 0x20 8), rslots := BitVec.ofNat 32 slots, ptpdom := BitVec.ofNat 8 (fld f 0x1B 1),
                       tdest := BitVec.ofNat 2 (fld f 0x1A 1), dport := BitVec.ofNat 16 (fld f 0x18 2),
                       dip := BitVec.ofNat 32 (fld f 0x14 4), sip := BitVec.ofNat 32 (fld f 0x10 4) })) ∧
  (∀ mw s, s.vane.samples.length = 100 → s.vane.telemSent = false → s.vane.dest.tdest ≠ 0 → exec (.vaneSample mw) s = .next s) ∧
  (∀ s cur tgt, s.vane.samples.length = 100 → s.loom.power.pmode.getLsbD 1 = true → vaneAnswer s cur tgt = some (tgt.getD cur)) ∧
  (∀ mw s, ¬ (s.vane.samples.length = 100 ∧ s.vane.telemSent = false ∧ s.vane.dest.tdest ≠ 0) →
    let p := s.loom.power
    let v := freshWindow s.vane
    let top := Nat.min (ceilRoom p v) ((riseRoom p v).getD (ceilRoom p v))
    ∃ t x, exec (.vaneSample mw) s = .next t ∧ t.mem = s.mem ∧ t.teams = s.teams ∧ t.loom.power = p ∧ t.vane.samples = v.samples ++ [x] ∧
      Nat.min mw top ≤ x ∧ x ≤ top ∧ x - Nat.min mw top ≤ (if p.pmode.getLsbD 2 && ballastEngine s then 1000 * p.bmax else 0) ∧
      t.vane.ballast = x - Nat.min mw top ∧ t.vane.ceil = (v.ceil || decide (ceilRoom p v < mw)) ∧
      (∀ r, riseRoom p v = some r → r < mw → t.vane.rise = true) ∧ (ceilRoom p v < mw → t.vane.gate = false) ∧
      (t.vane.samples.length = 100 → t.vane.dest = s.loom.telem)) ∧
  (∀ tj dies s, (s.vane.samples.length ≠ 100 ∨ s.vane.telemSent = true ∨ s.vane.dest.tdest = 0 → exec (.telemetryRecord tj dies) s = .next s) ∧
    (s.vane.samples.length = 100 → s.vane.telemSent = false → s.vane.dest.tdest ≠ 0 →
      ∃ t r, exec (.telemetryRecord tj dies) s = .next t ∧ t.weave.sentRecords = s.weave.sentRecords ++ [r] ∧ r.tdest = s.vane.dest.tdest ∧
        r.dip = s.vane.dest.dip ∧ r.dport = s.vane.dest.dport ∧ r.sip = s.vane.dest.sip ∧
        r.bytes.length = 64 ∧ r.bytes.take 8 = leBytes 4 0x4D4C4554 ++ leBytes 4 s.vane.telemSeq.toNat ∧
        (r.bytes.drop 20).take 4 = leBytes 4 (sumOf s.vane.samples / 100) ∧
        (s.vane.dest.tdest.getLsbD 1 = true → r.slot = s.vane.dest.raddr.toNat + 64 * (s.vane.telemSeq.toNat % s.vane.dest.rslots.toNat)) ∧
        t.vane.telemSeq = s.vane.telemSeq + 1 ∧ t.vane.telemSent = true ∧ t.mem = s.mem ∧ t.teams = s.teams)) ∧
  (∀ m s, let u := passTime s
    (m.domain ≠ s.loom.telem.ptpdom → exec (.ptpSync m) s = .next u) ∧
    (m.domain = s.loom.telem.ptpdom → m.twoStep = true →
      exec (.ptpSync m) s = .next { u with ptp := { u.ptp with twoStep := some (timeNs u) } }) ∧
    (m.domain = s.loom.telem.ptpdom → m.twoStep = false →
      ∃ t, exec (.ptpSync m) s = .next t ∧ Spec.Synced u t m.origin (timeNs u))) ∧
  (∀ origin s, (s.ptp.twoStep = none → exec (.ptpFollowUp origin) s = .next s) ∧
    (∀ a, s.ptp.twoStep = some a → ∃ t, exec (.ptpFollowUp origin) s = .next t ∧ Spec.Synced s t origin a)) ∧
  (∀ n received s, (∀ sent : Nat, s.ptp.request = some (n, sent) → exec (.ptpDelayResp n received) s =
      .next { s with ptp := { s.ptp with delay := (s.ptp.syncDiff + ((received : Int) - (sent : Int))) / 2, request := none } }) ∧
    ((∀ sent : Nat, s.ptp.request ≠ some (n, sent)) → exec (.ptpDelayResp n received) s = .next s)) ∧
  (∀ s, (s.ptp.sync ≠ 1 → exec .ptpHoldover s = .next s) ∧
    (s.ptp.sync = 1 → ∃ t, exec .ptpHoldover s = .next t ∧ t.ptp.sync = 2 ∧ t.ptp.since = Nat.max s.ptp.since (2 * 10 ^ 9) ∧
      { t with ptp := s.ptp, tick := s.tick } = s)) ∧
  (∀ f s c, Spec.Takes 0xB0 true false [(8, 16)] f s c →
    let r := exec (.patchLoad f) s
    let a := fld f 8 8
    let n := fld f 0x10 8
    (c.bufferOk a n [.read] = false → Spec.refused r c 2) ∧ (c.bufferOk a n [.read] = true → n < 256 → Spec.refused r c 1) ∧
    (c.bufferOk a n [.read] = true → 256 ≤ n → (∃ t st, r = .next (finish t c.q c.p st 0)) ∧
      (patchOf (c.bufferBytes a (Nat.min n (256 + 4 * 2 ^ 20))) = none → Spec.refused r c 1) ∧
      (∀ p, patchOf (c.bufferBytes a (Nat.min n (256 + 4 * 2 ^ 20))) = some p →
        (allIdle c.s = false → Spec.refused r c 4) ∧
        (allIdle c.s = true → Spec.acts r c 0 fun t => t = { c.s with loom := { c.s.loom with patch := some p } })))) ∧
  (∀ f s c, Spec.Takes 0xB1 true true [(8, 48)] f s c →
    let r := exec (.attest f) s
    let a := fld f 0x30 8
    (c.bufferOk a 512 [.write] = false → Spec.refused r c 2) ∧
    (∀ fn va, c.buffer a = some (fn, va) → c.bufferOk a 512 [.write] = true → cpDie c.q < c.s.mem.views.length →
      Spec.acts r c 0 fun t => t.teams = c.s.teams ∧ t.xlat = c.s.xlat ∧ t.loom.objs = c.s.loom.objs ∧
        readBytes t (cpDie c.q) (gkey fn va) 512 = (Config.attestation (attested c) ++ leBytes 512 0).take 512))

/-! ### Errors, watchdogs, resets (25; 26 R378) -/

/-- One machine-check entry of a code stands in queue 0's log, or has been dropped where the log is full (23 R330, R343; 25 R364). -/
def Sys2Proof.Spec.logged (s t : State) (code : Nat) : Prop :=
  let k := getQueue s 0
  (k.eprod - k.econs ≠ 512 → (getQueue t 0).eprod = k.eprod + 1 ∧ ∃ e : Entry, e.kind = 0x20 ∧ e.cause = code ∧
    memRead t.loom.ctl (0x28000 + 64 * (k.eprod.toNat % 512)) 64 = e.bytes k.eprod.toNat) ∧
  (k.eprod - k.econs = 512 → (getQueue t 0).eprod = k.eprod ∧ (getQueue t 0).dropped = k.dropped + 1)

/-- What an uncorrectable error leaves of its unit: poison, or in the accumulator store a wrong value (25 R354). -/
def Sys2Proof.Spec.spoiled (s t : State) : EccUnit → Prop
  | .memory fn addr => s.mem.views.length = 4 → ∀ d, d < 4 → poisonAt t d (gkey fn addr) = true ∧ (viewOf t.mem d).mem = (viewOf s.mem d).mem
  | .scratch c o => scrPoisonAt (getCluster t c) o = true ∧ (getCluster t c).scr = (getCluster s c).scr
  | .vreg tid wid lane reg => ∀ w x, Safety.weftIn s tid wid = some w → w.alloc.getLsbD reg = true → w.at lane = some x →
      ∃ v y, Safety.weftIn t tid wid = some v ∧ v.at lane = some y ∧ y.reg reg = { x.reg reg with poison := true }
  | .xreg tid reg => ∀ h, Safety.hartIn s tid = some h → reg < 32 → ∃ g, Safety.hartIn t tid = some g ∧
      g.pois = if reg = 0 then h.pois else h.pois ||| ((1 : BitVec 32) <<< reg)
  | .feedRow c fd row => spGet false (spGet Feed.reset (getCluster t c).mx.feeds fd).pois row = true
  | .accum c slot row col v => (spGet Elem.zero (getSlot (getCluster t c) slot).elems (64 * row + col)).val = v

/-- The entry that a millisecond's corrected errors of a unit's die have in queue 0 (25 R364). -/
def Sys2Proof.Spec.mergedAt (s t : State) (u : EccUnit) : Option Merged :=
  t.loom.merged.find? fun m => decide (m.queue = 0) && decide (m.code = 1) && decide (m.die = unitDie s u)

/-- Uncorrectable storage errors, dropped requests and lost heartbeats are reported with their codes, corrected errors are counted in their
millisecond's entry; an uncorrectable one poisons its unit; a patrol scrub changes nothing that a program sees (23 R345; 25 R354, R360,
R364). -/
def Obligations.StorageErrorsAndHeartbeats : Prop :=
  (∀ u s, ∃ t, exec (.eccCorrected u) s = .next t ∧ { t with loom := s.loom } = s ∧ { t.loom with merged := s.loom.merged } = s.loom ∧
    ∃ m, Spec.mergedAt s t u = some m ∧ (∀ x, Spec.mergedAt s s u = some x → m.entry.lanes = x.entry.lanes + 1) ∧
      (Spec.mergedAt s s u = none → m.entry.lanes = 1 ∧ m.entry.kind = 0x20 ∧ m.entry.cause = 1)) ∧
  (∀ u s, ∃ t, exec (.eccUncorrectable u) s = .next t ∧ Spec.spoiled s t u ∧ t.tasks = s.tasks ∧ t.xlat = s.xlat ∧ t.heddle = s.heddle ∧
    ((∀ c slot row col v, u ≠ .accum c slot row col v) → Spec.logged s t 2) ∧
    (∀ c slot row col v, u = .accum c slot row col v → t.loom = s.loom)) ∧
  (∀ fn addr s, exec (.patrolScrub fn addr) s = .next s) ∧
  (∀ c fn addr s, ∃ t, exec (.functionTagDrop c fn addr) s = .next t ∧ { t with loom := s.loom } = s ∧ Spec.logged s t 7) ∧
  (∀ (o x : BitVec 2) missed s,
    let pair := (o = 0 ∧ x ≠ 0) ∨ (o = 1 ∧ x = 0)
    let dead := spGet false s.loom.deadCp o.toNat = true ∨ spGet false s.loom.deadCp x.toNat = true
    (¬ pair ∨ dead → exec (.heartbeat o x missed) s = .next s) ∧
    (pair → ¬ dead → ∃ t, exec (.heartbeat o x missed) s = .next t ∧ { t with loom := s.loom } = s ∧
      (missed = false → spGet 0 t.loom.missed x.toNat = 0 ∧ t.loom.deadCp = s.loom.deadCp) ∧
      (missed = true → spGet 0 s.loom.missed x.toNat + 1 < s.loom.wd.pcount →
        spGet 0 t.loom.missed x.toNat = spGet 0 s.loom.missed x.toNat + 1 ∧ t.loom.deadCp = s.loom.deadCp) ∧
      (missed = true → s.loom.wd.pcount ≤ spGet 0 s.loom.missed x.toNat + 1 →
        spGet false t.loom.deadCp x.toNat = true ∧ t.loom.resetRequested = true ∧ Spec.logged s t 9)))

/-- The watchdogs count and end: a wait that expires WCOUNT times ends its team, a cluster some of whose work
stands still for CCOUNT periods in a row is fenced and every team on it ends; an error in unpoisoned state ends the teams that it serves; a module that asked for a reset, or is powered on,
resets (25 R356, R358, R359; 26 R378). -/
def Obligations.WatchdogsAndResets : Prop :=
  (∀ tid wid s t w, getTeam s tid = some t → t.weft? wid = some w →
    let still := timersStill s t = true ∨ watchedWait w.wait = false
    (still → exec (.waitPeriodExpiry (.weft tid wid)) s = .next s) ∧
    (¬ still → w.expiries + 1 < s.loom.wd.wcount → ∃ u v, exec (.waitPeriodExpiry (.weft tid wid)) s = .next u ∧
      Safety.OnlyWeft s u tid wid ∧ Safety.weftIn u tid wid = some v ∧ v = { w with expiries := w.expiries + 1 }) ∧
    (¬ still → s.loom.wd.wcount ≤ w.expiries + 1 → ∃ u, exec (.waitPeriodExpiry (.weft tid wid)) s = .next u ∧
      getTeam u tid = none)) ∧
  (∀ tid s t h, getTeam s tid = some t → t.hart = some h →
    let still := timersStill s t = true ∨ watchedHart h = false
    (still → exec (.waitPeriodExpiry (.hart tid)) s = .next s) ∧
    (¬ still → h.expiries + 1 < s.loom.wd.wcount → ∃ u g, exec (.waitPeriodExpiry (.hart tid)) s = .next u ∧
      Safety.OnlyHart s u tid ∧ Safety.hartIn u tid = some g ∧ g = { h with expiries := h.expiries + 1 }) ∧
    (¬ still → s.loom.wd.wcount ≤ h.expiries + 1 → ∃ u, exec (.waitPeriodExpiry (.hart tid)) s = .next u ∧
      getTeam u tid = none)) ∧
  (∀ c i s tid t o l, (getCtx (getCluster s c).mx i).tid = some tid → getTeam s tid = some t → (getCtx (getCluster s c).mx i).ops = o :: l →
    let x := getCtx (getCluster s c).mx i
    let n := if x.waitMark = (o.num, x.steps, x.latches) then x.expiries else 0
    (watchedCtx s c i = false ∨ timersStill s t = true → exec (.waitPeriodExpiry (.context c i)) s = .next s) ∧
    (watchedCtx s c i = true → timersStill s t = false →
      (s.loom.wd.wcount ≤ n + 1 → ∃ u, exec (.waitPeriodExpiry (.context c i)) s = .next u ∧ getTeam u tid = none) ∧
      (n + 1 < s.loom.wd.wcount → ∃ u, exec (.waitPeriodExpiry (.context c i)) s = .next u ∧ u.teams = s.teams ∧ u.mem = s.mem ∧
        (getCtx (getCluster u c).mx i).expiries = n + 1))) ∧
  (∀ (die : BitVec 2) n s, let c := 40 * die.toNat + n
    let k := getCluster s c
    let marks := engineMarks s c
    let stalled := ∃ m ∈ marks, m ∈ k.seen
    (40 ≤ n ∨ k.fenced = true → exec (.clusterPeriodCheck die n) s = .next s) ∧
    (n < 40 → k.fenced = false →
      (¬ stalled → exec (.clusterPeriodCheck die n) s = .next (updCluster s c fun k => { k with stalled := 0, seen := marks })) ∧
      (stalled → k.stalled + 1 < s.loom.wd.ccount →
        exec (.clusterPeriodCheck die n) s = .next (updCluster s c fun k => { k with stalled := k.stalled + 1, seen := marks })) ∧
      (stalled → s.loom.wd.ccount ≤ k.stalled + 1 → ∃ t, exec (.clusterPeriodCheck die n) s = .next t ∧
        (getCluster t c).fenced = true ∧ ∀ m ∈ t.teams, m.place.cluster ≠ c))) ∧
  (∀ tid wid s t, getTeam s tid = some t → ∀ u ∈ [BareUnit.team tid, .weft tid wid],
    ∃ v, exec (.unpoisonedStateError u) s = .next v ∧ getTeam v tid = none) ∧
  (∀ c s, (160 ≤ c ∨ (getCluster s c).fenced = true → exec (.unpoisonedStateError (.cluster c)) s = .next s) ∧
    (c < 160 → (getCluster s c).fenced = false → ∃ t, exec (.unpoisonedStateError (.cluster c)) s = .next t ∧
      (getCluster t c).fenced = true ∧ ∀ m ∈ t.teams, m.place.cluster ≠ c)) ∧
  (∀ s, exec .powerOn s = .next (moduleReset s) ∧ exec .selfReset s = .next (if s.loom.resetRequested then moduleReset s else s) ∧
    { moduleReset s with agenda := State.reset.agenda, tick := State.reset.tick, nextId := State.reset.nextId,
                         loom := { (moduleReset s).loom with checkpoints := [] } } = State.reset)

/-! ### The fabric (26 R375 to R377) -/

/-- The module has answered one request. -/
def Sys2Proof.Spec.answered (s t : State) (ok poison : Bool) (data : Nat) : Prop :=
  t.weave.responses = s.weave.responses ++ [{ ok := ok, poison := poison, data := data }]

/-- The module has refused one request, and nothing else of it changed. -/
def Sys2Proof.Spec.refusedRequest (r : Result) (s : State) : Prop :=
  ∃ t, r = .next t ∧ { t with weave := s.weave } = s ∧ Spec.answered s t false false 0

/-- What an access from outside needs. -/
def Sys2Proof.Spec.need (write : Option Nat) : Need := if write.isSome then .write else .read

/-- An access of n bytes from outside to a function's memory is answered with an error where it is not aligned, or, once the pages that it meets
are mapped on demand, where one of the accesses that it is made of may not be made; a read of a chunk that is not resident waits for it; else it
is answered, with data where it reads. One of 1, 2, 4 or 8 bytes of this module reads what some die sees, the host's after what the host has
acquired and its own writes to these bytes; it writes on some die, and is in transit to the others, the host's as a write of the host (03 R45 to
R50, R55; 05 R85; 23 R335; 26 R375, R376; a larger one: log entry 87, DEDUCED). -/
def Sys2Proof.Spec.outside (r : Result) (s : State) (w : Outsider) (fn : Nat) (secure : Bool) (a n : Nat) (write : Option Nat) : Prop :=
  let u := mapRange s fn a n
  let k := gkey fn a
  let fits := s.loom.draining ≠ some fn ∧ a + n ≤ 2 ^ 56 ∧
    (if n ∈ [1, 2, 4, 8] then a % n = 0 else n ≠ 0 ∧ a % 4 = 0 ∧ n % 4 = 0)
  (¬ fits → Spec.refusedRequest r s) ∧
  (fits → outsideOk u fn secure (pieces a n) [Spec.need write] = false → Spec.refusedRequest r u) ∧
  (fits → outsideOk u fn secure (pieces a n) [Spec.need write] = true → write = none → missingOf u fn (upFrom a n) ≠ none → r = .next u) ∧
  (fits → outsideOk u fn secure (pieces a n) [Spec.need write] = true → write ≠ none ∨ missingOf u fn (upFrom a n) = none →
    (∃ t p v, r = .next t ∧ Spec.answered u t true p v ∧ t.teams = s.teams ∧ t.xlat = u.xlat ∧ (write ≠ none → p = false ∧ v = 0)) ∧
    (n ∈ [1, 2, 4, 8] → a % n = 0 → isRemote u fn a = false → u.mem.views.length = 4 →
      (write = none → ∃ t d, r = .next t ∧ d < 4 ∧
        let own := (meeting u.mem k n).filter u.weave.hostOwn.contains
        let m := if w = .host then bring u d (unionIds [u.weave.hostAcq, own]) else u
        t.mem = m.mem ∧ Spec.answered u t true (anyPoison m d k n) (readNat m d k n)) ∧
      (∀ v, write = some v → ∃ t d, r = .next t ∧ d < 4 ∧ readNat t d k n = v % 2 ^ (8 * n) ∧
        ∃ e ∈ t.mem.transit, e.addr = k ∧ e.origin = d ∧ e.bytes = leBytes n (v % 2 ^ (8 * n)) ∧
          (w = .host → e.id ∈ t.weave.hostOwn) ∧ (w = .module → t.weave.hostOwn = u.weave.hostOwn))))

/-- The agent is neither a cluster nor a command. -/
def Sys2Proof.Spec.ofTeam (s : State) : Prop := (∀ c, s.cur ≠ .cluster c) ∧ ∀ q n, s.cur ≠ .command q n

/-- Requests of other modules and of hosts, undeliverable requests of teams, copies and the Loom, and ports that fail or train (19 R301, R303; 23
R335, R337; 26 R375 to R377). With no port up no request comes in. A request is judged in the world of its port's function (log entry 39,
DEDUCED), and traffic passes where any port is up (log entry 8, DESIGN CHOICE). -/
def Obligations.FabricAccesses : Prop :=
  (∀ s q r, linked s = false → exec (.weaveRequest q) s = .next s ∧ exec (.hostWindowAccess r) s = .next s) ∧
  (∀ port off n write s b, linked s = true → getPort s port = some b →
    (b.holds off n [if write.isSome then 1 else 0] = false → Spec.refusedRequest (exec (.weaveRequest (.access port off n write)) s) s) ∧
    (b.holds off n [if write.isSome then 1 else 0] = true →
      Spec.outside (exec (.weaveRequest (.access port off n write)) s) s .module b.fn (worldOf s b.fn) (b.va + off) n write)) ∧
  (∀ port s, linked s = true → getPort s port = none →
    (∀ off n w, Spec.refusedRequest (exec (.weaveRequest (.access port off n w)) s) s) ∧
    (∀ off aop v e, Spec.refusedRequest (exec (.weaveRequest (.atomic port off aop v e)) s) s) ∧
    ∀ d a b l, Spec.refusedRequest (exec (.weaveRequest (.card port d a b l)) s) s) ∧
  (∀ port off aop v e s b, linked s = true → getPort s port = some b →
    let r := exec (.weaveRequest (.atomic port off aop v e)) s
    let u := mapRange s b.fn (b.va + off) 4
    let k := gkey b.fn (b.va + off)
    (b.holds off 4 [0, 1] = false → Spec.refusedRequest r s) ∧
    let fits := s.loom.draining ≠ some b.fn ∧ b.va + off + 4 ≤ 2 ^ 56 ∧ (b.va + off) % 4 = 0
    (b.holds off 4 [0, 1] = true → ¬ fits → Spec.refusedRequest r s) ∧
    (b.holds off 4 [0, 1] = true → fits → outsideOk u b.fn (worldOf s b.fn) [(b.va + off, 4)] [.read, .write] = false → Spec.refusedRequest r u) ∧
    (b.holds off 4 [0, 1] = true → fits → outsideOk u b.fn (worldOf s b.fn) [(b.va + off, 4)] [.read, .write] = true →
      missingOf u b.fn (upFrom (b.va + off) 4) ≠ none → r = .next u) ∧
    (b.holds off 4 [0, 1] = true → fits → outsideOk u b.fn (worldOf s b.fn) [(b.va + off, 4)] [.read, .write] = true →
      missingOf u b.fn (upFrom (b.va + off) 4) = none →
      isRemote u b.fn (b.va + off) = false → u.mem.views.length = 4 →
      ∃ t d, r = .next t ∧ d < 4 ∧ t.teams = s.teams ∧
        let m : State := { u with mem := catchUp u.mem d k 4 }
        Spec.answered u t true (poisonAt m d k) (readNat m d k 4) ∧
        readNat t d k 4 = (atomicNew aop (BitVec.ofNat 32 (readNat m d k 4)) v e).toNat)) ∧
  (∀ port die a tcb tiles s b, linked s = true → getPort s port = some b → tcb.length = 128 → a % 128 = 0 → s.loom.draining ≠ some b.fn →
    let parts := (a, tcb) :: tiles
    let u := parts.foldl (fun s x => mapRange s b.fn x.1 x.2.length) s
    (∀ x ∈ parts, b.va ≤ x.1 ∧ b.holds (x.1 - b.va) x.2.length [1] = true ∧
      checkRange u b.fn (worldOf s b.fn) x.1 x.2.length [.write] = none) →
    let k := tcbTask b.fn (worldOf s b.fn) (die % 4) a tcb
    ∃ t, exec (.weaveRequest (.card port die a tcb tiles)) s = .next t ∧ t.teams = s.teams ∧
      (enqStatus s k tcb true ≠ 0 → t.tasks = s.tasks ∧ Spec.answered s t false false 0) ∧
      (enqStatus s k tcb true = 0 → Spec.answered s t true false 0 ∧ t.tasks.seq = s.tasks.seq + 1 ∧ Spec.joins s t k [])) ∧
  (∀ (r : HostReq) s, linked s = true → r.addr / 2 ^ 56 = 0 →
    let off := r.addr % 2 ^ 56
    let bad := (r.size ≠ 4 ∧ r.size ≠ 8) ∨ off % r.size ≠ 0 ∨ 0x10000004 ≤ off
    (bad → Spec.refusedRequest (exec (.hostWindowAccess r) s) s) ∧
    (¬ bad → (∀ v u, r.write = some v → exec (.registerWrite off r.size (BitVec.ofNat 64 v)) s = .next u →
        ∃ t, exec (.hostWindowAccess r) s = .next t ∧ { t with weave := u.weave } = u ∧ Spec.answered u t true false 0) ∧
      (r.write = none → ∃ t, exec (.hostWindowAccess r) s = .next t ∧ { t with weave := s.weave } = s ∧
        Spec.answered s t true false (controlWord s off + if r.size = 8 then 2 ^ 32 * controlWord s (off + 4) else 0)))) ∧
  (∀ (r : HostReq) s g, linked s = true → r.addr / 2 ^ 56 = 4 + g → g < 4 →
    Spec.outside (exec (.hostWindowAccess r) s) s .host g r.secure (r.addr % 2 ^ 56) r.size r.write) ∧
  (∀ (r : HostReq) s, linked s = true → (r.addr / 2 ^ 56 ∈ [1, 2, 3] ∨ 8 ≤ r.addr / 2 ^ 56) →
    Spec.refusedRequest (exec (.hostWindowAccess r) s) s) ∧
  (∀ op s o t a, Spec.ofTeam s → getOp s op = some o → getTeam s o.tid = some t → o.accs = [a] → a.remote = true → a.done = false →
    (o.kind = .store ∨ (∃ aop r, o.kind = .atomic aop r) → ∃ u, exec (.undeliverableTimeout op) s = .next u ∧ getTeam u o.tid = none) ∧
    (∀ b, o.kind = .load b → ∃ u, exec (.undeliverableTimeout op) s = .next u ∧ ∃ x y, getOp u op = some x ∧ x.accs = [y] ∧ y.done = true ∧
      y.resPoison = true ∧ y.addr = a.addr)) ∧
  (∀ s tid t h, Spec.ofTeam s → getOp s tid = none → getTeam s tid = some t → t.hart = some h →
    (∀ rd a n sext, h.wait = .load rd a n sext → isRemote s t.fn a.toNat = true → t.partner = none →
      ∃ u v, exec (.undeliverableTimeout tid) s = .next u ∧
        Spec.retiredHart u tid h (h.pc + 4) fun h => { h.wr rd v true with granted := false }) ∧
    (∀ a, h.wait = .retry (Why.remote a false).code → ∃ u g, exec (.undeliverableTimeout tid) s = .next u ∧ Safety.hartIn u tid = some g ∧
      g = { h with wait := .retry (Why.remote a true).code }) ∧
    (h.wait = .none → (∃ x ∈ h.stores, isRemote s t.fn x.addr.toNat = true) →
      ∃ u, exec (.undeliverableTimeout tid) s = .next u ∧ getTeam u tid = none)) ∧
  (∀ s c ch num x t, s.cur = .cluster c → ch < 16 → Spec.Moves s c ch num x t →
    let toAsk (i : Nat) := Spec.toWrite x i ∧ x.got i = none ∧ isRemote s t.fn (Spec.sourceAt x i) = true
    let toGive (f : Fetched) := x.tmpl.dstScratch = false ∧ x.tmpl.dstFeed = false ∧ isRemote s t.fn (x.tmpl.byteAt x.disp f.idx) = true
    ((∃ f ∈ x.fetched, toGive f) → ∃ u, exec (.undeliverableTimeout (16 * num + ch)) s = .next u ∧ getTeam u t.tid = none) ∧
    (Spec.readsMemory x → (∀ f ∈ x.fetched, ¬ toGive f) → (∃ i, toAsk i) →
      (∀ i, toAsk i → checkAccess s t.fn t.secure (Spec.sourceAt x i : Int) 1 false [.read] = none ∧ missingOf s t.fn [Spec.sourceAt x i] = none) →
      ∃ u y i b, exec (.undeliverableTimeout (16 * num + ch)) s = .next u ∧ toAsk i ∧ findCopy u c ch num = some y ∧
        y.fetched = x.fetched ++ [{ idx := i, byte := b, poison := true, start := x.bitpos }])) ∧
  (∀ s q n op, s.cur = .command q n →
    ((getQueue s q).pending.find? (fun p => p.opc = 0x62) = none → exec (.undeliverableTimeout op) s = .next s) ∧
    (∀ p fn, (getQueue s q).pending.find? (fun p => p.opc = 0x62) = some p → fnOfQueue s q = some fn → cpDead s q = false →
      (getQueue s q).backlog = [] →
      (isRemote s fn p.addr = false → exec (.undeliverableTimeout op) s = .next s) ∧
      (isRemote s fn p.addr = true → ∃ u v, exec (.undeliverableTimeout op) s = .next (if p.value.toNat ≤ v then finish u q p 0 0 else u) ∧
        { u with loom := s.loom, tick := s.tick } = s ∧ Spec.logged s u 0x0B))) ∧
  (∀ s p, s.cur = .port p → p < 24 →
    (∃ t, exec .portTrainingComplete s = .next t ∧ spGet WeavePort.reset t.weave.ports p = { up := true, retries := 0 } ∧
      { t with weave := s.weave } = s) ∧
    ∃ t, exec .flitCheckFail s = .next t ∧ t.teams = s.teams ∧ t.mem = s.mem ∧
      let w := spGet WeavePort.reset s.weave.ports p
      (w.up = false → t = s) ∧
      (w.up = true → (spGet WeavePort.reset t.weave.ports p = { up := true, retries := 0 } ∨
        (w.retries + 1 < 16 ∧ spGet WeavePort.reset t.weave.ports p = { up := true, retries := w.retries + 1 }) ∨
        (16 ≤ w.retries + 1 ∧ spGet WeavePort.reset t.weave.ports p = { up := false, retries := 0 }))))

/-! ### Reset, the step, encodings, memory -/

/-- After reset no function is assigned and every count of every queue is 0; WDCFG, POWER.SET and TELEMETRY.SET hold their defaults and no
patch is active; time is free-running from 0; every core is at ZEPHYR and no team is resident; memory reads zero and is not poisoned; the port
towards the host is up, which is the model's choice (log entry 8), and scratchpad bytes are 0, which is the model's too (log entry 3) (26 R378;
25 R357; 26 R367, R373). -/
def Obligations.ResetState : Prop :=
  (∀ fn, getFunc State.reset fn = none) ∧
  (∀ q, getQueue State.reset q = { prod := 0, cons := 0, cprod := 0, ccons := 0, eprod := 0, econs := 0, dropped := 0, pending := [],
                                   backlog := [], stopped := false, acq := [], rel := [] }) ∧
  State.reset.loom.wd = { wperiod := 10000, cperiod := 10000, wcount := 4, ccount := 3, pcount := 3 } ∧
  State.reset.loom.power = { ceil := 2200, rise := 200, fall := 200, bmax := 400, pmode := 7 } ∧
  State.reset.loom.telem.tdest = 0 ∧ State.reset.loom.patch = none ∧
  timeNs State.reset = 0 ∧ State.reset.ptp.sync = 0 ∧
  (∀ c i, getCore State.reset c i = { pt := 3, moving := none, last := [] }) ∧ State.reset.teams = [] ∧
  (∀ d, d < 4 → ∀ a, readBytes State.reset d a 1 = [0] ∧ poisonAt State.reset d a = false) ∧
  (∀ c o, memGet (getCluster State.reset c).scr o = 0) ∧ State.reset.tasks.seq = 1 ∧
  (∀ p, (spGet WeavePort.reset State.reset.weave.ports p).up = decide (p = 0))

/-- A step takes the turn that the agenda names, or where it is empty one that is free (log entry 1). A weft whose slot serves it executes the
header or the word that its position names, a ready hart whose turn of its control core it is the word at its pc, a command processor the frame
at CONS, the device an event; each as exec says, in the state in which it is the current agent. One that waits in a word or an instruction
executes it again to find out whether it may go on. A header that is none, or a word that decodes to nothing, raises ILLEGAL (02 R36, 06 R100
to R104, 15 R211, R220, R223, 23 R330). Which instructions M-mode code runs is log entry 73 (DESIGN CHOICE), and mtval 1 of a custom-1 word that
decodes to nothing log entry 38 (DEDUCED). -/
def Obligations.StepRunsTheDecoded : Prop :=
  (∀ s, s.agenda = [] → step s = match Config.nextTurn s.tick with
    | none => .next { s with tick := s.tick + 1 }
    | some m => step { s with agenda := [m], tick := s.tick + 1 }) ∧
  (∀ s tid wid l t w, s.agenda = .weft tid wid :: l →
    let s' := { s with agenda := l, cur := .weft tid wid }
    getTeam s tid = some t → t.weft? wid = some w → w.strands ≠ [] → mayIssue s' t w = true →
    (∀ u, (w.wait = .none ∧ w.active = true ∧ slotTurn s' t w = true ∧ u = serveSlot s' t w) ∨ ((∃ n, w.wait = .retry n) ∧ u = s') →
      spanReady u t w = true →
      (∀ h, w.pos.started = false → vtextWord u t w w.pos.clause = some h → step s = exec (.clauseStart (decodeHeader h)) u) ∧
      (w.pos.started = false → vtextWord u t w w.pos.clause = none → step s = pollOr u t w (illegalClause u t w)) ∧
      (∀ a i, w.pos.started = true → vtextWord u t w w.pos.offset = some a →
        decodeVector a ((vtextWord u t w (w.pos.offset + 4)).getD 0) = .ok i → step s = exec i u) ∧
      (∀ a e, w.pos.started = true → vtextWord u t w w.pos.offset = some a →
        decodeVector a ((vtextWord u t w (w.pos.offset + 4)).getD 0) = .error e → step s = pollOr u t w (illegalWord u t w))) ∧
    (w.wait = .none → w.active = true → slotTurn s' t w = false → step s = .next s')) ∧
  (∀ s tid l t h, s.agenda = .hart tid :: l →
    let s' := { s with agenda := l, cur := .hart tid }
    getTeam s tid = some t → t.hart = some h → hartMayIssue s' t h = true →
    (∀ u m g, (h.wait = .none ∧ (∃ v, v = turnFor s' t.place.cluster h.num ∧ getTeam v tid = some m ∧ m.hart = some g ∧
          hartReady v m g = true ∧ hartTurn v m.place.cluster g.num = true ∧ u = serveHart v m.place.cluster g.num)) ∨
        ((h.wait = .hend ∨ ∃ n, h.wait = .retry n) ∧ u = s' ∧ m = t ∧ g = h) →
      ∀ o a, getObj u m.obj = some o → g.pc.toNat % 4 = 0 → o.ctext[g.pc.toNat / 4]? = some a → textReady u m true g.pc.toNat = true →
      (∀ i, decodeHart a = .ok i → step s = exec i u) ∧
      (∀ e, decodeHart a = .error e → step s = hartPoll u m g (hartIllegal u m g (ofBool (a.extractLsb' 0 7 = 0x2B)))))) ∧
  (∀ s c n i l, s.agenda = .event (.machine c n) i :: l →
    let v := turnFor { s with agenda := l, cur := .machine c n } c n
    machineRuns i = true → c < 160 → n < 16 → (∀ t ∈ s.teams, t.place.cluster = c → ∀ h, t.hart = some h → h.num ≠ n) →
    (∀ j, (spGet (Hart.reset, none) (getCluster s c).machine n).2 = some j → j = i) → hartTurn v c n = true →
    step s = exec i (updCluster (serveHart v c n) c fun k =>
      { k with machine := spSet (Hart.reset, none) k.machine n ((spGet (Hart.reset, none) k.machine n).1, some i) })) ∧
  (∀ s q l, s.agenda = .loom q :: l →
    let s' := { s with agenda := l }
    (∀ t, progress s' q = some t → step s = .next t) ∧
    (progress s' q = none → mayTake s' q = true →
      step s = exec (decodeFrame (frameAt s q (getQueue s q).cons.toNat)) { s' with cur := .command q (getQueue s q).cons }) ∧
    (progress s' q = none → mayTake s' q = false → step s = .next s')) ∧
  (∀ s a i l, s.agenda = .event a i :: l → (∀ c n, a ≠ .machine c n) →
    (isEvent i = true → step s = exec i { s with agenda := l, cur := a }) ∧ (isEvent i = false → step s = .next { s with agenda := l })) ∧
  (∀ s l k, (∀ d, d < 4 → s.agenda = .deliver d k :: l → step s = .next (deliverAt { s with agenda := l } d k)) ∧
    ∀ op, s.agenda = .element op k :: l → step s = .next (elementTurn { s with agenda := l } op k))

/-- Words written out from the encoding tables decode to their instructions: the examples that the specification gives of each family (05
R105, 06 R100 to R112, 08 R137, R141, R152, 09 R158, R161, 10 R177 to R186, 11 R190 to R204, 15 R229 to R235, 17 R266 to R275, 19 R301). -/
def Obligations.DecodeWords : Prop :=
  decodeHeader 0x09080483 = { resv := 0, yld := true, fb := 2, fa := 1, wm := 9, cls := 0, cnt := 3 } ∧
  decodeVector 0x003040B8 0 =
    .ok (.iadd { vd := 6, sx := 4, sy := 5, lx := true, ly := true, hx := false, hy := false, ext := none }) ∧
  decodeVector 0x42386871 0x00205000 =
    .ok (.fadd { vd := 7, sx := 6, sy := 0x43, lx := true, ly := false, hx := false, hy := false,
                 ext := some { sz := 0, lz := false, hz := false, xm := 2, xk := 1, rm := 1, sat := false, nx := false, ny := false } }) ∧
  decodeVector 0x5A180001 0x0F0F0F0F = .ok (.movi { vd := 3, imm := 0x0F0F0F0F }) ∧
  decodeVector 0x32082820 0 =
    .ok (.cmplt { md := 1, sx := 2, sy := 0x41, lx := false, ly := false, hx := false, hy := false, ext := none }) ∧
  decodeVector 0x6A400301 0x84000000 =
    .ok (.nrw4 { vd := 8, sx := 0, fmt := 3, grp := 0, lx := false, hx := false,
                 ext := some { sz := 0x42, lz := false, hz := false, xm := 0, xk := 0, rm := 0, sat := false, nx := false, ny := false } }) ∧
  decodeVector 0xDA001020 0 = .ok (.mor { md := 0, mx := 1, my := 1, ext := none }) ∧
  decodeVector 0xDC180000 0 = .ok (.regroup 3) ∧
  decodeVector 0x88202008 0 = .ok (.ldg32 { vd := 4, sx := 2, ofs := 1, lx := false, nt := false, ext := none }) ∧
  decodeVector 0x90340001 0xD0500000 =
    .ok (.stg32 { vd := 6, sx := 0x40, ofs := 0, lx := false, nt := false,
                  ext := some { sz := 0x68, lz := false, hz := false, ord := 2, scp := 4, aop := 0 } }) ∧
  decodeVector 0x98000001 0x00440000 = .ok (.fence { ord := 2, scp := 1 }) ∧
  decodeVector 0x9A0C3000 0 = .ok (.waitp { path := 1, sx := 0x43 }) ∧
  decodeVector 0xE0003001 0xFFFFFFF4 = .ok (.bru { sx := 3, inv := false, lx := false, disp := 0xFFFFFFF4 }) ∧
  decodeVector 0xEC046010 0 = .ok (.nbar 0x46 2) ∧
  decodeVector 0xF80F2000 0 = .ok (.veer 1 0x72) ∧
  decodeHart 0x0205128B = .ok (.uqtry 5 10) ∧
  decodeHart 0x0435360B = .ok (.tlwait 12 10 1 3) ∧
  decodeHart 0x00E51A2B = .ok (.mldw 20 10 14) ∧
  decodeHart 0x00F40AAB = .ok (.mmulMap 21 8 15) ∧
  decodeHart 0x0043E02B = .ok (.mchain 0 7 1 0) ∧
  decodeHart 0x000502DB = .ok (.tenq 5 10) ∧
  (∀ f : Frame, f.opc = 0x10 → decodeFrame f = .map f)

/-- The instructions that a hart decodes (15 R211, R226). -/
def Sys2Proof.Spec.isHart : Instr → Bool
  | .hend | .hpause | .uqpush _ | .uqtry _ _ | .tlrd _ _ _ | .tlwait _ _ _ _ | .xfence _ _ | .hartLoad _ _ _ _ | .hartStore _ _ _ _
  | .hartAmo _ _ _ _ _ _ _ | .lr _ _ _ _ _ | .sc _ _ _ _ _ _ | .hartFence _ _ _ | .fenceI | .wfi | .ecall | .ebreak
  | .csrAccess _ _ _ _ _ | .rv64Instruction _ | .mmulMap _ _ _ | .mmulFeed _ _ _ | .mmulWest _ _ | .mldw _ _ _ | .mdrain _ _ _
  | .mzero _ _ | .mstat _ | .mbegin _ _ | .mend _ | .mchain _ _ _ _ | .tenq _ _ | .tsig _ _ | .tcard _ _ => true
  | _ => false

/-- Decoding the words of a well-formed instruction gives it back, whatever follows them; an event has no words (06 R100 to R112, 15 R211,
R225, R226, 23 R331, R336). -/
def Obligations.EncodeThenDecode : Prop :=
  ∀ i : Instr, i.wf = true →
    (isEvent i = true → encode i = []) ∧
    (∀ f, i.frame? = some f → (encode i).length = 32 ∧ (∀ k, k < 32 → (encode i)[k]? = some (f.extractLsb' (32 * k) 32)) ∧ decodeFrame f = i) ∧
    (∀ h, i = .clauseStart h → ∃ a, encode i = [a] ∧ decodeHeader a = h) ∧
    (Spec.isHart i = true → ∃ a, encode i = [a] ∧ decodeHart a = .ok i) ∧
    (isEvent i = false → i.frame? = none → (∀ h, i ≠ .clauseStart h) → Spec.isHart i = false →
      (∃ a, encode i = [a] ∧ a.getLsbD 0 = false ∧ ∀ x, decodeVector a x = .ok i) ∨
      (∃ a b, encode i = [a, b] ∧ a.getLsbD 0 = true ∧ decodeVector a b = .ok i))

/-- No bit of a word that decodes is dropped: what it decodes to is encoded by that word, so no two words decode to one instruction. A
hart's FENCE and FENCE.I ignore their reserved fields (06 R105 to R112, 15 R211, R225). -/
def Obligations.DecodeThenEncode : Prop :=
  (∀ w x i, decodeVector w x = .ok i → encode i = if w.getLsbD 0 then [w, x] else [w]) ∧
  (∀ w, encode (.clauseStart (decodeHeader w)) = [w]) ∧
  (∀ w i, decodeHart w = .ok i → w.extractLsb' 0 7 ≠ 0x0F → encode i = [w]) ∧
  (∀ w i, decodeHart w = .ok i → w.extractLsb' 0 7 = 0x0F →
    i = .fenceI ∧ w.extractLsb' 12 3 = 1 ∨
    i = .hartFence (w.extractLsb' 28 4) (w.extractLsb' 24 4) (w.extractLsb' 20 4) ∧ w.extractLsb' 12 3 = 0)

/-- The memory that the module has at reset is in canonical form, so equal memories are equal data. -/
def Obligations.ResetMemoryIsCanonical : Prop := Safety.MemoryOk State.reset

/-- Every step keeps the memories of the dies and the control area in canonical form, so that in every run memories that read alike are
equal. -/
def Obligations.StepsKeepCanonicalMemory : Prop :=
  (∀ s t, Safety.MemoryOk s → step s = .next t → Safety.MemoryOk t) ∧
  ∀ s t, Safety.MemoryOk s → Safety.MemoryOk t → s.mem.views.length = t.mem.views.length →
    (∀ d a, memGet (viewOf s.mem d).mem a = memGet (viewOf t.mem d).mem a) → s.mem.views.map (·.mem) = t.mem.views.map (·.mem)
end

