-- ==== Sys2Proof/Laws/State.lean ====
section
/-! SUPPORT. What each primitive update of the state leaves alone: one lemma for each field and update. -/

namespace Sys2Proof.Machine

open Sys2Proof

/-! ### updTeam -/

@[simp] theorem updTeam_agenda (s : State) (tid : Nat) (f : Team → Team) : (updTeam s tid f).agenda = s.agenda := rfl
@[simp] theorem updTeam_cur (s : State) (tid : Nat) (f : Team → Team) : (updTeam s tid f).cur = s.cur := rfl
@[simp] theorem updTeam_tick (s : State) (tid : Nat) (f : Team → Team) : (updTeam s tid f).tick = s.tick := rfl
@[simp] theorem updTeam_nextId (s : State) (tid : Nat) (f : Team → Team) : (updTeam s tid f).nextId = s.nextId := rfl
@[simp] theorem updTeam_mem (s : State) (tid : Nat) (f : Team → Team) : (updTeam s tid f).mem = s.mem := rfl
@[simp] theorem updTeam_xlat (s : State) (tid : Nat) (f : Team → Team) : (updTeam s tid f).xlat = s.xlat := rfl
@[simp] theorem updTeam_clusters (s : State) (tid : Nat) (f : Team → Team) : (updTeam s tid f).clusters = s.clusters := rfl
@[simp] theorem updTeam_vops (s : State) (tid : Nat) (f : Team → Team) : (updTeam s tid f).vops = s.vops := rfl
@[simp] theorem updTeam_tasks (s : State) (tid : Nat) (f : Team → Team) : (updTeam s tid f).tasks = s.tasks := rfl
@[simp] theorem updTeam_heddle (s : State) (tid : Nat) (f : Team → Team) : (updTeam s tid f).heddle = s.heddle := rfl
@[simp] theorem updTeam_loom (s : State) (tid : Nat) (f : Team → Team) : (updTeam s tid f).loom = s.loom := rfl
@[simp] theorem updTeam_vane (s : State) (tid : Nat) (f : Team → Team) : (updTeam s tid f).vane = s.vane := rfl
@[simp] theorem updTeam_ptp (s : State) (tid : Nat) (f : Team → Team) : (updTeam s tid f).ptp = s.ptp := rfl
@[simp] theorem updTeam_weave (s : State) (tid : Nat) (f : Team → Team) : (updTeam s tid f).weave = s.weave := rfl

/-! ### updWeft -/

@[simp] theorem updWeft_agenda (s : State) (tid wid : Nat) (f : Weft → Weft) : (updWeft s tid wid f).agenda = s.agenda := rfl
@[simp] theorem updWeft_cur (s : State) (tid wid : Nat) (f : Weft → Weft) : (updWeft s tid wid f).cur = s.cur := rfl
@[simp] theorem updWeft_tick (s : State) (tid wid : Nat) (f : Weft → Weft) : (updWeft s tid wid f).tick = s.tick := rfl
@[simp] theorem updWeft_nextId (s : State) (tid wid : Nat) (f : Weft → Weft) : (updWeft s tid wid f).nextId = s.nextId := rfl
@[simp] theorem updWeft_mem (s : State) (tid wid : Nat) (f : Weft → Weft) : (updWeft s tid wid f).mem = s.mem := rfl
@[simp] theorem updWeft_xlat (s : State) (tid wid : Nat) (f : Weft → Weft) : (updWeft s tid wid f).xlat = s.xlat := rfl
@[simp] theorem updWeft_clusters (s : State) (tid wid : Nat) (f : Weft → Weft) : (updWeft s tid wid f).clusters = s.clusters := rfl
@[simp] theorem updWeft_vops (s : State) (tid wid : Nat) (f : Weft → Weft) : (updWeft s tid wid f).vops = s.vops := rfl
@[simp] theorem updWeft_tasks (s : State) (tid wid : Nat) (f : Weft → Weft) : (updWeft s tid wid f).tasks = s.tasks := rfl
@[simp] theorem updWeft_heddle (s : State) (tid wid : Nat) (f : Weft → Weft) : (updWeft s tid wid f).heddle = s.heddle := rfl
@[simp] theorem updWeft_loom (s : State) (tid wid : Nat) (f : Weft → Weft) : (updWeft s tid wid f).loom = s.loom := rfl
@[simp] theorem updWeft_vane (s : State) (tid wid : Nat) (f : Weft → Weft) : (updWeft s tid wid f).vane = s.vane := rfl
@[simp] theorem updWeft_ptp (s : State) (tid wid : Nat) (f : Weft → Weft) : (updWeft s tid wid f).ptp = s.ptp := rfl
@[simp] theorem updWeft_weave (s : State) (tid wid : Nat) (f : Weft → Weft) : (updWeft s tid wid f).weave = s.weave := rfl

/-! ### updHart -/

@[simp] theorem updHart_agenda (s : State) (tid : Nat) (f : Hart → Hart) : (updHart s tid f).agenda = s.agenda := rfl
@[simp] theorem updHart_cur (s : State) (tid : Nat) (f : Hart → Hart) : (updHart s tid f).cur = s.cur := rfl
@[simp] theorem updHart_tick (s : State) (tid : Nat) (f : Hart → Hart) : (updHart s tid f).tick = s.tick := rfl
@[simp] theorem updHart_nextId (s : State) (tid : Nat) (f : Hart → Hart) : (updHart s tid f).nextId = s.nextId := rfl
@[simp] theorem updHart_mem (s : State) (tid : Nat) (f : Hart → Hart) : (updHart s tid f).mem = s.mem := rfl
@[simp] theorem updHart_xlat (s : State) (tid : Nat) (f : Hart → Hart) : (updHart s tid f).xlat = s.xlat := rfl
@[simp] theorem updHart_clusters (s : State) (tid : Nat) (f : Hart → Hart) : (updHart s tid f).clusters = s.clusters := rfl
@[simp] theorem updHart_vops (s : State) (tid : Nat) (f : Hart → Hart) : (updHart s tid f).vops = s.vops := rfl
@[simp] theorem updHart_tasks (s : State) (tid : Nat) (f : Hart → Hart) : (updHart s tid f).tasks = s.tasks := rfl
@[simp] theorem updHart_heddle (s : State) (tid : Nat) (f : Hart → Hart) : (updHart s tid f).heddle = s.heddle := rfl
@[simp] theorem updHart_loom (s : State) (tid : Nat) (f : Hart → Hart) : (updHart s tid f).loom = s.loom := rfl
@[simp] theorem updHart_vane (s : State) (tid : Nat) (f : Hart → Hart) : (updHart s tid f).vane = s.vane := rfl
@[simp] theorem updHart_ptp (s : State) (tid : Nat) (f : Hart → Hart) : (updHart s tid f).ptp = s.ptp := rfl
@[simp] theorem updHart_weave (s : State) (tid : Nat) (f : Hart → Hart) : (updHart s tid f).weave = s.weave := rfl

/-! ### setCluster -/

@[simp] theorem setCluster_agenda (s : State) (c : Nat) (x : Cluster) : (setCluster s c x).agenda = s.agenda := rfl
@[simp] theorem setCluster_cur (s : State) (c : Nat) (x : Cluster) : (setCluster s c x).cur = s.cur := rfl
@[simp] theorem setCluster_tick (s : State) (c : Nat) (x : Cluster) : (setCluster s c x).tick = s.tick := rfl
@[simp] theorem setCluster_nextId (s : State) (c : Nat) (x : Cluster) : (setCluster s c x).nextId = s.nextId := rfl
@[simp] theorem setCluster_mem (s : State) (c : Nat) (x : Cluster) : (setCluster s c x).mem = s.mem := rfl
@[simp] theorem setCluster_xlat (s : State) (c : Nat) (x : Cluster) : (setCluster s c x).xlat = s.xlat := rfl
@[simp] theorem setCluster_teams (s : State) (c : Nat) (x : Cluster) : (setCluster s c x).teams = s.teams := rfl
@[simp] theorem setCluster_vops (s : State) (c : Nat) (x : Cluster) : (setCluster s c x).vops = s.vops := rfl
@[simp] theorem setCluster_tasks (s : State) (c : Nat) (x : Cluster) : (setCluster s c x).tasks = s.tasks := rfl
@[simp] theorem setCluster_heddle (s : State) (c : Nat) (x : Cluster) : (setCluster s c x).heddle = s.heddle := rfl
@[simp] theorem setCluster_loom (s : State) (c : Nat) (x : Cluster) : (setCluster s c x).loom = s.loom := rfl
@[simp] theorem setCluster_vane (s : State) (c : Nat) (x : Cluster) : (setCluster s c x).vane = s.vane := rfl
@[simp] theorem setCluster_ptp (s : State) (c : Nat) (x : Cluster) : (setCluster s c x).ptp = s.ptp := rfl
@[simp] theorem setCluster_weave (s : State) (c : Nat) (x : Cluster) : (setCluster s c x).weave = s.weave := rfl

/-! ### updCluster -/

@[simp] theorem updCluster_agenda (s : State) (c : Nat) (f : Cluster → Cluster) : (updCluster s c f).agenda = s.agenda := rfl
@[simp] theorem updCluster_cur (s : State) (c : Nat) (f : Cluster → Cluster) : (updCluster s c f).cur = s.cur := rfl
@[simp] theorem updCluster_tick (s : State) (c : Nat) (f : Cluster → Cluster) : (updCluster s c f).tick = s.tick := rfl
@[simp] theorem updCluster_nextId (s : State) (c : Nat) (f : Cluster → Cluster) : (updCluster s c f).nextId = s.nextId := rfl
@[simp] theorem updCluster_mem (s : State) (c : Nat) (f : Cluster → Cluster) : (updCluster s c f).mem = s.mem := rfl
@[simp] theorem updCluster_xlat (s : State) (c : Nat) (f : Cluster → Cluster) : (updCluster s c f).xlat = s.xlat := rfl
@[simp] theorem updCluster_teams (s : State) (c : Nat) (f : Cluster → Cluster) : (updCluster s c f).teams = s.teams := rfl
@[simp] theorem updCluster_vops (s : State) (c : Nat) (f : Cluster → Cluster) : (updCluster s c f).vops = s.vops := rfl
@[simp] theorem updCluster_tasks (s : State) (c : Nat) (f : Cluster → Cluster) : (updCluster s c f).tasks = s.tasks := rfl
@[simp] theorem updCluster_heddle (s : State) (c : Nat) (f : Cluster → Cluster) : (updCluster s c f).heddle = s.heddle := rfl
@[simp] theorem updCluster_loom (s : State) (c : Nat) (f : Cluster → Cluster) : (updCluster s c f).loom = s.loom := rfl
@[simp] theorem updCluster_vane (s : State) (c : Nat) (f : Cluster → Cluster) : (updCluster s c f).vane = s.vane := rfl
@[simp] theorem updCluster_ptp (s : State) (c : Nat) (f : Cluster → Cluster) : (updCluster s c f).ptp = s.ptp := rfl
@[simp] theorem updCluster_weave (s : State) (c : Nat) (f : Cluster → Cluster) : (updCluster s c f).weave = s.weave := rfl

/-! ### updOp -/

@[simp] theorem updOp_agenda (s : State) (n : Nat) (f : VOp → VOp) : (updOp s n f).agenda = s.agenda := rfl
@[simp] theorem updOp_cur (s : State) (n : Nat) (f : VOp → VOp) : (updOp s n f).cur = s.cur := rfl
@[simp] theorem updOp_tick (s : State) (n : Nat) (f : VOp → VOp) : (updOp s n f).tick = s.tick := rfl
@[simp] theorem updOp_nextId (s : State) (n : Nat) (f : VOp → VOp) : (updOp s n f).nextId = s.nextId := rfl
@[simp] theorem updOp_mem (s : State) (n : Nat) (f : VOp → VOp) : (updOp s n f).mem = s.mem := rfl
@[simp] theorem updOp_xlat (s : State) (n : Nat) (f : VOp → VOp) : (updOp s n f).xlat = s.xlat := rfl
@[simp] theorem updOp_clusters (s : State) (n : Nat) (f : VOp → VOp) : (updOp s n f).clusters = s.clusters := rfl
@[simp] theorem updOp_teams (s : State) (n : Nat) (f : VOp → VOp) : (updOp s n f).teams = s.teams := rfl
@[simp] theorem updOp_tasks (s : State) (n : Nat) (f : VOp → VOp) : (updOp s n f).tasks = s.tasks := rfl
@[simp] theorem updOp_heddle (s : State) (n : Nat) (f : VOp → VOp) : (updOp s n f).heddle = s.heddle := rfl
@[simp] theorem updOp_loom (s : State) (n : Nat) (f : VOp → VOp) : (updOp s n f).loom = s.loom := rfl
@[simp] theorem updOp_vane (s : State) (n : Nat) (f : VOp → VOp) : (updOp s n f).vane = s.vane := rfl
@[simp] theorem updOp_ptp (s : State) (n : Nat) (f : VOp → VOp) : (updOp s n f).ptp = s.ptp := rfl
@[simp] theorem updOp_weave (s : State) (n : Nat) (f : VOp → VOp) : (updOp s n f).weave = s.weave := rfl

/-! ### updAcc -/

@[simp] theorem updAcc_agenda (s : State) (n i : Nat) (f : Acc → Acc) : (updAcc s n i f).agenda = s.agenda := rfl
@[simp] theorem updAcc_cur (s : State) (n i : Nat) (f : Acc → Acc) : (updAcc s n i f).cur = s.cur := rfl
@[simp] theorem updAcc_tick (s : State) (n i : Nat) (f : Acc → Acc) : (updAcc s n i f).tick = s.tick := rfl
@[simp] theorem updAcc_nextId (s : State) (n i : Nat) (f : Acc → Acc) : (updAcc s n i f).nextId = s.nextId := rfl
@[simp] theorem updAcc_mem (s : State) (n i : Nat) (f : Acc → Acc) : (updAcc s n i f).mem = s.mem := rfl
@[simp] theorem updAcc_xlat (s : State) (n i : Nat) (f : Acc → Acc) : (updAcc s n i f).xlat = s.xlat := rfl
@[simp] theorem updAcc_clusters (s : State) (n i : Nat) (f : Acc → Acc) : (updAcc s n i f).clusters = s.clusters := rfl
@[simp] theorem updAcc_teams (s : State) (n i : Nat) (f : Acc → Acc) : (updAcc s n i f).teams = s.teams := rfl
@[simp] theorem updAcc_tasks (s : State) (n i : Nat) (f : Acc → Acc) : (updAcc s n i f).tasks = s.tasks := rfl
@[simp] theorem updAcc_heddle (s : State) (n i : Nat) (f : Acc → Acc) : (updAcc s n i f).heddle = s.heddle := rfl
@[simp] theorem updAcc_loom (s : State) (n i : Nat) (f : Acc → Acc) : (updAcc s n i f).loom = s.loom := rfl
@[simp] theorem updAcc_vane (s : State) (n i : Nat) (f : Acc → Acc) : (updAcc s n i f).vane = s.vane := rfl
@[simp] theorem updAcc_ptp (s : State) (n i : Nat) (f : Acc → Acc) : (updAcc s n i f).ptp = s.ptp := rfl
@[simp] theorem updAcc_weave (s : State) (n i : Nat) (f : Acc → Acc) : (updAcc s n i f).weave = s.weave := rfl

/-! ### bring -/

@[simp] theorem bring_agenda (s : State) (d : Nat) (ids : List Nat) : (bring s d ids).agenda = s.agenda := rfl
@[simp] theorem bring_cur (s : State) (d : Nat) (ids : List Nat) : (bring s d ids).cur = s.cur := rfl
@[simp] theorem bring_tick (s : State) (d : Nat) (ids : List Nat) : (bring s d ids).tick = s.tick := rfl
@[simp] theorem bring_nextId (s : State) (d : Nat) (ids : List Nat) : (bring s d ids).nextId = s.nextId := rfl
@[simp] theorem bring_xlat (s : State) (d : Nat) (ids : List Nat) : (bring s d ids).xlat = s.xlat := rfl
@[simp] theorem bring_clusters (s : State) (d : Nat) (ids : List Nat) : (bring s d ids).clusters = s.clusters := rfl
@[simp] theorem bring_teams (s : State) (d : Nat) (ids : List Nat) : (bring s d ids).teams = s.teams := rfl
@[simp] theorem bring_vops (s : State) (d : Nat) (ids : List Nat) : (bring s d ids).vops = s.vops := rfl
@[simp] theorem bring_tasks (s : State) (d : Nat) (ids : List Nat) : (bring s d ids).tasks = s.tasks := rfl
@[simp] theorem bring_heddle (s : State) (d : Nat) (ids : List Nat) : (bring s d ids).heddle = s.heddle := rfl
@[simp] theorem bring_loom (s : State) (d : Nat) (ids : List Nat) : (bring s d ids).loom = s.loom := rfl
@[simp] theorem bring_vane (s : State) (d : Nat) (ids : List Nat) : (bring s d ids).vane = s.vane := rfl
@[simp] theorem bring_ptp (s : State) (d : Nat) (ids : List Nat) : (bring s d ids).ptp = s.ptp := rfl
@[simp] theorem bring_weave (s : State) (d : Nat) (ids : List Nat) : (bring s d ids).weave = s.weave := rfl

/-! ### updHist -/

@[simp] theorem updHist_agenda (s : State) (tid key : Nat) (f : Hist → Hist) : (updHist s tid key f).agenda = s.agenda := rfl
@[simp] theorem updHist_cur (s : State) (tid key : Nat) (f : Hist → Hist) : (updHist s tid key f).cur = s.cur := rfl
@[simp] theorem updHist_tick (s : State) (tid key : Nat) (f : Hist → Hist) : (updHist s tid key f).tick = s.tick := rfl
@[simp] theorem updHist_nextId (s : State) (tid key : Nat) (f : Hist → Hist) : (updHist s tid key f).nextId = s.nextId := rfl
@[simp] theorem updHist_mem (s : State) (tid key : Nat) (f : Hist → Hist) : (updHist s tid key f).mem = s.mem := rfl
@[simp] theorem updHist_xlat (s : State) (tid key : Nat) (f : Hist → Hist) : (updHist s tid key f).xlat = s.xlat := rfl
@[simp] theorem updHist_clusters (s : State) (tid key : Nat) (f : Hist → Hist) : (updHist s tid key f).clusters = s.clusters := rfl
@[simp] theorem updHist_vops (s : State) (tid key : Nat) (f : Hist → Hist) : (updHist s tid key f).vops = s.vops := rfl
@[simp] theorem updHist_tasks (s : State) (tid key : Nat) (f : Hist → Hist) : (updHist s tid key f).tasks = s.tasks := rfl
@[simp] theorem updHist_heddle (s : State) (tid key : Nat) (f : Hist → Hist) : (updHist s tid key f).heddle = s.heddle := rfl
@[simp] theorem updHist_loom (s : State) (tid key : Nat) (f : Hist → Hist) : (updHist s tid key f).loom = s.loom := rfl
@[simp] theorem updHist_vane (s : State) (tid key : Nat) (f : Hist → Hist) : (updHist s tid key f).vane = s.vane := rfl
@[simp] theorem updHist_ptp (s : State) (tid key : Nat) (f : Hist → Hist) : (updHist s tid key f).ptp = s.ptp := rfl
@[simp] theorem updHist_weave (s : State) (tid key : Nat) (f : Hist → Hist) : (updHist s tid key f).weave = s.weave := rfl

/-! ### setResv -/

@[simp] theorem setResv_agenda (s : State) (d tid : Nat) (g : Option Nat) : (setResv s d tid g).agenda = s.agenda := rfl
@[simp] theorem setResv_cur (s : State) (d tid : Nat) (g : Option Nat) : (setResv s d tid g).cur = s.cur := rfl
@[simp] theorem setResv_tick (s : State) (d tid : Nat) (g : Option Nat) : (setResv s d tid g).tick = s.tick := rfl
@[simp] theorem setResv_nextId (s : State) (d tid : Nat) (g : Option Nat) : (setResv s d tid g).nextId = s.nextId := rfl
@[simp] theorem setResv_xlat (s : State) (d tid : Nat) (g : Option Nat) : (setResv s d tid g).xlat = s.xlat := rfl
@[simp] theorem setResv_clusters (s : State) (d tid : Nat) (g : Option Nat) : (setResv s d tid g).clusters = s.clusters := rfl
@[simp] theorem setResv_teams (s : State) (d tid : Nat) (g : Option Nat) : (setResv s d tid g).teams = s.teams := rfl
@[simp] theorem setResv_vops (s : State) (d tid : Nat) (g : Option Nat) : (setResv s d tid g).vops = s.vops := rfl
@[simp] theorem setResv_tasks (s : State) (d tid : Nat) (g : Option Nat) : (setResv s d tid g).tasks = s.tasks := rfl
@[simp] theorem setResv_heddle (s : State) (d tid : Nat) (g : Option Nat) : (setResv s d tid g).heddle = s.heddle := rfl
@[simp] theorem setResv_loom (s : State) (d tid : Nat) (g : Option Nat) : (setResv s d tid g).loom = s.loom := rfl
@[simp] theorem setResv_vane (s : State) (d tid : Nat) (g : Option Nat) : (setResv s d tid g).vane = s.vane := rfl
@[simp] theorem setResv_ptp (s : State) (d tid : Nat) (g : Option Nat) : (setResv s d tid g).ptp = s.ptp := rfl
@[simp] theorem setResv_weave (s : State) (d tid : Nat) (g : Option Nat) : (setResv s d tid g).weave = s.weave := rfl

/-! ### setQueue -/

@[simp] theorem setQueue_agenda (s : State) (q : Nat) (x : Queue) : (setQueue s q x).agenda = s.agenda := rfl
@[simp] theorem setQueue_cur (s : State) (q : Nat) (x : Queue) : (setQueue s q x).cur = s.cur := rfl
@[simp] theorem setQueue_tick (s : State) (q : Nat) (x : Queue) : (setQueue s q x).tick = s.tick := rfl
@[simp] theorem setQueue_nextId (s : State) (q : Nat) (x : Queue) : (setQueue s q x).nextId = s.nextId := rfl
@[simp] theorem setQueue_mem (s : State) (q : Nat) (x : Queue) : (setQueue s q x).mem = s.mem := rfl
@[simp] theorem setQueue_xlat (s : State) (q : Nat) (x : Queue) : (setQueue s q x).xlat = s.xlat := rfl
@[simp] theorem setQueue_clusters (s : State) (q : Nat) (x : Queue) : (setQueue s q x).clusters = s.clusters := rfl
@[simp] theorem setQueue_teams (s : State) (q : Nat) (x : Queue) : (setQueue s q x).teams = s.teams := rfl
@[simp] theorem setQueue_vops (s : State) (q : Nat) (x : Queue) : (setQueue s q x).vops = s.vops := rfl
@[simp] theorem setQueue_tasks (s : State) (q : Nat) (x : Queue) : (setQueue s q x).tasks = s.tasks := rfl
@[simp] theorem setQueue_heddle (s : State) (q : Nat) (x : Queue) : (setQueue s q x).heddle = s.heddle := rfl
@[simp] theorem setQueue_vane (s : State) (q : Nat) (x : Queue) : (setQueue s q x).vane = s.vane := rfl
@[simp] theorem setQueue_ptp (s : State) (q : Nat) (x : Queue) : (setQueue s q x).ptp = s.ptp := rfl
@[simp] theorem setQueue_weave (s : State) (q : Nat) (x : Queue) : (setQueue s q x).weave = s.weave := rfl

/-! ### updQueue -/

@[simp] theorem updQueue_agenda (s : State) (q : Nat) (f : Queue → Queue) : (updQueue s q f).agenda = s.agenda := rfl
@[simp] theorem updQueue_cur (s : State) (q : Nat) (f : Queue → Queue) : (updQueue s q f).cur = s.cur := rfl
@[simp] theorem updQueue_tick (s : State) (q : Nat) (f : Queue → Queue) : (updQueue s q f).tick = s.tick := rfl
@[simp] theorem updQueue_nextId (s : State) (q : Nat) (f : Queue → Queue) : (updQueue s q f).nextId = s.nextId := rfl
@[simp] theorem updQueue_mem (s : State) (q : Nat) (f : Queue → Queue) : (updQueue s q f).mem = s.mem := rfl
@[simp] theorem updQueue_xlat (s : State) (q : Nat) (f : Queue → Queue) : (updQueue s q f).xlat = s.xlat := rfl
@[simp] theorem updQueue_clusters (s : State) (q : Nat) (f : Queue → Queue) : (updQueue s q f).clusters = s.clusters := rfl
@[simp] theorem updQueue_teams (s : State) (q : Nat) (f : Queue → Queue) : (updQueue s q f).teams = s.teams := rfl
@[simp] theorem updQueue_vops (s : State) (q : Nat) (f : Queue → Queue) : (updQueue s q f).vops = s.vops := rfl
@[simp] theorem updQueue_tasks (s : State) (q : Nat) (f : Queue → Queue) : (updQueue s q f).tasks = s.tasks := rfl
@[simp] theorem updQueue_heddle (s : State) (q : Nat) (f : Queue → Queue) : (updQueue s q f).heddle = s.heddle := rfl
@[simp] theorem updQueue_vane (s : State) (q : Nat) (f : Queue → Queue) : (updQueue s q f).vane = s.vane := rfl
@[simp] theorem updQueue_ptp (s : State) (q : Nat) (f : Queue → Queue) : (updQueue s q f).ptp = s.ptp := rfl
@[simp] theorem updQueue_weave (s : State) (q : Nat) (f : Queue → Queue) : (updQueue s q f).weave = s.weave := rfl

/-! ### ctlWrite -/

@[simp] theorem ctlWrite_agenda (s : State) (a : Nat) (b : List Byte) : (ctlWrite s a b).agenda = s.agenda := rfl
@[simp] theorem ctlWrite_cur (s : State) (a : Nat) (b : List Byte) : (ctlWrite s a b).cur = s.cur := rfl
@[simp] theorem ctlWrite_tick (s : State) (a : Nat) (b : List Byte) : (ctlWrite s a b).tick = s.tick := rfl
@[simp] theorem ctlWrite_nextId (s : State) (a : Nat) (b : List Byte) : (ctlWrite s a b).nextId = s.nextId := rfl
@[simp] theorem ctlWrite_mem (s : State) (a : Nat) (b : List Byte) : (ctlWrite s a b).mem = s.mem := rfl
@[simp] theorem ctlWrite_xlat (s : State) (a : Nat) (b : List Byte) : (ctlWrite s a b).xlat = s.xlat := rfl
@[simp] theorem ctlWrite_clusters (s : State) (a : Nat) (b : List Byte) : (ctlWrite s a b).clusters = s.clusters := rfl
@[simp] theorem ctlWrite_teams (s : State) (a : Nat) (b : List Byte) : (ctlWrite s a b).teams = s.teams := rfl
@[simp] theorem ctlWrite_vops (s : State) (a : Nat) (b : List Byte) : (ctlWrite s a b).vops = s.vops := rfl
@[simp] theorem ctlWrite_tasks (s : State) (a : Nat) (b : List Byte) : (ctlWrite s a b).tasks = s.tasks := rfl
@[simp] theorem ctlWrite_heddle (s : State) (a : Nat) (b : List Byte) : (ctlWrite s a b).heddle = s.heddle := rfl
@[simp] theorem ctlWrite_vane (s : State) (a : Nat) (b : List Byte) : (ctlWrite s a b).vane = s.vane := rfl
@[simp] theorem ctlWrite_ptp (s : State) (a : Nat) (b : List Byte) : (ctlWrite s a b).ptp = s.ptp := rfl
@[simp] theorem ctlWrite_weave (s : State) (a : Nat) (b : List Byte) : (ctlWrite s a b).weave = s.weave := rfl

/-! ### updLaunch -/

@[simp] theorem updLaunch_agenda (s : State) (fn lid : Nat) (f : Launch → Launch) : (updLaunch s fn lid f).agenda = s.agenda := rfl
@[simp] theorem updLaunch_cur (s : State) (fn lid : Nat) (f : Launch → Launch) : (updLaunch s fn lid f).cur = s.cur := rfl
@[simp] theorem updLaunch_tick (s : State) (fn lid : Nat) (f : Launch → Launch) : (updLaunch s fn lid f).tick = s.tick := rfl
@[simp] theorem updLaunch_nextId (s : State) (fn lid : Nat) (f : Launch → Launch) : (updLaunch s fn lid f).nextId = s.nextId := rfl
@[simp] theorem updLaunch_mem (s : State) (fn lid : Nat) (f : Launch → Launch) : (updLaunch s fn lid f).mem = s.mem := rfl
@[simp] theorem updLaunch_xlat (s : State) (fn lid : Nat) (f : Launch → Launch) : (updLaunch s fn lid f).xlat = s.xlat := rfl
@[simp] theorem updLaunch_clusters (s : State) (fn lid : Nat) (f : Launch → Launch) : (updLaunch s fn lid f).clusters = s.clusters := rfl
@[simp] theorem updLaunch_teams (s : State) (fn lid : Nat) (f : Launch → Launch) : (updLaunch s fn lid f).teams = s.teams := rfl
@[simp] theorem updLaunch_vops (s : State) (fn lid : Nat) (f : Launch → Launch) : (updLaunch s fn lid f).vops = s.vops := rfl
@[simp] theorem updLaunch_tasks (s : State) (fn lid : Nat) (f : Launch → Launch) : (updLaunch s fn lid f).tasks = s.tasks := rfl
@[simp] theorem updLaunch_heddle (s : State) (fn lid : Nat) (f : Launch → Launch) : (updLaunch s fn lid f).heddle = s.heddle := rfl
@[simp] theorem updLaunch_vane (s : State) (fn lid : Nat) (f : Launch → Launch) : (updLaunch s fn lid f).vane = s.vane := rfl
@[simp] theorem updLaunch_ptp (s : State) (fn lid : Nat) (f : Launch → Launch) : (updLaunch s fn lid f).ptp = s.ptp := rfl
@[simp] theorem updLaunch_weave (s : State) (fn lid : Nat) (f : Launch → Launch) : (updLaunch s fn lid f).weave = s.weave := rfl

/-! ### updTask -/

@[simp] theorem updTask_agenda (s : State) (fn tcb : Nat) (f : Task → Task) : (updTask s fn tcb f).agenda = s.agenda := rfl
@[simp] theorem updTask_cur (s : State) (fn tcb : Nat) (f : Task → Task) : (updTask s fn tcb f).cur = s.cur := rfl
@[simp] theorem updTask_tick (s : State) (fn tcb : Nat) (f : Task → Task) : (updTask s fn tcb f).tick = s.tick := rfl
@[simp] theorem updTask_nextId (s : State) (fn tcb : Nat) (f : Task → Task) : (updTask s fn tcb f).nextId = s.nextId := rfl
@[simp] theorem updTask_mem (s : State) (fn tcb : Nat) (f : Task → Task) : (updTask s fn tcb f).mem = s.mem := rfl
@[simp] theorem updTask_xlat (s : State) (fn tcb : Nat) (f : Task → Task) : (updTask s fn tcb f).xlat = s.xlat := rfl
@[simp] theorem updTask_clusters (s : State) (fn tcb : Nat) (f : Task → Task) : (updTask s fn tcb f).clusters = s.clusters := rfl
@[simp] theorem updTask_teams (s : State) (fn tcb : Nat) (f : Task → Task) : (updTask s fn tcb f).teams = s.teams := rfl
@[simp] theorem updTask_vops (s : State) (fn tcb : Nat) (f : Task → Task) : (updTask s fn tcb f).vops = s.vops := rfl
@[simp] theorem updTask_heddle (s : State) (fn tcb : Nat) (f : Task → Task) : (updTask s fn tcb f).heddle = s.heddle := rfl
@[simp] theorem updTask_loom (s : State) (fn tcb : Nat) (f : Task → Task) : (updTask s fn tcb f).loom = s.loom := rfl
@[simp] theorem updTask_vane (s : State) (fn tcb : Nat) (f : Task → Task) : (updTask s fn tcb f).vane = s.vane := rfl
@[simp] theorem updTask_ptp (s : State) (fn tcb : Nat) (f : Task → Task) : (updTask s fn tcb f).ptp = s.ptp := rfl
@[simp] theorem updTask_weave (s : State) (fn tcb : Nat) (f : Task → Task) : (updTask s fn tcb f).weave = s.weave := rfl

/-! ### updPipe -/

@[simp] theorem updPipe_agenda (s : State) (i : Nat) (f : Pipe → Pipe) : (updPipe s i f).agenda = s.agenda := rfl
@[simp] theorem updPipe_cur (s : State) (i : Nat) (f : Pipe → Pipe) : (updPipe s i f).cur = s.cur := rfl
@[simp] theorem updPipe_tick (s : State) (i : Nat) (f : Pipe → Pipe) : (updPipe s i f).tick = s.tick := rfl
@[simp] theorem updPipe_nextId (s : State) (i : Nat) (f : Pipe → Pipe) : (updPipe s i f).nextId = s.nextId := rfl
@[simp] theorem updPipe_mem (s : State) (i : Nat) (f : Pipe → Pipe) : (updPipe s i f).mem = s.mem := rfl
@[simp] theorem updPipe_xlat (s : State) (i : Nat) (f : Pipe → Pipe) : (updPipe s i f).xlat = s.xlat := rfl
@[simp] theorem updPipe_clusters (s : State) (i : Nat) (f : Pipe → Pipe) : (updPipe s i f).clusters = s.clusters := rfl
@[simp] theorem updPipe_teams (s : State) (i : Nat) (f : Pipe → Pipe) : (updPipe s i f).teams = s.teams := rfl
@[simp] theorem updPipe_vops (s : State) (i : Nat) (f : Pipe → Pipe) : (updPipe s i f).vops = s.vops := rfl
@[simp] theorem updPipe_tasks (s : State) (i : Nat) (f : Pipe → Pipe) : (updPipe s i f).tasks = s.tasks := rfl
@[simp] theorem updPipe_loom (s : State) (i : Nat) (f : Pipe → Pipe) : (updPipe s i f).loom = s.loom := rfl
@[simp] theorem updPipe_vane (s : State) (i : Nat) (f : Pipe → Pipe) : (updPipe s i f).vane = s.vane := rfl
@[simp] theorem updPipe_ptp (s : State) (i : Nat) (f : Pipe → Pipe) : (updPipe s i f).ptp = s.ptp := rfl
@[simp] theorem updPipe_weave (s : State) (i : Nat) (f : Pipe → Pipe) : (updPipe s i f).weave = s.weave := rfl

/-! ### updStage -/

@[simp] theorem updStage_agenda (s : State) (i : Nat) (f : Stage → Stage) : (updStage s i f).agenda = s.agenda := rfl
@[simp] theorem updStage_cur (s : State) (i : Nat) (f : Stage → Stage) : (updStage s i f).cur = s.cur := rfl
@[simp] theorem updStage_tick (s : State) (i : Nat) (f : Stage → Stage) : (updStage s i f).tick = s.tick := rfl
@[simp] theorem updStage_nextId (s : State) (i : Nat) (f : Stage → Stage) : (updStage s i f).nextId = s.nextId := rfl
@[simp] theorem updStage_mem (s : State) (i : Nat) (f : Stage → Stage) : (updStage s i f).mem = s.mem := rfl
@[simp] theorem updStage_xlat (s : State) (i : Nat) (f : Stage → Stage) : (updStage s i f).xlat = s.xlat := rfl
@[simp] theorem updStage_clusters (s : State) (i : Nat) (f : Stage → Stage) : (updStage s i f).clusters = s.clusters := rfl
@[simp] theorem updStage_teams (s : State) (i : Nat) (f : Stage → Stage) : (updStage s i f).teams = s.teams := rfl
@[simp] theorem updStage_vops (s : State) (i : Nat) (f : Stage → Stage) : (updStage s i f).vops = s.vops := rfl
@[simp] theorem updStage_tasks (s : State) (i : Nat) (f : Stage → Stage) : (updStage s i f).tasks = s.tasks := rfl
@[simp] theorem updStage_loom (s : State) (i : Nat) (f : Stage → Stage) : (updStage s i f).loom = s.loom := rfl
@[simp] theorem updStage_vane (s : State) (i : Nat) (f : Stage → Stage) : (updStage s i f).vane = s.vane := rfl
@[simp] theorem updStage_ptp (s : State) (i : Nat) (f : Stage → Stage) : (updStage s i f).ptp = s.ptp := rfl
@[simp] theorem updStage_weave (s : State) (i : Nat) (f : Stage → Stage) : (updStage s i f).weave = s.weave := rfl

/-! ### discardInFlight -/

@[simp] theorem discardInFlight_agenda (s : State) (t : Team) (w : Weft) (l : List Nat) : (discardInFlight s t w l).agenda = s.agenda := rfl
@[simp] theorem discardInFlight_cur (s : State) (t : Team) (w : Weft) (l : List Nat) : (discardInFlight s t w l).cur = s.cur := rfl
@[simp] theorem discardInFlight_tick (s : State) (t : Team) (w : Weft) (l : List Nat) : (discardInFlight s t w l).tick = s.tick := rfl
@[simp] theorem discardInFlight_nextId (s : State) (t : Team) (w : Weft) (l : List Nat) : (discardInFlight s t w l).nextId = s.nextId := rfl
@[simp] theorem discardInFlight_mem (s : State) (t : Team) (w : Weft) (l : List Nat) : (discardInFlight s t w l).mem = s.mem := rfl
@[simp] theorem discardInFlight_xlat (s : State) (t : Team) (w : Weft) (l : List Nat) : (discardInFlight s t w l).xlat = s.xlat := rfl
@[simp] theorem discardInFlight_clusters (s : State) (t : Team) (w : Weft) (l : List Nat) : (discardInFlight s t w l).clusters = s.clusters := rfl
@[simp] theorem discardInFlight_teams (s : State) (t : Team) (w : Weft) (l : List Nat) : (discardInFlight s t w l).teams = s.teams := rfl
@[simp] theorem discardInFlight_tasks (s : State) (t : Team) (w : Weft) (l : List Nat) : (discardInFlight s t w l).tasks = s.tasks := rfl
@[simp] theorem discardInFlight_heddle (s : State) (t : Team) (w : Weft) (l : List Nat) : (discardInFlight s t w l).heddle = s.heddle := rfl
@[simp] theorem discardInFlight_loom (s : State) (t : Team) (w : Weft) (l : List Nat) : (discardInFlight s t w l).loom = s.loom := rfl
@[simp] theorem discardInFlight_vane (s : State) (t : Team) (w : Weft) (l : List Nat) : (discardInFlight s t w l).vane = s.vane := rfl
@[simp] theorem discardInFlight_ptp (s : State) (t : Team) (w : Weft) (l : List Nat) : (discardInFlight s t w l).ptp = s.ptp := rfl
@[simp] theorem discardInFlight_weave (s : State) (t : Team) (w : Weft) (l : List Nat) : (discardInFlight s t w l).weave = s.weave := rfl

/-! ### takeFree -/

@[simp] theorem takeFree_agenda (s : State) : (takeFree s).2.agenda = s.agenda := rfl
@[simp] theorem takeFree_cur (s : State) : (takeFree s).2.cur = s.cur := rfl
@[simp] theorem takeFree_nextId (s : State) : (takeFree s).2.nextId = s.nextId := rfl
@[simp] theorem takeFree_mem (s : State) : (takeFree s).2.mem = s.mem := rfl
@[simp] theorem takeFree_xlat (s : State) : (takeFree s).2.xlat = s.xlat := rfl
@[simp] theorem takeFree_clusters (s : State) : (takeFree s).2.clusters = s.clusters := rfl
@[simp] theorem takeFree_teams (s : State) : (takeFree s).2.teams = s.teams := rfl
@[simp] theorem takeFree_vops (s : State) : (takeFree s).2.vops = s.vops := rfl
@[simp] theorem takeFree_tasks (s : State) : (takeFree s).2.tasks = s.tasks := rfl
@[simp] theorem takeFree_heddle (s : State) : (takeFree s).2.heddle = s.heddle := rfl
@[simp] theorem takeFree_loom (s : State) : (takeFree s).2.loom = s.loom := rfl
@[simp] theorem takeFree_vane (s : State) : (takeFree s).2.vane = s.vane := rfl
@[simp] theorem takeFree_ptp (s : State) : (takeFree s).2.ptp = s.ptp := rfl
@[simp] theorem takeFree_weave (s : State) : (takeFree s).2.weave = s.weave := rfl

/-! ### takeId -/

@[simp] theorem takeId_agenda (s : State) : (takeId s).2.agenda = s.agenda := rfl
@[simp] theorem takeId_cur (s : State) : (takeId s).2.cur = s.cur := rfl
@[simp] theorem takeId_tick (s : State) : (takeId s).2.tick = s.tick := rfl
@[simp] theorem takeId_mem (s : State) : (takeId s).2.mem = s.mem := rfl
@[simp] theorem takeId_xlat (s : State) : (takeId s).2.xlat = s.xlat := rfl
@[simp] theorem takeId_clusters (s : State) : (takeId s).2.clusters = s.clusters := rfl
@[simp] theorem takeId_teams (s : State) : (takeId s).2.teams = s.teams := rfl
@[simp] theorem takeId_vops (s : State) : (takeId s).2.vops = s.vops := rfl
@[simp] theorem takeId_tasks (s : State) : (takeId s).2.tasks = s.tasks := rfl
@[simp] theorem takeId_heddle (s : State) : (takeId s).2.heddle = s.heddle := rfl
@[simp] theorem takeId_loom (s : State) : (takeId s).2.loom = s.loom := rfl
@[simp] theorem takeId_vane (s : State) : (takeId s).2.vane = s.vane := rfl
@[simp] theorem takeId_ptp (s : State) : (takeId s).2.ptp = s.ptp := rfl
@[simp] theorem takeId_weave (s : State) : (takeId s).2.weave = s.weave := rfl

end Sys2Proof.Machine
end

