-- ==== Sys2Proof/Laws/Memory.lean ====
section
/-! SUPPORT. Laws of sparse maps and byte memories: a read after a write, and the canonical form that every operation keeps. -/

namespace Sys2Proof.Machine

open Sys2Proof

/-! ### Reading after a change -/

theorem spGet_spPut {α : Type} (d : α) (k : Nat) (v : α) (m : Sp α) (a : Nat) :
    spGet d (spPut k v m) a = if a = k then v else spGet d m a := by
  induction m with
  | nil => simp only [spPut, spGet, eq_comm]
  | cons e t ih =>
    obtain ⟨k', v'⟩ := e
    simp only [spPut]
    split
    · simp only [spGet, eq_comm]
    · split
      · subst k'
        simp only [spGet, eq_comm (a := k) (b := a)]
        split <;> rfl
      · simp only [spGet, ih]
        split
        · subst a
          split
          · simp_all
          · rfl
        · rfl

theorem spGet_spDrop {α : Type} (d : α) (k : Nat) (m : Sp α) (a : Nat) :
    spGet d (spDrop k m) a = if a = k then d else spGet d m a := by
  induction m with
  | nil => simp [spDrop, spGet]
  | cons e t ih =>
    obtain ⟨k', v'⟩ := e
    simp only [spDrop]
    split
    · subst k'
      rw [ih]
      simp only [spGet, eq_comm (a := k) (b := a)]
      split <;> rfl
    · simp only [spGet, ih]
      split
      · subst a
        split
        · simp_all
        · rfl
      · rfl

/-- A read after a change of a sparse map. -/
theorem spGet_spSet {α : Type} [DecidableEq α] (d : α) (m : Sp α) (k : Nat) (v : α) (a : Nat) :
    spGet d (spSet d m k v) a = if a = k then v else spGet d m a := by
  unfold spSet
  split
  · subst v; exact spGet_spDrop d k m a
  · exact spGet_spPut d k v m a

@[simp] theorem spGet_spSet_self {α : Type} [DecidableEq α] (d : α) (m : Sp α) (k : Nat) (v : α) : spGet d (spSet d m k v) k = v := by
  rw [spGet_spSet]; exact if_pos rfl

theorem spGet_spSet_ne {α : Type} [DecidableEq α] (d : α) (m : Sp α) {k a : Nat} (v : α) (h : a ≠ k) :
    spGet d (spSet d m k v) a = spGet d m a := by
  rw [spGet_spSet]; exact if_neg h

theorem memGet_memSet (m : Mem) (a : Nat) (b : Byte) (x : Nat) : memGet (memSet m a b) x = if x = a then b else memGet m x :=
  spGet_spSet 0 m a b x

/-- A read after a write of bytes: the byte written inside the range, the old byte outside. -/
theorem memGet_memWrite (l : List Byte) : ∀ (m : Mem) (a x : Nat),
    memGet (memWrite m a l) x = if a ≤ x ∧ x < a + l.length then (l[x - a]?).getD 0 else memGet m x := by
  induction l with
  | nil => intro m a x; simp only [memWrite, List.length_nil, Nat.add_zero]; rw [if_neg (by omega)]
  | cons b t ih =>
    intro m a x
    simp only [memWrite, ih, List.length_cons, memGet_memSet]
    by_cases h1 : x = a
    · subst h1
      rw [if_neg (by omega), if_pos rfl, if_pos (by omega), Nat.sub_self]; rfl
    · by_cases h2 : a + 1 ≤ x ∧ x < a + 1 + t.length
      · rw [if_pos h2, if_pos (by omega)]
        have : x - a = (x - (a + 1)) + 1 := by omega
        rw [this]; rfl
      · rw [if_neg h2, if_neg h1, if_neg (by omega)]

/-- A write leaves every byte outside its range alone. -/
theorem memGet_memWrite_outside {m : Mem} {a x : Nat} {l : List Byte} (h : x < a ∨ a + l.length ≤ x) :
    memGet (memWrite m a l) x = memGet m x := by
  rw [memGet_memWrite, if_neg (by omega)]

/-- A memory that holds bytes at an address reads as those bytes. -/
theorem memRead_of_bytes : ∀ (l : List Byte) (m : Mem) (a : Nat),
    (∀ i, i < l.length → memGet m (a + i) = (l[i]?).getD 0) → memRead m a l.length = l := by
  intro l
  induction l with
  | nil => intro m a _; rfl
  | cons b t ih =>
    intro m a h
    have h0 := h 0 (by simp)
    simp only [memRead, List.length_cons]
    rw [ih m (a + 1) (fun i hi => by
      have := h (i + 1) (by simp only [List.length_cons]; omega)
      rw [show a + 1 + i = a + (i + 1) by omega, this]; rfl)]
    rw [show memGet m a = b from h0]

/-- The bytes written are the bytes read. -/
theorem memRead_memWrite (l : List Byte) (m : Mem) (a : Nat) : memRead (memWrite m a l) a l.length = l := by
  refine memRead_of_bytes l _ a ?_
  intro i hi
  rw [memGet_memWrite, if_pos (by omega), show a + i - a = i by omega]

/-! ### The canonical form -/

theorem spWfFrom_mono {α : Type} [DecidableEq α] {d : α} {b c : Nat} {m : Sp α} (h : spWfFrom d c m = true) (hb : b ≤ c) :
    spWfFrom d b m = true := by
  cases m with
  | nil => rfl
  | cons e t =>
    obtain ⟨k, v⟩ := e
    simp only [spWfFrom, Bool.and_eq_true, decide_eq_true_eq] at h ⊢
    exact ⟨⟨by omega, h.1.2⟩, h.2⟩

theorem spPut_wfFrom {α : Type} [DecidableEq α] {d v : α} (hv : v ≠ d) : ∀ {m : Sp α} {b k : Nat}, b ≤ k →
    spWfFrom d b m = true → spWfFrom d b (spPut k v m) = true := by
  intro m
  induction m with
  | nil => intro b k hb _; simp [spPut, spWfFrom, hb, hv]
  | cons e t ih =>
    intro b k hb h
    obtain ⟨k', v'⟩ := e
    simp only [spWfFrom, Bool.and_eq_true, decide_eq_true_eq] at h
    simp only [spPut]
    split
    · simp only [spWfFrom, Bool.and_eq_true, decide_eq_true_eq]
      exact ⟨⟨hb, hv⟩, ⟨by omega, h.1.2⟩, h.2⟩
    · split
      · subst k'
        simp only [spWfFrom, Bool.and_eq_true, decide_eq_true_eq]
        exact ⟨⟨hb, hv⟩, h.2⟩
      · simp only [spWfFrom, Bool.and_eq_true, decide_eq_true_eq]
        exact ⟨h.1, ih (by omega) h.2⟩

theorem spDrop_wfFrom {α : Type} [DecidableEq α] {d : α} (k : Nat) : ∀ {m : Sp α} {b : Nat},
    spWfFrom d b m = true → spWfFrom d b (spDrop k m) = true := by
  intro m
  induction m with
  | nil => intro b _; rfl
  | cons e t ih =>
    intro b h
    obtain ⟨k', v'⟩ := e
    simp only [spWfFrom, Bool.and_eq_true, decide_eq_true_eq] at h
    simp only [spDrop]
    split
    · exact spWfFrom_mono (ih h.2) (by omega)
    · simp only [spWfFrom, Bool.and_eq_true, decide_eq_true_eq]
      exact ⟨h.1, ih h.2⟩

/-- A change keeps the canonical form. -/
theorem spSet_wf {α : Type} [DecidableEq α] {d : α} {m : Sp α} (h : spWf d m = true) (k : Nat) (v : α) :
    spWf d (spSet d m k v) = true := by
  unfold spSet
  split
  · exact spDrop_wfFrom k h
  · exact spPut_wfFrom ‹_› (Nat.zero_le k) h

theorem filter_wfFrom {α : Type} [DecidableEq α] {d : α} (p : Nat × α → Bool) : ∀ {m : Sp α} {b : Nat},
    spWfFrom d b m = true → spWfFrom d b (m.filter p) = true := by
  intro m
  induction m with
  | nil => intro b _; rfl
  | cons e t ih =>
    intro b h
    obtain ⟨k', v'⟩ := e
    simp only [spWfFrom, Bool.and_eq_true, decide_eq_true_eq] at h
    rw [List.filter_cons]
    split
    · simp only [spWfFrom, Bool.and_eq_true, decide_eq_true_eq]
      exact ⟨h.1, ih h.2⟩
    · exact spWfFrom_mono (ih h.2) (by omega)

/-- Clearing a range keeps the canonical form. -/
theorem spClear_wf {α : Type} [DecidableEq α] {d : α} {m : Sp α} (h : spWf d m = true) (lo n : Nat) :
    spWf d (spClear lo n m) = true := filter_wfFrom _ h

/-- Writing a byte keeps the canonical form. -/
theorem memSet_wf {m : Mem} (h : Memory.wf m = true) (a : Nat) (b : Byte) : Memory.wf (memSet m a b) = true := spSet_wf h a b

/-- Writing bytes keeps the canonical form. -/
theorem memWrite_wf (l : List Byte) : ∀ {m : Mem}, Memory.wf m = true → ∀ (a : Nat), Memory.wf (memWrite m a l) = true := by
  induction l with
  | nil => intro m h a; exact h
  | cons b t ih => intro m h a; exact ih (memSet_wf h a b) (a + 1)

/-- Clearing a range of bytes keeps the canonical form. -/
theorem memClear_wf {m : Mem} (h : Memory.wf m = true) (lo n : Nat) : Memory.wf (spClear lo n m) = true := spClear_wf h lo n

/-- Equal reads make equal memories: the canonical form has one memory for each content. -/
theorem spWf_ext {α : Type} [DecidableEq α] {d : α} : ∀ {m n : Sp α} {b : Nat}, spWfFrom d b m = true → spWfFrom d b n = true →
    (∀ a, spGet d m a = spGet d n a) → m = n := by
  have low : ∀ {m : Sp α} {b a : Nat}, spWfFrom d b m = true → a < b → spGet d m a = d := by
    intro m
    induction m with
    | nil => intro b a _ _; rfl
    | cons e t ih =>
      intro b a h hab
      obtain ⟨k, v⟩ := e
      simp only [spWfFrom, Bool.and_eq_true, decide_eq_true_eq] at h
      simp only [spGet]
      rw [if_neg (by omega)]
      exact ih h.2 (by omega)
  intro m
  induction m with
  | nil =>
    intro n b _ hn hg
    cases n with
    | nil => rfl
    | cons e t =>
      obtain ⟨k, v⟩ := e
      simp only [spWfFrom, Bool.and_eq_true, decide_eq_true_eq] at hn
      have := hg k
      simp only [spGet, if_pos] at this
      exact absurd this.symm hn.1.2
  | cons e t ih =>
    intro n b hm hn hg
    obtain ⟨k, v⟩ := e
    simp only [spWfFrom, Bool.and_eq_true, decide_eq_true_eq] at hm
    cases n with
    | nil =>
      have := hg k
      simp only [spGet, if_pos] at this
      exact absurd this hm.1.2
    | cons e' t' =>
      obtain ⟨k', v'⟩ := e'
      simp only [spWfFrom, Bool.and_eq_true, decide_eq_true_eq] at hn
      have hk : k = k' := by
        rcases Nat.lt_trichotomy k k' with h | h | h
        · have := hg k
          simp only [spGet, if_pos] at this
          rw [if_neg (by omega), low hn.2 (by omega)] at this
          exact absurd this hm.1.2
        · exact h
        · have := hg k'
          simp only [spGet, if_pos] at this
          rw [if_neg (by omega), low hm.2 (by omega)] at this
          exact absurd this.symm hn.1.2
      subst hk
      have hv : v = v' := by have := hg k; simpa only [spGet, if_pos] using this
      subst hv
      congr 1
      refine ih (b := k + 1) hm.2 hn.2 ?_
      intro a
      by_cases ha : k = a
      · subst ha; rw [low hm.2 (by omega), low hn.2 (by omega)]
      · have := hg a
        simpa only [spGet, if_neg ha] using this

/-- Two memories in canonical form that read alike are equal. -/
theorem memory_ext {m n : Mem} (hm : Memory.wf m = true) (hn : Memory.wf n = true) (h : ∀ a, memGet m a = memGet n a) : m = n :=
  spWf_ext hm hn h

end Sys2Proof.Machine
end

