-- ==== Sys2Proof/Laws/Keeps.lean ====
section
/-! SUPPORT. A property of states that is stable (Stable): it looks at nothing but the dies' memories, the control area and which teams are
resident, and the basic changes of these keep it. Every shared operation then keeps it: those of global memory and of the control area, and
what is built of them for reports, records, tasks, copies, contexts, pipes, the ends of teams, words and harts. The canonical form
of the memories (Safety.MemoryOk) is one. -/

namespace Sys2Proof.Machine

open Sys2Proof

/-! ### Lists -/

/-- A property that every step of a fold keeps. -/
theorem foldl_keeps {α β : Type} {P : α → Prop} {f : α → β → α} (hf : ∀ a b, P a → P (f a b)) : ∀ (l : List β) {a : α}, P a → P (l.foldl f a)
  | [], _, h => h
  | b :: t, a, h => foldl_keeps hf t (hf a b h)

/-- A property of every element, after one is changed. -/
theorem updAt_all {α : Type} {P : α → Prop} {f : α → α} (hf : ∀ a, P a → P (f a)) : ∀ (i : Nat) (l : List α), (∀ a ∈ l, P a) → ∀ a ∈ updAt f i l, P a
  | i, [], h => by cases i <;> exact h
  | 0, b :: t, h => by
    intro a ha
    rw [updAt, List.mem_cons] at ha
    rcases ha with rfl | ha
    · exact hf b (h b (by simp))
    · exact h a (by simp [ha])
  | i + 1, b :: t, h => by
    intro a ha
    rw [updAt, List.mem_cons] at ha
    rcases ha with rfl | ha
    · exact h a (by simp)
    · exact updAt_all hf i t (fun x hx => h x (by simp [hx])) a ha

/-! ### Stable properties -/

/-- Every die's memory of a memory system is in canonical form. -/
def ViewsOk (m : MemSys) : Prop := ∀ v ∈ m.views, Memory.wf v.mem = true

/-- A team of the same number, function and cluster. -/
def SameHome (a b : Team) : Prop := a.tid = b.tid ∧ a.fn = b.fn ∧ a.place.cluster = b.place.cluster

/-- A property of states that the basic changes keep: memories that stay in canonical form, a write of the control area, a change of one
team that keeps its number and place, teams that go. -/
structure Stable (P : State → Prop) : Prop where
  views : ∀ {s t : State}, P s → (ViewsOk s.mem → ViewsOk t.mem) → t.loom.ctl = s.loom.ctl → t.teams = s.teams → P t
  ctl : ∀ {s : State} (a : Nat) (b : List Byte), P s → P (ctlWrite s a b)
  team : ∀ {s : State} (tid : Nat) {f : Team → Team}, P s → (∀ x, SameHome (f x) x) → P (updTeam s tid f)
  drop : ∀ {s : State} (p : Team → Bool), P s → P { s with teams := s.teams.filter p }

variable {P : State → Prop}

/-- Nothing that the property looks at has changed. -/
theorem Stable.same (hP : Stable P) {s t : State} (h : P s) (hm : t.mem.views = s.mem.views) (hc : t.loom.ctl = s.loom.ctl)
    (ht : t.teams = s.teams) : P t := hP.views h (fun k => by unfold ViewsOk; rw [hm]; exact k) hc ht

/-- Both branches have the property. -/
theorem ite_keeps {p : Prop} [Decidable p] {s t : State} (hs : P s) (ht : P t) : P (if p then s else t) := by
  split
  · exact hs
  · exact ht

/-- A list taken in turn. -/
theorem fold_keeps {β : Type} {f : State → β → State} (l : List β) {s : State} (h : P s) (hf : ∀ s b, P s → P (f s b)) : P (l.foldl f s) :=
  foldl_keeps hf l h

/-! ### Views -/

theorem updView_ok {m : MemSys} (h : ViewsOk m) (d : Nat) {f : DieView → DieView} (hf : ∀ v, Memory.wf v.mem = true → Memory.wf (f v).mem = true) :
    ViewsOk (updView m d f) := updAt_all hf d m.views h

/-- Applying a write to a view keeps its form. -/
theorem applyTo_wf {v : DieView} (h : Memory.wf v.mem = true) (a : Nat) (b : List Byte) (p : List (Nat × Bool)) (r : List Nat) :
    Memory.wf (applyTo v a b p r).mem = true := memWrite_wf b h a

theorem deliverOne_ok {m : MemSys} (h : ViewsOk m) (d : Nat) (e : Transit) : ViewsOk (deliverOne m d e) :=
  updView_ok h d fun _ hv => applyTo_wf hv e.addr e.bytes e.poison e.rels

theorem deliverSet_ok {m : MemSys} (h : ViewsOk m) (d : Nat) (l : List Nat) : ViewsOk (deliverSet m d l) :=
  foldl_keeps (P := ViewsOk) (fun _ e h => deliverOne_ok h d e) _ h

theorem catchUp_ok {m : MemSys} (h : ViewsOk m) (d a n : Nat) : ViewsOk (catchUp m d a n) := by
  unfold catchUp; split
  · exact h
  · exact deliverSet_ok h d _

/-! ### Global memory -/

theorem deliverAt_keeps (hP : Stable P) {s : State} (h : P s) (d idx : Nat) : P (deliverAt s d idx) := by
  unfold deliverAt; split
  · exact h
  · exact ite_keeps (hP.views h (fun k => deliverOne_ok k d _) rfl rfl) h

theorem bring_keeps (hP : Stable P) {s : State} (h : P s) (d : Nat) (l : List Nat) : P (bring s d l) :=
  hP.views h (fun k => deliverSet_ok k d l) rfl rfl

theorem caughtUp_keeps (hP : Stable P) {s : State} (h : P s) (d a n : Nat) : P { s with mem := catchUp s.mem d a n } :=
  hP.views h (fun k => catchUp_ok k d a n) rfl rfl

theorem writeBytes_keeps (hP : Stable P) {s : State} (h : P s) (d a : Nat) (b : List Byte) (p : List (Nat × Bool)) (deps rels : List Nat) :
    P (writeBytes s d a b p deps rels) :=
  hP.views h (fun k => updView_ok (catchUp_ok k d a b.length) d fun _ hv => applyTo_wf hv a b p rels) rfl rfl

theorem setResv_keeps (hP : Stable P) {s : State} (h : P s) (d tid : Nat) (g : Option Nat) : P (setResv s d tid g) :=
  hP.views h (fun k => updView_ok k d fun _ hv => hv) rfl rfl

theorem writeOwn_keeps (hP : Stable P) {s : State} (h : P s) (d tid a : Nat) (b : List Byte) (p : List (Nat × Bool)) (deps rels : List Nat) :
    P (writeOwn s d tid a b p deps rels) := by
  have hw := writeBytes_keeps hP (caughtUp_keeps hP h d a b.length) d a b p deps rels
  simp only [writeOwn]
  split
  · exact setResv_keeps hP hw d tid _
  · exact hw

theorem fillAll_keeps (hP : Stable P) {s : State} (h : P s) (a n : Nat) {f : DieView → DieView}
    (hf : ∀ v, Memory.wf v.mem = true → Memory.wf (f v).mem = true) : P (fillAll s a n f) :=
  hP.views h (fun k => foldl_keeps (P := ViewsOk) (fun _ d h => updView_ok h d hf) [0, 1, 2, 3] k) rfl rfl

theorem zeroAll_keeps (hP : Stable P) {s : State} (h : P s) (a n : Nat) : P (zeroAll s a n) :=
  fillAll_keeps hP h a n fun _ hv => memClear_wf hv a n

/-! ### Order -/

theorem noteRelease_keeps (hP : Stable P) {s : State} (h : P s) (r : Release) : P (noteRelease s r) := hP.same h rfl rfl rfl

theorem updHist_keeps (hP : Stable P) {s : State} (h : P s) (tid key : Nat) (f : Hist → Hist) : P (updHist s tid key f) :=
  hP.team tid h fun _ => ⟨rfl, rfl, rfl⟩

theorem takeId_keeps (hP : Stable P) {s : State} (h : P s) : P (takeId s).2 := hP.same h rfl rfl rfl

theorem takeFree_keeps (hP : Stable P) {s : State} (h : P s) : P (takeFree s).2 := hP.same h rfl rfl rfl

theorem acquireIds_keeps (hP : Stable P) {s : State} (h : P s) (t : Team) (keys ids : List Nat) : P (acquireIds s t keys ids) := by
  unfold acquireIds
  split
  · exact h
  · exact fold_keeps keys (takeId_keeps hP (bring_keeps hP h t.die _)) fun _ k h => updHist_keeps hP h t.tid k _

theorem readAs_keeps (hP : Stable P) {s : State} (h : P s) (t : Team) (x : Access) (l : List Nat) : P (readAs s t x l) := by
  unfold readAs notePast
  exact updHist_keeps hP h _ _ _

theorem writeAs_keeps (hP : Stable P) {s : State} (h : P s) (t : Team) (x : Access) (own : Bool) (a : Nat) (b : List Byte) (p : List (Nat × Bool))
    (l : List Nat) : P (writeAs s t x own a b p l) := by
  have key : ∀ deps rels, P (if own then writeOwn s t.die t.tid a b p deps rels else writeBytes s t.die a b p deps rels) :=
    fun _ _ => ite_keeps (writeOwn_keeps hP h _ _ _ _ _ _ _) (writeBytes_keeps hP h _ _ _ _ _ _)
  unfold writeAs notePast
  simp only
  refine updHist_keeps hP ?_ _ _ _
  split
  · exact noteRelease_keeps hP (key _ _) _
  · exact key _ _

theorem releaseAs_keeps (hP : Stable P) {s : State} (h : P s) (t : Team) (x : Access) (l : List Nat) : P (releaseAs s t x l).2 := by
  unfold releaseAs notePast
  simp only
  split
  · dsimp only
    exact updHist_keeps hP h _ _ _
  · dsimp only
    exact updHist_keeps hP (noteRelease_keeps hP (takeId_keeps hP h) _) _ _ _

theorem releaseBytes_keeps (hP : Stable P) {s : State} (h : P s) (w : Who) (scp d a : Nat) (b : List Byte) (p : List (Nat × Bool)) (acq : List Nat) :
    P (releaseBytes s w scp d a b p acq) := noteRelease_keeps hP (writeBytes_keeps hP h _ _ _ _ _ _) _

theorem fenceAs_keeps (hP : Stable P) {s : State} (h : P s) (t : Team) (keys : List Nat) (acq rel : Bool) (scp : Nat) :
    P (fenceAs s t keys acq rel scp) := by
  have key := fun f : Hist → Hist => fold_keeps (f := fun s k => updHist s t.tid k f) keys (takeId_keeps hP h) fun _ k h => updHist_keeps hP h t.tid k f
  unfold fenceAs
  simp only
  split
  · exact key _
  · exact hP.same (key _) rfl rfl rfl

theorem waitAs_keeps (hP : Stable P) {s : State} (h : P s) (t : Team) (keys : List Nat) (c : Past → Bool) : P (waitAs s t keys c) :=
  fold_keeps keys (takeId_keeps hP h) fun _ k h => updHist_keeps hP h t.tid k _

/-! ### Pages and walks -/

theorem tlbLookup_keeps (hP : Stable P) {s : State} (h : P s) (c fn va : Nat) : P (tlbLookup s c fn va).2 := by
  unfold tlbLookup; split
  · exact h
  · simp only; split
    · exact h
    · split
      · exact hP.same h rfl rfl rfl
      · exact ite_keeps h (hP.same h rfl rfl rfl)

theorem tlbAll_keeps (hP : Stable P) {s : State} (h : P s) (c fn : Nat) (l : List Nat) : P (tlbAll s c fn l).2 :=
  foldl_keeps (P := fun a => P a.2) (f := fun a va => ((a.1 && (tlbLookup a.2 c fn va).1), (tlbLookup a.2 c fn va).2))
    (fun _ _ h => tlbLookup_keeps hP h c fn _) l (a := (true, s)) h

theorem walkOne_keeps (hP : Stable P) {s : State} (h : P s) (d : Nat) : P (walkOne s d) := by
  unfold walkOne; simp only; split
  · exact takeFree_keeps hP h
  · split
    · exact hP.same h rfl rfl rfl
    · exact hP.same h rfl rfl rfl

theorem makeRoom_keeps (hP : Stable P) {s : State} (h : P s) (fn n : Nat) (sram : Bool) : P (makeRoom s fn n sram) :=
  fold_keeps _ h fun _ _ h => ite_keeps h (hP.same h rfl rfl rfl)

theorem roomFor_keeps (hP : Stable P) {s : State} (h : P s) (fn n hint : Nat) : P (roomFor s fn n hint).2 := by
  have h1 : P (stopMoves s fn) := hP.same h rfl rfl rfl
  unfold roomFor; simp only; split
  · exact h
  · split
    · exact h
    · split
      · exact makeRoom_keeps hP h1 _ _ _
      · exact makeRoom_keeps hP (makeRoom_keeps hP h1 _ _ _) _ _ _

theorem addPage_keeps (hP : Stable P) {s : State} (h : P s) (p : Page) : P (addPage s p) := by
  have h1 : ∀ x : Bool × State, P x.2 → ∀ q : Page, P { zeroAll x.2 (gkey p.fn p.va) p.size with
      xlat := { (zeroAll x.2 (gkey p.fn p.va) p.size).xlat with pages := (zeroAll x.2 (gkey p.fn p.va) p.size).xlat.pages ++ [q] } } :=
    fun x hx _ => hP.same (zeroAll_keeps hP hx (gkey p.fn p.va) p.size) rfl rfl rfl
  refine h1 (if p.remote.isSome then (false, s) else roomFor s p.fn p.size (hintFor s p.fn p.va p.size p.hint p.hintDie).1) ?_ _
  split
  · exact h
  · exact roomFor_keeps hP h _ _ _

theorem addPages_keeps (hP : Stable P) : ∀ (n : Nat) {s : State} (p : Page), P s → P (addPages s p n)
  | 0, _, _, h => h
  | n + 1, _, p, h => addPages_keeps hP n _ (addPage_keeps hP h p)

theorem removePages_keeps (hP : Stable P) {s : State} (h : P s) (fn va n : Nat) : P (removePages s fn va n) :=
  hP.same (zeroAll_keeps hP h (gkey fn va) n) rfl rfl rfl

theorem mapOnDemand_keeps (hP : Stable P) {s t : State} (h : P s) {fn va : Nat} (ht : mapOnDemand s fn va = some t) : P t := by
  unfold mapOnDemand at ht; split at ht
  · cases ht
  · rename_i r _
    simp only at ht
    generalize (if striped r.psz then r.psz else 0) = z at ht
    split at ht
    · cases ht
    · cases ht; exact addPage_keeps hP h _

/-- A write of a scratchpad keeps its form. -/
theorem scrWrite_wf {k : Cluster} (h : Memory.wf k.scr = true) (o : Nat) (b : List Byte) (p : List (Nat × Bool)) (r : List Nat) :
    Memory.wf (scrWrite k o b p r).scr = true := memWrite_wf b h o

/-! ### The control area: records, logs, counts -/

theorem setQueue_keeps (hP : Stable P) {s : State} (h : P s) (q : Nat) (k : Queue) : P (setQueue s q k) := hP.same h rfl rfl rfl

theorem putRecord_keeps (hP : Stable P) {s : State} (h : P s) (q : Nat) (r : Record) : P (putRecord s q r) :=
  setQueue_keeps hP (hP.ctl _ _ h) q _

theorem finish_keeps (hP : Stable P) {s : State} (h : P s) (q : Nat) (p : Pending) (st res : Nat) : P (finish s q p st res) := by
  simp only [finish]; split
  · exact setQueue_keeps hP h _ _
  · split
    · exact setQueue_keeps hP h _ _
    · exact putRecord_keeps hP h q _

theorem drainBacklog_keeps (hP : Stable P) : ∀ (l : List Record) {s : State} (q : Nat), P s → P (drainBacklog s q l)
  | [], _, _, h => h
  | r :: t, s, q, h => by
    simp only [drainBacklog]; split
    · exact h
    · exact drainBacklog_keeps hP t q (putRecord_keeps hP (setQueue_keeps hP h q _) q r)

theorem logTo_keeps (hP : Stable P) {s : State} (h : P s) (q : Nat) (e : Entry) : P (logTo s q e) := by
  simp only [logTo]; split
  · exact setQueue_keeps hP h _ _
  · exact setQueue_keeps hP (hP.ctl _ _ h) _ _

theorem report_keeps (hP : Stable P) {s : State} (h : P s) (t : Team) (e : Entry) : P (report s t e) := logTo_keeps hP h _ _

theorem machineCheck_keeps (hP : Stable P) {s : State} (h : P s) (code : Nat) (t : Option Team) (e : Entry) : P (machineCheck s code t e) :=
  fold_keeps _ h fun _ q h => logTo_keeps hP h q _

theorem correctedCheck_keeps (hP : Stable P) {s : State} (h : P s) (code die : Nat) (t : Option Team) (e : Entry) :
    P (correctedCheck s code die t e) := hP.same h rfl rfl rfl

theorem flushMerged_keeps (hP : Stable P) {s : State} (h : P s) : P (flushMerged s) :=
  fold_keeps _ (s := { s with loom := { s.loom with merged := [] } }) (hP.same h rfl rfl rfl) fun _ m h => logTo_keeps hP h m.queue m.entry

theorem ringDoorbell_keeps (hP : Stable P) {s : State} (h : P s) (q : Nat) (v : W32) : P (ringDoorbell s q v) := by
  simp only [ringDoorbell]; split
  · exact h
  · split
    · exact setQueue_keeps hP h _ _
    · split
      · exact hP.same h rfl rfl rfl
      · exact machineCheck_keeps hP (setQueue_keeps hP h _ _) _ _ _

theorem writeCcons_keeps (hP : Stable P) {s : State} (h : P s) (q : Nat) (v : W32) : P (writeCcons s q v) := by
  simp only [writeCcons]; split
  · exact h
  · exact drainBacklog_keeps hP _ q (setQueue_keeps hP h _ _)

theorem writeEcons_keeps (hP : Stable P) {s : State} (h : P s) (q : Nat) (v : W32) : P (writeEcons s q v) :=
  ite_keeps h (setQueue_keeps hP h _ _)

theorem noteEffects_keeps (hP : Stable P) {s : State} (h : P s) (q : Nat) (seq : W32) (l : List Nat) : P (noteEffects s q seq l) :=
  setQueue_keeps hP h _ _

theorem noteNew_keeps (hP : Stable P) {b s : State} (h : P s) (q : Nat) (seq : W32) : P (noteNew b s q seq) :=
  noteEffects_keeps hP h _ _ _

theorem undeliverable_keeps (hP : Stable P) {s : State} (h : P s) (t : Team) (core ch a : Nat) : P (undeliverable s t core ch a) :=
  machineCheck_keeps hP h _ _ _

theorem loomWrite_keeps (hP : Stable P) {s : State} (h : P s) (q fn a : Nat) (b : List Byte) : P (loomWrite s q fn a b) := by
  unfold loomWrite; split
  · exact h
  · exact noteEffects_keeps hP (writeBytes_keeps hP h _ _ _ _ _ _) _ _ _

theorem takeFrame_keeps (hP : Stable P) {s : State} (h : P s) (q : Nat) (f : Frame) : P (takeFrame s q f).2 :=
  setQueue_keeps hP (bring_keeps hP (takeFree_keeps hP h) _ _) _ _

theorem performSignal_keeps (hP : Stable P) {s : State} (h : P s) (q : Nat) (p : Pending) : P (performSignal s q p) := by
  unfold performSignal; simp only; split
  · exact finish_keeps hP h _ _ _ _
  · exact finish_keeps hP (noteNew_keeps hP (ite_keeps h (releaseBytes_keeps hP h _ _ _ _ _ _ _)) _ _) _ _ _ _

theorem progress_keeps (hP : Stable P) {s t : State} (h : P s) {q : Nat} (ht : progress s q = some t) : P t := by
  unfold progress at ht; split at ht
  · split at ht
    · cases ht
    · cases ht; exact finish_keeps hP h _ _ _ _
  · cases ht
  · split at ht
    · cases ht
    · split at ht
      · cases ht; exact finish_keeps hP h _ _ _ _
      · split at ht
        · split at ht
          · cases ht
          · cases ht; exact performSignal_keeps hP h _ _
        · cases ht

/-! ### Tasks -/

theorem tcbWrite_keeps (hP : Stable P) {s : State} (h : P s) (die fn tcb : Nat) (acq : List Nat) (off n v : Nat) :
    P (tcbWrite s die fn tcb acq off n v) := ite_keeps (releaseBytes_keeps hP h _ _ _ _ _ _ _) h

theorem enqueue_keeps (hP : Stable P) {s : State} (h : P s) (k : Task) (l : List Nat) : P (enqueue s k l) :=
  hP.same (tcbWrite_keeps hP (tcbWrite_keeps hP (tcbWrite_keeps hP h _ _ _ _ _ _ _) _ _ _ _ _ _ _) _ _ _ _ _ _ _) rfl rfl rfl

theorem taskError_keeps (hP : Stable P) {s : State} (h : P s) (code q : Nat) (t : Option Team) (tcb pc c : Nat) :
    P (taskError s code q t tcb pc c) := logTo_keeps hP h _ _

theorem lookNow_keeps (hP : Stable P) {s : State} (h : P s) : P (lookNow s).2 := takeFree_keeps hP h

theorem lostLook_keeps (hP : Stable P) {s : State} (h : P s) (l : Look) (t : Team) (a : Nat) : P (lostLook s l t a) :=
  ite_keeps (undeliverable_keeps hP h _ _ _ _) h

theorem decrement_keeps (hP : Stable P) {s : State} (h : P s) (l : Look) (t : Team) (acq : List Nat) (die tcb q pc c : Nat) :
    P (decrement s l t acq die tcb q pc c).2 := by
  have hu : ∀ {x : State}, P x → ∀ own, P (if own = q then taskError x 1 own (some t) tcb pc c
      else taskError (taskError x 1 own (some t) tcb pc c) 1 q (some t) tcb pc c) := fun hx _ =>
    ite_keeps (taskError_keeps hP hx _ _ _ _ _ _) (taskError_keeps hP (taskError_keeps hP hx _ _ _ _ _ _) _ _ _ _ _ _)
  unfold decrement; simp only; split
  · rename_i k _
    generalize k.dep.toNat = d
    split
    · exact hu h _
    · have h1 : ∀ f, P (tcbWrite (updTask s t.fn tcb f) die t.fn tcb acq 0x18 4 (d - 1)) := fun f =>
        tcbWrite_keeps hP (s := updTask s t.fn tcb f) (hP.same h rfl rfl rfl) _ _ _ _ _ _ _
      exact ite_keeps (tcbWrite_keeps hP (h1 _) _ _ _ _ _ _ _) (h1 _)
  · generalize depInMemory s l die t.fn tcb = d
    split
    · exact hu h _
    · exact tcbWrite_keeps hP h _ _ _ _ _ _ _

theorem sendCard_keeps (hP : Stable P) {s : State} (h : P s) (acq : List Nat) (c : Card) : P (sendCard s acq c) := hP.same h rfl rfl rfl

theorem performDeferred_keeps (hP : Stable P) {s : State} (h : P s) (t : Team) (acq : List Nat) (die : Nat) (w : Deferred) :
    P (performDeferred s t acq die w) := by
  have h1 (a : Nat) := lostLook_keeps hP (lookNow_keeps hP h) (lookNow s).1 t a
  unfold performDeferred; simp only; split
  · split
    · exact taskError_keeps hP (h1 _) _ _ _ _ _ _
    · split
      · exact enqueue_keeps hP (h1 _) _ _
      · exact taskError_keeps hP (h1 _) _ _ _ _ _ _
  · split
    · exact taskError_keeps hP (h1 _) _ _ _ _ _ _
    · split
      · exact sendCard_keeps hP (h1 _) _ _
      · exact taskError_keeps hP (h1 _) _ _ _ _ _ _

theorem commitEvent_keeps (hP : Stable P) {s : State} (h : P s) (tid : Nat) : P (commitEvent s tid) := by
  unfold commitEvent; split
  · exact h
  · split
    · split
      · exact h
      · exact fold_keeps _ (tcbWrite_keeps hP (hP.team tid (f := fun t => { t with commit := true, deferred := [] }) h fun _ => ⟨rfl, rfl, rfl⟩)
          _ _ _ _ _ _ _) fun _ w h => performDeferred_keeps hP h _ _ _ w
    · exact h

theorem successor_keeps (hP : Stable P) {s : State} (h : P s) (t : Team) (acq : List Nat) (k : Task) (i : Nat) : P (successor s t acq k i) := by
  have h1 := lostLook_keeps hP (lookNow_keeps hP h) (lookNow s).1 t (k.slist + 8 * i)
  unfold successor
  exact ite_keeps (logTo_keeps hP h1 _ _) (ite_keeps (logTo_keeps hP h1 _ _) (decrement_keeps hP h1 _ _ _ _ _ _ _ _))

theorem endTaskNormally_keeps (hP : Stable P) {s : State} (h : P s) (t : Team) (fn tcb : Nat) : P (endTaskNormally s t fn tcb) := by
  have hc := commitEvent_keeps hP h t.tid
  unfold endTaskNormally; simp only; split
  · exact hc
  · exact hP.same (tcbWrite_keeps hP (fold_keeps _ hc fun _ i h => successor_keeps hP h _ _ _ i) _ _ _ _ _ _ _) rfl rfl rfl

theorem endTaskFaulted_keeps (hP : Stable P) {s : State} (h : P s) (t : Team) (fn tcb fi fa : Nat) (r : Bool) :
    P (endTaskFaulted s t fn tcb fi fa r).2 := by
  have hw (acq : List Nat) (st : Nat) := tcbWrite_keeps hP (tcbWrite_keeps hP (tcbWrite_keeps hP h t.die fn tcb acq 0x28 8 fi)
    t.die fn tcb acq 0x30 8 fa) t.die fn tcb acq 0x1C 1 st
  exact ite_keeps (hP.same (hw _ _) rfl rfl rfl) (hP.same (hw _ _) rfl rfl rfl)

/-! ### Copies -/

theorem numberCopy_keeps (hP : Stable P) {s : State} (h : P s) (c ch : Nat) (b : List Nat) (x : Copy) : P (numberCopy s c ch b x) := by
  have h1 : ∀ l, P (if x.tmpl.emp && x.tmpl.dstScratch then emptyLines s c b l else s) := fun _ => ite_keeps (hP.same h rfl rfl rfl) h
  exact hP.same (h1 _) rfl rfl rfl

theorem startCopy_keeps (hP : Stable P) {s : State} (h : P s) (t : Team) (acq : List Nat) (ch : Nat) (v : W64) : P (startCopy s t acq ch v) := by
  unfold startCopy; split
  · exact h
  · exact numberCopy_keeps hP (takeId_keeps hP h) _ _ _ _

theorem updCopies_keeps (hP : Stable P) {s : State} (h : P s) (c ch : Nat) (f : Copy → Copy) : P (updCopies s c ch f) := hP.same h rfl rfl rfl

theorem updCluster_keeps (hP : Stable P) {s : State} (h : P s) (c : Nat) (f : Cluster → Cluster) : P (updCluster s c f) := hP.same h rfl rfl rfl

theorem finishCopy_keeps (hP : Stable P) {s : State} (h : P s) (c ch : Nat) (x : Copy) : P (finishCopy s c ch x) := by
  have h1 : P (updCopy s c ch x.num fun _ => { x with finished := true }) := updCopies_keeps hP h _ _ _
  exact ite_keeps (updCluster_keeps hP h1 _ _) h1

theorem clearGlobal_keeps (hP : Stable P) {s : State} (h : P s) (t : Team) (x : Copy) : P (clearGlobal s t x) := by
  unfold clearGlobal; split
  · exact h
  · exact fold_keeps _ h fun _ g h => ite_keeps (writeBytes_keeps hP h _ _ _ _ _ _) h

theorem fetchByte_keeps (hP : Stable P) {s u : State} (h : P s) {lost : Bool} {t : Team} {x y : Copy} {i : Nat}
    (hu : fetchByte s lost t x i = .ok (y, u)) : P u := by
  unfold fetchByte at hu; simp only at hu; split at hu
  · cases hu
  · split at hu
    · cases hu
    · cases hu; exact takeFree_keeps hP h

theorem noteWrites_keeps (hP : Stable P) {s : State} (h : P s) (t : Team) (l : List Nat) : P (noteWrites s t l) := by
  unfold noteWrites; split
  · exact hP.same h rfl rfl rfl
  · exact h

theorem landByte_keeps (hP : Stable P) {s : State} (h : P s) (c ch : Nat) (t : Team) (x : Copy) (f : Fetched) : P (landByte s c ch t x f) := by
  have last : ∀ {s1 : State} (y : Copy), P s1 → P (if y.prog < x.tmpl.bytes then updCopy s1 c ch x.num fun _ => y
      else finishCopy (clearGlobal (updCopy s1 c ch x.num fun _ => y) t y) c ch y) := fun y h1 =>
    ite_keeps (updCopies_keeps hP h1 _ _ _) (finishCopy_keeps hP (clearGlobal_keeps hP (updCopies_keeps hP h1 _ _ _) t y) _ _ _)
  unfold landByte
  simp only
  refine last { x with prog := _, ahead := _, fetched := _, left := _, dirty := _, tile := _, wrote := _ } ?_
  split
  · split
    · exact fold_keeps _ h fun _ _ h => updCluster_keeps hP h _ _
    · exact h
  · split
    · exact updCluster_keeps hP h _ _
    · exact ite_keeps (noteWrites_keeps hP (writeBytes_keeps hP h _ _ _ _ _ _) _ _) h

theorem stepAt_keeps (hP : Stable P) {s u : State} (h : P s) {lost : Bool} {c ch : Nat} {t : Team} {x : Copy} {i : Nat}
    (hu : stepAt s lost c ch t x i = .ok u) : P u := by
  unfold stepAt at hu; simp only at hu; split at hu
  · split at hu
    · cases hu
    · cases hu; exact updCopies_keeps hP (fetchByte_keeps hP h ‹_›) _ _ _
  · split at hu
    · cases hu
    · split at hu
      · cases hu; exact landByte_keeps hP h _ _ _ _ _
      · cases hu; exact h

theorem stepByte_keeps (hP : Stable P) {s u : State} (h : P s) {lost : Bool} {c ch : Nat} {t : Team} {x : Copy}
    (hu : stepByte s lost c ch t x = .ok u) : P u := by
  unfold stepByte at hu; simp only at hu; split at hu
  · cases hu; exact stepAt_keeps hP (takeFree_keeps hP h) ‹_›
  · exact stepAt_keeps hP (takeFree_keeps hP h) hu

theorem writeOut_keeps (hP : Stable P) (c ch num i : Nat) : ∀ (n : Nat) {s : State}, P s → P (writeOut c ch num i n s)
  | 0, _, h => h
  | n + 1, s, h => by
    unfold writeOut; split
    · exact h
    · refine ite_keeps h ?_
      split
      · exact h
      · split
        · exact ite_keeps (landByte_keeps hP h _ _ _ _ _) h
        · split
          · exact h
          · exact writeOut_keeps hP c ch num i n (updCopies_keeps hP (fetchByte_keeps hP h ‹_›) _ _ _)

theorem toBoundary_keeps (hP : Stable P) (c ch num : Nat) {s : State} (h : P s) : P (toBoundary c ch num s) := by
  unfold toBoundary; split
  · exact h
  · exact fold_keeps _ h fun _ i h => writeOut_keeps hP c ch num i 17 h

theorem dropAllHops_keeps (hP : Stable P) {s : State} (h : P s) (l : List Nat) : P (dropAllHops s l) := hP.same h rfl rfl rfl

theorem passHops_keeps (hP : Stable P) {s : State} (h : P s) (c ch tid : Nat) : P (passHops s c ch tid) :=
  fold_keeps _ h fun _ y h => finishCopy_keeps hP h c ch y

theorem retireCopies_keeps (hP : Stable P) {s : State} (h : P s) (c tid : Nat) : P (retireCopies s c tid) := by
  refine fold_keeps _ h fun s ch h => ?_
  have h1 := passHops_keeps hP h c ch tid
  refine ite_keeps h1 ?_
  exact dropAllHops_keeps hP (updCopies_keeps hP (fold_keeps _ h1 fun _ y h => toBoundary_keeps hP c ch y.num h) _ _ _) _

/-! ### Matrix contexts -/

theorem served_keeps (hP : Stable P) {s : State} (h : P s) (c i : Nat) : P (served s c i) := updCluster_keeps hP h _ _

theorem leaveChain_keeps (hP : Stable P) {s : State} (h : P s) (m : Nat × Nat) (own running ended : Bool) : P (leaveChain s m own running ended) := by
  have h1 : ∀ f, P (updCtxOf s m.1 m.2 f) := fun _ => updCluster_keeps hP h _ _
  unfold leaveChain; simp only
  have h2 : ∀ (b : Bool) (x : State), P x → P (if b then served x m.1 m.2 else x) := fun _ _ hx => ite_keeps (served_keeps hP hx _ _) hx
  have h3 : ∀ (b : Bool) (x : State), P x → P (if b then updCluster x m.1 fun k => yieldArray k m.2 else x) := fun _ _ hx =>
    ite_keeps (updCluster_keeps hP hx _ _) hx
  exact h2 _ _ (h3 _ _ (h1 _))

theorem dissolveChain_keeps (hP : Stable P) {s : State} (h : P s) (c i : Nat) (own : Bool) : P (dissolveChain s c i own) := by
  unfold dissolveChain; split
  · exact h
  · split
    · exact h
    · exact fold_keeps _ h fun _ e h => leaveChain_keeps hP h _ _ _ _

theorem dissolveImages_keeps (hP : Stable P) {s : State} (h : P s) (id : ChainId) : P (dissolveImages s id) := hP.same h rfl rfl rfl

theorem retireContext_keeps (hP : Stable P) {s : State} (h : P s) (c i acc base : Nat) : P (retireContext s c i acc base) := by
  have h0 := dissolveChain_keeps hP h c i false
  have h1 : P (if (getCtx (getCluster (dissolveChain s c i false) c).mx i).ops.isEmpty then dissolveChain s c i false
      else served (dissolveChain s c i false) c i) := ite_keeps h0 (served_keeps hP h0 c i)
  unfold retireContext; simp only
  refine updCluster_keeps hP ?_ _ _
  split
  · exact dissolveImages_keeps hP h1 _
  · exact h1

/-! ### Pipes -/

theorem updPipe_keeps (hP : Stable P) {s : State} (h : P s) (i : Nat) (f : Pipe → Pipe) : P (updPipe s i f) := hP.same h rfl rfl rfl

theorem removeAttach_keeps (hP : Stable P) {s : State} (h : P s) (i : Nat) : P (removeAttach s i) := by
  unfold removeAttach; split
  · split
    · exact updPipe_keeps hP h _ _
    · exact h
  · exact h

theorem endStage_keeps (hP : Stable P) {s : State} (h : P s) (i : Nat) (d : Bool) : P (endStage s i d) := by
  unfold endStage; split
  · exact h
  · rename_i g _
    have h1 : ∀ f k, P (match g.out with | some pi => updPipe (updStage s i f) pi k | none => updStage s i f) := by
      intro f k; split
      · exact hP.same h rfl rfl rfl
      · exact hP.same h rfl rfl rfl
    exact ite_keeps (h1 _ _) (removeAttach_keeps hP (h1 _ _) i)

theorem endPipelines_keeps (hP : Stable P) {s : State} (h : P s) : P (endPipelines s) := by
  refine fold_keeps _ h fun s p h => ?_
  split
  · exact h
  · split
    · exact h
    · have h1 : ∀ p f, P (updPipeline s p f) := fun _ _ => hP.same h rfl rfl rfl
      refine hP.same (s := match (privateStages (updPipeline s _ _) _).head? with | some i => removeAttach (updPipeline s _ _) i | none => updPipeline s _ _)
        ?_ rfl rfl rfl
      split
      · exact removeAttach_keeps hP (h1 _ _) _
      · exact h1 _ _

/-! ### Outstanding operations -/

theorem updAcc_keeps (hP : Stable P) {s : State} (h : P s) (op idx : Nat) (f : Acc → Acc) : P (updAcc s op idx f) := hP.same h rfl rfl rfl

theorem performAcc_keeps (hP : Stable P) {s : State} (h : P s) (t : Team) (o : VOp) (idx : Nat) (a : Acc) : P (performAcc s t o idx a) := by
  unfold performAcc; simp only; split
  · exact ite_keeps (updAcc_keeps hP h _ _ _) (updAcc_keeps hP (readAs_keeps hP h _ _ _) _ _ _)
  · exact updAcc_keeps hP (writeAs_keeps hP h _ _ _ _ _ _ _) _ _ _
  · exact updAcc_keeps hP (writeAs_keeps hP (caughtUp_keeps hP h _ _ _) _ _ _ _ _ _ _) _ _ _
  · have h1 := releaseAs_keeps hP h t (o.access a) []
    exact updAcc_keeps hP (updCluster_keeps hP (ite_keeps h1 (readAs_keeps hP h1 _ _ _)) _ _) _ _ _
  · exact updAcc_keeps hP (updCluster_keeps hP (releaseAs_keeps hP h t (o.access a) _) _ _) _ _ _
  · exact updAcc_keeps hP (updCluster_keeps hP (releaseAs_keeps hP h t (o.access a) _) _ _) _ _ _
  · exact updAcc_keeps hP (readAs_keeps hP h _ _ _) _ _ _
  · exact updAcc_keeps hP (readAs_keeps hP h _ _ _) _ _ _

theorem performOne_keeps (hP : Stable P) {s : State} (h : P s) (op idx : Nat) : P (performOne s op idx) := by
  unfold performOne; split
  · exact h
  · split
    · exact ite_keeps h (performAcc_keeps hP h _ _ _ _)
    · exact h

theorem performElem_keeps (hP : Stable P) {s : State} (h : P s) (op idx : Nat) : P (performElem s op idx) := by
  unfold performElem; split
  · exact h
  · exact fold_keeps _ h fun _ i h => performOne_keeps hP h op i

theorem performAll_keeps (hP : Stable P) {s : State} (h : P s) (op : Nat) : P (performAll s op) := by
  unfold performAll; split
  · exact h
  · exact fold_keeps _ h fun _ i h => performElem_keeps hP h op i

theorem landElem_keeps (hP : Stable P) {s : State} (h : P s) (op idx : Nat) : P (landElem s op idx) := by
  unfold landElem; split
  · exact h
  · split
    · exact h
    · refine ite_keeps h (updAcc_keeps hP (hP.team _ h fun x => ?_) _ _ _)
      split
      · exact ⟨rfl, rfl, rfl⟩
      · exact ⟨rfl, rfl, rfl⟩

theorem landAll_keeps (hP : Stable P) {s : State} (h : P s) (op : Nat) : P (landAll s op) := by
  unfold landAll; split
  · exact h
  · exact fold_keeps _ h fun _ i h => landElem_keeps hP h op i

theorem completeOp_keeps (hP : Stable P) {s : State} (h : P s) (o : VOp) : P (completeOp s o) :=
  hP.same (hP.team o.tid (f := fun t => t.returned o.id) h fun _ => ⟨rfl, rfl, rfl⟩) rfl rfl rfl

theorem returnOp_keeps (hP : Stable P) {s : State} (h : P s) (op : Nat) : P (returnOp s op) := by
  have h1 := performAll_keeps hP h op
  unfold returnOp; simp only; split
  · exact h1
  · exact ite_keeps h1 (completeOp_keeps hP (landAll_keeps hP h1 op) _)

/-! ### The ends of teams -/

theorem applyHStore_keeps (hP : Stable P) {s : State} (h : P s) (t : Team) (x : HStore) : P (applyHStore s t x) :=
  ite_keeps h (writeAs_keeps hP h _ _ _ _ _ _ _)

theorem settleOps_keeps (hP : Stable P) {s : State} (h : P s) (tid : Nat) : P (settleOps s tid) := by
  have h1 : P ((s.vops.filter fun o => o.tid = tid && o.kind.writes).foldl (fun s o =>
      (upFrom 0 o.accs.length).foldl (fun s i => if (takeFree s).1 % 2 = 0 then performElem (takeFree s).2 o.id i else (takeFree s).2) s) s) :=
    fold_keeps _ h fun _ o h => fold_keeps _ h fun s i h =>
      ite_keeps (performElem_keeps hP (takeFree_keeps hP h) _ _) (takeFree_keeps hP h)
  have h2 : ∀ x : State, P x → P (match getTeam x tid with
      | none => x
      | some t => match t.hart with
        | none => x
        | some hh => hh.stores.foldl (fun s st => if (takeFree s).1 % 2 = 0 then applyHStore (takeFree s).2 t st else (takeFree s).2) x) := by
    intro x hx; split
    · exact hx
    · split
      · exact hx
      · exact fold_keeps _ hx fun s st h => ite_keeps (applyHStore_keeps hP (takeFree_keeps hP h) _ _) (takeFree_keeps hP h)
  exact hP.same (h2 _ h1) rfl rfl rfl

theorem completeLaunch_keeps (hP : Stable P) {s : State} (h : P s) (fn lid : Nat) : P (completeLaunch s fn lid) := by
  unfold completeLaunch; split
  · exact h
  · rename_i l _
    have h1 : ∀ ids y, P { noteEffects s l.queue l.cmdSeq ids with loom := { (noteEffects s l.queue l.cmdSeq ids).loom with launches := y } } :=
      fun ids _ => hP.same (noteEffects_keeps hP h l.queue l.cmdSeq ids) rfl rfl rfl
    exact ite_keeps h (finish_keeps hP (h1 _ _) _ _ _ _)

theorem noteTeam_keeps (hP : Stable P) {s : State} (h : P s) (t : Team) : P (noteTeam s t) := noteWrites_keeps hP h t _

theorem countEnd_keeps (hP : Stable P) {s : State} (h : P s) (fn lid : Nat) (f : Bool) : P (countEnd s fn lid f) :=
  completeLaunch_keeps hP (s := updLaunch s fn lid _) (hP.same h rfl rfl rfl) fn lid

/-- What the end of a team does after the team is gone. -/
theorem afterEnd_keeps (hP : Stable P) {s : State} (h : P s) (r : TeamRef) (c : EndCause) (sh : Bool) : P (match r with
    | .launch fn lid _ => if sh then s else countEnd s fn lid (!c.normal)
    | .task _ _ => s
    | .stage i => endStage s i c.detached
    | .loom => s) := by
  split
  · exact ite_keeps h (countEnd_keeps hP h _ _ _)
  · exact h
  · exact endStage_keeps hP h _ _
  · exact h

theorem endResident_keeps (hP : Stable P) {s : State} (h : P s) (tid : Nat) (c : EndCause) (sh : Bool) : P (endResident s tid c sh) := by
  unfold endResident; split
  · exact h
  · rename_i t _
    have h1 : P (if c.normal then s else settleOps s tid) := ite_keeps h (settleOps_keeps hP h tid)
    have h2 : ∀ x : State, P x → P (match t.ref with
        | .task fn tcb => if c.normal then (false, endTaskNormally x t fn tcb)
            else endTaskFaulted x t fn tcb (c.cause + 65536 * c.reason) c.addr c.mayReplay
        | _ => (false, x)).2 := by
      intro x hx; split
      · split
        · exact endTaskNormally_keeps hP hx _ _ _
        · exact endTaskFaulted_keeps hP hx _ _ _ _ _ _
      · exact hx
    have h3 : ∀ r : Bool × State, P r.2 → P (match c.entry with
        | some e => if sh then r.2 else logTo r.2 (reportQueue s t) (nameTeam r.2 t { e with replayable := r.1 })
        | none => r.2) := by
      intro r hr; split
      · exact ite_keeps hr (logTo_keeps hP hr _ _)
      · exact hr
    have h4 : ∀ x : State, P x → P (match t.place.ctx with
        | some i => retireContext x t.place.cluster i t.place.acc t.place.accBase
        | none => x) := by
      intro x hx; split
      · exact retireContext_keeps hP hx _ _ _ _
      · exact hx
    have h5 : ∀ x y, P x → P (noteTeam (setResv x t.die tid none) y) := fun _ _ hx => noteTeam_keeps hP (setResv_keeps hP hx _ _ _) _
    have h6 : ∀ (x y : State) (u : Team) (l : List VOp), P y → x = { noteTeam (setResv y t.die tid none) u with
        teams := (noteTeam (setResv y t.die tid none) u).teams.filter fun x => x.tid ≠ tid, vops := l } → P x := by
      intro x y u l hy e
      rw [e]
      exact hP.same (hP.drop (fun x => x.tid ≠ tid) (h5 y u hy)) rfl rfl rfl
    exact afterEnd_keeps hP (h6 _ _ _ _ (h4 _ (retireCopies_keeps hP (h3 _ (h2 _ h1)) t.place.cluster tid)) rfl) _ _ _

/-- A stable property that acting on an image to end one of its teams keeps. -/
structure Ending (P : State → Prop) : Prop extends Stable P where
  image : ∀ {s : State} (m : Image) (tid : Nat) (c : EndCause) (sh : Bool), P s → P (onImage s m fun s => endResident s tid c sh)

theorem endOne_keeps (hP : Ending P) {s : State} (h : P s) (tid : Nat) (c : EndCause) (sh : Bool) : P (endOne s tid c sh) := by
  unfold endOne; split
  · exact hP.image _ _ _ _ h
  · exact endResident_keeps hP.toStable h _ _ _

theorem endWithPartner_keeps (hP : Ending P) {s : State} (h : P s) (tid : Nat) (c : EndCause) : P (endWithPartner s tid c) := by
  unfold endWithPartner; split
  · exact h
  · split
    · exact endOne_keeps hP h _ _ _
    · exact ite_keeps (endOne_keeps hP h _ _ _) (endOne_keeps hP (ite_keeps (endOne_keeps hP h _ _ _) h) _ _ _)

theorem settleHeddle_keeps (hP : Ending P) (silent : Bool) : ∀ (f : Nat) {s : State}, P s → P (settleHeddle silent f s)
  | 0, _, h => h
  | f + 1, s, h => by
    have he := endPipelines_keeps hP.toStable h
    unfold settleHeddle; simp only; split
    · exact he
    · split
      · exact he
      · refine settleHeddle_keeps hP silent f ?_
        split
        · exact endOne_keeps hP he _ _ _
        · exact endStage_keeps hP.toStable (ite_keeps he (logTo_keeps hP.toStable he _ _)) _ _

theorem endTeam_keeps (hP : Ending P) {s : State} (h : P s) (tid : Nat) (c : EndCause) : P (endTeam s tid c) :=
  settleHeddle_keeps hP _ _ (endWithPartner_keeps hP h tid c)

theorem checkTeamEnd_keeps (hP : Ending P) {s : State} (h : P s) (tid : Nat) : P (checkTeamEnd s tid) := by
  unfold checkTeamEnd; split
  · exact h
  · exact ite_keeps (endTeam_keeps hP h _ _) h

theorem endTeams_keeps (hP : Ending P) {s : State} (h : P s) (p : Team → Bool) (c : EndCause) : P (endTeams s p c) :=
  fold_keeps _ h fun _ t h => endTeam_keeps hP h t.tid c

theorem abortLaunch_keeps (hP : Ending P) {s : State} (h : P s) (fn lid : Nat) : P (abortLaunch s fn lid) := by
  unfold abortLaunch; split
  · exact h
  · rename_i l _
    exact hP.same (endTeams_keeps hP (fold_keeps (f := fun s m => updLaunch s m.fn m.lid fun x => { x with aborted := true }) (membersOf s l) h
      fun _ m h => hP.same h rfl rfl rfl) (fun t => (membersOf s l).any fun m => match t.ref with
        | .launch f i _ => decide (f = m.fn) && decide (i = m.lid) | _ => false) EndCause.silent) rfl rfl rfl

theorem abortRecord_keeps (hP : Stable P) {s : State} (h : P s) (q : Nat) (p : Pending) : P (abortRecord s q p) :=
  ite_keeps (setQueue_keeps hP h _ _) (putRecord_keeps hP h q _)

theorem abortQueue_keeps (hP : Ending P) {s : State} (h : P s) (q : Nat) (w : Pending → Bool) : P (abortQueue s q w) := by
  refine fold_keeps _ (s := updQueue s q fun k => { k with backlog := [] }) (setQueue_keeps hP.toStable h _ _) fun s p h => ?_
  refine abortRecord_keeps hP.toStable ?_ _ _
  refine ite_keeps ?_ h
  split
  · exact abortLaunch_keeps hP h _ _
  · exact h

theorem finishResets_keeps (hP : Stable P) {s : State} (h : P s) : P (finishResets s) := by
  have h1 : P (((s.loom.queues.map (·.1)).filter fun q => ((fnOfQueue s q).isSome && decide (fnOfQueue s q ≠ s.loom.draining)) && resetDone s q).foldl
      reopen s) := fold_keeps _ h fun _ q h => setQueue_keeps hP h _ _
  exact fold_keeps _ h1 fun _ e h => fold_keeps _ h fun _ p h => ite_keeps h (finish_keeps hP h _ _ _ _)

/-! ### Wefts -/

theorem updWeft_keeps (hP : Stable P) {s : State} (h : P s) (tid wid : Nat) (f : Weft → Weft) : P (updWeft s tid wid f) :=
  hP.team tid h fun _ => ⟨rfl, rfl, rfl⟩

theorem swapOut_keeps (hP : Stable P) {s : State} (h : P s) (tid wid : Nat) (w : Wait) : P (swapOut s tid wid w) :=
  updWeft_keeps hP (takeId_keeps hP h) _ _ _

theorem wake_keeps (hP : Stable P) {s : State} (h : P s) (tid wid : Nat) : P (wake s tid wid) := by
  unfold wake; split
  · exact h
  · split
    · exact h
    · exact ite_keeps h (updWeft_keeps hP (takeId_keeps hP h) _ _ _)

theorem poisonedEnd_keeps (hP : Ending P) {s : State} (h : P s) (tid pc lanes core : Nat) : P (poisonedEnd s tid pc lanes core) :=
  endTeam_keeps hP h _ _

theorem trapAt_keeps (hP : Ending P) {s x : State} (h : P s) {t : Team} {w : Weft} {cause reason info mask cl wd : Nat}
    (hx : trapAt s t w cause reason info mask cl wd = .next x) : P x := by
  unfold trapAt at hx; simp only at hx; split at hx
  · cases hx; exact endTeam_keeps hP h _ _
  · split at hx
    · cases hx; exact endTeam_keeps hP h _ _
    · split at hx
      · cases hx; exact swapOut_keeps hP.toStable h _ _ _
      · cases hx; exact updWeft_keeps hP.toStable (wake_keeps hP.toStable h _ _) _ _ _

theorem trapWord_keeps (hP : Ending P) {s x : State} (h : P s) {t : Team} {w : Weft} {cause reason info mask : Nat}
    (hx : trapWord s t w cause reason info mask = .next x) : P x := trapAt_keeps hP h hx

theorem pageFaultWord_keeps (hP : Ending P) {s x : State} (h : P s) {t : Team} {w : Weft} {va mask : Nat}
    (hx : pageFaultWord s t w va mask = .next x) : P x := by
  unfold pageFaultWord at hx; split at hx
  · cases hx; exact hP.team _ (mapOnDemand_keeps hP.toStable h ‹_›) fun _ => ⟨rfl, rfl, rfl⟩
  · split at hx
    · cases hx; exact swapOut_keeps hP.toStable h _ _ _
    · cases hx
      refine swapOut_keeps hP.toStable (hP.team _ ?_ ?_) _ _ _
      · exact ite_keeps h (report_keeps hP.toStable h t _)
      · exact fun _ => ⟨rfl, rfl, rfl⟩

theorem memTrap_keeps (hP : Ending P) {s x : State} (h : P s) {t : Team} {w : Weft} {code info mask : Nat}
    (hx : memTrap s t w code info mask = .next x) : P x := by
  unfold memTrap at hx; split at hx
  · exact pageFaultWord_keeps hP h hx
  · exact trapWord_keeps hP h hx
  · exact trapWord_keeps hP h hx

theorem kView_keeps (hP : Stable P) {s : State} (h : P s) (t : Team) (w : Weft) : P (kView s t w).2 := by
  refine foldl_keeps (P := fun a : List W32 × State => P a.2) (fun a e h => ?_) _ (a := (t.uni.k, s)) h
  split
  · exact h
  · exact takeFree_keeps hP h

theorem mayLand_keeps (hP : Stable P) {s : State} (h : P s) (t : Team) (w : Weft) (l : List Nat) : P (mayLand s t w l) := by
  refine fold_keeps _ h fun s o h => ?_
  refine ite_keeps (fold_keeps _ h fun s i h => ?_) h
  exact ite_keeps (landElem_keeps hP (performElem_keeps hP (takeFree_keeps hP h) _ _) _ _) (takeFree_keeps hP h)

theorem prologue_keeps (hP : Stable P) {s : State} (h : P s) {t : Team} {w : Weft} {u : Uses} {c : VCtx} (hc : prologue s t w u = some c) : P c.s := by
  have hv := kView_keeps hP (mayLand_keeps hP h t w (u.codes.filterMap vReg ++ u.frees ++ u.dests)) t w
  simp only [prologue] at hc; split at hc
  · cases hc
  · split at hc
    · cases hc
    · cases hc; exact hv

theorem pollOr_keeps (hP : Stable P) {s x : State} (h : P s) {t : Team} {w : Weft} {r : Result} (hr : ∀ y, r = .next y → P y)
    (hx : pollOr s t w r = .next x) : P x := by
  unfold pollOr at hx; split at hx
  · cases hx; exact wake_keeps hP h _ _
  · exact hr x hx

/-- A word keeps the property where what it does after its prologue keeps it. -/
theorem runWord_keeps (hP : Ending P) {s x : State} (h : P s) {i : Instr} {u : Uses} {body : VCtx → Result}
    (hb : ∀ c y, P c.s → body c = .next y → P y) (hx : runWord i s u body = .next x) : P x := by
  unfold runWord withWeft at hx; split at hx
  · split at hx
    · split at hx
      · refine pollOr_keeps hP.toStable h (fun y hy => ?_) hx
        split at hy
        · exact trapWord_keeps hP h hy
        · split at hy
          · cases hy; exact swapOut_keeps hP.toStable h _ _ _
          · split at hy
            · cases hy; exact swapOut_keeps hP.toStable h _ _ _
            · split at hy
              · cases hy
              · exact hb _ _ (prologue_keeps hP.toStable h ‹_›) hy
      · cases hx
    · cases hx
  · cases hx

theorem takeEntry_keeps (hP : Stable P) {s : State} (h : P s) (tid wid : Nat) : P (takeEntry s tid wid) := by
  unfold takeEntry; split
  · exact h
  · split
    · exact h
    · exact updWeft_keeps hP (acquireIds_keeps hP h _ _ _) _ _ _

theorem goTo_keeps (hP : Stable P) {s : State} (h : P s) (tid wid : Nat) (p : Pos) : P (goTo s tid wid p) := by
  unfold goTo; split
  · exact h
  · split
    · exact h
    · have h1 := updWeft_keeps hP h tid wid fun w => { w with pos := p, once := false }
      exact ite_keeps (updWeft_keeps hP (takeId_keeps hP h1) _ _ _) h1

theorem stepOver_keeps (hP : Stable P) {s : State} (h : P s) (tid wid n : Nat) : P (stepOver s tid wid n) := by
  unfold stepOver; split
  · exact h
  · split
    · exact h
    · exact goTo_keeps hP h _ _ _

theorem settleWord_keeps (hP : Stable P) {s : State} (h : P s) (tid wid : Nat) (u : Uses) (f : Weft → Weft) : P (settleWord s tid wid u f) := by
  have h1 : P (if u.codes.contains 0x60 then takeEntry s tid wid else s) := ite_keeps (takeEntry_keeps hP h _ _) h
  unfold settleWord; simp only
  refine wake_keeps hP (updWeft_keeps hP ?_ _ _ _) _ _
  split
  · split
    · exact hP.same h1 rfl rfl rfl
    · exact h1
  · exact h1

theorem finishWord_keeps (hP : Stable P) {s : State} (h : P s) (tid wid : Nat) (u : Uses) (f : Weft → Weft) : P (finishWord s tid wid u f) :=
  stepOver_keeps hP (settleWord_keeps hP h _ _ _ _) _ _ _

theorem finishAt_keeps (hP : Stable P) {s : State} (h : P s) (tid wid : Nat) (u : Uses) (f : Weft → Weft) (c : Nat) : P (finishAt s tid wid u f c) :=
  goTo_keeps hP (settleWord_keeps hP h _ _ _ _) _ _ _

/-! ### Harts -/

theorem updHart_keeps (hP : Stable P) {s : State} (h : P s) (tid : Nat) (f : Hart → Hart) : P (updHart s tid f) :=
  hP.team tid h fun _ => ⟨rfl, rfl, rfl⟩

theorem retire_keeps (hP : Stable P) {s : State} (h : P s) (tid : Nat) (pc : W64) (f : Hart → Hart) : P (retire s tid pc f) :=
  updHart_keeps hP (takeFree_keeps hP h) _ _

theorem enterLoom_keeps (hP : Stable P) {s : State} (h : P s) (t : Team) (a b : Nat) : P (enterLoom s t a b) :=
  updHart_keeps hP (setResv_keeps hP h t.die _ none) _ _

theorem hartException_keeps (hP : Ending P) {s x : State} (h : P s) {t : Team} {hh : Hart} {mcause mtval code reason : Nat} {mm : Bool}
    (hx : hartException s t hh mcause mtval code reason mm = .next x) : P x := by
  have he := enterLoom_keeps hP.toStable h t mcause mtval
  simp only [hartException] at hx; split at hx
  · cases hx; exact updHart_keeps hP.toStable he _ _
  · split at hx
    · cases hx
      exact hP.team _ (updHart_keeps hP.toStable (report_keeps hP.toStable he t _) _ _) fun _ => ⟨rfl, rfl, rfl⟩
    · split at hx
      · split at hx
        · cases hx; exact mapOnDemand_keeps hP.toStable he ‹_›
        · split at hx
          · cases hx; exact updHart_keeps hP.toStable he _ _
          · cases hx
            exact hP.team _ (updHart_keeps hP.toStable (ite_keeps he (report_keeps hP.toStable he t _)) _ _) fun _ => ⟨rfl, rfl, rfl⟩
      · cases hx; exact endTeam_keeps hP he _ _

theorem hartMemFault_keeps (hP : Ending P) {s x : State} (h : P s) {t : Team} {hh : Hart} {st : Bool} {code : Nat} {a : W64}
    (hx : hartMemFault s t hh st code a = .next x) : P x := by
  unfold hartMemFault at hx; simp only at hx; split at hx
  · exact hartException_keeps hP h hx
  · exact hartException_keeps hP h hx
  · exact hartException_keeps hP h hx

theorem hartPoll_keeps (hP : Stable P) {s x : State} (h : P s) {t : Team} {hh : Hart} {r : Result} (hr : ∀ y, r = .next y → P y)
    (hx : hartPoll s t hh r = .next x) : P x := by
  unfold hartPoll at hx; split at hx
  · split at hx
    · exact hr x hx
    · cases hx; exact updHart_keeps hP h _ _
  · split at hx
    · exact hr x hx
    · cases hx; exact updHart_keeps hP h _ _
  · exact hr x hx

/-! ### Commands -/

/-- A command keeps the property where its own effect keeps it. -/
theorem runCommand_keeps (hP : Stable P) {s x : State} (h : P s) {opc : Nat} {admin own : Bool} {f : Frame} {denied : Cmd → Bool}
    {named : List (Nat × Nat)} {body : Cmd → Answer}
    (hb : ∀ c, P c.s → (∀ st r y, body c = .done st r y → P y) ∧ ∀ y, body c = .later y → P y)
    (hx : runCommand opc admin own f denied named body s = .next x) : P x := by
  unfold runCommand at hx; split at hx
  · rename_i q n _
    have ht := takeFrame_keeps hP h q f
    dsimp only at hx
    generalize (if q = 0 then admin else own) = g at hx
    split at hx
    · cases hx; exact finish_keeps hP ht _ _ _ _
    · split at hx
      · cases hx; exact finish_keeps hP ht _ _ _ _
      · split at hx
        · cases hx; exact finish_keeps hP ht _ _ _ _
        · split at hx
          · cases hx; exact finish_keeps hP ((hb _ ht).1 _ _ _ ‹_›) _ _ _ _
          · cases hx; exact (hb _ ht).2 _ ‹_›
          · cases hx; exact h
  · cases hx

/-! ### The canonical form of the memories -/

theorem memoryOk_stable : Stable Safety.MemoryOk where
  views h hv hc _ := ⟨hv h.1, by rw [hc]; exact h.2⟩
  ctl a b h := ⟨h.1, memWrite_wf b h.2 a⟩
  team _ _ h _ := h
  drop _ h := h

theorem memoryOk_ending : Ending Safety.MemoryOk where
  toStable := memoryOk_stable
  image {s} m tid c sh h := by
    have key : ∀ (k : State) (l : List Team) (o : List VOp), Safety.MemoryOk k →
        Safety.MemoryOk (endResident { k with teams := l, vops := o } tid c sh) := fun k l o hk =>
      endResident_keeps memoryOk_stable (s := { k with teams := l, vops := o }) ⟨hk.1, hk.2⟩ tid c sh
    let k := match m.teams.head? with | some t => t.place.cluster | none => 0
    have := key (setCluster (setCluster s 160 (getCluster s k)) k { m.cluster with hops := (getCluster s k).hops }) (s.teams ++ m.teams)
      (s.vops ++ m.ops) ⟨h.1, h.2⟩
    exact ⟨this.1, this.2⟩

/-- A module that has been reset has canonical memories. -/
theorem moduleReset_ok (s : State) : Safety.MemoryOk (moduleReset s) := by
  refine ⟨?_, rfl⟩
  show ∀ v ∈ State.reset.mem.views, Memory.wf v.mem = true
  decide

theorem writeRstctl_ok {s : State} (h : Safety.MemoryOk s) (v : W32) : Safety.MemoryOk (writeRstctl s v) := ite_keeps (moduleReset_ok s) h

/-- A hart instruction keeps the form where its own effect keeps it. -/
theorem runHart_ok {s x : State} (h : Safety.MemoryOk s) {i : Instr} {body : State → Team → Hart → Result}
    (hb : ∀ s t hh y, Safety.MemoryOk s → body s t hh = .next y → Safety.MemoryOk y) (hx : runHart i s body = .next x) : Safety.MemoryOk x := by
  have key : ∀ (s : State) (t : Team) (hh : Hart) (y : State), Safety.MemoryOk s → (hartPoll s t hh <|
      if t.inM && !machineRuns i then .fault .noAgent else if legal i then body s t hh else hartIllegal s t hh 0) = .next y → Safety.MemoryOk y := by
    intro s t hh y h hy
    refine hartPoll_keeps memoryOk_stable h (fun z hz => ?_) hy
    split at hz
    · cases hz
    · split at hz
      · exact hb _ _ _ _ h hz
      · exact hartException_keeps memoryOk_ending h hz
  unfold runHart withHart at hx; split at hx
  · split at hx
    · split at hx
      · exact key _ _ _ _ h hx
      · cases hx
    · cases hx
  · unfold asMachine at hx; split at hx
    · cases hx
    · dsimp only at hx
      split at hx
      · cases hx
      · split at hx
        · rename_i hk
          cases hx
          have := key _ _ _ _ (show Safety.MemoryOk { (takeId s).2 with teams := (takeId s).2.teams ++ [_] } from h) hk
          unfold dropMachine
          split
          · exact this
          · exact this
        · rename_i hk
          exact absurd hx (by intro e; exact hk _ e)
  · cases hx

end Sys2Proof.Machine
end

