-- ==== Sys2Proof/Laws/Ends.lean ====
section
/-! SUPPORT. Ending teams takes resident teams away and adds none: what is left is teams that were there, each with its number, its function
and its cluster, and a team that has been ended is not left. -/

namespace Sys2Proof.Machine

open Sys2Proof

/-- Every resident team is one of a list: the same number, function and cluster. -/
def HomesIn (T : List Team) (s : State) : Prop := ∀ x ∈ s.teams, ∃ y ∈ T, SameHome y x

variable {T : List Team}

theorem homesIn_self (s : State) : HomesIn s.teams s := fun x hx => ⟨x, hx, rfl, rfl, rfl⟩

theorem homes_stable (T : List Team) : Stable (HomesIn T) where
  views h _ _ ht := by unfold HomesIn; rw [ht]; exact h
  ctl _ _ h := h
  team {s} tid {f} h hf := by
    have key : ∀ l : List Team, (∀ x ∈ l, ∃ y ∈ T, SameHome y x) → ∀ x ∈ updFirst (fun t : Team => t.tid = tid) f l, ∃ y ∈ T, SameHome y x := by
      intro l
      induction l with
      | nil => exact fun h => h
      | cons b t ih =>
        intro h x hx
        rw [updFirst] at hx
        split at hx
        · rw [List.mem_cons] at hx
          rcases hx with rfl | hx
          · obtain ⟨y, hy, h1, h2, h3⟩ := h b (by simp)
            exact ⟨y, hy, h1.trans (hf b).1.symm, h2.trans (hf b).2.1.symm, h3.trans (hf b).2.2.symm⟩
          · exact h x (by simp [hx])
        · rw [List.mem_cons] at hx
          rcases hx with rfl | hx
          · exact h x (by simp)
          · exact ih (fun z hz => h z (by simp [hz])) x hx
    exact key s.teams h
  drop p h := fun x hx => h x (List.mem_filter.mp hx).1

/-- Acting on an image brings no team out of it. -/
theorem onImage_homes {s : State} (h : HomesIn T s) (m : Image) {f : State → State}
    (hf : ∀ L x, HomesIn L x → HomesIn L (f x)) : HomesIn T (onImage s m f) := by
  let k := match m.teams.head? with | some t => t.place.cluster | none => 0
  let both : State := { setCluster (setCluster s 160 (getCluster s k)) k { m.cluster with hops := (getCluster s k).hops } with
    teams := s.teams ++ m.teams, vops := s.vops ++ m.ops }
  have h1 := hf (s.teams ++ m.teams) both (homesIn_self both)
  intro x hx
  have hx' : x ∈ (f both).teams.filter fun t => !(m.teams.map (·.tid)).contains t.tid := hx
  rw [List.mem_filter] at hx'
  obtain ⟨y, hy, g1, g2, g3⟩ := h1 x hx'.1
  rcases List.mem_append.mp hy with hy | hy
  · obtain ⟨z, hz, e1, e2, e3⟩ := h y hy
    exact ⟨z, hz, e1.trans g1, e2.trans g2, e3.trans g3⟩
  · exfalso
    have hc : (m.teams.map (·.tid)).contains x.tid = true := List.contains_iff_mem.mpr (List.mem_map.mpr ⟨y, hy, g1⟩)
    exact absurd hx'.2 (by rw [hc]; decide)

theorem homes_ending (T : List Team) : Ending (HomesIn T) where
  toStable := homes_stable T
  image m tid c sh h := onImage_homes h m fun L _ hx => endResident_keeps (homes_stable L) hx tid c sh

/-- A team that has been ended is not resident any more. -/
theorem endResident_gone (s : State) (tid : Nat) (c : EndCause) (sh : Bool) : ∀ x ∈ (endResident s tid c sh).teams, x.tid ≠ tid := by
  unfold endResident; split
  · rename_i hn
    intro x hx he
    have := List.find?_eq_none.mp hn x hx
    exact this (by simpa using he)
  · rename_i t _
    have key : ∀ (x : State) (y : State) (u : Team) (l : List VOp), x = { noteTeam (setResv y t.die tid none) u with
        teams := (noteTeam (setResv y t.die tid none) u).teams.filter fun z => z.tid ≠ tid, vops := l } → ∀ z ∈ x.teams, z.tid ≠ tid := by
      intro x y u l e z hz
      rw [e] at hz
      simpa using (List.mem_filter.mp hz).2
    intro x hx
    obtain ⟨z, hz, h1, -⟩ := afterEnd_keeps (homes_stable _) (homesIn_self _) t.ref c sh x hx
    rw [← h1]
    exact key _ _ _ _ rfl z hz

theorem endOne_gone (s : State) (tid : Nat) (c : EndCause) (sh : Bool) : ∀ x ∈ (endOne s tid c sh).teams, x.tid ≠ tid := by
  unfold endOne; split
  · rename_i hn _
    intro x hx he
    obtain ⟨y, hy, h1, _⟩ := onImage_homes (homesIn_self s) _ (fun _ _ hz => endResident_keeps (homes_stable _) hz tid c sh) x hx
    exact List.find?_eq_none.mp hn y hy (by simpa using h1.trans he)
  · exact endResident_gone s tid c sh

theorem endWithPartner_gone (s : State) (tid : Nat) (c : EndCause) : ∀ x ∈ (endWithPartner s tid c).teams, x.tid ≠ tid := by
  unfold endWithPartner; split
  · rename_i hn
    intro x hx he
    have hr : getTeam s tid = none := by
      unfold anyTeam at hn; split at hn
      · cases hn
      · assumption
    exact List.find?_eq_none.mp hr x hx (by simpa using he)
  · split
    · exact endOne_gone _ _ _ _
    · simp only; split
      · exact endOne_gone _ _ _ _
      · exact endOne_gone _ _ _ _

/-- A team that has been ended, with everything that follows from it, is not resident any more. -/
theorem endTeam_gone (s : State) (tid : Nat) (c : EndCause) : ∀ x ∈ (endTeam s tid c).teams, x.tid ≠ tid := by
  intro x hx
  obtain ⟨y, hy, h1, _⟩ := settleHeddle_keeps (homes_ending _) false _ (homesIn_self (endWithPartner s tid c)) x hx
  rw [← h1]; exact endWithPartner_gone s tid c y hy

/-- Teams of a condition that depends on nothing but a team's number, function and cluster are gone when all of it have been ended. -/
theorem endTeams_gone (s : State) (p : Team → Bool) (c : EndCause)
    (hp : ∀ x y : Team, x.tid = y.tid → x.fn = y.fn → x.place.cluster = y.place.cluster → p x = p y) :
    ∀ x ∈ (endTeams s p c).teams, p x = false := by
  have key : ∀ (l : List Team) (u : State), (∀ x ∈ u.teams, p x = true → ∃ t ∈ l, t.tid = x.tid) →
      ∀ x ∈ (l.foldl (fun s t => endTeam s t.tid c) u).teams, p x = false := by
    intro l
    induction l with
    | nil =>
      intro u h x hx
      cases hc : p x with
      | false => rfl
      | true => obtain ⟨t, ht, _⟩ := h x hx hc; cases ht
    | cons t l ih =>
      intro u h
      refine ih _ fun x hx hpx => ?_
      obtain ⟨y, hy, h1, h2, h3⟩ := endTeam_keeps (homes_ending _) (homesIn_self u) t.tid c x hx
      obtain ⟨z, hz, hzt⟩ := h y hy ((hp y x h1 h2 h3).trans hpx)
      rcases List.mem_cons.mp hz with rfl | hz
      · exact absurd (h1.symm.trans hzt.symm) (endTeam_gone u z.tid c x hx)
      · exact ⟨z, hz, hzt.trans h1⟩
  refine key _ s fun x hx hpx => ⟨x, List.mem_filter.mpr ⟨?_, hpx⟩, rfl⟩
  unfold allTeams
  exact List.mem_append_left _ hx

end Sys2Proof.Machine
end

