-- ==== Sys2Proof/Laws/Exec.lean ====
section
/-! SUPPORT. One equation for each arm of exec: what the machine executes for each instruction. -/

namespace Sys2Proof.Machine

open Sys2Proof

theorem exec_iadd (o : V3) (s : State) : exec (.iadd o) s = execIadd o s := rfl
theorem exec_isub (o : V3) (s : State) : exec (.isub o) s = execIsub o s := rfl
theorem exec_imul (o : V3) (s : State) : exec (.imul o) s = execImul o s := rfl
theorem exec_imulh (o : V3) (s : State) : exec (.imulh o) s = execImulh o s := rfl
theorem exec_imulhu (o : V3) (s : State) : exec (.imulhu o) s = execImulhu o s := rfl
theorem exec_imad (o : V3) (s : State) : exec (.imad o) s = execImad o s := rfl
theorem exec_imin (o : V3) (s : State) : exec (.imin o) s = execImin o s := rfl
theorem exec_imax (o : V3) (s : State) : exec (.imax o) s = execImax o s := rfl
theorem exec_umin (o : V3) (s : State) : exec (.umin o) s = execUmin o s := rfl
theorem exec_umax (o : V3) (s : State) : exec (.umax o) s = execUmax o s := rfl
theorem exec_and (o : V3) (s : State) : exec (.and o) s = execAnd o s := rfl
theorem exec_or (o : V3) (s : State) : exec (.or o) s = execOr o s := rfl
theorem exec_xor (o : V3) (s : State) : exec (.xor o) s = execXor o s := rfl
theorem exec_andn (o : V3) (s : State) : exec (.andn o) s = execAndn o s := rfl
theorem exec_shl (o : V3) (s : State) : exec (.shl o) s = execShl o s := rfl
theorem exec_shr (o : V3) (s : State) : exec (.shr o) s = execShr o s := rfl
theorem exec_sra (o : V3) (s : State) : exec (.sra o) s = execSra o s := rfl
theorem exec_rotl (o : V3) (s : State) : exec (.rotl o) s = execRotl o s := rfl
theorem exec_bfx (o : V3) (s : State) : exec (.bfx o) s = execBfx o s := rfl
theorem exec_bfxs (o : V3) (s : State) : exec (.bfxs o) s = execBfxs o s := rfl
theorem exec_bfi (o : V3) (s : State) : exec (.bfi o) s = execBfi o s := rfl
theorem exec_perm (o : V3) (s : State) : exec (.perm o) s = execPerm o s := rfl
theorem exec_sel (o : V3) (s : State) : exec (.sel o) s = execSel o s := rfl
theorem exec_cmpeq (o : VCmp) (s : State) : exec (.cmpeq o) s = execCmpeq o s := rfl
theorem exec_cmpne (o : VCmp) (s : State) : exec (.cmpne o) s = execCmpne o s := rfl
theorem exec_cmplt (o : VCmp) (s : State) : exec (.cmplt o) s = execCmplt o s := rfl
theorem exec_cmple (o : VCmp) (s : State) : exec (.cmple o) s = execCmple o s := rfl
theorem exec_cmpltu (o : VCmp) (s : State) : exec (.cmpltu o) s = execCmpltu o s := rfl
theorem exec_cmpleu (o : VCmp) (s : State) : exec (.cmpleu o) s = execCmpleu o s := rfl
theorem exec_fcmpeq (o : VCmp) (s : State) : exec (.fcmpeq o) s = execFcmpeq o s := rfl
theorem exec_fcmplt (o : VCmp) (s : State) : exec (.fcmplt o) s = execFcmplt o s := rfl
theorem exec_fcmple (o : VCmp) (s : State) : exec (.fcmple o) s = execFcmple o s := rfl
theorem exec_fcmpun (o : VCmp) (s : State) : exec (.fcmpun o) s = execFcmpun o s := rfl
theorem exec_fadd (o : V3) (s : State) : exec (.fadd o) s = execFadd o s := rfl
theorem exec_fsub (o : V3) (s : State) : exec (.fsub o) s = execFsub o s := rfl
theorem exec_fmul (o : V3) (s : State) : exec (.fmul o) s = execFmul o s := rfl
theorem exec_ffma (o : V3) (s : State) : exec (.ffma o) s = execFfma o s := rfl
theorem exec_fmin (o : V3) (s : State) : exec (.fmin o) s = execFmin o s := rfl
theorem exec_fmax (o : V3) (s : State) : exec (.fmax o) s = execFmax o s := rfl
theorem exec_hadd2 (o : V3) (s : State) : exec (.hadd2 o) s = execHadd2 o s := rfl
theorem exec_hmul2 (o : V3) (s : State) : exec (.hmul2 o) s = execHmul2 o s := rfl
theorem exec_hfma2 (o : V3) (s : State) : exec (.hfma2 o) s = execHfma2 o s := rfl
theorem exec_badd2 (o : V3) (s : State) : exec (.badd2 o) s = execBadd2 o s := rfl
theorem exec_bmul2 (o : V3) (s : State) : exec (.bmul2 o) s = execBmul2 o s := rfl
theorem exec_bfma2 (o : V3) (s : State) : exec (.bfma2 o) s = execBfma2 o s := rfl
theorem exec_movi (o : VMovi) (s : State) : exec (.movi o) s = execMovi o s := rfl
theorem exec_iaddi (o : VAddi) (s : State) : exec (.iaddi o) s = execIaddi o s := rfl
theorem exec_cvtfi (o : VU) (s : State) : exec (.cvtfi o) s = execCvtfi o s := rfl
theorem exec_cvtfu (o : VU) (s : State) : exec (.cvtfu o) s = execCvtfu o s := rfl
theorem exec_cvtif (o : VU) (s : State) : exec (.cvtif o) s = execCvtif o s := rfl
theorem exec_cvtuf (o : VU) (s : State) : exec (.cvtuf o) s = execCvtuf o s := rfl
theorem exec_nrw2 (o : VPack) (s : State) : exec (.nrw2 o) s = execNrw2 o s := rfl
theorem exec_nrw4 (o : VPack) (s : State) : exec (.nrw4 o) s = execNrw4 o s := rfl
theorem exec_nrw8 (o : VPack) (s : State) : exec (.nrw8 o) s = execNrw8 o s := rfl
theorem exec_wdn2 (o : VPack) (s : State) : exec (.wdn2 o) s = execWdn2 o s := rfl
theorem exec_wdn4 (o : VPack) (s : State) : exec (.wdn4 o) s = execWdn4 o s := rfl
theorem exec_wdn8 (o : VPack) (s : State) : exec (.wdn8 o) s = execWdn8 o s := rfl
theorem exec_mov (o : VU) (s : State) : exec (.mov o) s = execMov o s := rfl
theorem exec_not (o : VU) (s : State) : exec (.not o) s = execNot o s := rfl
theorem exec_neg (o : VU) (s : State) : exec (.neg o) s = execNeg o s := rfl
theorem exec_iabs (o : VU) (s : State) : exec (.iabs o) s = execIabs o s := rfl
theorem exec_popc (o : VU) (s : State) : exec (.popc o) s = execPopc o s := rfl
theorem exec_clz (o : VU) (s : State) : exec (.clz o) s = execClz o s := rfl
theorem exec_ctz (o : VU) (s : State) : exec (.ctz o) s = execCtz o s := rfl
theorem exec_brev (o : VU) (s : State) : exec (.brev o) s = execBrev o s := rfl
theorem exec_fabs (o : VU) (s : State) : exec (.fabs o) s = execFabs o s := rfl
theorem exec_fneg (o : VU) (s : State) : exec (.fneg o) s = execFneg o s := rfl
theorem exec_rcp (o : VU) (s : State) : exec (.rcp o) s = execRcp o s := rfl
theorem exec_rsq (o : VU) (s : State) : exec (.rsq o) s = execRsq o s := rfl
theorem exec_sqrt (o : VU) (s : State) : exec (.sqrt o) s = execSqrt o s := rfl
theorem exec_exp2 (o : VU) (s : State) : exec (.exp2 o) s = execExp2 o s := rfl
theorem exec_log2 (o : VU) (s : State) : exec (.log2 o) s = execLog2 o s := rfl
theorem exec_sin (o : VU) (s : State) : exec (.sin o) s = execSin o s := rfl
theorem exec_cos (o : VU) (s : State) : exec (.cos o) s = execCos o s := rfl
theorem exec_flr (o : VU) (s : State) : exec (.flr o) s = execFlr o s := rfl
theorem exec_ceil (o : VU) (s : State) : exec (.ceil o) s = execCeil o s := rfl
theorem exec_trunc (o : VU) (s : State) : exec (.trunc o) s = execTrunc o s := rfl
theorem exec_rnde (o : VU) (s : State) : exec (.rnde o) s = execRnde o s := rfl
theorem exec_cvthf (o : VU) (s : State) : exec (.cvthf o) s = execCvthf o s := rfl
theorem exec_cvtbf (o : VU) (s : State) : exec (.cvtbf o) s = execCvtbf o s := rfl
theorem exec_cvtfh (o : VU) (s : State) : exec (.cvtfh o) s = execCvtfh o s := rfl
theorem exec_cvtfb (o : VU) (s : State) : exec (.cvtfb o) s = execCvtfb o s := rfl
theorem exec_ldg8 (o : VM) (s : State) : exec (.ldg8 o) s = execLdg8 o s := rfl
theorem exec_ldg8s (o : VM) (s : State) : exec (.ldg8s o) s = execLdg8s o s := rfl
theorem exec_ldg16 (o : VM) (s : State) : exec (.ldg16 o) s = execLdg16 o s := rfl
theorem exec_ldg16s (o : VM) (s : State) : exec (.ldg16s o) s = execLdg16s o s := rfl
theorem exec_ldg32 (o : VM) (s : State) : exec (.ldg32 o) s = execLdg32 o s := rfl
theorem exec_ldg64 (o : VM) (s : State) : exec (.ldg64 o) s = execLdg64 o s := rfl
theorem exec_stg8 (o : VM) (s : State) : exec (.stg8 o) s = execStg8 o s := rfl
theorem exec_stg16 (o : VM) (s : State) : exec (.stg16 o) s = execStg16 o s := rfl
theorem exec_stg32 (o : VM) (s : State) : exec (.stg32 o) s = execStg32 o s := rfl
theorem exec_stg64 (o : VM) (s : State) : exec (.stg64 o) s = execStg64 o s := rfl
theorem exec_ldgs (o : VM) (s : State) : exec (.ldgs o) s = execLdgs o s := rfl
theorem exec_atomg (o : VM) (s : State) : exec (.atomg o) s = execAtomg o s := rfl
theorem exec_fence (o : VFence) (s : State) : exec (.fence o) s = execFence o s := rfl
theorem exec_waitp (o : VWaitp) (s : State) : exec (.waitp o) s = execWaitp o s := rfl
theorem exec_lds8 (o : VM) (s : State) : exec (.lds8 o) s = execLds8 o s := rfl
theorem exec_lds16 (o : VM) (s : State) : exec (.lds16 o) s = execLds16 o s := rfl
theorem exec_lds32 (o : VM) (s : State) : exec (.lds32 o) s = execLds32 o s := rfl
theorem exec_lds64 (o : VM) (s : State) : exec (.lds64 o) s = execLds64 o s := rfl
theorem exec_sts8 (o : VM) (s : State) : exec (.sts8 o) s = execSts8 o s := rfl
theorem exec_sts16 (o : VM) (s : State) : exec (.sts16 o) s = execSts16 o s := rfl
theorem exec_sts32 (o : VM) (s : State) : exec (.sts32 o) s = execSts32 o s := rfl
theorem exec_sts64 (o : VM) (s : State) : exec (.sts64 o) s = execSts64 o s := rfl
theorem exec_ldsC (o : VM) (s : State) : exec (.ldsC o) s = execLdsC o s := rfl
theorem exec_sfull (o : VLine) (s : State) : exec (.sfull o) s = execSfull o s := rfl
theorem exec_sempty (o : VLine) (s : State) : exec (.sempty o) s = execSempty o s := rfl
theorem exec_stag (o : VTag) (s : State) : exec (.stag o) s = execStag o s := rfl
theorem exec_stset (o : VM) (s : State) : exec (.stset o) s = execStset o s := rfl
theorem exec_stinv (o : VTag) (s : State) : exec (.stinv o) s = execStinv o s := rfl
theorem exec_atoms (o : VM) (s : State) : exec (.atoms o) s = execAtoms o s := rfl
theorem exec_shfl (o : V3) (s : State) : exec (.shfl o) s = execShfl o s := rfl
theorem exec_shflup (o : V3) (s : State) : exec (.shflup o) s = execShflup o s := rfl
theorem exec_shfldn (o : V3) (s : State) : exec (.shfldn o) s = execShfldn o s := rfl
theorem exec_shflx (o : V3) (s : State) : exec (.shflx o) s = execShflx o s := rfl
theorem exec_bcast (o : VBcast) (s : State) : exec (.bcast o) s = execBcast o s := rfl
theorem exec_vany (o : VU) (s : State) : exec (.vany o) s = execVany o s := rfl
theorem exec_vall (o : VU) (s : State) : exec (.vall o) s = execVall o s := rfl
theorem exec_ballot (o : VBallot) (s : State) : exec (.ballot o) s = execBallot o s := rfl
theorem exec_scan (o : VScan) (s : State) : exec (.scan o) s = execScan o s := rfl
theorem exec_fscan (o : VScan) (s : State) : exec (.fscan o) s = execFscan o s := rfl
theorem exec_red (o : VScan) (s : State) : exec (.red o) s = execRed o s := rfl
theorem exec_fred (o : VScan) (s : State) : exec (.fred o) s = execFred o s := rfl
theorem exec_mand (o : VMask) (s : State) : exec (.mand o) s = execMand o s := rfl
theorem exec_mor (o : VMask) (s : State) : exec (.mor o) s = execMor o s := rfl
theorem exec_regroup (vd : BitVec 6) (s : State) : exec (.regroup vd) s = execRegroup vd s := rfl
theorem exec_ungroup (vd : BitVec 6) (s : State) : exec (.ungroup vd) s = execUngroup vd s := rfl
theorem exec_bru (o : VBranch) (s : State) : exec (.bru o) s = execBru o s := rfl
theorem exec_brk (o : VBranch) (s : State) : exec (.brk o) s = execBrk o s := rfl
theorem exec_call (vd : BitVec 6) (disp : W32) (s : State) : exec (.call vd disp) s = execCall vd disp s := rfl
theorem exec_ret (sx : BitVec 7) (lx : Bool) (s : State) : exec (.ret sx lx) s = execRet sx lx s := rfl
theorem exec_nbar (sx : BitVec 7) (id : BitVec 4) (s : State) : exec (.nbar sx id) s = execNbar sx id s := rfl
theorem exec_kwr (kd : BitVec 5) (sx : BitVec 7) (lx : Bool) (s : State) : exec (.kwr kd sx lx) s = execKwr kd sx lx s := rfl
theorem exec_twait (scp : BitVec 3) (sx : BitVec 7) (tl : BitVec 5) (lx : Bool) (s : State) : exec (.twait scp sx tl lx) s = execTwait scp sx tl lx s := rfl
theorem exec_veer (vd : BitVec 6) (sx : BitVec 7) (s : State) : exec (.veer vd sx) s = execVeer vd sx s := rfl
theorem exec_veerMay (vd : BitVec 6) (s : State) : exec (.veerMay vd) s = execVeerMay vd s := rfl
theorem exec_trap (n : BitVec 5) (s : State) : exec (.trap n) s = execTrap n s := rfl
theorem exec_tret (skip : Bool) (s : State) : exec (.tret skip) s = execTret skip s := rfl
theorem exec_pacq (vd : BitVec 6) (s : State) : exec (.pacq vd) s = execPacq vd s := rfl
theorem exec_pget (vd : BitVec 6) (s : State) : exec (.pget vd) s = execPget vd s := rfl
theorem exec_clauseStart (h : Header) (s : State) : exec (.clauseStart h) s = execClauseStart h s := rfl
theorem exec_chunkPageIn (obj chunk : Nat) (s : State) : exec (.chunkPageIn obj chunk) s = execChunkPageIn obj chunk s := rfl
theorem exec_loadReturn (op : Nat) (s : State) : exec (.loadReturn op) s = execLoadReturn op s := rfl
theorem exec_storeApplied (op : Nat) (s : State) : exec (.storeApplied op) s = execStoreApplied op s := rfl
theorem exec_atomicReturn (op : Nat) (s : State) : exec (.atomicReturn op) s = execAtomicReturn op s := rfl
theorem exec_ldgsComplete (op : Nat) (s : State) : exec (.ldgsComplete op) s = execLdgsComplete op s := rfl
theorem exec_remoteAcknowledge (op : Nat) (data : List (W64 × Bool)) (s : State) : exec (.remoteAcknowledge op data) s = execRemoteAcknowledge op data s := rfl
theorem exec_coreMoveComplete (cluster core : Nat) (s : State) : exec (.coreMoveComplete cluster core) s = execCoreMoveComplete cluster core s := rfl
theorem exec_idleCoreMove (cluster core : Nat) (pt : BitVec 2) (s : State) : exec (.idleCoreMove cluster core pt) s = execIdleCoreMove cluster core pt s := rfl
theorem exec_imageRestore (image cluster : Nat) (s : State) : exec (.imageRestore image cluster) s = execImageRestore image cluster s := rfl
theorem exec_pageMigration (fn va : Nat) (die : BitVec 2) (sram : Bool) (s : State) : exec (.pageMigration fn va die sram) s = execPageMigration fn va die sram s := rfl
theorem exec_homeSwitch (fn va : Nat) (s : State) : exec (.homeSwitch fn va) s = execHomeSwitch fn va s := rfl
theorem exec_copyStep (cluster ch num : Nat) (s : State) : exec (.copyStep cluster ch num) s = execCopyStep cluster ch num s := rfl
theorem exec_multicastHop (cluster ch num : Nat) (s : State) : exec (.multicastHop cluster ch num) s = execMulticastHop cluster ch num s := rfl
theorem exec_taskMigration (fn tcb : Nat) (die : BitVec 2) (s : State) : exec (.taskMigration fn tcb die) s = execTaskMigration fn tcb die s := rfl
theorem exec_cardDelivery (card : Nat) (s : State) : exec (.cardDelivery card) s = execCardDelivery card s := rfl
theorem exec_pairCompare (tid : Nat) (s : State) : exec (.pairCompare tid) s = execPairCompare tid s := rfl
theorem exec_uqpush (rs1 : BitVec 5) (s : State) : exec (.uqpush rs1) s = execUqpush rs1 s := rfl
theorem exec_uqtry (rd rs1 : BitVec 5) (s : State) : exec (.uqtry rd rs1) s = execUqtry rd rs1 s := rfl
theorem exec_tlrd (rd : BitVec 5) (iss : Bool) (tl : BitVec 6) (s : State) : exec (.tlrd rd iss tl) s = execTlrd rd iss tl s := rfl
theorem exec_tlwait (rd rs1 : BitVec 5) (scp : BitVec 3) (tl : BitVec 6) (s : State) : exec (.tlwait rd rs1 scp tl) s = execTlwait rd rs1 scp tl s := rfl
theorem exec_xfence (ord : BitVec 2) (scp : BitVec 3) (s : State) : exec (.xfence ord scp) s = execXfence ord scp s := rfl
theorem exec_hartLoad (wd : RvWidth) (rd rs1 : BitVec 5) (imm : BitVec 12) (s : State) : exec (.hartLoad wd rd rs1 imm) s = execHartLoad wd rd rs1 imm s := rfl
theorem exec_hartStore (wd : RvWidth) (rs1 rs2 : BitVec 5) (imm : BitVec 12) (s : State) : exec (.hartStore wd rs1 rs2 imm) s = execHartStore wd rs1 rs2 imm s := rfl
theorem exec_hartAmo (op : RvAmo) (dword aq rl : Bool) (rd rs1 rs2 : BitVec 5) (s : State) : exec (.hartAmo op dword aq rl rd rs1 rs2) s = execHartAmo op dword aq rl rd rs1 rs2 s := rfl
theorem exec_lr (dword aq rl : Bool) (rd rs1 : BitVec 5) (s : State) : exec (.lr dword aq rl rd rs1) s = execLr dword aq rl rd rs1 s := rfl
theorem exec_sc (dword aq rl : Bool) (rd rs1 rs2 : BitVec 5) (s : State) : exec (.sc dword aq rl rd rs1 rs2) s = execSc dword aq rl rd rs1 rs2 s := rfl
theorem exec_hartFence (fm pred succ : BitVec 4) (s : State) : exec (.hartFence fm pred succ) s = execHartFence fm pred succ s := rfl
theorem exec_csrAccess (op : CsrOp) (imm : Bool) (csr : BitVec 12) (rd rs1 : BitVec 5) (s : State) : exec (.csrAccess op imm csr rd rs1) s = execCsrAccess op imm csr rd rs1 s := rfl
theorem exec_rv64Instruction (op : RvOp) (s : State) : exec (.rv64Instruction op) s = execRv64Instruction op s := rfl
theorem exec_mmulMap (rd rs1 rs2 : BitVec 5) (s : State) : exec (.mmulMap rd rs1 rs2) s = execMmulMap rd rs1 rs2 s := rfl
theorem exec_mmulFeed (rd : BitVec 5) (fd : BitVec 2) (rs2 : BitVec 5) (s : State) : exec (.mmulFeed rd fd rs2) s = execMmulFeed rd fd rs2 s := rfl
theorem exec_mmulWest (rd rs2 : BitVec 5) (s : State) : exec (.mmulWest rd rs2) s = execMmulWest rd rs2 s := rfl
theorem exec_mldw (rd rs1 rs2 : BitVec 5) (s : State) : exec (.mldw rd rs1 rs2) s = execMldw rd rs1 rs2 s := rfl
theorem exec_mdrain (rd rs1 rs2 : BitVec 5) (s : State) : exec (.mdrain rd rs1 rs2) s = execMdrain rd rs1 rs2 s := rfl
theorem exec_mzero (rd rs1 : BitVec 5) (s : State) : exec (.mzero rd rs1) s = execMzero rd rs1 s := rfl
theorem exec_mstat (rd : BitVec 5) (s : State) : exec (.mstat rd) s = execMstat rd s := rfl
theorem exec_mbegin (rd : BitVec 5) (feeds : BitVec 4) (s : State) : exec (.mbegin rd feeds) s = execMbegin rd feeds s := rfl
theorem exec_mend (rd : BitVec 5) (s : State) : exec (.mend rd) s = execMend rd s := rfl
theorem exec_mchain (rd rs1 : BitVec 5) (len pos : BitVec 2) (s : State) : exec (.mchain rd rs1 len pos) s = execMchain rd rs1 len pos s := rfl
theorem exec_tenq (rd rs1 : BitVec 5) (s : State) : exec (.tenq rd rs1) s = execTenq rd rs1 s := rfl
theorem exec_tsig (rd rs1 : BitVec 5) (s : State) : exec (.tsig rd rs1) s = execTsig rd rs1 s := rfl
theorem exec_tcard (rd rs1 : BitVec 5) (s : State) : exec (.tcard rd rs1) s = execTcard rd rs1 s := rfl
theorem exec_doorbell (q : Nat) (v : W32) (s : State) : exec (.doorbell q v) s = execDoorbell q v s := rfl
theorem exec_cconsWrite (q : Nat) (v : W32) (s : State) : exec (.cconsWrite q v) s = execCconsWrite q v s := rfl
theorem exec_econsWrite (q : Nat) (v : W32) (s : State) : exec (.econsWrite q v) s = execEconsWrite q v s := rfl
theorem exec_rstctlReset (v : W32) (s : State) : exec (.rstctlReset v) s = execRstctlReset v s := rfl
theorem exec_registerWrite (off : Nat) (size : Nat) (v : W64) (s : State) : exec (.registerWrite off size v) s = execRegisterWrite off size v s := rfl
theorem exec_frameUnknownOpc (f : Frame) (s : State) : exec (.frameUnknownOpc f) s = execFrameUnknownOpc f s := rfl
theorem exec_queueReset (f : Frame) (s : State) : exec (.queueReset f) s = execQueueReset f s := rfl
theorem exec_map (f : Frame) (s : State) : exec (.map f) s = execMap f s := rfl
theorem exec_unmap (f : Frame) (s : State) : exec (.unmap f) s = execUnmap f s := rfl
theorem exec_protect (f : Frame) (s : State) : exec (.protect f) s = execProtect f s := rfl
theorem exec_place (f : Frame) (s : State) : exec (.place f) s = execPlace f s := rfl
theorem exec_portBind (f : Frame) (s : State) : exec (.portBind f) s = execPortBind f s := rfl
theorem exec_objLoad (f : Frame) (s : State) : exec (.objLoad f) s = execObjLoad f s := rfl
theorem exec_objUnload (f : Frame) (s : State) : exec (.objUnload f) s = execObjUnload f s := rfl
theorem exec_launch (f : Frame) (s : State) : exec (.launch f) s = execLaunch f s := rfl
theorem exec_gangLaunch (f : Frame) (s : State) : exec (.gangLaunch f) s = execGangLaunch f s := rfl
theorem exec_taskEnq (f : Frame) (s : State) : exec (.taskEnq f) s = execTaskEnq f s := rfl
theorem exec_taskReplay (f : Frame) (s : State) : exec (.taskReplay f) s = execTaskReplay f s := rfl
theorem exec_taskCancel (f : Frame) (s : State) : exec (.taskCancel f) s = execTaskCancel f s := rfl
theorem exec_teamResume (f : Frame) (s : State) : exec (.teamResume f) s = execTeamResume f s := rfl
theorem exec_teamEnd (f : Frame) (s : State) : exec (.teamEnd f) s = execTeamEnd f s := rfl
theorem exec_pipeBind (f : Frame) (s : State) : exec (.pipeBind f) s = execPipeBind f s := rfl
theorem exec_fenceCommand (f : Frame) (s : State) : exec (.fenceCommand f) s = execFenceCommand f s := rfl
theorem exec_signal (f : Frame) (s : State) : exec (.signal f) s = execSignal f s := rfl
theorem exec_wait (f : Frame) (s : State) : exec (.wait f) s = execWait f s := rfl
theorem exec_waitSatisfied (q : Nat) (s : State) : exec (.waitSatisfied q) s = execWaitSatisfied q s := rfl
theorem exec_partition (f : Frame) (s : State) : exec (.partition f) s = execPartition f s := rfl
theorem exec_functionReset (f : Frame) (s : State) : exec (.functionReset f) s = execFunctionReset f s := rfl
theorem exec_resetScrub (fn : BitVec 2) (s : State) : exec (.resetScrub fn) s = execResetScrub fn s := rfl
theorem exec_preempt (f : Frame) (s : State) : exec (.preempt f) s = execPreempt f s := rfl
theorem exec_resume (f : Frame) (s : State) : exec (.resume f) s = execResume f s := rfl
theorem exec_checkpoint (f : Frame) (s : State) : exec (.checkpoint f) s = execCheckpoint f s := rfl
theorem exec_restore (f : Frame) (s : State) : exec (.restore f) s = execRestore f s := rfl
theorem exec_debugStop (f : Frame) (s : State) : exec (.debugStop f) s = execDebugStop f s := rfl
theorem exec_debugResume (f : Frame) (s : State) : exec (.debugResume f) s = execDebugResume f s := rfl
theorem exec_debugPlant (f : Frame) (s : State) : exec (.debugPlant f) s = execDebugPlant f s := rfl
theorem exec_debugRemove (f : Frame) (s : State) : exec (.debugRemove f) s = execDebugRemove f s := rfl
theorem exec_debugRead (f : Frame) (s : State) : exec (.debugRead f) s = execDebugRead f s := rfl
theorem exec_powerSet (f : Frame) (s : State) : exec (.powerSet f) s = execPowerSet f s := rfl
theorem exec_telemetrySet (f : Frame) (s : State) : exec (.telemetrySet f) s = execTelemetrySet f s := rfl
theorem exec_patchLoad (f : Frame) (s : State) : exec (.patchLoad f) s = execPatchLoad f s := rfl
theorem exec_attest (f : Frame) (s : State) : exec (.attest f) s = execAttest f s := rfl
theorem exec_eccCorrected (u : EccUnit) (s : State) : exec (.eccCorrected u) s = execEccCorrected u s := rfl
theorem exec_eccUncorrectable (u : EccUnit) (s : State) : exec (.eccUncorrectable u) s = execEccUncorrectable u s := rfl
theorem exec_unpoisonedStateError (u : BareUnit) (s : State) : exec (.unpoisonedStateError u) s = execUnpoisonedStateError u s := rfl
theorem exec_patrolScrub (fn addr : Nat) (s : State) : exec (.patrolScrub fn addr) s = execPatrolScrub fn addr s := rfl
theorem exec_waitPeriodExpiry (w : Waiter) (s : State) : exec (.waitPeriodExpiry w) s = execWaitPeriodExpiry w s := rfl
theorem exec_clusterPeriodCheck (die : BitVec 2) (n : Nat) (s : State) : exec (.clusterPeriodCheck die n) s = execClusterPeriodCheck die n s := rfl
theorem exec_heartbeat (observer target : BitVec 2) (missed : Bool) (s : State) : exec (.heartbeat observer target missed) s = execHeartbeat observer target missed s := rfl
theorem exec_functionTagDrop (cluster : Nat) (fn addr : Nat) (s : State) : exec (.functionTagDrop cluster fn addr) s = execFunctionTagDrop cluster fn addr s := rfl
theorem exec_vaneSample (mw : Nat) (s : State) : exec (.vaneSample mw) s = execVaneSample mw s := rfl
theorem exec_telemetryRecord (tj : BitVec 16) (dies : List (BitVec 16)) (s : State) : exec (.telemetryRecord tj dies) s = execTelemetryRecord tj dies s := rfl
theorem exec_ptpSync (m : PtpSyncMsg) (s : State) : exec (.ptpSync m) s = execPtpSync m s := rfl
theorem exec_ptpFollowUp (origin : Nat) (s : State) : exec (.ptpFollowUp origin) s = execPtpFollowUp origin s := rfl
theorem exec_ptpDelayResp (seq received : Nat) (s : State) : exec (.ptpDelayResp seq received) s = execPtpDelayResp seq received s := rfl
theorem exec_weaveRequest (r : WeaveReq) (s : State) : exec (.weaveRequest r) s = execWeaveRequest r s := rfl
theorem exec_undeliverableTimeout (op : Nat) (s : State) : exec (.undeliverableTimeout op) s = execUndeliverableTimeout op s := rfl
theorem exec_hostWindowAccess (r : HostReq) (s : State) : exec (.hostWindowAccess r) s = execHostWindowAccess r s := rfl
theorem exec_chunkEviction (obj chunk : Nat) (s : State) : exec (.chunkEviction obj chunk) s = execChunkEviction obj chunk s := rfl
theorem exec_hartStoreApplied (tid idx : Nat) (s : State) : exec (.hartStoreApplied tid idx) s = execHartStoreApplied tid idx s := rfl
theorem exec_exit (s : State) : exec .exit s = execExit s := rfl
theorem exec_bar (s : State) : exec .bar s = execBar s := rfl
theorem exec_kown (s : State) : exec .kown s = execKown s := rfl
theorem exec_kfree (s : State) : exec .kfree s = execKfree s := rfl
theorem exec_yield (s : State) : exec .yield s = execYield s := rfl
theorem exec_bkpt (s : State) : exec .bkpt s = execBkpt s := rfl
theorem exec_prel (s : State) : exec .prel s = execPrel s := rfl
theorem exec_pdone (s : State) : exec .pdone s = execPdone s := rfl
theorem exec_weftCease (s : State) : exec .weftCease s = execWeftCease s := rfl
theorem exec_teamDispatch (s : State) : exec .teamDispatch s = execTeamDispatch s := rfl
theorem exec_clusterPreemptStop (s : State) : exec .clusterPreemptStop s = execClusterPreemptStop s := rfl
theorem exec_imageSave (s : State) : exec .imageSave s = execImageSave s := rfl
theorem exec_pageWalk (s : State) : exec .pageWalk s = execPageWalk s := rfl
theorem exec_weightLatch (s : State) : exec .weightLatch s = execWeightLatch s := rfl
theorem exec_matrixStep (s : State) : exec .matrixStep s = execMatrixStep s := rfl
theorem exec_quiescentStop (s : State) : exec .quiescentStop s = execQuiescentStop s := rfl
theorem exec_drainWrite (s : State) : exec .drainWrite s = execDrainWrite s := rfl
theorem exec_hend (s : State) : exec .hend s = execHend s := rfl
theorem exec_hpause (s : State) : exec .hpause s = execHpause s := rfl
theorem exec_fenceI (s : State) : exec .fenceI s = execFenceI s := rfl
theorem exec_wfi (s : State) : exec .wfi s = execWfi s := rfl
theorem exec_ecall (s : State) : exec .ecall s = execEcall s := rfl
theorem exec_ebreak (s : State) : exec .ebreak s = execEbreak s := rfl
theorem exec_hartMemoryReturn (s : State) : exec .hartMemoryReturn s = execHartMemoryReturn s := rfl
theorem exec_mModeInterrupt (s : State) : exec .mModeInterrupt s = execMModeInterrupt s := rfl
theorem exec_selfReset (s : State) : exec .selfReset s = execSelfReset s := rfl
theorem exec_ptpHoldover (s : State) : exec .ptpHoldover s = execPtpHoldover s := rfl
theorem exec_flitCheckFail (s : State) : exec .flitCheckFail s = execFlitCheckFail s := rfl
theorem exec_powerOn (s : State) : exec .powerOn s = execPowerOn s := rfl
theorem exec_portTrainingComplete (s : State) : exec .portTrainingComplete s = execPortTrainingComplete s := rfl

end Sys2Proof.Machine
end

