-- ==== Sys2Proof/Laws/Loom.lean ====
section
/-! SUPPORT. What running a Loom command can do (23 R331, R333, R336): the order of its checks, and what each answer of its body makes of
the state. -/

namespace Sys2Proof.Machine

open Sys2Proof

/-- The command that a queue takes from a frame. -/
def cmdOf (s : State) (q : Nat) (f : Frame) : Cmd :=
  { s := (takeFrame s q f).2, q := q, fn := (fnOfQueue s q).getD 0, secure := secureQueue s q,
    p := (takeFrame s q f).1, f := f }

/-- What the answer of a command's body makes of the state before it. -/
def answered (s : State) (c : Cmd) : Answer → Result
  | .done st r t => .next (finish t c.q c.p st r)
  | .later t => .next t
  | .wait => .next s

variable {s : State} {q n opc : Nat} {admin own : Bool} {f : Frame} {denied : Cmd → Bool} {named : List (Nat × Nat)} {body : Cmd → Answer}

/-- The whole of runCommand: the code, the queue and other denials, the reserved bytes, then the body, in this order. -/
theorem runCommand_eq (hc : s.cur = .command q n) : runCommand opc admin own f denied named body s =
    if f.opc.toNat ≠ opc then answered s (cmdOf s q f) (.done 15 0 (cmdOf s q f).s)
    else if (!(if q = 0 then admin else own) || denied (cmdOf s q f)) = true then answered s (cmdOf s q f) (.done 13 0 (cmdOf s q f).s)
    else if (!reservedZero f named) = true then answered s (cmdOf s q f) (.done 1 0 (cmdOf s q f).s)
    else answered s (cmdOf s q f) (body (cmdOf s q f)) := by
  unfold runCommand
  simp only [hc]
  unfold cmdOf answered
  generalize (if q = 0 then admin else own) = g
  split
  · rfl
  · split
    · rfl
    · split
      · rfl
      · rfl

/-- A command that its queue may give, with no reserved byte set and nothing that denies it, runs its body. -/
theorem runCommand_runs (hc : s.cur = .command q n) (ho : f.opc.toNat = opc) (hg : (if q = 0 then admin else own) = true)
    (hz : reservedZero f named = true) (hd : denied (cmdOf s q f) = false) :
    runCommand opc admin own f denied named body s = answered s (cmdOf s q f) (body (cmdOf s q f)) := by
  rw [runCommand_eq hc, if_neg (by simp [ho]), if_neg (by simp [hg, hd]), if_neg (by simp [hz])]

/-- A command that something denies completes with status 13. -/
theorem runCommand_denied (hc : s.cur = .command q n) (ho : f.opc.toNat = opc)
    (hd : (if q = 0 then admin else own) = false ∨ denied (cmdOf s q f) = true) :
    runCommand opc admin own f denied named body s = .next (finish (cmdOf s q f).s q (cmdOf s q f).p 13 0) := by
  rw [runCommand_eq hc, if_neg (by simp [ho]), if_pos (by rcases hd with h | h <;> simp [h])]
  rfl

/-- A command whose reserved bytes are not all zero completes with status 1. -/
theorem runCommand_reserved (hc : s.cur = .command q n) (ho : f.opc.toNat = opc) (hg : (if q = 0 then admin else own) = true)
    (hd : denied (cmdOf s q f) = false) (hz : reservedZero f named = false) :
    runCommand opc admin own f denied named body s = .next (finish (cmdOf s q f).s q (cmdOf s q f).p 1 0) := by
  rw [runCommand_eq hc, if_neg (by simp [ho]), if_neg (by simp [hg, hd]), if_pos (by simp [hz])]
  rfl

/-- What a check answers, where its condition holds and where it does not. -/
theorem act_cons (c : Cmd) (b : Bool) {st : Nat} (l : List (Bool × Nat)) (e : State → Answer) (hst : st ≠ 0) :
    c.act ((b, st) :: l) e = if b then .done st 0 c.s else c.act l e := by
  unfold Cmd.act; simp only [firstStatus]
  cases b <;> simp only [if_true, if_false, Bool.false_eq_true]

/-- With no check left a command acts. -/
theorem act_nil (c : Cmd) (e : State → Answer) : c.act [] e = e c.s := rfl

/-- A command that completes at once is one that acts and is done. -/
theorem simple_eq (c : Cmd) (l : List (Bool × Nat)) (e : State → State) : c.simple l e = c.act l fun s => .done 0 0 (e s) := rfl

/-! ### Completion (23 R330, R332) -/

@[simp] theorem getQueue_setQueue (s : State) (q : Nat) (x : Queue) : getQueue (setQueue s q x) q = x := by
  unfold getQueue setQueue
  exact spGet_spSet_self _ _ _ _

theorem getQueue_setQueue_ne (s : State) {q r : Nat} (x : Queue) (h : r ≠ q) : getQueue (setQueue s q x) r = getQueue s r := by
  unfold getQueue setQueue
  exact spGet_spSet_ne _ _ _ h

@[simp] theorem getQueue_ctlWrite (s : State) (a : Nat) (b : List Byte) (q : Nat) : getQueue (ctlWrite s a b) q = getQueue s q := rfl

/-- A completion record raises its queue's CPROD and no other queue's counts. -/
theorem getQueue_putRecord (s : State) (q : Nat) (r : Record) (k : Nat) : getQueue (putRecord s q r) k =
    if k = q then ({ getQueue s q with cprod := (getQueue s q).cprod + 1 }.drop s.mem (r.seq.setWidth 32))
    else getQueue s k := by
  unfold putRecord
  split
  · subst k; exact getQueue_setQueue _ _ _
  · rw [getQueue_setQueue_ne _ _ ‹_›]; rfl

/-- Completing a command changes the Loom's queues and the control area and nothing else. -/
theorem finish_frame (s : State) (q : Nat) (p : Pending) (st res : Nat) :
    { finish s q p st res with loom := s.loom } = s ∧
      { (finish s q p st res).loom with queues := s.loom.queues, ctl := s.loom.ctl } = s.loom := by
  simp only [finish]
  split
  · exact ⟨rfl, rfl⟩
  · split
    · exact ⟨rfl, rfl⟩
    · exact ⟨rfl, rfl⟩

/-- Completing a command leaves every other queue alone. -/
theorem getQueue_finish_ne (s : State) {q k : Nat} (p : Pending) (st res : Nat) (h : k ≠ q) :
    getQueue (finish s q p st res) k = getQueue s k := by
  simp only [finish]
  split
  · exact getQueue_setQueue_ne _ _ h
  · split
    · exact getQueue_setQueue_ne _ _ h
    · rw [getQueue_putRecord, if_neg h]

end Sys2Proof.Machine
end

