-- ==== Sys2Proof/Laws/PerInstr.lean ====
section
/-! SUPPORT. How many words each instruction is: an event of the device has none, a frame 32, every other instruction one or two (06 R104,
R105; 15 R211; 23 R330). -/

namespace Sys2Proof.Laws.Words

open Sys2Proof Sys2Proof.Machine

/-- The number of words that an instruction is encoded in. -/
def Statement (i : Instr) : Prop :=
  (isEvent i = true ∧ encode i = []) ∨ (isEvent i = false ∧ (i.frame?.isSome = true → (encode i).length = 32) ∧
    (i.frame? = none → (encode i).length = 1 ∨ (encode i).length = 2))

theorem event_words {i : Instr} (h : isEvent i = true) (e : encode i = []) : Statement i := .inl ⟨h, e⟩

theorem frame_words {i : Instr} {f : Frame} (h : isEvent i = false) (k : i.frame? = some f) (e : encode i = encFrame f) : Statement i :=
  .inr ⟨h, fun _ => by simp [e, encFrame], fun n => by simp [k] at n⟩

theorem one_word {i : Instr} {a : W32} (h : isEvent i = false) (k : i.frame? = none) (e : encode i = [a]) : Statement i :=
  .inr ⟨h, fun n => by simp [k] at n, fun _ => .inl (by simp [e])⟩

theorem two_words {i : Instr} {a b : W32} (h : isEvent i = false) (k : i.frame? = none) (e : encode i = [a, b]) : Statement i :=
  .inr ⟨h, fun n => by simp [k] at n, fun _ => .inr (by simp [e])⟩

theorem mods_words {i : Instr} {a : W32} {m : Option Mods} (h : isEvent i = false) (k : i.frame? = none)
    (e : encode i = a :: encModsL m) : Statement i := by
  cases m with
  | none => exact one_word h k e
  | some m => exact two_words h k e

theorem mext_words {i : Instr} {a : W32} {m : Option MExt} (h : isEvent i = false) (k : i.frame? = none)
    (e : encode i = a :: encMExtL m) : Statement i := by
  cases m with
  | none => exact one_word h k e
  | some m => exact two_words h k e

theorem iadd (o : V3) : Statement (.iadd o) := mods_words rfl rfl rfl
theorem isub (o : V3) : Statement (.isub o) := mods_words rfl rfl rfl
theorem imul (o : V3) : Statement (.imul o) := mods_words rfl rfl rfl
theorem imulh (o : V3) : Statement (.imulh o) := mods_words rfl rfl rfl
theorem imulhu (o : V3) : Statement (.imulhu o) := mods_words rfl rfl rfl
theorem imad (o : V3) : Statement (.imad o) := mods_words rfl rfl rfl
theorem imin (o : V3) : Statement (.imin o) := mods_words rfl rfl rfl
theorem imax (o : V3) : Statement (.imax o) := mods_words rfl rfl rfl
theorem umin (o : V3) : Statement (.umin o) := mods_words rfl rfl rfl
theorem umax (o : V3) : Statement (.umax o) := mods_words rfl rfl rfl
theorem and (o : V3) : Statement (.and o) := mods_words rfl rfl rfl
theorem or (o : V3) : Statement (.or o) := mods_words rfl rfl rfl
theorem xor (o : V3) : Statement (.xor o) := mods_words rfl rfl rfl
theorem andn (o : V3) : Statement (.andn o) := mods_words rfl rfl rfl
theorem shl (o : V3) : Statement (.shl o) := mods_words rfl rfl rfl
theorem shr (o : V3) : Statement (.shr o) := mods_words rfl rfl rfl
theorem sra (o : V3) : Statement (.sra o) := mods_words rfl rfl rfl
theorem rotl (o : V3) : Statement (.rotl o) := mods_words rfl rfl rfl
theorem bfx (o : V3) : Statement (.bfx o) := mods_words rfl rfl rfl
theorem bfxs (o : V3) : Statement (.bfxs o) := mods_words rfl rfl rfl
theorem bfi (o : V3) : Statement (.bfi o) := mods_words rfl rfl rfl
theorem perm (o : V3) : Statement (.perm o) := mods_words rfl rfl rfl
theorem sel (o : V3) : Statement (.sel o) := mods_words rfl rfl rfl
theorem cmpeq (o : VCmp) : Statement (.cmpeq o) := mods_words rfl rfl rfl
theorem cmpne (o : VCmp) : Statement (.cmpne o) := mods_words rfl rfl rfl
theorem cmplt (o : VCmp) : Statement (.cmplt o) := mods_words rfl rfl rfl
theorem cmple (o : VCmp) : Statement (.cmple o) := mods_words rfl rfl rfl
theorem cmpltu (o : VCmp) : Statement (.cmpltu o) := mods_words rfl rfl rfl
theorem cmpleu (o : VCmp) : Statement (.cmpleu o) := mods_words rfl rfl rfl
theorem fcmpeq (o : VCmp) : Statement (.fcmpeq o) := mods_words rfl rfl rfl
theorem fcmplt (o : VCmp) : Statement (.fcmplt o) := mods_words rfl rfl rfl
theorem fcmple (o : VCmp) : Statement (.fcmple o) := mods_words rfl rfl rfl
theorem fcmpun (o : VCmp) : Statement (.fcmpun o) := mods_words rfl rfl rfl
theorem fadd (o : V3) : Statement (.fadd o) := mods_words rfl rfl rfl
theorem fsub (o : V3) : Statement (.fsub o) := mods_words rfl rfl rfl
theorem fmul (o : V3) : Statement (.fmul o) := mods_words rfl rfl rfl
theorem ffma (o : V3) : Statement (.ffma o) := mods_words rfl rfl rfl
theorem fmin (o : V3) : Statement (.fmin o) := mods_words rfl rfl rfl
theorem fmax (o : V3) : Statement (.fmax o) := mods_words rfl rfl rfl
theorem hadd2 (o : V3) : Statement (.hadd2 o) := mods_words rfl rfl rfl
theorem hmul2 (o : V3) : Statement (.hmul2 o) := mods_words rfl rfl rfl
theorem hfma2 (o : V3) : Statement (.hfma2 o) := mods_words rfl rfl rfl
theorem badd2 (o : V3) : Statement (.badd2 o) := mods_words rfl rfl rfl
theorem bmul2 (o : V3) : Statement (.bmul2 o) := mods_words rfl rfl rfl
theorem bfma2 (o : V3) : Statement (.bfma2 o) := mods_words rfl rfl rfl
theorem movi (o : VMovi) : Statement (.movi o) := two_words rfl rfl rfl
theorem iaddi (o : VAddi) : Statement (.iaddi o) := two_words rfl rfl rfl
theorem cvtfi (o : VU) : Statement (.cvtfi o) := mods_words rfl rfl rfl
theorem cvtfu (o : VU) : Statement (.cvtfu o) := mods_words rfl rfl rfl
theorem cvtif (o : VU) : Statement (.cvtif o) := mods_words rfl rfl rfl
theorem cvtuf (o : VU) : Statement (.cvtuf o) := mods_words rfl rfl rfl
theorem nrw2 (o : VPack) : Statement (.nrw2 o) := mods_words rfl rfl rfl
theorem nrw4 (o : VPack) : Statement (.nrw4 o) := mods_words rfl rfl rfl
theorem nrw8 (o : VPack) : Statement (.nrw8 o) := mods_words rfl rfl rfl
theorem wdn2 (o : VPack) : Statement (.wdn2 o) := mods_words rfl rfl rfl
theorem wdn4 (o : VPack) : Statement (.wdn4 o) := mods_words rfl rfl rfl
theorem wdn8 (o : VPack) : Statement (.wdn8 o) := mods_words rfl rfl rfl
theorem mov (o : VU) : Statement (.mov o) := mods_words rfl rfl rfl
theorem not (o : VU) : Statement (.not o) := mods_words rfl rfl rfl
theorem neg (o : VU) : Statement (.neg o) := mods_words rfl rfl rfl
theorem iabs (o : VU) : Statement (.iabs o) := mods_words rfl rfl rfl
theorem popc (o : VU) : Statement (.popc o) := mods_words rfl rfl rfl
theorem clz (o : VU) : Statement (.clz o) := mods_words rfl rfl rfl
theorem ctz (o : VU) : Statement (.ctz o) := mods_words rfl rfl rfl
theorem brev (o : VU) : Statement (.brev o) := mods_words rfl rfl rfl
theorem fabs (o : VU) : Statement (.fabs o) := mods_words rfl rfl rfl
theorem fneg (o : VU) : Statement (.fneg o) := mods_words rfl rfl rfl
theorem rcp (o : VU) : Statement (.rcp o) := mods_words rfl rfl rfl
theorem rsq (o : VU) : Statement (.rsq o) := mods_words rfl rfl rfl
theorem sqrt (o : VU) : Statement (.sqrt o) := mods_words rfl rfl rfl
theorem exp2 (o : VU) : Statement (.exp2 o) := mods_words rfl rfl rfl
theorem log2 (o : VU) : Statement (.log2 o) := mods_words rfl rfl rfl
theorem sin (o : VU) : Statement (.sin o) := mods_words rfl rfl rfl
theorem cos (o : VU) : Statement (.cos o) := mods_words rfl rfl rfl
theorem flr (o : VU) : Statement (.flr o) := mods_words rfl rfl rfl
theorem ceil (o : VU) : Statement (.ceil o) := mods_words rfl rfl rfl
theorem trunc (o : VU) : Statement (.trunc o) := mods_words rfl rfl rfl
theorem rnde (o : VU) : Statement (.rnde o) := mods_words rfl rfl rfl
theorem cvthf (o : VU) : Statement (.cvthf o) := mods_words rfl rfl rfl
theorem cvtbf (o : VU) : Statement (.cvtbf o) := mods_words rfl rfl rfl
theorem cvtfh (o : VU) : Statement (.cvtfh o) := mods_words rfl rfl rfl
theorem cvtfb (o : VU) : Statement (.cvtfb o) := mods_words rfl rfl rfl
theorem ldg8 (o : VM) : Statement (.ldg8 o) := mext_words rfl rfl rfl
theorem ldg8s (o : VM) : Statement (.ldg8s o) := mext_words rfl rfl rfl
theorem ldg16 (o : VM) : Statement (.ldg16 o) := mext_words rfl rfl rfl
theorem ldg16s (o : VM) : Statement (.ldg16s o) := mext_words rfl rfl rfl
theorem ldg32 (o : VM) : Statement (.ldg32 o) := mext_words rfl rfl rfl
theorem ldg64 (o : VM) : Statement (.ldg64 o) := mext_words rfl rfl rfl
theorem stg8 (o : VM) : Statement (.stg8 o) := mext_words rfl rfl rfl
theorem stg16 (o : VM) : Statement (.stg16 o) := mext_words rfl rfl rfl
theorem stg32 (o : VM) : Statement (.stg32 o) := mext_words rfl rfl rfl
theorem stg64 (o : VM) : Statement (.stg64 o) := mext_words rfl rfl rfl
theorem ldgs (o : VM) : Statement (.ldgs o) := mext_words rfl rfl rfl
theorem atomg (o : VM) : Statement (.atomg o) := mext_words rfl rfl rfl
theorem fence (o : VFence) : Statement (.fence o) := two_words rfl rfl rfl
theorem waitp (o : VWaitp) : Statement (.waitp o) := one_word rfl rfl rfl
theorem lds8 (o : VM) : Statement (.lds8 o) := mext_words rfl rfl rfl
theorem lds16 (o : VM) : Statement (.lds16 o) := mext_words rfl rfl rfl
theorem lds32 (o : VM) : Statement (.lds32 o) := mext_words rfl rfl rfl
theorem lds64 (o : VM) : Statement (.lds64 o) := mext_words rfl rfl rfl
theorem sts8 (o : VM) : Statement (.sts8 o) := mext_words rfl rfl rfl
theorem sts16 (o : VM) : Statement (.sts16 o) := mext_words rfl rfl rfl
theorem sts32 (o : VM) : Statement (.sts32 o) := mext_words rfl rfl rfl
theorem sts64 (o : VM) : Statement (.sts64 o) := mext_words rfl rfl rfl
theorem ldsC (o : VM) : Statement (.ldsC o) := mext_words rfl rfl rfl
theorem sfull (o : VLine) : Statement (.sfull o) := mext_words rfl rfl rfl
theorem sempty (o : VLine) : Statement (.sempty o) := mext_words rfl rfl rfl
theorem stag (o : VTag) : Statement (.stag o) := mext_words rfl rfl rfl
theorem stset (o : VM) : Statement (.stset o) := mext_words rfl rfl rfl
theorem stinv (o : VTag) : Statement (.stinv o) := mext_words rfl rfl rfl
theorem atoms (o : VM) : Statement (.atoms o) := mext_words rfl rfl rfl
theorem shfl (o : V3) : Statement (.shfl o) := mods_words rfl rfl rfl
theorem shflup (o : V3) : Statement (.shflup o) := mods_words rfl rfl rfl
theorem shfldn (o : V3) : Statement (.shfldn o) := mods_words rfl rfl rfl
theorem shflx (o : V3) : Statement (.shflx o) := mods_words rfl rfl rfl
theorem bcast (o : VBcast) : Statement (.bcast o) := mods_words rfl rfl rfl
theorem vany (o : VU) : Statement (.vany o) := mods_words rfl rfl rfl
theorem vall (o : VU) : Statement (.vall o) := mods_words rfl rfl rfl
theorem ballot (o : VBallot) : Statement (.ballot o) := mods_words rfl rfl rfl
theorem scan (o : VScan) : Statement (.scan o) := mods_words rfl rfl rfl
theorem fscan (o : VScan) : Statement (.fscan o) := mods_words rfl rfl rfl
theorem red (o : VScan) : Statement (.red o) := mods_words rfl rfl rfl
theorem fred (o : VScan) : Statement (.fred o) := mods_words rfl rfl rfl
theorem mand (o : VMask) : Statement (.mand o) := mods_words rfl rfl rfl
theorem mor (o : VMask) : Statement (.mor o) := mods_words rfl rfl rfl
theorem regroup (vd : BitVec 6) : Statement (.regroup vd) := one_word rfl rfl rfl
theorem ungroup (vd : BitVec 6) : Statement (.ungroup vd) := one_word rfl rfl rfl
theorem bru (o : VBranch) : Statement (.bru o) := two_words rfl rfl rfl
theorem brk (o : VBranch) : Statement (.brk o) := two_words rfl rfl rfl
theorem call (vd : BitVec 6) (disp : W32) : Statement (.call vd disp) := two_words rfl rfl rfl
theorem ret (sx : BitVec 7) (lx : Bool) : Statement (.ret sx lx) := one_word rfl rfl rfl
theorem nbar (sx : BitVec 7) (id : BitVec 4) : Statement (.nbar sx id) := one_word rfl rfl rfl
theorem kwr (kd : BitVec 5) (sx : BitVec 7) (lx : Bool) : Statement (.kwr kd sx lx) := one_word rfl rfl rfl
theorem twait (scp : BitVec 3) (sx : BitVec 7) (tl : BitVec 5) (lx : Bool) : Statement (.twait scp sx tl lx) := one_word rfl rfl rfl
theorem veer (vd : BitVec 6) (sx : BitVec 7) : Statement (.veer vd sx) := one_word rfl rfl rfl
theorem veerMay (vd : BitVec 6) : Statement (.veerMay vd) := one_word rfl rfl rfl
theorem trap (n : BitVec 5) : Statement (.trap n) := one_word rfl rfl rfl
theorem tret (skip : Bool) : Statement (.tret skip) := one_word rfl rfl rfl
theorem pacq (vd : BitVec 6) : Statement (.pacq vd) := one_word rfl rfl rfl
theorem pget (vd : BitVec 6) : Statement (.pget vd) := one_word rfl rfl rfl
theorem clauseStart (h : Header) : Statement (.clauseStart h) := one_word rfl rfl rfl
theorem chunkPageIn (obj chunk : Nat) : Statement (.chunkPageIn obj chunk) := event_words rfl rfl
theorem loadReturn (op : Nat) : Statement (.loadReturn op) := event_words rfl rfl
theorem storeApplied (op : Nat) : Statement (.storeApplied op) := event_words rfl rfl
theorem atomicReturn (op : Nat) : Statement (.atomicReturn op) := event_words rfl rfl
theorem ldgsComplete (op : Nat) : Statement (.ldgsComplete op) := event_words rfl rfl
theorem remoteAcknowledge (op : Nat) (data : List (W64 × Bool)) : Statement (.remoteAcknowledge op data) := event_words rfl rfl
theorem coreMoveComplete (cluster core : Nat) : Statement (.coreMoveComplete cluster core) := event_words rfl rfl
theorem idleCoreMove (cluster core : Nat) (pt : BitVec 2) : Statement (.idleCoreMove cluster core pt) := event_words rfl rfl
theorem imageRestore (image cluster : Nat) : Statement (.imageRestore image cluster) := event_words rfl rfl
theorem pageMigration (fn va : Nat) (die : BitVec 2) (sram : Bool) : Statement (.pageMigration fn va die sram) := event_words rfl rfl
theorem homeSwitch (fn va : Nat) : Statement (.homeSwitch fn va) := event_words rfl rfl
theorem copyStep (cluster ch num : Nat) : Statement (.copyStep cluster ch num) := event_words rfl rfl
theorem multicastHop (cluster ch num : Nat) : Statement (.multicastHop cluster ch num) := event_words rfl rfl
theorem taskMigration (fn tcb : Nat) (die : BitVec 2) : Statement (.taskMigration fn tcb die) := event_words rfl rfl
theorem cardDelivery (card : Nat) : Statement (.cardDelivery card) := event_words rfl rfl
theorem pairCompare (tid : Nat) : Statement (.pairCompare tid) := event_words rfl rfl
theorem uqpush (rs1 : BitVec 5) : Statement (.uqpush rs1) := one_word rfl rfl rfl
theorem uqtry (rd rs1 : BitVec 5) : Statement (.uqtry rd rs1) := one_word rfl rfl rfl
theorem tlrd (rd : BitVec 5) (iss : Bool) (tl : BitVec 6) : Statement (.tlrd rd iss tl) := one_word rfl rfl rfl
theorem tlwait (rd rs1 : BitVec 5) (scp : BitVec 3) (tl : BitVec 6) : Statement (.tlwait rd rs1 scp tl) := one_word rfl rfl rfl
theorem xfence (ord : BitVec 2) (scp : BitVec 3) : Statement (.xfence ord scp) := one_word rfl rfl rfl
theorem hartLoad (wd : RvWidth) (rd rs1 : BitVec 5) (imm : BitVec 12) : Statement (.hartLoad wd rd rs1 imm) := one_word rfl rfl rfl
theorem hartStore (wd : RvWidth) (rs1 rs2 : BitVec 5) (imm : BitVec 12) : Statement (.hartStore wd rs1 rs2 imm) := one_word rfl rfl rfl
theorem hartAmo (op : RvAmo) (dword aq rl : Bool) (rd rs1 rs2 : BitVec 5) : Statement (.hartAmo op dword aq rl rd rs1 rs2) := one_word rfl rfl rfl
theorem lr (dword aq rl : Bool) (rd rs1 : BitVec 5) : Statement (.lr dword aq rl rd rs1) := one_word rfl rfl rfl
theorem sc (dword aq rl : Bool) (rd rs1 rs2 : BitVec 5) : Statement (.sc dword aq rl rd rs1 rs2) := one_word rfl rfl rfl
theorem hartFence (fm pred succ : BitVec 4) : Statement (.hartFence fm pred succ) := one_word rfl rfl rfl
theorem csrAccess (op : CsrOp) (imm : Bool) (csr : BitVec 12) (rd rs1 : BitVec 5) : Statement (.csrAccess op imm csr rd rs1) := one_word rfl rfl rfl
theorem rv64Instruction (op : RvOp) : Statement (.rv64Instruction op) := by
  cases op <;> exact one_word rfl rfl rfl
theorem mmulMap (rd rs1 rs2 : BitVec 5) : Statement (.mmulMap rd rs1 rs2) := one_word rfl rfl rfl
theorem mmulFeed (rd : BitVec 5) (fd : BitVec 2) (rs2 : BitVec 5) : Statement (.mmulFeed rd fd rs2) := one_word rfl rfl rfl
theorem mmulWest (rd rs2 : BitVec 5) : Statement (.mmulWest rd rs2) := one_word rfl rfl rfl
theorem mldw (rd rs1 rs2 : BitVec 5) : Statement (.mldw rd rs1 rs2) := one_word rfl rfl rfl
theorem mdrain (rd rs1 rs2 : BitVec 5) : Statement (.mdrain rd rs1 rs2) := one_word rfl rfl rfl
theorem mzero (rd rs1 : BitVec 5) : Statement (.mzero rd rs1) := one_word rfl rfl rfl
theorem mstat (rd : BitVec 5) : Statement (.mstat rd) := one_word rfl rfl rfl
theorem mbegin (rd : BitVec 5) (feeds : BitVec 4) : Statement (.mbegin rd feeds) := one_word rfl rfl rfl
theorem mend (rd : BitVec 5) : Statement (.mend rd) := one_word rfl rfl rfl
theorem mchain (rd rs1 : BitVec 5) (len pos : BitVec 2) : Statement (.mchain rd rs1 len pos) := one_word rfl rfl rfl
theorem tenq (rd rs1 : BitVec 5) : Statement (.tenq rd rs1) := one_word rfl rfl rfl
theorem tsig (rd rs1 : BitVec 5) : Statement (.tsig rd rs1) := one_word rfl rfl rfl
theorem tcard (rd rs1 : BitVec 5) : Statement (.tcard rd rs1) := one_word rfl rfl rfl
theorem doorbell (q : Nat) (v : W32) : Statement (.doorbell q v) := event_words rfl rfl
theorem cconsWrite (q : Nat) (v : W32) : Statement (.cconsWrite q v) := event_words rfl rfl
theorem econsWrite (q : Nat) (v : W32) : Statement (.econsWrite q v) := event_words rfl rfl
theorem rstctlReset (v : W32) : Statement (.rstctlReset v) := event_words rfl rfl
theorem registerWrite (off : Nat) (size : Nat) (v : W64) : Statement (.registerWrite off size v) := event_words rfl rfl
theorem frameUnknownOpc (f : Frame) : Statement (.frameUnknownOpc f) := frame_words rfl rfl rfl
theorem queueReset (f : Frame) : Statement (.queueReset f) := frame_words rfl rfl rfl
theorem map (f : Frame) : Statement (.map f) := frame_words rfl rfl rfl
theorem unmap (f : Frame) : Statement (.unmap f) := frame_words rfl rfl rfl
theorem protect (f : Frame) : Statement (.protect f) := frame_words rfl rfl rfl
theorem place (f : Frame) : Statement (.place f) := frame_words rfl rfl rfl
theorem portBind (f : Frame) : Statement (.portBind f) := frame_words rfl rfl rfl
theorem objLoad (f : Frame) : Statement (.objLoad f) := frame_words rfl rfl rfl
theorem objUnload (f : Frame) : Statement (.objUnload f) := frame_words rfl rfl rfl
theorem launch (f : Frame) : Statement (.launch f) := frame_words rfl rfl rfl
theorem gangLaunch (f : Frame) : Statement (.gangLaunch f) := frame_words rfl rfl rfl
theorem taskEnq (f : Frame) : Statement (.taskEnq f) := frame_words rfl rfl rfl
theorem taskReplay (f : Frame) : Statement (.taskReplay f) := frame_words rfl rfl rfl
theorem taskCancel (f : Frame) : Statement (.taskCancel f) := frame_words rfl rfl rfl
theorem teamResume (f : Frame) : Statement (.teamResume f) := frame_words rfl rfl rfl
theorem teamEnd (f : Frame) : Statement (.teamEnd f) := frame_words rfl rfl rfl
theorem pipeBind (f : Frame) : Statement (.pipeBind f) := frame_words rfl rfl rfl
theorem fenceCommand (f : Frame) : Statement (.fenceCommand f) := frame_words rfl rfl rfl
theorem signal (f : Frame) : Statement (.signal f) := frame_words rfl rfl rfl
theorem wait (f : Frame) : Statement (.wait f) := frame_words rfl rfl rfl
theorem waitSatisfied (q : Nat) : Statement (.waitSatisfied q) := event_words rfl rfl
theorem partition (f : Frame) : Statement (.partition f) := frame_words rfl rfl rfl
theorem functionReset (f : Frame) : Statement (.functionReset f) := frame_words rfl rfl rfl
theorem resetScrub (fn : BitVec 2) : Statement (.resetScrub fn) := event_words rfl rfl
theorem preempt (f : Frame) : Statement (.preempt f) := frame_words rfl rfl rfl
theorem resume (f : Frame) : Statement (.resume f) := frame_words rfl rfl rfl
theorem checkpoint (f : Frame) : Statement (.checkpoint f) := frame_words rfl rfl rfl
theorem restore (f : Frame) : Statement (.restore f) := frame_words rfl rfl rfl
theorem debugStop (f : Frame) : Statement (.debugStop f) := frame_words rfl rfl rfl
theorem debugResume (f : Frame) : Statement (.debugResume f) := frame_words rfl rfl rfl
theorem debugPlant (f : Frame) : Statement (.debugPlant f) := frame_words rfl rfl rfl
theorem debugRemove (f : Frame) : Statement (.debugRemove f) := frame_words rfl rfl rfl
theorem debugRead (f : Frame) : Statement (.debugRead f) := frame_words rfl rfl rfl
theorem powerSet (f : Frame) : Statement (.powerSet f) := frame_words rfl rfl rfl
theorem telemetrySet (f : Frame) : Statement (.telemetrySet f) := frame_words rfl rfl rfl
theorem patchLoad (f : Frame) : Statement (.patchLoad f) := frame_words rfl rfl rfl
theorem attest (f : Frame) : Statement (.attest f) := frame_words rfl rfl rfl
theorem eccCorrected (u : EccUnit) : Statement (.eccCorrected u) := event_words rfl rfl
theorem eccUncorrectable (u : EccUnit) : Statement (.eccUncorrectable u) := event_words rfl rfl
theorem unpoisonedStateError (u : BareUnit) : Statement (.unpoisonedStateError u) := event_words rfl rfl
theorem patrolScrub (fn addr : Nat) : Statement (.patrolScrub fn addr) := event_words rfl rfl
theorem waitPeriodExpiry (w : Waiter) : Statement (.waitPeriodExpiry w) := event_words rfl rfl
theorem clusterPeriodCheck (die : BitVec 2) (n : Nat) : Statement (.clusterPeriodCheck die n) := event_words rfl rfl
theorem heartbeat (observer target : BitVec 2) (missed : Bool) : Statement (.heartbeat observer target missed) := event_words rfl rfl
theorem functionTagDrop (cluster : Nat) (fn addr : Nat) : Statement (.functionTagDrop cluster fn addr) := event_words rfl rfl
theorem vaneSample (mw : Nat) : Statement (.vaneSample mw) := event_words rfl rfl
theorem telemetryRecord (tj : BitVec 16) (dies : List (BitVec 16)) : Statement (.telemetryRecord tj dies) := event_words rfl rfl
theorem ptpSync (m : PtpSyncMsg) : Statement (.ptpSync m) := event_words rfl rfl
theorem ptpFollowUp (origin : Nat) : Statement (.ptpFollowUp origin) := event_words rfl rfl
theorem ptpDelayResp (seq received : Nat) : Statement (.ptpDelayResp seq received) := event_words rfl rfl
theorem weaveRequest (r : WeaveReq) : Statement (.weaveRequest r) := event_words rfl rfl
theorem undeliverableTimeout (op : Nat) : Statement (.undeliverableTimeout op) := event_words rfl rfl
theorem hostWindowAccess (r : HostReq) : Statement (.hostWindowAccess r) := event_words rfl rfl
theorem chunkEviction (obj chunk : Nat) : Statement (.chunkEviction obj chunk) := event_words rfl rfl
theorem hartStoreApplied (tid idx : Nat) : Statement (.hartStoreApplied tid idx) := event_words rfl rfl
theorem exit : Statement .exit := one_word rfl rfl rfl
theorem bar : Statement .bar := one_word rfl rfl rfl
theorem kown : Statement .kown := one_word rfl rfl rfl
theorem kfree : Statement .kfree := one_word rfl rfl rfl
theorem yield : Statement .yield := one_word rfl rfl rfl
theorem bkpt : Statement .bkpt := one_word rfl rfl rfl
theorem prel : Statement .prel := one_word rfl rfl rfl
theorem pdone : Statement .pdone := one_word rfl rfl rfl
theorem weftCease : Statement .weftCease := event_words rfl rfl
theorem teamDispatch : Statement .teamDispatch := event_words rfl rfl
theorem clusterPreemptStop : Statement .clusterPreemptStop := event_words rfl rfl
theorem imageSave : Statement .imageSave := event_words rfl rfl
theorem pageWalk : Statement .pageWalk := event_words rfl rfl
theorem weightLatch : Statement .weightLatch := event_words rfl rfl
theorem matrixStep : Statement .matrixStep := event_words rfl rfl
theorem quiescentStop : Statement .quiescentStop := event_words rfl rfl
theorem drainWrite : Statement .drainWrite := event_words rfl rfl
theorem hend : Statement .hend := one_word rfl rfl rfl
theorem hpause : Statement .hpause := one_word rfl rfl rfl
theorem fenceI : Statement .fenceI := one_word rfl rfl rfl
theorem wfi : Statement .wfi := one_word rfl rfl rfl
theorem ecall : Statement .ecall := one_word rfl rfl rfl
theorem ebreak : Statement .ebreak := one_word rfl rfl rfl
theorem hartMemoryReturn : Statement .hartMemoryReturn := event_words rfl rfl
theorem mModeInterrupt : Statement .mModeInterrupt := event_words rfl rfl
theorem selfReset : Statement .selfReset := event_words rfl rfl
theorem ptpHoldover : Statement .ptpHoldover := event_words rfl rfl
theorem flitCheckFail : Statement .flitCheckFail := event_words rfl rfl
theorem powerOn : Statement .powerOn := event_words rfl rfl
theorem portTrainingComplete : Statement .portTrainingComplete := event_words rfl rfl

end Sys2Proof.Laws.Words
end

