-- ==== Sys2Proof/Laws/Values.lean ====
section
/-! SUPPORT. What the operations of the vector engine compute, in other words: wrapping sums as 32-bit sums, shifts, bit fields. -/

namespace Sys2Proof.Machine

open Sys2Proof

/-- Without SAT an exact sum wraps (08 R136). -/
theorem satInt_add {m : Mods} (h : m.sat = false) (x y : W32) : satInt m (x.toInt + y.toInt) = x + y := by
  simp only [satInt, h, Bool.false_eq_true, if_false]
  rw [BitVec.ofInt_add, BitVec.ofInt_toInt, BitVec.ofInt_toInt]

theorem satInt_sub {m : Mods} (h : m.sat = false) (x y : W32) : satInt m (x.toInt - y.toInt) = x - y := by
  simp only [satInt, h, Bool.false_eq_true, if_false]
  rw [Int.sub_eq_add_neg, BitVec.ofInt_add, BitVec.ofInt_neg, BitVec.ofInt_toInt, BitVec.ofInt_toInt, BitVec.sub_eq_add_neg]

theorem satInt_mul {m : Mods} (h : m.sat = false) (x y : W32) : satInt m (x.toInt * y.toInt) = x * y := by
  simp only [satInt, h, Bool.false_eq_true, if_false]
  rw [BitVec.ofInt_mul, BitVec.ofInt_toInt, BitVec.ofInt_toInt]

theorem satInt_mad {m : Mods} (h : m.sat = false) (x y z : W32) : satInt m (x.toInt * y.toInt + z.toInt) = x * y + z := by
  simp only [satInt, h, Bool.false_eq_true, if_false]
  rw [BitVec.ofInt_add, BitVec.ofInt_mul, BitVec.ofInt_toInt, BitVec.ofInt_toInt, BitVec.ofInt_toInt]

theorem satInt_neg {m : Mods} (h : m.sat = false) (x : W32) : satInt m (-x.toInt) = -x := by
  simp only [satInt, h, Bool.false_eq_true, if_false]
  rw [BitVec.ofInt_neg, BitVec.ofInt_toInt]

/-- Under SAT an exact result is clamped to the signed range (08 R136). -/
theorem satInt_clamp {m : Mods} (h : m.sat = true) (e : Int) :
    satInt m e = if e < -2147483648 then 0x80000000 else if 2147483647 < e then 0x7FFFFFFF else BitVec.ofInt 32 e := by
  have e1 : (-(2 ^ 31) : Int) = -2147483648 := by decide
  have e2 : (2 ^ 31 - 1 : Int) = 2147483647 := by decide
  simp only [satInt, h, if_true, clampInt, e1, e2]
  split
  · rfl
  · split <;> rfl

/-- A shift by 32 or more gives 0 (08 R138). -/
theorem shl_large (x y : W32) : (if y.toNat < 32 then x <<< y.toNat else 0) = x <<< y.toNat := by
  split
  · rfl
  · exact (BitVec.shiftLeft_eq_zero (by omega)).symm

theorem shr_large (x y : W32) : (if y.toNat < 32 then x >>> y.toNat else 0) = x >>> y.toNat := by
  split
  · rfl
  · exact (BitVec.ushiftRight_eq_zero (by omega)).symm

/-- An arithmetic shift by 31 or more gives the sign (08 R138). -/
theorem sra_large (x y : W32) : x.sshiftRight (Nat.min y.toNat 31) = x.sshiftRight y.toNat := by
  rcases Nat.lt_or_ge 31 y.toNat with h | h
  · have : Nat.min y.toNat 31 = 31 := Nat.min_eq_right (by omega)
    rw [this]
    refine BitVec.eq_of_getLsbD_eq ?_
    intro i hi
    rw [BitVec.getLsbD_sshiftRight, BitVec.getLsbD_sshiftRight]
    by_cases h0 : i = 0
    · subst h0
      simp [show ¬ y.toNat < 32 by omega, BitVec.msb_eq_getLsbD_last]
    · simp [show ¬ 31 + i < 32 by omega, show ¬ y.toNat + i < 32 by omega]
  · have : Nat.min y.toNat 31 = y.toNat := Nat.min_eq_left h
    rw [this]

end Sys2Proof.Machine
end

