-- ==== Sys2Proof/Laws/Word.lean ====
section
/-! SUPPORT. Laws of teams and wefts, and what finishing a vector word does: the one weft changes, and how. -/

namespace Sys2Proof.Machine

open Sys2Proof

/-! ### Lists -/

theorem updFirst_map {α β : Type} (p : α → Bool) (f : α → α) (g : α → β) (h : ∀ a, p a = true → g (f a) = g a) (l : List α) :
    (updFirst p f l).map g = l.map g := by
  induction l with
  | nil => rfl
  | cons a t ih =>
    simp only [updFirst]
    split
    · simp only [List.map_cons, h a ‹_›]
    · simp only [List.map_cons, ih]

theorem find?_updFirst_same {α : Type} (p : α → Bool) (f : α → α) (h : ∀ a, p a = true → p (f a) = true) (l : List α) :
    (updFirst p f l).find? p = (l.find? p).map f := by
  induction l with
  | nil => rfl
  | cons a t ih =>
    simp only [updFirst]
    split
    · rename_i hp
      simp only [List.find?_cons, h a hp, hp, Option.map_some]
    · rename_i hp
      simp only [List.find?_cons, hp, ih]

theorem find?_updFirst_other {α : Type} (p q : α → Bool) (f : α → α) (h : ∀ a, p a = true → q a = false ∧ q (f a) = false)
    (l : List α) : (updFirst p f l).find? q = l.find? q := by
  induction l with
  | nil => rfl
  | cons a t ih =>
    simp only [updFirst]
    split
    · rename_i hp
      simp only [List.find?_cons, (h a hp).1, (h a hp).2]
    · simp only [List.find?_cons, ih]

/-! ### Teams and wefts after a change -/

theorem getTeam_updTeam {s : State} {tid : Nat} {f : Team → Team} (h : ∀ t, (f t).tid = t.tid) :
    getTeam (updTeam s tid f) tid = (getTeam s tid).map f := by
  refine find?_updFirst_same _ f ?_ s.teams
  intro a ha
  rw [decide_eq_true_eq] at ha ⊢
  rw [h, ha]

theorem getTeam_updTeam_other {s : State} {tid u : Nat} {f : Team → Team} (h : ∀ t, (f t).tid = t.tid) (hu : u ≠ tid) :
    getTeam (updTeam s tid f) u = getTeam s u := by
  refine find?_updFirst_other _ _ f ?_ s.teams
  intro a ha
  simp only [decide_eq_true_eq, decide_eq_false_iff_not] at ha ⊢
  rw [h, ha]
  exact ⟨fun e => hu e.symm, fun e => hu e.symm⟩

/-- The tid of a team found is the one looked for. -/
theorem getTeam_tid {s : State} {tid : Nat} {t : Team} (h : getTeam s tid = some t) : t.tid = tid := by
  have := List.find?_some h
  simpa only [decide_eq_true_eq] using this

theorem weft?_wid {t : Team} {wid : Nat} {w : Weft} (h : t.weft? wid = some w) : w.wid = wid := by
  have := List.find?_some h
  simpa only [decide_eq_true_eq] using this

theorem getTeam_updWeft {s : State} {tid wid : Nat} {f : Weft → Weft} :
    getTeam (updWeft s tid wid f) tid =
      (getTeam s tid).map fun t => { t with wefts := updFirst (fun w => w.wid = wid) f t.wefts } :=
  getTeam_updTeam fun _ => rfl

/-- A weft after its own change. -/
theorem weftIn_updWeft {s : State} {tid wid : Nat} {f : Weft → Weft} (hf : ∀ w, (f w).wid = w.wid) :
    Safety.weftIn (updWeft s tid wid f) tid wid = (Safety.weftIn s tid wid).map f := by
  unfold Safety.weftIn
  rw [getTeam_updWeft]
  cases getTeam s tid with
  | none => rfl
  | some t =>
    simp only [Option.map_some, Option.bind_some]
    refine find?_updFirst_same _ f ?_ t.wefts
    intro a ha
    rw [decide_eq_true_eq] at ha ⊢
    rw [hf, ha]

theorem weftIn_updWeft_of {s : State} {tid wid : Nat} {f : Weft → Weft} {w : Weft} (h : Safety.weftIn s tid wid = some w)
    (hf : ∀ w, (f w).wid = w.wid) : Safety.weftIn (updWeft s tid wid f) tid wid = some (f w) := by
  rw [weftIn_updWeft hf, h]; rfl

theorem weftIn_some {s : State} {tid wid : Nat} {w : Weft} (h : Safety.weftIn s tid wid = some w) :
    ∃ t, getTeam s tid = some t ∧ t.weft? wid = some w := by
  unfold Safety.weftIn at h
  cases ht : getTeam s tid with
  | none => rw [ht] at h; cases h
  | some t => rw [ht] at h; exact ⟨t, rfl, h⟩

theorem weftIn_of {s : State} {tid wid : Nat} {t : Team} {w : Weft} (ht : getTeam s tid = some t) (hw : t.weft? wid = some w) :
    Safety.weftIn s tid wid = some w := by
  unfold Safety.weftIn
  rw [ht]; exact hw

end Sys2Proof.Machine

namespace Sys2Proof

open Sys2Proof.Machine

/-! ### Frames -/

theorem Safety.SameMemory.refl (s : State) : Safety.SameMemory s s := ⟨rfl, rfl⟩

theorem Safety.SameMemory.trans {a b c : State} (h : Safety.SameMemory a b) (k : Safety.SameMemory b c) : Safety.SameMemory a c :=
  ⟨k.views.trans h.views, k.transit.trans h.transit⟩

theorem Safety.SameMemory.of_eq {s t : State} (h : t.mem = s.mem) : Safety.SameMemory s t := ⟨by rw [h], by rw [h]⟩

theorem Safety.SameOutside.refl (s : State) : Safety.SameOutside s s :=
  ⟨Safety.SameMemory.refl s, rfl, rfl, rfl, rfl, rfl, rfl, rfl, rfl, rfl⟩

theorem Safety.SameOutside.trans {a b c : State} (h : Safety.SameOutside a b) (k : Safety.SameOutside b c) : Safety.SameOutside a c :=
  ⟨h.memory.trans k.memory, k.xlat.trans h.xlat, k.clusters.trans h.clusters, k.vops.trans h.vops, k.tasks.trans h.tasks,
   k.heddle.trans h.heddle, k.loom.trans h.loom, k.vane.trans h.vane, k.ptp.trans h.ptp, k.weave.trans h.weave⟩

theorem Safety.OnlyWeft.refl (s : State) (tid wid : Nat) : Safety.OnlyWeft s s tid wid := ⟨Safety.SameOutside.refl s, rfl⟩

theorem Safety.OnlyWeft.trans {a b c : State} {tid wid : Nat} (h : Safety.OnlyWeft a b tid wid) (k : Safety.OnlyWeft b c tid wid) :
    Safety.OnlyWeft a c tid wid := ⟨h.outside.trans k.outside, k.teams.trans h.teams⟩

theorem Safety.OnlyHart.refl (s : State) (tid : Nat) : Safety.OnlyHart s s tid := ⟨Safety.SameOutside.refl s, rfl⟩

theorem Safety.OnlyHart.trans {a b c : State} {tid : Nat} (h : Safety.OnlyHart a b tid) (k : Safety.OnlyHart b c tid) :
    Safety.OnlyHart a c tid := ⟨h.outside.trans k.outside, k.teams.trans h.teams⟩

end Sys2Proof

namespace Sys2Proof.Machine

open Sys2Proof

theorem takeId_only (s : State) (tid wid : Nat) : Safety.OnlyWeft s (takeId s).2 tid wid := ⟨⟨Safety.SameMemory.of_eq rfl, rfl, rfl, rfl, rfl, rfl, rfl, rfl, rfl, rfl⟩, rfl⟩

theorem takeFree_only (s : State) (tid wid : Nat) : Safety.OnlyWeft s (takeFree s).2 tid wid :=
  ⟨⟨Safety.SameMemory.of_eq rfl, rfl, rfl, rfl, rfl, rfl, rfl, rfl, rfl, rfl⟩, rfl⟩

theorem updWeft_only (s : State) (tid wid : Nat) {f : Weft → Weft} (hf : ∀ w, (f w).wid = w.wid) :
    Safety.OnlyWeft s (updWeft s tid wid f) tid wid := by
  refine ⟨⟨Safety.SameMemory.of_eq rfl, rfl, rfl, rfl, rfl, rfl, rfl, rfl, rfl, rfl⟩, ?_⟩
  refine updFirst_map _ _ _ ?_ s.teams
  intro t ht
  rw [decide_eq_true_eq] at ht
  have key : ∀ l : List Weft, (updFirst (fun w => w.wid = wid) f l).filter (fun w => decide (w.wid ≠ wid)) =
      l.filter fun w => decide (w.wid ≠ wid) := by
    intro l
    induction l with
    | nil => rfl
    | cons a l ih =>
      simp only [updFirst]
      split
      · rename_i hp
        rw [decide_eq_true_eq] at hp
        rw [List.filter_cons, List.filter_cons, hf, hp]
        simp
      · rw [List.filter_cons, List.filter_cons, ih]
  simp only [Safety.butWeft, ht, if_true, key]

theorem updHart_only (s : State) (tid : Nat) (f : Hart → Hart) : Safety.OnlyHart s (updHart s tid f) tid := by
  refine ⟨⟨Safety.SameMemory.of_eq rfl, rfl, rfl, rfl, rfl, rfl, rfl, rfl, rfl, rfl⟩, ?_⟩
  refine updFirst_map _ _ _ ?_ s.teams
  intro t ht
  rw [decide_eq_true_eq] at ht
  simp only [Safety.butHart, ht, if_true]

theorem discardInFlight_only (s : State) (t : Team) (w : Weft) (l : List Nat) (tid wid : Nat) :
    Safety.OnlyWeft s (discardInFlight s t w l) tid wid := by
  refine ⟨⟨Safety.SameMemory.of_eq rfl, rfl, rfl, ?_, rfl, rfl, rfl, rfl, rfl, rfl⟩, rfl⟩
  show ((s.vops.map _).map Safety.kept) = s.vops.map Safety.kept
  rw [List.map_map]
  refine List.map_congr_left ?_
  intro o _
  simp only [Function.comp]
  split <;> rfl

/-! ### Finishing a word -/

/-- A change of a weft that writes its strands only. -/
def StrandsOnly (f : Weft → Weft) : Prop := ∃ g : List Strand → List Strand, f = fun w => { w with strands := g w.strands }

theorem writeStrands_only (g : Strand → List (Nat × Elem)) : StrandsOnly (writeStrands g) :=
  ⟨fun l => l.map fun x => if x.em then (g x).foldl (fun (x : Strand) e => x.setReg e.1 e.2) x else x, rfl⟩

theorem writeMask_only (md : Nat) (g : Strand → Bool) : StrandsOnly (writeMask md g) := ⟨fun l => l.map fun x => if x.em then x.setMask md (g x) else x, rfl⟩

theorem id_only : StrandsOnly id := ⟨id, rfl⟩

/-- The weft as a word leaves it, but for its position, its queue position and its place in the active set. -/
def settled (u : Uses) (f : Weft → Weft) (w : Weft) : Weft :=
  { (f (w.allocate u.dests)).release (Safety.freed u) with
    holds := ((f (w.allocate u.dests)).release (Safety.freed u)).holds.filter (fun r => !(Safety.freed u).contains r) ++ u.holds }

theorem settled_wid {u : Uses} {f : Weft → Weft} (hf : StrandsOnly f) (w : Weft) : (settled u f w).wid = w.wid := by
  obtain ⟨g, rfl⟩ := hf
  rfl

/-- What a step over a word or a wake may change beside the strands: position, queue position, wait, active set, ready order,
hold latches, expiries and the debug mark. -/
structure SameCore (a b : Weft) : Prop where
  wid : b.wid = a.wid
  strands : b.strands = a.strands
  alloc : b.alloc = a.alloc
  trap : b.trap = a.trap
  pv : b.pv = a.pv
  pdone : b.pdone = a.pdone
  slot : b.slot = a.slot
  granted : b.granted = a.granted
  loadSeq : b.loadSeq = a.loadSeq

theorem SameCore.refl (a : Weft) : SameCore a a := ⟨rfl, rfl, rfl, rfl, rfl, rfl, rfl, rfl, rfl⟩

theorem SameCore.trans {a b c : Weft} (h : SameCore a b) (k : SameCore b c) : SameCore a c :=
  ⟨k.wid.trans h.wid, k.strands.trans h.strands, k.alloc.trans h.alloc, k.trap.trans h.trap, k.pv.trans h.pv,
   k.pdone.trans h.pdone, k.slot.trans h.slot, k.granted.trans h.granted, k.loadSeq.trans h.loadSeq⟩

/-- Waking a weft: its wait is over. -/
theorem wake_spec {s : State} {tid wid : Nat} {w : Weft} (h : Safety.weftIn s tid wid = some w) :
    Safety.OnlyWeft s (wake s tid wid) tid wid ∧
    ∃ w', Safety.weftIn (wake s tid wid) tid wid = some w' ∧ SameCore w w' ∧ w'.wait = .none ∧ w'.pos = w.pos ∧
      w'.rpos = w.rpos ∧ w'.once = w.once := by
  obtain ⟨t, ht, hw⟩ := weftIn_some h
  unfold wake
  rw [ht]
  simp only [hw]
  split
  · rename_i hn
    exact ⟨Safety.OnlyWeft.refl s tid wid, w, h, SameCore.refl w, hn, rfl, rfl, rfl⟩
  · refine ⟨(takeId_only s tid wid).trans (updWeft_only _ _ _ fun _ => rfl),
      { w with wait := .none, expiries := 0, active := w.active || (activeRoom s t w && !pendingReady s t w), readyAt := (takeId s).1 }, ?_, ?_, rfl, rfl, rfl, rfl⟩
    · exact weftIn_updWeft_of (s := (takeId s).2) h fun _ => rfl
    · exact ⟨rfl, rfl, rfl, rfl, rfl, rfl, rfl, rfl, rfl⟩

/-- A weft goes on at a position. -/
theorem goTo_spec {s : State} {tid wid : Nat} {w : Weft} (p : Pos) (h : Safety.weftIn s tid wid = some w) :
    Safety.OnlyWeft s (goTo s tid wid p) tid wid ∧
    ∃ w', Safety.weftIn (goTo s tid wid p) tid wid = some w' ∧ SameCore w w' ∧ w'.pos = p ∧ w'.rpos = w.rpos ∧ w'.wait = w.wait := by
  obtain ⟨t, ht, hw⟩ := weftIn_some h
  unfold goTo
  rw [ht]
  simp only [hw]
  have h1 := weftIn_updWeft_of (f := fun w => { w with pos := p, once := false }) h fun _ => rfl
  have o1 := updWeft_only s tid wid (f := fun w => { w with pos := p, once := false }) fun _ => rfl
  split
  · refine ⟨o1.trans ((takeId_only _ tid wid).trans (updWeft_only _ _ _ fun _ => rfl)),
      { w with pos := p, once := false, active := false, holds := [],
               readyAt := (takeId (updWeft s tid wid fun w => { w with pos := p, once := false })).1 }, ?_, ?_, rfl, rfl, rfl⟩
    · exact weftIn_updWeft_of (s := (takeId (updWeft s tid wid fun w => { w with pos := p, once := false })).2) h1 fun _ => rfl
    · exact ⟨rfl, rfl, rfl, rfl, rfl, rfl, rfl, rfl, rfl⟩
  · exact ⟨o1, _, h1, ⟨rfl, rfl, rfl, rfl, rfl, rfl, rfl, rfl, rfl⟩, rfl, rfl, rfl⟩

/-- A set of writes acquired by agents of a team: only memory, the model's counter and what the team's agents have done change. -/
theorem acquireIds_eq (s : State) (t : Team) (keys ids : List Nat) :
    ∃ m n g, (∀ x : Team, g x = { x with hists := (g x).hists }) ∧
      acquireIds s t keys ids = updTeam { s with mem := m, nextId := n } t.tid g := by
  have upd : ∀ (s : State) (g : Team → Team) (f : Hist → Hist) (k : Nat), (∀ x : Team, g x = { x with hists := (g x).hists }) →
      ∃ g', (∀ x : Team, g' x = { x with hists := (g' x).hists }) ∧
        updHist (updTeam s t.tid g) t.tid k f = updTeam s t.tid g' := by
    intro s g f k hg
    refine ⟨fun x => { x with hists := spSet Hist.empty (g x).hists k ((f ((g x).hist k)).prune s.mem) }, fun _ => rfl, ?_⟩
    unfold updHist updTeam
    simp only
    congr 1
    induction s.teams with
    | nil => rfl
    | cons a l ih =>
      by_cases ha : a.tid = t.tid
      · have e : (g a).tid = t.tid := by rw [hg a]; exact ha
        simp only [updFirst, ha, decide_true, if_true, e]
        rw [hg a]
      · simp only [updFirst, ha, decide_false, Bool.false_eq_true, if_false, ih]
  have fold : ∀ (f : Hist → Hist) (keys : List Nat) (s : State) (g : Team → Team), (∀ x : Team, g x = { x with hists := (g x).hists }) →
      ∃ g', (∀ x : Team, g' x = { x with hists := (g' x).hists }) ∧
        keys.foldl (fun s k => updHist s t.tid k f) (updTeam s t.tid g) = updTeam s t.tid g' := by
    intro f keys
    induction keys with
    | nil => intro s g hg; exact ⟨g, hg, rfl⟩
    | cons k l ih =>
      intro s g hg
      obtain ⟨g1, h1, e1⟩ := upd s g f k hg
      obtain ⟨g2, h2, e2⟩ := ih s g1 h1
      exact ⟨g2, h2, by rw [List.foldl_cons, e1, e2]⟩
  have same : ∀ s : State, updTeam s t.tid id = s := by
    intro s
    unfold updTeam
    have : ∀ l : List Team, updFirst (fun x => x.tid = t.tid) id l = l := by
      intro l
      induction l with
      | nil => rfl
      | cons a l ih => simp only [updFirst, ih, id, ite_self]
    rw [this]
  unfold acquireIds
  generalize inTransit s.mem ids = l
  cases l with
  | nil => exact ⟨s.mem, s.nextId, id, fun _ => rfl, (same s).symm⟩
  | cons a l =>
    obtain ⟨g, hg, e⟩ := fold (fun h => h.acquire (takeId (bring s t.die (a :: l))).1 (a :: l)) keys
      (takeId (bring s t.die (a :: l))).2 id fun _ => rfl
    rw [same] at e
    exact ⟨_, _, g, hg, e⟩

theorem acquireIds_team {s : State} {t t' : Team} (keys ids : List Nat) {tid : Nat} (h : getTeam s tid = some t') :
    ∃ t2, getTeam (acquireIds s t keys ids) tid = some t2 ∧ ∃ hs, t2 = { t' with hists := hs } := by
  obtain ⟨m, n, g, hg, e⟩ := acquireIds_eq s t keys ids
  rw [e]
  have hh : ∀ x : Team, (g x).tid = x.tid := fun x => by rw [hg x]
  by_cases ht : tid = t.tid
  · subst ht
    rw [getTeam_updTeam hh]
    exact ⟨g t', congrArg (Option.map g) h, (g t').hists, hg t'⟩
  · rw [getTeam_updTeam_other hh ht]
    exact ⟨t', h, t'.hists, rfl⟩

theorem acquireIds_loom (s : State) (t : Team) (keys ids : List Nat) : (acquireIds s t keys ids).loom = s.loom := by
  obtain ⟨m, n, g, -, e⟩ := acquireIds_eq s t keys ids
  rw [e]; rfl

theorem weftIn_acquireIds {s : State} {t : Team} (keys ids : List Nat) {tid wid : Nat} {w : Weft} (h : Safety.weftIn s tid wid = some w) :
    Safety.weftIn (acquireIds s t keys ids) tid wid = some w := by
  obtain ⟨t', ht, hw⟩ := weftIn_some h
  obtain ⟨t2, h2, hs, rfl⟩ := acquireIds_team (t := t) keys ids ht
  exact weftIn_of h2 hw

/-- A state once a word has read the uniform queue, where it reads it (15 R230). -/
def takenIn (s : State) (t : Team) (w : Weft) (u : Uses) : State :=
  if u.codes.contains 0x60 then acquireIds s t w.keys (spGet [] t.uni.uqRel (w.rpos.toNat % 64)) else s

theorem weftIn_takenIn {s : State} {t : Team} {w : Weft} (u : Uses) {tid wid : Nat} {w' : Weft} (h : Safety.weftIn s tid wid = some w') :
    Safety.weftIn (takenIn s t w u) tid wid = some w' := by
  unfold takenIn
  split
  · exact weftIn_acquireIds _ _ h
  · exact h

theorem takenIn_loom (s : State) (t : Team) (w : Weft) (u : Uses) : (takenIn s t w u).loom = s.loom := by
  unfold takenIn
  split
  · exact acquireIds_loom _ _ _ _
  · rfl

theorem takenIn_team {s : State} {t t' : Team} {w : Weft} (u : Uses) {tid : Nat} (h : getTeam s tid = some t') :
    ∃ t2, getTeam (takenIn s t w u) tid = some t2 ∧ ∃ hs, t2 = { t' with hists := hs } := by
  unfold takenIn
  split
  · exact acquireIds_team _ _ h
  · exact ⟨t', h, t'.hists, rfl⟩

/-- Reading the uniform queue: the weft's queue position advances. -/
theorem taken_spec {s : State} {tid wid : Nat} {t : Team} {w : Weft} (u : Uses) (ht : getTeam s tid = some t) (hw : t.weft? wid = some w) :
    Safety.OnlyWeft (takenIn s t w u) (if u.codes.contains 0x60 then takeEntry s tid wid else s) tid wid ∧
    Safety.weftIn (if u.codes.contains 0x60 then takeEntry s tid wid else s) tid wid =
      some { w with rpos := w.rpos + (if u.codes.contains 0x60 then 1 else 0) } := by
  by_cases hq : u.codes.contains 0x60 = true
  · have e : takeEntry s tid wid = updWeft (takenIn s t w u) tid wid fun w => { w with rpos := w.rpos + 1 } := by
      unfold takeEntry takenIn
      simp only [ht, hw, hq, if_true]
    simp only [hq, if_true, e]
    exact ⟨updWeft_only _ _ _ fun _ => rfl, weftIn_updWeft_of (weftIn_takenIn u (weftIn_of ht hw)) fun _ => rfl⟩
  · unfold takenIn
    simp only [hq, Bool.false_eq_true, if_false]
    refine ⟨Safety.OnlyWeft.refl s tid wid, ?_⟩
    rw [weftIn_of ht hw]
    simp

theorem settleWord_eq {s : State} {tid wid : Nat} {t : Team} {w : Weft} (u : Uses) (f : Weft → Weft)
    (ht : getTeam (if u.codes.contains 0x60 then takeEntry s tid wid else s) tid = some t) (hw : t.weft? wid = some w) :
    settleWord s tid wid u f =
      wake (updWeft (discardInFlight (if u.codes.contains 0x60 then takeEntry s tid wid else s) t w (Safety.freed u)) tid wid
        (settled u f)) tid wid := by
  unfold settleWord
  simp only [ht, hw]
  rfl

theorem settled_rpos (u : Uses) {f : Weft → Weft} (hf : StrandsOnly f) (w : Weft) (n : BitVec 16) :
    settled u f { w with rpos := n } = { settled u f w with rpos := n } := by
  obtain ⟨g, rfl⟩ := hf
  rfl

/-- Settling a word: what its weft holds then. -/
theorem settleWord_spec {s : State} {tid wid : Nat} {t : Team} {w : Weft} (u : Uses) {f : Weft → Weft} (hf : StrandsOnly f)
    (ht : getTeam s tid = some t) (hw : t.weft? wid = some w) :
    Safety.OnlyWeft (takenIn s t w u) (settleWord s tid wid u f) tid wid ∧
    ∃ w', Safety.weftIn (settleWord s tid wid u f) tid wid = some w' ∧ SameCore (settled u f w) w' ∧ w'.wait = .none ∧
      w'.pos = w.pos ∧ w'.once = w.once ∧ w'.rpos = w.rpos + (if u.codes.contains 0x60 then 1 else 0) := by
  obtain ⟨o0, h0⟩ := taken_spec u ht hw
  obtain ⟨t0, ht0, hw0⟩ := weftIn_some h0
  rw [settleWord_eq u f ht0 hw0]
  generalize (if u.codes.contains 0x60 then takeEntry s tid wid else s) = x at *
  generalize w.rpos + (if u.codes.contains 0x60 then 1 else 0) = r at *
  have h1 := weftIn_updWeft_of (s := discardInFlight x t0 { w with rpos := r } (Safety.freed u)) (f := settled u f) h0 (settled_wid hf)
  have o1 := (o0.trans (discardInFlight_only x t0 { w with rpos := r } (Safety.freed u) tid wid)).trans
    (updWeft_only (discardInFlight x t0 { w with rpos := r } (Safety.freed u)) tid wid (f := settled u f) (settled_wid hf))
  rw [settled_rpos u hf] at h1
  obtain ⟨o3, w', h3, hc, hwt, hpos, hrp, hon⟩ := wake_spec h1
  refine ⟨o1.trans o3, w', h3, ⟨hc.wid, hc.strands, hc.alloc, hc.trap, hc.pv, hc.pdone, hc.slot, hc.granted, hc.loadSeq⟩, hwt,
    hpos.trans ?_, hon.trans ?_, hrp⟩
  · obtain ⟨g, rfl⟩ := hf; rfl
  · obtain ⟨g, rfl⟩ := hf; rfl

/-- The text that a weft fetches depends on its team's object and launch, its position and its debug mark. -/
theorem followPos_congr {s s' : State} {t t' : Team} {w w' : Weft} (n : Nat) (hl : s'.loom = s.loom) (ho : t'.obj = t.obj)
    (hr : t'.ref = t.ref) (hp : w'.pos = w.pos) (hon : w'.once = w.once) : followPos s' t' w' n = followPos s t w n := by
  unfold followPos clauseHeader vtextWord launchOf getObj getLaunch
  rw [hl, ho, hr, hp, hon]

end Sys2Proof.Machine

namespace Sys2Proof

open Sys2Proof.Machine

/-- A team after a step that changes one weft only. -/
theorem Safety.OnlyWeft.team {s s' : State} {tid wid : Nat} (h : Safety.OnlyWeft s s' tid wid) {t : Team} (ht : getTeam s tid = some t) :
    ∃ t', getTeam s' tid = some t' ∧ Safety.butWeft tid wid t' = Safety.butWeft tid wid t := by
  have key : ∀ (l l' : List Team), l'.map (Safety.butWeft tid wid) = l.map (Safety.butWeft tid wid) →
      ∀ t, l.find? (fun t => t.tid = tid) = some t →
      ∃ t', l'.find? (fun t => t.tid = tid) = some t' ∧ Safety.butWeft tid wid t' = Safety.butWeft tid wid t := by
    have tidEq : ∀ t : Team, (Safety.butWeft tid wid t).tid = t.tid := by
      intro t; unfold Safety.butWeft; split <;> rfl
    intro l
    induction l with
    | nil => intro l' _ t ht; cases ht
    | cons a l ih =>
      intro l' hl t ht
      cases l' with
      | nil => cases hl
      | cons b l' =>
        simp only [List.map_cons, List.cons.injEq] at hl
        have hab : b.tid = a.tid := by rw [← tidEq b, hl.1, tidEq]
        by_cases hp : a.tid = tid
        · rw [List.find?_cons_of_pos (by simp [hp])] at ht
          rw [List.find?_cons_of_pos (by simp [hab, hp])]
          cases ht
          exact ⟨b, rfl, hl.1⟩
        · rw [List.find?_cons_of_neg (by simp [hp])] at ht
          rw [List.find?_cons_of_neg (by simp [hab, hp])]
          exact ih l' hl.2 t ht
  exact key s.teams s'.teams h.teams t ht

end Sys2Proof

namespace Sys2Proof.Machine

open Sys2Proof

theorem butWeft_obj {tid wid : Nat} {t t' : Team} (h : Safety.butWeft tid wid t' = Safety.butWeft tid wid t) :
    t'.obj = t.obj ∧ t'.ref = t.ref ∧ t'.place = t.place ∧ t'.uni = t.uni ∧ t'.hart = t.hart ∧ t'.nstr = t.nstr := by
  have e : ∀ x : Team, (Safety.butWeft tid wid x).obj = x.obj ∧ (Safety.butWeft tid wid x).ref = x.ref ∧
      (Safety.butWeft tid wid x).place = x.place ∧ (Safety.butWeft tid wid x).uni = x.uni ∧
      (Safety.butWeft tid wid x).hart = x.hart ∧ (Safety.butWeft tid wid x).nstr = x.nstr := by
    intro x; unfold Safety.butWeft; split <;> exact ⟨rfl, rfl, rfl, rfl, rfl, rfl⟩
  obtain ⟨a1, a2, a3, a4, a5, a6⟩ := e t
  obtain ⟨b1, b2, b3, b4, b5, b6⟩ := e t'
  exact ⟨by rw [← b1, h, a1], by rw [← b2, h, a2], by rw [← b3, h, a3], by rw [← b4, h, a4], by rw [← b5, h, a5],
    by rw [← b6, h, a6]⟩

/-- Finishing a word: one weft changes; its strands, registers and position are then as the word says. -/
theorem finishWord_spec {s : State} {tid wid : Nat} {t : Team} {w : Weft} (u : Uses) {f : Weft → Weft} (hf : StrandsOnly f)
    (ht : getTeam s tid = some t) (hw : t.weft? wid = some w) :
    Safety.OnlyWeft (takenIn s t w u) (finishWord s tid wid u f) tid wid ∧
    ∃ w', Safety.weftIn (finishWord s tid wid u f) tid wid = some w' ∧ SameCore (settled u f w) w' ∧ w'.wait = .none ∧
      w'.pos = followPos s t w u.len ∧ w'.rpos = w.rpos + (if u.codes.contains 0x60 then 1 else 0) := by
  obtain ⟨o1, w1, h1, c1, hwt, hpos, hon, hr⟩ := settleWord_spec u hf ht hw
  obtain ⟨t1, ht1, hw1⟩ := weftIn_some h1
  obtain ⟨t0, ht0, hs, e0⟩ := takenIn_team (t := t) (w := w) u ht
  obtain ⟨t1', ht1', hb⟩ := o1.team ht0
  have : t1' = t1 := by rw [ht1] at ht1'; exact (Option.some.inj ht1').symm
  subst this
  obtain ⟨e1, e2, -⟩ := butWeft_obj hb
  rw [e0] at e1 e2
  unfold finishWord stepOver
  simp only [ht1, hw1]
  obtain ⟨o2, w2, h2, c2, hp2, hr2, hw2⟩ := goTo_spec (followPos (settleWord s tid wid u f) t1' w1 u.len) h1
  refine ⟨o1.trans o2, w2, h2, c1.trans c2, hw2.trans hwt, ?_, hr2.trans hr⟩
  rw [hp2]
  exact followPos_congr u.len (o1.outside.loom.trans (takenIn_loom s t w u)) e1 e2 hpos hon

/-- Finishing a branch. -/
theorem finishAt_spec {s : State} {tid wid : Nat} {t : Team} {w : Weft} (u : Uses) {f : Weft → Weft} (hf : StrandsOnly f)
    (clause : Nat) (ht : getTeam s tid = some t) (hw : t.weft? wid = some w) :
    Safety.OnlyWeft (takenIn s t w u) (finishAt s tid wid u f clause) tid wid ∧
    ∃ w', Safety.weftIn (finishAt s tid wid u f clause) tid wid = some w' ∧ SameCore (settled u f w) w' ∧ w'.wait = .none ∧
      w'.pos = Pos.atClause clause ∧ w'.rpos = w.rpos + (if u.codes.contains 0x60 then 1 else 0) := by
  obtain ⟨o1, w1, h1, c1, hwt, -, -, hr⟩ := settleWord_spec u hf ht hw
  obtain ⟨o2, w2, h2, c2, hp2, hr2, hw2⟩ := goTo_spec (Pos.atClause clause) h1
  exact ⟨o1.trans o2, w2, h2, c1.trans c2, hw2.trans hwt, hp2, hr2.trans hr⟩

/-! ### Registers and masks after a word -/

theorem reg_setReg (x : Strand) (r : Nat) (e : Elem) (q : Nat) : (x.setReg r e).reg q = if q = r then e else x.reg q :=
  spGet_spSet Elem.zero x.regs r e q

theorem reg_drop (l : List Nat) : ∀ (x : Strand) (q : Nat),
    ({ x with regs := l.foldl (fun m r => spDrop r m) x.regs } : Strand).reg q = if q ∈ l then Elem.zero else x.reg q := by
  induction l with
  | nil => intro x q; simp [Strand.reg]
  | cons a l ih =>
    intro x q
    have := ih { x with regs := spDrop a x.regs } q
    simp only [Strand.reg, List.foldl_cons] at this ⊢
    rw [this, spGet_spDrop]
    by_cases h : q ∈ l
    · simp [h]
    · by_cases h2 : q = a
      · simp [h2]
      · simp [h, h2]

/-- The elements of a register after a word: the value written in the active strands, 0 where the register was freed, else as
before. -/
theorem column_settled (u : Uses) (g : Strand → List (Nat × Elem)) (w : Weft) (q : Nat) :
    Safety.column (settled u (writeStrands g) w) q = w.strands.map fun x =>
      if q ∈ Safety.freed u then Elem.zero else (if x.em then (g x).foldl (fun (x : Strand) e => x.setReg e.1 e.2) x else x).reg q := by
  unfold Safety.column settled Weft.release Weft.allocate writeStrands
  simp only [List.map_map]
  refine List.map_congr_left ?_
  intro x _
  simp only [Function.comp]
  exact reg_drop (Safety.freed u) _ q

/-- One register written. -/
theorem column_one (u : Uses) (vd : Nat) (v : Strand → Elem) (w : Weft) (hd : vd ∈ u.dests) (q : Nat) :
    Safety.column (settled u (writeStrands fun x => [(vd, v x)]) w) q = w.strands.map fun x =>
      if q = vd then (if x.em then v x else x.reg q) else if q ∈ Safety.freed u then Elem.zero else x.reg q := by
  rw [column_settled]
  refine List.map_congr_left ?_
  intro x _
  by_cases h : q = vd
  · have hn : q ∉ Safety.freed u := by
      unfold Safety.freed
      rw [List.mem_filter]
      rintro ⟨-, h2⟩
      rw [h] at h2
      simp only [Bool.not_eq_true', List.contains_eq_mem, decide_eq_false_iff_not] at h2
      exact h2 hd
    rw [if_neg hn, if_pos h]
    split
    · rw [List.foldl_cons, List.foldl_nil, reg_setReg, if_pos h]
    · rfl
  · rw [if_neg h]
    split
    · rfl
    · split
      · rw [List.foldl_cons, List.foldl_nil, reg_setReg, if_neg h]
      · rfl

theorem setRegs_masks (l : List (Nat × Elem)) : ∀ x : Strand,
    let y := l.foldl (fun (x : Strand) e => x.setReg e.1 e.2) x
    y.sid = x.sid ∧ y.lane = x.lane ∧ y.em = x.em ∧ y.m = x.m := by
  induction l with
  | nil => intro x; exact ⟨rfl, rfl, rfl, rfl⟩
  | cons a l ih => intro x; exact ih (x.setReg a.1 a.2)

/-- Writing registers leaves the strands and their masks. -/
theorem masks_settled (u : Uses) (g : Strand → List (Nat × Elem)) (w : Weft) :
    Safety.masks (settled u (writeStrands g) w) = Safety.masks w := by
  unfold Safety.masks settled Weft.release Weft.allocate writeStrands
  simp only [List.map_map]
  refine List.map_congr_left ?_
  intro x _
  simp only [Function.comp]
  split
  · obtain ⟨a, b, c, d⟩ := setRegs_masks (g x) x
    simp only [a, b, c, d]
  · rfl

/-- Registers allocated after a word. -/
theorem alloc_settled (u : Uses) {f : Weft → Weft} (hf : StrandsOnly f) (w : Weft) :
    (settled u f w).alloc = (w.alloc ||| regBits u.dests) &&& ~~~(regBits (Safety.freed u)) := by
  obtain ⟨g, rfl⟩ := hf
  rfl

/-! ### Running a word -/

/-- A word that issues runs its body after the prologue. -/
theorem runWord_issues {i : Instr} {s : State} {tid wid : Nat} {t : Team} {w : Weft} {u : Uses} {c : VCtx} (body : VCtx → Result)
    (hc : s.cur = .weft tid wid) (ht : getTeam s tid = some t) (hw : t.weft? wid = some w) (hl : w.polls = false)
    (hi : issues i s t w u = true) (hp : prologue s t w u = some c) : runWord i s u body = body c := by
  simp only [issues, Bool.and_eq_true, Bool.not_eq_true'] at hi
  obtain ⟨⟨⟨h1, h2⟩, h3⟩, h4⟩ := hi
  unfold runWord withWeft pollOr
  simp only [hc, ht, hw, hl, h1, h2, h3, h4, hp]
  simp

/-- With nothing outstanding that returns into the registers the word names, and no k write to be seen, the prologue reads the
state as it is. -/
theorem prologue_quiet {s : State} {tid wid : Nat} {t : Team} {w : Weft} (u : Uses) (ht : getTeam s tid = some t)
    (hw : t.weft? wid = some w) (ho : weftOps s tid wid = []) (hk : t.uni.kpend = []) :
    prologue s t w u =
      some { s := s, t := t, w := w, wd := teamWidth s t, k := t.uni.k, qh := spGet 0 t.uni.uq (w.rpos.toNat % 64) } := by
  have e1 : t.tid = tid := getTeam_tid ht
  have e2 : w.wid = wid := weft?_wid hw
  unfold prologue kView mayLand
  rw [e1, e2, ho, hk]
  simp only [List.foldl_nil, ht, hw]

/-- The team and the weft that a word reads are those of its state. -/
theorem issues_ctx {i s u tid wid c} (h : Safety.Issues i s u tid wid c) :
    c.t.tid = tid ∧ c.w.wid = wid ∧ getTeam c.s tid = some c.t ∧ c.t.weft? wid = some c.w := by
  obtain ⟨hc, t, w, ht, hw, hl, hi, hp⟩ := h
  have e1 := getTeam_tid ht
  have e2 := weft?_wid hw
  unfold prologue at hp
  rw [e1, e2] at hp
  dsimp only at hp
  split at hp
  · cases hp
  · rename_i t' ht'
    split at hp
    · cases hp
    · rename_i w' hw'
      cases hp
      exact ⟨getTeam_tid ht', weft?_wid hw', ht', hw'⟩

/-- A word that issues runs its body. -/
theorem issues_run {i s u tid wid c} (h : Safety.Issues i s u tid wid c) (body : VCtx → Result) :
    runWord i s u body = body c := by
  obtain ⟨hc, t, w, ht, hw, hl, hi, hp⟩ := h
  exact runWord_issues body hc ht hw hl hi hp

/-- A word that finishes completes: one weft changes, and its strands are settled. -/
theorem done_completes {i s u tid wid c} (h : Safety.Issues i s u tid wid c) {f : Weft → Weft} (hf : StrandsOnly f) :
    ∃ t w, c.done u f = .next t ∧ Safety.Completes c u tid wid t w (followPos c.s c.t c.w u.len) ∧
      w.strands = (settled u f c.w).strands := by
  obtain ⟨e1, e2, ht, hw⟩ := issues_ctx h
  obtain ⟨ho, w', hw', hc, hwt, hp, hr⟩ := finishWord_spec u hf ht hw
  refine ⟨finishWord c.s tid wid u f, w', ?_, ?_, hc.strands⟩
  · unfold VCtx.done; rw [e1, e2]
  · have k1 : (settled u f c.w).trap = c.w.trap := by obtain ⟨g, rfl⟩ := hf; rfl
    have k2 : (settled u f c.w).pv = c.w.pv := by obtain ⟨g, rfl⟩ := hf; rfl
    have k3 : (settled u f c.w).pdone = c.w.pdone := by obtain ⟨g, rfl⟩ := hf; rfl
    have k7 : (settled u f c.w).slot = c.w.slot := by obtain ⟨g, rfl⟩ := hf; rfl
    exact ⟨ho, hw', hp, hwt, hr, hc.alloc.trans (alloc_settled u hf c.w), hc.trap.trans k1, ⟨hc.pv.trans k2, hc.pdone.trans k3⟩, hc.slot.trans k7⟩

/-- Registers and masks are those of the strands. -/
theorem column_congr {a b : Weft} (h : a.strands = b.strands) (q : Nat) : Safety.column a q = Safety.column b q := by
  unfold Safety.column; rw [h]

theorem masks_congr {a b : Weft} (h : a.strands = b.strands) : Safety.masks a = Safety.masks b := by
  unfold Safety.masks; rw [h]

/-- A word that finishes at a clause completes there. -/
theorem finishAt_completes {i s u tid wid c} (h : Safety.Issues i s u tid wid c) {f : Weft → Weft} (hf : StrandsOnly f) (a : Nat) :
    ∃ w, Safety.Completes c u tid wid (finishAt c.s tid wid u f a) w (Pos.atClause a) ∧
      w.strands = (settled u f c.w).strands := by
  obtain ⟨e1, e2, ht, hw⟩ := issues_ctx h
  obtain ⟨ho, w', hw', hc, hwt, hp, hr⟩ := finishAt_spec u hf a ht hw
  have k1 : (settled u f c.w).trap = c.w.trap := by obtain ⟨g, rfl⟩ := hf; rfl
  have k2 : (settled u f c.w).pv = c.w.pv := by obtain ⟨g, rfl⟩ := hf; rfl
  have k3 : (settled u f c.w).pdone = c.w.pdone := by obtain ⟨g, rfl⟩ := hf; rfl
  have k7 : (settled u f c.w).slot = c.w.slot := by obtain ⟨g, rfl⟩ := hf; rfl
  exact ⟨w', ⟨ho, hw', hp, hwt, hr, hc.alloc.trans (alloc_settled u hf c.w), hc.trap.trans k1, ⟨hc.pv.trans k2, hc.pdone.trans k3⟩, hc.slot.trans k7⟩, hc.strands⟩

/-- A word that writes no register and no mask. -/
theorem settled_id (u : Uses) (w : Weft) :
    Safety.masks (settled u id w) = Safety.masks w ∧
    ∀ q, Safety.column (settled u id w) q = w.strands.map fun x => if q ∈ Safety.freed u then Elem.zero else x.reg q := by
  constructor
  · unfold Safety.masks settled Weft.release Weft.allocate
    simp only [List.map_map, id]
    rfl
  · intro q
    unfold Safety.column settled Weft.release Weft.allocate
    simp only [List.map_map, id]
    refine List.map_congr_left ?_
    intro x _
    exact reg_drop (Safety.freed u) x q

/-- A word whose body is finished without a write passes. -/
theorem passes_done {i s u tid wid c} (h : Safety.Issues i s u tid wid c) (he : exec i s = c.done u id) :
    Safety.Passes i s c u tid wid (followPos c.s c.t c.w u.len) := by
  obtain ⟨t, w, h1, h2, h3⟩ := done_completes h (f := id) id_only
  exact ⟨t, w, he.trans h1, h2, (masks_congr h3).trans (settled_id u c.w).1, fun q => (column_congr h3 q).trans ((settled_id u c.w).2 q)⟩

theorem passes_at {i s u tid wid c} (h : Safety.Issues i s u tid wid c) {a : Nat}
    (he : exec i s = .next (finishAt c.s tid wid u id a)) : Safety.Passes i s c u tid wid (Pos.atClause a) := by
  obtain ⟨w, h2, h3⟩ := finishAt_completes h (f := id) id_only a
  exact ⟨_, w, he, h2, (masks_congr h3).trans (settled_id u c.w).1, fun q => (column_congr h3 q).trans ((settled_id u c.w).2 q)⟩

/-- A word whose body writes one register in the active strands. -/
theorem regWord_of {i : Instr} {u : Uses} {vd : Nat} {v : VCtx → Strand → Elem} (hd : vd ∈ u.dests)
    (he : ∀ s, exec i s = runWord i s u fun c => c.done u (writeStrands fun x => [(vd, v c x)])) : Safety.RegWord i u vd v := by
  intro s tid wid c h
  rw [he, issues_run h]
  obtain ⟨t, w, h1, h2, h3⟩ := done_completes h (writeStrands_only fun x => [(vd, v c x)])
  refine ⟨t, w, h1, h2, (masks_congr h3).trans (masks_settled u _ c.w), ?_⟩
  intro q
  rw [column_congr h3]
  exact column_one u vd (v c) c.w hd q

/-! ### Several wefts of a team in turn -/

/-- A step that changes one weft leaves the others. -/
theorem weftIn_other {s s' : State} {tid v wid : Nat} (h : Safety.OnlyWeft s s' tid v) (hv : wid ≠ v) :
    Safety.weftIn s' tid wid = Safety.weftIn s tid wid := by
  have find : ∀ l : List Weft, l.find? (fun w => w.wid = wid) =
      (l.filter fun w => decide (w.wid ≠ v)).find? fun w => w.wid = wid := by
    intro l
    induction l with
    | nil => rfl
    | cons a l ih =>
      by_cases ha : a.wid = v
      · rw [List.filter_cons_of_neg (by simp [ha]), List.find?_cons_of_neg (by simp [ha, Ne.symm hv]), ih]
      · rw [List.filter_cons_of_pos (by simp [ha])]
        by_cases hw : a.wid = wid
        · rw [List.find?_cons_of_pos (by simp [hw]), List.find?_cons_of_pos (by simp [hw])]
        · rw [List.find?_cons_of_neg (by simp [hw]), List.find?_cons_of_neg (by simp [hw]), ih]
  have one : ∀ {a b : State}, Safety.OnlyWeft a b tid v → ∀ t, getTeam a tid = some t →
      ∃ t', getTeam b tid = some t' ∧ t'.weft? wid = t.weft? wid := by
    intro a b hab t ht
    obtain ⟨t', ht', hb⟩ := hab.team ht
    refine ⟨t', ht', ?_⟩
    unfold Team.weft?
    rw [find t'.wefts, find t.wefts]
    have e := congrArg Team.wefts hb
    simp only [Safety.butWeft, getTeam_tid ht, getTeam_tid ht', if_true] at e
    rw [e]
  unfold Safety.weftIn
  cases hs : getTeam s tid with
  | some t =>
    obtain ⟨t', ht', e⟩ := one h t hs
    rw [ht']; exact e
  | none =>
    cases hs' : getTeam s' tid with
    | none => rfl
    | some t' =>
      obtain ⟨t, ht, -⟩ := Safety.OnlyWeft.team (s := s') (s' := s) (tid := tid) (wid := v)
        ⟨⟨⟨h.outside.memory.views.symm, h.outside.memory.transit.symm⟩, h.outside.xlat.symm, h.outside.clusters.symm,
          h.outside.vops.symm, h.outside.tasks.symm, h.outside.heddle.symm, h.outside.loom.symm, h.outside.vane.symm,
          h.outside.ptp.symm, h.outside.weave.symm⟩, h.teams.symm⟩ hs'
      rw [hs] at ht; cases ht

/-- What a team keeps while its wefts change one after another. -/
structure SameTeam (s s' : State) (tid : Nat) : Prop where
  outside : Safety.SameOutside s s'
  team : ∀ t, getTeam s tid = some t → ∃ t', getTeam s' tid = some t' ∧ t'.obj = t.obj ∧ t'.ref = t.ref ∧ t'.place = t.place ∧
    t'.uni = t.uni ∧ t'.hart = t.hart ∧ t'.nbars = t.nbars

theorem SameTeam.refl (s : State) (tid : Nat) : SameTeam s s tid :=
  ⟨Safety.SameOutside.refl s, fun t ht => ⟨t, ht, rfl, rfl, rfl, rfl, rfl, rfl⟩⟩

theorem SameTeam.trans {a b c : State} {tid : Nat} (h : SameTeam a b tid) (k : SameTeam b c tid) : SameTeam a c tid := by
  refine ⟨h.outside.trans k.outside, ?_⟩
  intro t ht
  obtain ⟨t1, h1, a1, a2, a3, a4, a5, a6⟩ := h.team t ht
  obtain ⟨t2, h2, b1, b2, b3, b4, b5, b6⟩ := k.team t1 h1
  exact ⟨t2, h2, b1.trans a1, b2.trans a2, b3.trans a3, b4.trans a4, b5.trans a5, b6.trans a6⟩

theorem SameTeam.of_only {s s' : State} {tid wid : Nat} (h : Safety.OnlyWeft s s' tid wid) : SameTeam s s' tid := by
  refine ⟨h.outside, ?_⟩
  intro t ht
  obtain ⟨t', ht', hb⟩ := h.team ht
  obtain ⟨a1, a2, a3, a4, a5, -⟩ := butWeft_obj hb
  have e := congrArg Team.nbars hb
  simp only [Safety.butWeft, getTeam_tid ht, getTeam_tid ht', if_true] at e
  exact ⟨t', ht', a1, a2, a3, a4, a5, e⟩

/-- Wefts of a team taken in turn: each is changed once, from a state in which it stands as at the start. -/
theorem foldWefts {tid : Nat} (g : State → Nat → State) (hg : ∀ s v, Safety.OnlyWeft s (g s v) tid v) :
    ∀ (l : List Nat), l.Nodup → ∀ s : State, SameTeam s (l.foldl g s) tid ∧
      (∀ wid, wid ∉ l → Safety.weftIn (l.foldl g s) tid wid = Safety.weftIn s tid wid) ∧
      (∀ wid, wid ∈ l → ∃ s1, SameTeam s s1 tid ∧ Safety.weftIn s1 tid wid = Safety.weftIn s tid wid ∧
        Safety.weftIn (l.foldl g s) tid wid = Safety.weftIn (g s1 wid) tid wid) := by
  intro l
  induction l with
  | nil => intro _ s; exact ⟨SameTeam.refl s tid, fun _ _ => rfl, fun wid h => absurd h List.not_mem_nil⟩
  | cons v l ih =>
    intro hn s
    rw [List.nodup_cons] at hn
    obtain ⟨i1, i2, i3⟩ := ih hn.2 (g s v)
    have hv := hg s v
    refine ⟨(SameTeam.of_only hv).trans i1, ?_, ?_⟩
    · intro wid hw
      rw [List.mem_cons, not_or] at hw
      exact (i2 wid hw.2).trans (weftIn_other hv hw.1)
    · intro wid hw
      rw [List.mem_cons] at hw
      by_cases e : wid = v
      · subst e
        exact ⟨s, SameTeam.refl s tid, rfl, i2 wid hn.1⟩
      · obtain ⟨s1, h1, h2, h3⟩ := i3 wid (hw.resolve_left e)
        exact ⟨s1, (SameTeam.of_only hv).trans h1, h2.trans (weftIn_other hv e), h3⟩

/-- Waking a weft that may not be there. -/
theorem wake_only (s : State) (tid wid : Nat) : Safety.OnlyWeft s (wake s tid wid) tid wid := by
  cases h : Safety.weftIn s tid wid with
  | some w => exact (wake_spec h).1
  | none =>
    unfold wake
    cases ht : getTeam s tid with
    | none => exact Safety.OnlyWeft.refl s tid wid
    | some t =>
      cases hw : t.weft? wid with
      | none => simp only; rw [hw]; exact Safety.OnlyWeft.refl s tid wid
      | some w => rw [weftIn_of ht hw] at h; cases h

theorem goTo_only (s : State) (tid wid : Nat) (p : Pos) : Safety.OnlyWeft s (goTo s tid wid p) tid wid := by
  cases h : Safety.weftIn s tid wid with
  | some w => exact (goTo_spec p h).1
  | none =>
    unfold goTo
    cases ht : getTeam s tid with
    | none => exact Safety.OnlyWeft.refl s tid wid
    | some t =>
      cases hw : t.weft? wid with
      | none => simp only; rw [hw]; exact Safety.OnlyWeft.refl s tid wid
      | some w => rw [weftIn_of ht hw] at h; cases h

theorem stepOver_only (s : State) (tid wid n : Nat) : Safety.OnlyWeft s (stepOver s tid wid n) tid wid := by
  unfold stepOver
  split
  · exact Safety.OnlyWeft.refl s tid wid
  · split
    · exact Safety.OnlyWeft.refl s tid wid
    · exact goTo_only s tid wid _

/-- Going on after a word: the weft is the same but for its position. -/
theorem stepOver_spec {s : State} {tid wid : Nat} {t : Team} {w : Weft} (n : Nat) (ht : getTeam s tid = some t)
    (hw : t.weft? wid = some w) :
    ∃ w', Safety.weftIn (stepOver s tid wid n) tid wid = some w' ∧ SameCore w w' ∧ w'.pos = followPos s t w n ∧ w'.rpos = w.rpos ∧
      w'.wait = w.wait := by
  unfold stepOver
  simp only [ht, hw]
  exact (goTo_spec (followPos s t w n) (weftIn_of ht hw)).2

/-- Taking a weft out of its active set. -/
theorem swapOut_spec {s : State} {tid wid : Nat} {w : Weft} (wt : Wait) (h : Safety.weftIn s tid wid = some w) :
    Safety.OnlyWeft s (swapOut s tid wid wt) tid wid ∧
    ∃ w', Safety.weftIn (swapOut s tid wid wt) tid wid = some w' ∧ SameCore w w' ∧ w'.wait = wt ∧ w'.pos = w.pos ∧
      w'.rpos = w.rpos ∧ w'.once = w.once := by
  refine ⟨(takeId_only s tid wid).trans (updWeft_only _ _ _ fun _ => rfl), _,
    weftIn_updWeft_of (s := (takeId s).2) h fun _ => rfl, ?_, rfl, rfl, rfl, rfl⟩
  exact ⟨rfl, rfl, rfl, rfl, rfl, rfl, rfl, rfl, rfl⟩

/-- Wefts that a barrier lets go on: what any of them did before is acquired by all (11 R194), and each goes on after its word. -/
theorem resumeAll_spec {s : State} {tid : Nat} {t : Team} (ht : getTeam s tid = some t) {l : List Weft}
    (hn : (l.map (·.wid)).Nodup) {wid : Nat} {w : Weft} (hl : wid ∈ l.map (·.wid)) (hw : t.weft? wid = some w) :
    SameTeam (acquireIds s t (l.flatMap (·.keys)) (t.done (l.flatMap (·.keys)))) (resumeAll s tid l) tid ∧
    ∃ w', Safety.weftIn (resumeAll s tid l) tid wid = some w' ∧ SameCore w w' ∧ w'.wait = .none ∧ w'.pos = followPos s t w 1 ∧
      w'.rpos = w.rpos := by
  generalize hb : acquireIds s t (l.flatMap (·.keys)) (t.done (l.flatMap (·.keys))) = b
  have e : resumeAll s tid l = (l.map (·.wid)).foldl (fun s v => stepOver (wake s tid v) tid v 1) b := by
    unfold resumeAll
    simp only [ht, List.foldl_map, hb]
  have hg : ∀ s v, Safety.OnlyWeft s (stepOver (wake s tid v) tid v 1) tid v :=
    fun s v => (wake_only s tid v).trans (stepOver_only _ tid v 1)
  obtain ⟨i1, -, i3⟩ := foldWefts (tid := tid) (fun s v => stepOver (wake s tid v) tid v 1) hg (l.map (·.wid)) hn b
  obtain ⟨s1, k1, k2, k3⟩ := i3 wid hl
  have h1 : Safety.weftIn s1 tid wid = some w := by
    rw [k2, ← hb]
    exact weftIn_acquireIds _ _ (weftIn_of ht hw)
  obtain ⟨o2, w2, h2, c2, n2, p2, r2, on2⟩ := wake_spec h1
  obtain ⟨t2, ht2, hw2⟩ := weftIn_some h2
  obtain ⟨w3, h3, c3, p3, r3, n3⟩ := stepOver_spec 1 ht2 hw2
  obtain ⟨t0, ht0, hs, e0⟩ := acquireIds_team (t := t) (l.flatMap (·.keys)) (t.done (l.flatMap (·.keys))) ht
  have hm : b.loom = s.loom := by rw [← hb]; exact acquireIds_loom _ _ _ _
  rw [hb] at ht0
  have all := k1.trans (SameTeam.of_only o2)
  obtain ⟨t', ht', b1, b2, -⟩ := all.team t0 ht0
  rw [ht2] at ht'
  cases ht'
  rw [e0] at b1 b2
  refine ⟨e ▸ i1, w3, ?_, c2.trans c3, n3.trans n2, ?_, r3.trans r2⟩
  · rw [e, k3]; exact h3
  · rw [p3]; exact followPos_congr 1 (all.outside.loom.trans hm) b1 b2 p2 on2

end Sys2Proof.Machine
end

