-- ==== Sys2Proof/Laws/Words.lean ====
section
/-! SUPPORT. Every vector word runs through the one frame that checks it, waits for its queue entry and registers, and then gives its own
effect. -/

namespace Sys2Proof

open Sys2Proof.Machine

namespace Laws

/-- A vector word's meaning is the frame of a word around an effect of its own; ATOMG has beside it the commit of its task. -/
theorem exec_runWord {i : Instr} {u : Uses} (s : State) (h : Safety.usesOf i = some u) (ha : ∀ o, i ≠ .atomg o) :
    ∃ body, exec i s = runWord i s u body := by
  cases i
  case atomg o => exact absurd rfl (ha o)
  all_goals first
    | (obtain ⟨⟩ := h; exact ⟨_, rfl⟩)
    | exact nomatch h

end Laws

end Sys2Proof
end

