-- ==== Sys2Proof/Tests/Slice0.lean ====
section
/-! SUPPORT. Tests of our own: ill-formed terms, words written out from the encoding tables, single steps with results from the
specification, and for every statement with hypotheses a state and operands that meet them. -/

namespace Sys2Proof.Tests

open Sys2Proof Sys2Proof.Machine

-- One theorem after another: each evaluates in the kernel, and many at once want more threads than a check of the package has.
set_option Elab.async false

/-! ### Ill-formed terms, one for each check of Machine/Legal.lean -/

/-- A word of format V3 on v registers. -/
def v3 : V3 := { vd := 1, sx := 2, sy := 3, lx := false, ly := false, hx := false, hy := false, ext := none }

/-- A modifier word that asks for nothing. -/
def mods : Mods := { sz := 0, lz := false, hz := false, xm := 0, xk := 0, rm := 0, sat := false, nx := false, ny := false }

/-- One source. -/
def vu : VU := { vd := 1, sx := 2, lx := false, hx := false, ext := none }

/-- A packed word. -/
def pk : VPack := { vd := 1, sx := 2, fmt := 3, grp := 0, lx := false, hx := false, ext := none }

/-- A scan. -/
def sc : VScan := { vd := 1, sx := 2, ex := false, opc := 0, lx := false, hx := false, ext := none }

/-- A memory extension word. -/
def mx : MExt := { sz := 0x68, lz := false, hz := false, ord := 0, scp := 0, aop := 0 }

/-- A memory word. -/
def vm : VM := { vd := 1, sx := 2, ofs := 0, lx := false, nt := false, ext := none }

/-- 06 R106, R113: unassigned source codes, last-read and hold together, last-read of a register that is no v register. -/
theorem test_wf_operands :
    (Instr.iadd { v3 with sx := 0x69 }).wf = false ∧ (Instr.iadd { v3 with sy := 0x6F }).wf = false ∧
    (Instr.iadd { v3 with lx := true, hx := true }).wf = false ∧ (Instr.iadd { v3 with sx := 0x40, lx := true }).wf = false ∧
    (Instr.kwr 0 0x69 false).wf = false ∧ (Instr.iaddi { vd := 0, sx := 0x41, lx := false, hx := true, imm := 0 }).wf = false ∧
    (Instr.cmpeq { md := 1, sx := 0x6A, sy := 0, lx := false, ly := false, hx := false, hy := false, ext := none }).wf = false := by
  decide

/-- 08 R134: letters that a member does not accept; 08 R136 lists X, N and S for IADD and no R. -/
theorem test_wf_modifiers :
    (Instr.iadd { v3 with ext := some { mods with rm := 1 } }).wf = false ∧
    (Instr.iadd { v3 with ext := some { mods with sz := 1 } }).wf = false ∧
    (Instr.iadd { v3 with ext := some { mods with xm := 6 } }).wf = false ∧
    (Instr.iadd { v3 with sx := 0x40, ext := some { mods with xm := 1 } }).wf = false ∧
    (Instr.and { v3 with ext := some { mods with nx := true } }).wf = false ∧
    (Instr.and { v3 with ext := some { mods with ny := true } }).wf = false ∧
    (Instr.fadd { v3 with ext := some { mods with sat := true } }).wf = false ∧
    (Instr.shfl { v3 with ext := some mods }).wf = true ∧ (Instr.shfl { v3 with ext := some { mods with xm := 1 } }).wf = false ∧
    (Instr.sel { v3 with ext := some { mods with sz := 8 } }).wf = false ∧
    (Instr.mov { vu with ext := some { mods with xk := 1, nx := true } }).wf = false := by
  decide

/-- 08 R152, R153: groups beyond 32 bits, sources beyond v63, AQ without a scale, reserved formats. -/
theorem test_wf_packed :
    (Instr.nrw4 { pk with fmt := 1 }).wf = false ∧ (Instr.nrw2 { pk with sx := 63 }).wf = false ∧
    (Instr.wdn4 { pk with vd := 61 }).wf = false ∧ (Instr.nrw2 { pk with fmt := 14 }).wf = false ∧
    (Instr.wdn2 { pk with fmt := 12, ext := some { mods with sz := 0x68 } }).wf = false ∧ (Instr.nrw4 { pk with grp := 1 }).wf = false := by
  decide

/-- 09 R159 to R162: BCAST from a v register, EX on a reduction, operation codes of float scans, rounding of a scan that is not SUM. -/
theorem test_wf_lanes :
    (Instr.bcast { vd := 1, sx := 2, sy := 3, lx := false, hx := false, ext := none }).wf = false ∧
    (Instr.red { sc with ex := true }).wf = false ∧ (Instr.fred { sc with opc := 3 }).wf = false ∧
    (Instr.fscan { sc with opc := 1, ext := some { mods with rm := 1 } }).wf = false ∧ (Instr.scan { sc with ext := some { mods with sat := true } }).wf = false ∧
    (Instr.ballot { vd := 1, sx := 0x6B, half := false, lx := false, hx := false, ext := none }).wf = false ∧
    (Instr.mand { md := 1, mx := 0, my := 0, ext := some { mods with rm := 1 } }).wf = false := by
  decide

/-- 10 R169 to R186: pairs at the end of the register file, orders and scopes that a word has not, atomics without their operation. -/
theorem test_wf_memory :
    (Instr.ldg32 { vm with sx := 0x3F }).wf = false ∧ (Instr.ldg64 { vm with vd := 63 }).wf = false ∧
    (Instr.ldg32 { vm with ext := some { mx with ord := 2, scp := 1 } }).wf = false ∧
    (Instr.stg32 { vm with ext := some { mx with ord := 1, scp := 1 } }).wf = false ∧
    (Instr.ldg32 { vm with ext := some { mx with scp := 1 } }).wf = false ∧
    (Instr.ldg32 { vm with ext := some { mx with ord := 1, scp := 6 } }).wf = false ∧
    (Instr.ldg32 { vm with ext := some { mx with aop := 1 } }).wf = false ∧ (Instr.lds32 { vm with nt := true }).wf = false ∧
    (Instr.ldg32 { vm with sx := 0x40, lx := true }).wf = false ∧ (Instr.atomg vm).wf = false ∧
    (Instr.atomg { vm with ext := some { mx with aop := 11 } }).wf = false ∧
    (Instr.atomg { vm with vd := 63, ext := some { mx with aop := 1 } }).wf = false ∧
    (Instr.sfull { sx := 2, ofs := 0, lx := false, ext := some { mx with ord := 1 } }).wf = false ∧
    (Instr.stag { vd := 1, sx := 0x3F, lx := false, ext := none }).wf = false ∧
    (Instr.stag { vd := 1, sx := 2, lx := false, ext := some mx }).wf = false ∧
    (Instr.stinv { vd := 1, sx := 2, lx := false, ext := none }).wf = false ∧ (Instr.stset vm).wf = false ∧
    (Instr.stset { vm with ofs := 1, ext := some mx }).wf = false ∧ (Instr.fence { ord := 0, scp := 0 }).wf = false ∧
    (Instr.fence { ord := 1, scp := 6 }).wf = false ∧ (Instr.waitp { path := 0, sx := 2 }).wf = false := by
  decide

/-- 11 R190 to R200, 21 R319: displacements, operands that must be uniform, codes of timelines and scopes. -/
theorem test_wf_control :
    (Instr.bru { sx := 2, inv := false, lx := false, disp := 2 }).wf = false ∧
    (Instr.brk { sx := 2, inv := false, lx := false, disp := 4 }).wf = false ∧
    (Instr.brk { sx := 0x40, inv := false, lx := true, disp := 4 }).wf = false ∧ (Instr.call 1 2).wf = false ∧
    (Instr.ret 0x70 false).wf = false ∧ (Instr.ret 0x40 true).wf = false ∧ (Instr.nbar 2 0).wf = false ∧
    (Instr.twait 6 2 0 false).wf = false ∧ (Instr.twait 0 2 17 false).wf = false ∧ (Instr.twait 0 0x3F 0 false).wf = false ∧
    (Instr.twait 0 0x40 0 true).wf = false ∧ (Instr.veer 1 2).wf = false ∧ (Instr.pacq 62).wf = false ∧ (Instr.pget 63).wf = false := by
  decide

/-- 15 R211, R231 to R234; 17 R259, R275. -/
theorem test_wf_hart :
    (Instr.tlrd 1 false 18).wf = false ∧ (Instr.tlwait 1 2 6 0).wf = false ∧ (Instr.xfence 0 0).wf = false ∧
    (Instr.xfence 1 6).wf = false ∧ (Instr.hartStore .bu 1 2 0).wf = false ∧ (Instr.rv64Instruction (.jal 1 1)).wf = false ∧
    (Instr.rv64Instruction (.branch .eq 1 2 3)).wf = false ∧ (Instr.rv64Instruction (.aluImm .sub 1 2 0)).wf = false ∧
    (Instr.rv64Instruction (.aluImm .sll 1 2 64)).wf = false ∧ (Instr.rv64Instruction (.aluImmW .sra 1 2 32)).wf = false ∧
    (Instr.rv64Instruction (.aluImmW .xor 1 2 0)).wf = false ∧ (Instr.rv64Instruction (.aluW .and 1 2 3)).wf = false ∧
    (Instr.mldw 1 3 2).wf = false ∧ (Instr.mmulMap 1 0 2).wf = false ∧ (Instr.mdrain 1 5 2).wf = false ∧
    (Instr.mchain 1 2 0 0).wf = false ∧ (Instr.mchain 1 2 1 2).wf = false := by
  decide

/-- 23 R331, R336: a frame whose code is not its command's; a known code as an unknown one. -/
theorem test_wf_frames :
    (Instr.map 0x11).wf = false ∧ (Instr.frameUnknownOpc 0x10).wf = false ∧ (Instr.map 0x10).wf = true ∧
    (Instr.frameUnknownOpc 0x15).wf = true := by
  decide +kernel

/-! ### Words of the specification -/

/-- 06 R100, R105, R109; 08 R137, R142: a header, IADD, FADD, MOVI, IADDI, CMPLT. -/
theorem test_decode_arithmetic :
    decodeHeader 0x09080483 = { resv := 0, yld := true, fb := 2, fa := 1, wm := 9, cls := 0, cnt := 3 } ∧
    decodeVector 0x003040B8 0 =
      .ok (.iadd { vd := 6, sx := 4, sy := 5, lx := true, ly := true, hx := false, hy := false, ext := none }) ∧
    decodeVector 0x42386871 0x00205000 =
      .ok (.fadd { v3 with vd := 7, sx := 6, sy := 0x43, lx := true, ext := some { mods with xm := 2, xk := 1, rm := 1 } }) ∧
    decodeVector 0x5A180001 0x0F0F0F0F = .ok (.movi { vd := 3, imm := 0x0F0F0F0F }) ∧
    decodeVector 0x5C183001 0xFFFFFFFF = .ok (.iaddi { vd := 3, sx := 3, lx := false, hx := false, imm := 0xFFFFFFFF }) ∧
    decodeVector 0x32082820 0 =
      .ok (.cmplt { md := 1, sx := 2, sy := 0x41, lx := false, ly := false, hx := false, hy := false, ext := none }) := by
  and_intros <;> rfl

/-- 08 R152; 09 R158, R159, R161, R163, R165; 12: NRW4, PERM, MAND, SHFLDN, BCAST, BALLOT, RED, REGROUP. -/
theorem test_decode_lanes :
    decodeVector 0x6A400301 0x84000000 =
      .ok (.nrw4 { vd := 8, sx := 0, fmt := 3, grp := 0, lx := false, hx := false, ext := some { mods with sz := 0x42 } }) ∧
    decodeVector 0x2A1812C1 0x02104000 =
      .ok (.perm { v3 with vd := 3, sx := 1, sy := 22, ext := some { mods with sz := 1, xm := 1, xk := 1 } }) ∧
    decodeVector 0xD8180001 0x400 = .ok (.mand { md := 3, mx := 0, my := 0, ext := some { mods with nx := true } }) ∧
    decodeVector 0xD8100021 0x200 = .ok (.mand { md := 2, mx := 0, my := 1, ext := some { mods with ny := true } }) ∧
    decodeVector 0xC4182E20 0 =
      .ok (.shfldn { vd := 3, sx := 2, sy := 0x71, lx := false, ly := false, hx := false, hy := false, ext := none }) ∧
    decodeVector 0xC8182920 0 = .ok (.bcast { vd := 3, sx := 2, sy := 0x49, lx := false, hx := false, ext := none }) ∧
    decodeVector 0xCE508E00 0 = .ok (.ballot { vd := 10, sx := 8, half := false, lx := false, hx := false, ext := none }) ∧
    decodeVector 0xD468D060 0 = .ok (.red { vd := 13, sx := 13, ex := false, opc := 3, lx := false, hx := false, ext := none }) ∧
    decodeVector 0xDC180000 0 = .ok (.regroup 3) := by
  and_intros <;> rfl

/-- 06 R105; 10 R174, R178, R182 to R186: LDG32, STG32, LDGS, STS32, LDS.C, STAG, ATOMG, ATOMS, FENCE, WAITP. -/
theorem test_decode_memory :
    decodeVector 0x88202008 0 = .ok (.ldg32 { vd := 4, sx := 2, ofs := 1, lx := false, nt := false, ext := none }) ∧
    decodeVector 0x90340001 0xD0500000 =
      .ok (.stg32 { vd := 6, sx := 0x40, ofs := 0, lx := false, nt := false, ext := some { mx with ord := 2, scp := 4 } }) ∧
    decodeVector 0x94440013 0x06000000 =
      .ok (.ldgs { vd := 8, sx := 0x40, ofs := 2, lx := false, nt := true, ext := some { mx with sz := 3 } }) ∧
    decodeVector 0xAC309002 0 = .ok (.sts32 { vd := 6, sx := 9, ofs := 0, lx := false, nt := true, ext := none }) ∧
    decodeVector 0xB0389018 0 = .ok (.ldsC { vd := 7, sx := 9, ofs := 3, lx := false, nt := false, ext := none }) ∧
    decodeVector 0xB8184000 0 = .ok (.stag { vd := 3, sx := 4, lx := false, ext := none }) ∧
    decodeVector 0x96242001 0xD0708000 =
      .ok (.atomg { vd := 4, sx := 0x42, ofs := 0, lx := false, nt := false, ext := some { mx with ord := 3, scp := 4, aop := 2 } }) ∧
    decodeVector 0xBE2E8003 0xD0008000 =
      .ok (.atoms { vd := 5, sx := 0x68, ofs := 0, lx := false, nt := true, ext := some { mx with aop := 2 } }) ∧
    decodeVector 0x98000001 0x00440000 = .ok (.fence { ord := 2, scp := 1 }) ∧
    decodeVector 0x9A0C3000 0 = .ok (.waitp { path := 1, sx := 0x43 }) := by
  and_intros <;> rfl

/-- 11 R190 to R204. -/
theorem test_decode_control :
    decodeVector 0xE0003001 0xFFFFFFF4 = .ok (.bru { sx := 3, inv := false, lx := false, disp := 0xFFFFFFF4 }) ∧
    decodeVector 0xE2042009 8 = .ok (.brk { sx := 0x42, inv := true, lx := false, disp := 8 }) ∧
    decodeVector 0xE5400001 8 = .ok (.call 40 8) ∧ decodeVector 0xE6028004 0 = .ok (.ret 40 true) ∧
    decodeVector 0xE8000000 0 = .ok .exit ∧ decodeVector 0xEC046010 0 = .ok (.nbar 0x46 2) ∧
    decodeVector 0xEE000000 0 = .ok .kown ∧ decodeVector 0xF0000000 0 = .ok .kfree ∧ decodeVector 0xF2282000 0 = .ok (.kwr 5 2 false) ∧
    decodeVector 0xF40C4018 0 = .ok (.twait 1 0x44 3 false) ∧ decodeVector 0xF80F2000 0 = .ok (.veer 1 0x72) ∧
    decodeVector 0xF8080100 0 = .ok (.veerMay 1) ∧ decodeVector 0xFA000028 0 = .ok (.trap 5) ∧
    decodeVector 0xFA000208 0 = .ok (.tret true) := by
  and_intros <;> rfl

/-- 15 R229, R232 to R235; 19 R301. -/
theorem test_decode_hart :
    decodeHart 0x0005100B = .ok (.uqpush 10) ∧ decodeHart 0x0205128B = .ok (.uqtry 5 10) ∧
    decodeHart 0x0500228B = .ok (.tlrd 5 true 16) ∧ decodeHart 0x0435360B = .ok (.tlwait 12 10 1 3) ∧
    decodeHart 0x0120400B = .ok (.xfence 2 4) ∧ decodeHart 0x000502DB = .ok (.tenq 5 10) ∧ decodeHart 0x0005935B = .ok (.tsig 6 11) ∧
    decodeHart 0x000623DB = .ok (.tcard 7 12) ∧ decodeHart 0x00000073 = .ok .ecall ∧ decodeHart 0x30200073 = .ok (.rv64Instruction .mret) ∧ decodeHart 0x0000100F = .ok .fenceI := by
  and_intros <;> rfl

/-- RV64 words from their formats (15 R211): addi x1, x2, -1; add x3, x1, x2; ld x5, 8(x6); sd x5, 8(x6); beq x1, x2, 8; amoadd.w. -/
theorem test_decode_rv64 :
    decodeHart 0xFFF10093 = .ok (.rv64Instruction (.aluImm .add 1 2 0xFFF)) ∧
    decodeHart 0x002081B3 = .ok (.rv64Instruction (.alu .add 3 1 2)) ∧ decodeHart 0x00833283 = .ok (.hartLoad .d 5 6 8) ∧
    decodeHart 0x00533423 = .ok (.hartStore .d 6 5 8) ∧ decodeHart 0x00208463 = .ok (.rv64Instruction (.branch .eq 1 2 8)) ∧
    decodeHart 0x0062A0AF = .ok (.hartAmo .add false false false 1 5 6) := by
  and_intros <;> rfl

/-- 17 R266 to R275, R279. -/
theorem test_decode_matrix :
    decodeHart 0x00E51A2B = .ok (.mldw 20 10 14) ∧ decodeHart 0x00F40AAB = .ok (.mmulMap 21 8 15) ∧
    decodeHart 0x01062B2B = .ok (.mdrain 22 12 16) ∧ decodeHart 0x02F08AAB = .ok (.mmulFeed 21 1 15) ∧
    decodeHart 0x04F00AAB = .ok (.mmulWest 21 15) ∧ decodeHart 0x0002B02B = .ok (.mzero 0 5) ∧ decodeHart 0x0200332B = .ok (.mstat 6) ∧
    decodeHart 0x0030402B = .ok (.mbegin 0 3) ∧ decodeHart 0x0000502B = .ok (.mend 0) ∧ decodeHart 0x0043E02B = .ok (.mchain 0 7 1 0) := by
  and_intros <;> rfl

/-- 23 R331, R336: a frame's code is its first two bytes. -/
theorem test_decode_frames : decodeFrame 0x10 = .map 0x10 ∧ decodeFrame 0xB1 = .attest 0xB1 ∧ decodeFrame 0x15 = .frameUnknownOpc 0x15 := by
  decide +kernel

/-- The encoder gives the specification's words back. -/
theorem test_encode :
    encode (.iadd { vd := 6, sx := 4, sy := 5, lx := true, ly := true, hx := false, hy := false, ext := none }) = [0x003040B8] ∧
    encode (.stg32 { vd := 6, sx := 0x40, ofs := 0, lx := false, nt := false, ext := some { mx with ord := 2, scp := 4 } }) =
      [0x90340001, 0xD0500000] ∧
    encode (.mchain 0 7 1 0) = [0x0043E02B] ∧ encode (.rv64Instruction (.branch .eq 1 2 8)) = [0x00208463] ∧
    encode (.twait 1 0x44 3 false) = [0xF40C4018] := by
  and_intros <;> rfl

/-- A table row's bits as the opcode table numbers them: the extension word in bits 63 to 32. -/
theorem test_table_word :
    decodeTableWord 64 0x0F0F0F0F5A180001 = some (.movi { vd := 3, imm := 0x0F0F0F0F }) ∧
    decodeTableWord 32 0x0205128B = some (.uqtry 5 10) := by
  and_intros <;> rfl

/-! ### A weft on a small state -/

/-- A strand at a lane, with registers v2 and v3. -/
def strand (lane : Nat) (em : Bool) (a b : W32) : Strand :=
  { sid := lane, lane := lane, em := em, m := 0, regs := [(2, { val := a, poison := false }), (3, { val := b, poison := false })] }

/-- A strand whose v2 is poisoned. -/
def sick (lane : Nat) : Strand := { sid := lane, lane := lane, em := true, m := 0, regs := [(2, { val := 0, poison := true })] }

/-- A weft with these strands, which holds v1 to v3. -/
def weft (l : List Strand) : Weft := { sampleWeft with strands := l, alloc := 14 }

/-- Two active strands: v2 is 1 and 0, v3 is 7 and 9. -/
def both : Weft := weft [strand 0 true 1 7, strand 1 true 0 9]

/-- Two strands that agree, the second inactive. -/
def half : Weft := weft [strand 0 true 1 7, strand 1 false 1 9]

/-- A team of one weft. -/
def team (w : Weft) : Team := { sampleTeam false with wefts := [w], nstr := 2 }

/-- A state in which weft 0 of a team executes a word of a text whose first clause has a header and one word. -/
def at' (t : Team) : State := { placeTeam State.reset false [0x0007F801, 0, 0, 0] [] with teams := [t], cur := .weft 0 0 }

/-- What the word reads. -/
def ctx (t : Team) (w : Weft) : VCtx :=
  { s := at' t, t := t, w := w, wd := teamWidth (at' t) t, k := t.uni.k, qh := spGet 0 t.uni.uq (w.rpos.toNat % 64) }

/-- A word that its checks pass issues there. -/
theorem ready (i : Instr) (u : Uses) (t : Team) (w : Weft) (hi : issues i (at' t) t w u = true := by decide)
    (ht : getTeam (at' t) 0 = some t := by rfl) (hw : t.weft? 0 = some w := by rfl) (hp : w.polls = false := by rfl)
    (hk : t.uni.kpend = [] := by rfl) : Safety.Issues i (at' t) u 0 0 (ctx t w) :=
  ⟨rfl, t, w, ht, hw, hp, hi, prologue_quiet u ht hw rfl hk⟩

/-! ### Vector words -/

theorem test_meets_IntegerWordsComplete : (.iadd v3, false, fun m x y _ => if m.sat then Spec.sat m (x.toInt + y.toInt) else x + y) ∈
    Spec.integer v3 ∧ Safety.Issues (.iadd v3) (at' (team half)) (usesV3 v3 false [1]) 0 0 (ctx (team half) half) :=
  ⟨.head _, ready _ _ _ _⟩

theorem test_meets_FieldWordsComplete :
    (Safety.Issues (.bfx v3) (at' (team half)) (usesV3 v3 false [1]) 0 0 (ctx (team half) half) ∧
      Safety.Issues (.bfxs v3) (at' (team half)) (usesV3 v3 false [1]) 0 0 (ctx (team half) half)) ∧
    (Safety.Issues (.bfi v3) (at' (team half)) (usesV3 v3 true [1]) 0 0 (ctx (team half) half) ∧
      Safety.Issues (.perm v3) (at' (team half)) (usesV3 v3 true [1]) 0 0 (ctx (team half) half)) ∧
    Safety.Issues (.sel v3) (at' (team half)) (usesV3 v3 false [1]) 0 0 (ctx (team half) half) :=
  ⟨⟨ready _ _ _ _, ready _ _ _ _⟩, ⟨ready _ _ _ _, ready _ _ _ _⟩, ready _ _ _ _⟩

theorem test_meets_ImmediateWordsComplete :
    Safety.Issues (.movi { vd := 1, imm := 5 }) (at' (team half)) (usesMovi { vd := 1, imm := 5 }) 0 0 (ctx (team half) half) ∧
    Safety.Issues (.iaddi { vd := 1, sx := 2, lx := false, hx := false, imm := 0xFFFFFFFF }) (at' (team half))
      (usesIaddi { vd := 1, sx := 2, lx := false, hx := false, imm := 0xFFFFFFFF }) 0 0 (ctx (team half) half) :=
  ⟨ready _ _ _ _, ready _ _ _ _⟩

theorem test_meets_FloatingWordsComplete : (∃ op, (.fadd v3, .f, false, op) ∈ Spec.floating v3) ∧
    Safety.Issues (.fadd v3) (at' (team half)) (usesV3 v3 false [1]) 0 0 (ctx (team half) half) :=
  ⟨⟨_, .head _⟩, ready _ _ _ _⟩

theorem test_meets_UnaryWordsComplete : (∃ op, (.mov vu, .i, op) ∈ Spec.unary vu) ∧
    Safety.Issues (.mov vu) (at' (team half)) (usesVU vu [1]) 0 0 (ctx (team half) half) :=
  ⟨⟨_, .head _⟩, ready _ _ _ _⟩

theorem test_meets_PackedWordsComplete :
    Safety.Issues (.nrw2 pk) (at' (team half)) (usesNrw pk 2) 0 0 (ctx (team half) half) ∧
    Safety.Issues (.wdn2 pk) (at' (team half)) (usesWdn pk 2) 0 0 (ctx (team half) half) :=
  ⟨ready _ _ _ _, ready _ _ _ _⟩

/-- A comparison of v2 and v3. -/
def cmp : VCmp := { md := 1, sx := 2, sy := 3, lx := false, ly := false, hx := false, hy := false, ext := none }

theorem test_meets_ComparisonsComplete :
    (∃ op, (.cmpeq cmp, .i, op) ∈ Spec.compare cmp) ∧
    (Safety.Issues (.cmpeq cmp) (at' (team both)) (usesCmp cmp) 0 0 (ctx (team both) both) ∧
      ((ctx (team both) both).lanes fun x => ((ctx (team both) both).srcX Mods.none .i 2 x).poison) = 0) ∧
    Safety.Issues (.cmpeq cmp) (at' (team (weft [sick 0]))) (usesCmp cmp) 0 0 (ctx (team (weft [sick 0])) (weft [sick 0])) ∧
    ((ctx (team (weft [sick 0])) (weft [sick 0])).lanes fun x =>
      ((ctx (team (weft [sick 0])) (weft [sick 0])).srcX Mods.none .i 2 x).poison) ≠ 0 :=
  ⟨⟨_, .head _⟩, ⟨ready _ _ _ _, by decide⟩, ready _ _ _ _, by decide⟩

theorem test_meets_ShuffleAndVoteWordsComplete :
    (∃ f, (.shfl v3, f) ∈ Spec.shuffles v3) ∧ Safety.Issues (.shfl v3) (at' (team both)) (usesV3 v3 false [1]) 0 0 (ctx (team both) both) ∧
    Safety.Issues (.bcast { vd := 1, sx := 2, sy := 0x41, lx := false, hx := false, ext := none }) (at' (team both))
      (usesBcast { vd := 1, sx := 2, sy := 0x41, lx := false, hx := false, ext := none }) 0 0 (ctx (team both) both) ∧
    Safety.Issues (.vany vu) (at' (team both)) (usesVU vu [1]) 0 0 (ctx (team both) both) ∧
    Safety.Issues (.vall vu) (at' (team both)) (usesVU vu [1]) 0 0 (ctx (team both) both) ∧
    Safety.Issues (.ballot { vd := 1, sx := 2, half := true, lx := false, hx := false, ext := none }) (at' (team both))
      (usesBallot { vd := 1, sx := 2, half := true, lx := false, hx := false, ext := none }) 0 0 (ctx (team both) both) :=
  ⟨⟨_, .head _⟩, ready _ _ _ _, ready _ _ _ _, ready _ _ _ _, ready _ _ _ _, ready _ _ _ _⟩

theorem test_meets_ScanWordsComplete :
    Safety.Issues (.scan sc) (at' (team both)) (usesScan sc) 0 0 (ctx (team both) both) ∧
    Safety.Issues (.fscan sc) (at' (team both)) (usesScan sc) 0 0 (ctx (team both) both) ∧
    Safety.Issues (.red sc) (at' (team both)) (usesScan sc) 0 0 (ctx (team both) both) ∧
    Safety.Issues (.fred sc) (at' (team both)) (usesScan sc) 0 0 (ctx (team both) both) :=
  ⟨ready _ _ _ _, ready _ _ _ _, ready _ _ _ _, ready _ _ _ _⟩

theorem test_meets_MaskWordsComplete :
    Safety.Issues (.mor { md := 0, mx := 1, my := 1, ext := none }) (at' (team half)) (usesNone 1) 0 0 (ctx (team half) half) :=
  ready _ _ _ _

/-! ### Control words -/

/-- A branch on v2 by a displacement. -/
def br (disp : W32) : VBranch := { sx := 2, inv := false, lx := false, disp := disp }

/-- A branch on an inline 1 or 0. -/
def brk (c : BitVec 7) (disp : W32) : VBranch := { sx := c, inv := false, lx := false, disp := disp }

/-- Strands whose v2 is 0. -/
def none' : Weft := weft [strand 0 true 0 7, strand 1 true 0 9]

/-- The lanes of active strands whose v2 is not 0. -/
def yes (w : Weft) : Nat := (ctx (team w) w).lanes fun x => decide (((ctx (team w) w).rd .i 2 x).val ≠ 0) != false

/-- The lanes of active strands whose v2 is poisoned. -/
def bad (w : Weft) : Nat := (ctx (team w) w).lanes fun x => ((ctx (team w) w).rd .i 2 x).poison

/-- The branch to offset 0, which has a header, and to offset 4, which has none. -/
theorem test_meets_ConditionalBranches :
    (Safety.Issues (.bru (br 0)) (at' (team (weft [sick 0]))) (usesCtl [2] (markReg 2 false) [] 2) 0 0
        (ctx (team (weft [sick 0])) (weft [sick 0])) ∧ bad (weft [sick 0]) ≠ 0) ∧
    (Safety.Issues (.bru (br 0)) (at' (team both)) (usesCtl [2] (markReg 2 false) [] 2) 0 0 (ctx (team both) both) ∧
      bad both = 0 ∧ yes both ≠ 0 ∧ yes both ≠ both.emBits) ∧
    (Safety.Issues (.bru (br 0)) (at' (team none')) (usesCtl [2] (markReg 2 false) [] 2) 0 0 (ctx (team none') none') ∧
      bad none' = 0 ∧ yes none' = 0) ∧
    (Safety.Issues (.bru (br 0)) (at' (team half)) (usesCtl [2] (markReg 2 false) [] 2) 0 0 (ctx (team half) half) ∧
      Safety.Issues (.bru (br 4)) (at' (team half)) (usesCtl [2] (markReg 2 false) [] 2) 0 0 (ctx (team half) half) ∧
      bad half = 0 ∧ yes half ≠ 0 ∧ yes half = half.emBits) ∧
    (∃ b, getObj (at' (team half)) 1 = some b ∧ 0 ∈ b.headers ∧ 4 ∉ b.headers) ∧
    Safety.Issues (.brk (brk 0x70 0)) (at' (team half)) (usesCtl [0x70] [] [] 2) 0 0 (ctx (team half) half) ∧
    Safety.Issues (.brk (brk 0x71 0)) (at' (team half)) (usesCtl [0x71] [] [] 2) 0 0 (ctx (team half) half) ∧
    Safety.Issues (.brk (brk 0x71 4)) (at' (team half)) (usesCtl [0x71] [] [] 2) 0 0 (ctx (team half) half) ∧
    ((ctx (team half) half).rd .i 0x70 noStrand).val = 0 ∧ ((ctx (team half) half).rd .i 0x71 noStrand).val = 1 :=
  ⟨⟨ready _ _ _ _, by decide⟩, ⟨ready _ _ _ _, by decide⟩, ⟨ready _ _ _ _, by decide⟩, ⟨ready _ _ _ _, ready _ _ _ _, by decide⟩,
    ⟨_, rfl, by decide⟩, ready _ _ _ _, ready _ _ _ _, ready _ _ _ _, by decide⟩

theorem test_meets_CallAndReturn :
    Safety.Issues (.call 1 0) (at' (team half)) (usesCtl [] [] [1] 2) 0 0 (ctx (team half) half) ∧
    Safety.Issues (.call 1 4) (at' (team half)) (usesCtl [] [] [1] 2) 0 0 (ctx (team half) half) ∧
    (Safety.Issues (.ret 2 false) (at' (team none')) (usesCtl [2] (markReg 2 false) [] 1) 0 0 (ctx (team none') none') ∧
      ∀ x ∈ none'.strands, (ctx (team none') none').rd .i 2 x = { val := 0, poison := false }) ∧
    (Safety.Issues (.ret 2 false) (at' (team (weft [sick 0]))) (usesCtl [2] (markReg 2 false) [] 1) 0 0
      (ctx (team (weft [sick 0])) (weft [sick 0])) ∧ bad (weft [sick 0]) ≠ 0) ∧
    Safety.Issues (.ret 2 false) (at' (team both)) (usesCtl [2] (markReg 2 false) [] 1) 0 0 (ctx (team both) both) ∧
    (both.bits fun x => ((ctx (team both) both).rd .i 2 x).poison) = 0 ∧
    (both.bits fun y => decide (((ctx (team both) both).rd .i 2 y).val ≠ ((ctx (team both) both).rd .i 2 (strand 0 true 1 7)).val)) ≠ 0 :=
  ⟨ready _ _ _ _, ready _ _ _ _, ⟨ready _ _ _ _, by decide⟩, ⟨ready _ _ _ _, by decide⟩, ready _ _ _ _, by decide⟩

/-- A weft whose strands have exited. -/
def empty : Weft := weft []

theorem test_meets_ExitAndCease :
    (Safety.Issues .exit (at' (team half)) (usesCtl [] [] [] 1) 0 0 (ctx (team half) half) ∧
      holdsRecord (at' (team half)) (team half) [0] = false ∧ heldPoison (at' (team half)) (team half) [0] = false) ∧
    (getTeam (at' (team empty)) 0 = some (team empty) ∧ (team empty).weft? 0 = some empty ∧ weftOps (at' (team empty)) 0 0 = []) :=
  ⟨⟨ready _ _ _ _, by decide⟩, rfl, rfl, rfl⟩

/-- A team of two wefts of two strands each, the second waiting. -/
def pairTeam (w : Wait) : Team := { team half with wefts := [half, { half with wid := 1, wait := w }] }

/-- The wefts that wait at named barrier 2, or arrive at it. -/
def atNamed (t : Team) : List Weft :=
  t.wefts.filter fun w => !w.strands.isEmpty && (decide (w.wid = 0) || match w.wait with | .nbar i _ => decide (i = 2) | _ => false)

theorem test_meets_Barriers :
    (Safety.Issues .bar (at' (pairTeam .none)) (usesCtl [] [] [] 1) 0 0 (ctx (pairTeam .none) half) ∧
      ∃ w ∈ (pairTeam .none).wefts, w.strands ≠ [] ∧ w.wid ≠ 0 ∧ w.wait ≠ .bar) ∧
    (Safety.Issues .bar (at' (pairTeam .bar)) (usesCtl [] [] [] 1) 0 0 (ctx (pairTeam .bar) half) ∧ half.strands ≠ [] ∧
      ((pairTeam .bar).wefts.map (·.wid)).Nodup ∧
      ∀ w ∈ (pairTeam .bar).wefts, w.strands ≠ [] → (w.wid = 0 ∨ w.wait = .bar) ∧ ownUndone (at' (pairTeam .bar)) 0 w.wid = false) ∧
    (Safety.Issues (.nbar 0x70 2) (at' (team half)) (usesCtl [0x70] [] [] 1) 0 0 (ctx (team half) half) ∧
      Safety.Issues (.nbar 0x7F 2) (at' (team half)) (usesCtl [0x7F] [] [] 1) 0 0 (ctx (team half) half) ∧
      Safety.Issues (.nbar 0x72 2) (at' (team half)) (usesCtl [0x72] [] [] 1) 0 0 (ctx (team half) half) ∧
      Safety.Issues (.nbar 0x73 2) (at' (team half)) (usesCtl [0x73] [] [] 1) 0 0 (ctx (team half) half)) ∧
    (((ctx (team half) half).rd .i 0x70 noStrand).val = 0 ∧ ((ctx (team half) half).rd .i 0x7F noStrand).val.toNat > 2048 ∧
      ((ctx (team half) half).rd .i 0x73 noStrand).val = 3 ∧ spGet 0 (team half).nbars 2 = 0 ∧ ((team half).wefts.map (·.wid)).Nodup ∧
      ((atNamed (team half)).map (·.strands.length)).sum = 2) ∧
    Safety.Issues (.nbar 0x73 2) (at' { team half with nbars := [(2, 9)] }) (usesCtl [0x73] [] [] 1) 0 0
      (ctx { team half with nbars := [(2, 9)] } half) ∧
    (Safety.Issues (.nbar 0x73 2) (at' { pairTeam (.nbar 2 3) with nbars := [(2, 3)] }) (usesCtl [0x73] [] [] 1) 0 0
        (ctx { pairTeam (.nbar 2 3) with nbars := [(2, 3)] } half) ∧
      3 ≤ ((atNamed (pairTeam (.nbar 2 3))).map (·.strands.length)).sum ∧
      ∀ w ∈ atNamed (pairTeam (.nbar 2 3)), ownUndone (at' { pairTeam (.nbar 2 3) with nbars := [(2, 3)] }) 0 w.wid = false) :=
  ⟨⟨ready _ _ _ _, by decide⟩, ⟨ready _ _ _ _, by decide⟩,
    ⟨ready _ _ _ _, ready _ _ _ _, ready _ _ _ _, ready _ _ _ _⟩, by decide, ready _ _ _ _, ready _ _ _ _, by decide⟩

/-- A team whose k registers strand 0 owns, or strand 9, which is in another weft. -/
def owned (sid : Nat) : Team := { team half with uni := { (team half).uni with kowner := some sid } }

theorem test_meets_UniformOwnership :
    (Safety.Issues .kown (at' (owned 0)) (usesCtl [] [] [] 1) 0 0 (ctx (owned 0) half) ∧ ownsK (owned 0) half = true) ∧
    (Safety.Issues .kown (at' (team half)) (usesCtl [] [] [] 1) 0 0 (ctx (team half) half) ∧
      lowestSid (half.strands.filter (·.em)) = some 0 ∧ (team half).uni.kowner = none) ∧
    (Safety.Issues .kown (at' (owned 9)) (usesCtl [] [] [] 1) 0 0 (ctx (owned 9) half) ∧ ownsK (owned 9) half = false) ∧
    (Safety.Issues .kfree (at' (owned 9)) (usesCtl [] [] [] 1) 0 0 (ctx (owned 9) half) ∧
      Safety.Issues .kfree (at' (owned 0)) (usesCtl [] [] [] 1) 0 0 (ctx (owned 0) half) ∧ ownUndone (at' (owned 0)) 0 0 = false) ∧
    (Safety.Issues (.kwr 31 2 false) (at' { owned 0 with wefts := [weft [strand 0 false 1 7]] }) (usesCtl [2] (markReg 2 false) [] 1) 0 0
        (ctx { owned 0 with wefts := [weft [strand 0 false 1 7]] } (weft [strand 0 false 1 7])) ∧
      Safety.Issues (.kwr 31 2 false) (at' { owned 0 with wefts := [weft [sick 0]] }) (usesCtl [2] (markReg 2 false) [] 1) 0 0
        (ctx { owned 0 with wefts := [weft [sick 0]] } (weft [sick 0])) ∧
      ((ctx { owned 0 with wefts := [weft [sick 0]] } (weft [sick 0])).rd .i 2 (sick 0)).poison = true ∧
      ownsK { owned 0 with wefts := [weft [sick 0]] } (weft [sick 0]) = true) ∧
    (Safety.Issues (.kwr 31 2 false) (at' (owned 9)) (usesCtl [2] (markReg 2 false) [] 1) 0 0 (ctx (owned 9) half) ∧
      Safety.Issues (.kwr 31 2 false) (at' (owned 0)) (usesCtl [2] (markReg 2 false) [] 1) 0 0 (ctx (owned 0) half) ∧
      (∀ y ∈ half.strands, y.em = true → y = strand 0 true 1 7 ∨ 0 < y.lane) ∧
      ((ctx (owned 0) half).rd .i 2 (strand 0 true 1 7)).poison = false) :=
  ⟨⟨ready _ _ _ _, by decide⟩, ⟨ready _ _ _ _, by decide⟩, ⟨ready _ _ _ _, by decide⟩, ⟨ready _ _ _ _, ready _ _ _ _, by decide⟩,
    ⟨ready _ _ _ _, ready _ _ _ _, by decide⟩, ready _ _ _ _, ready _ _ _ _, by decide⟩

theorem test_meets_TimelineWaitsAndYield :
    (Safety.Issues (.twait 1 0x70 0 false) (at' (team half)) (usesCtl (wideCodes 0x70) [] [] 1) 0 0 (ctx (team half) half) ∧
      timelineOf (at' (team half)) (team half) 0 = some 0 ∧ (∀ x ∈ half.strands, ((ctx (team half) half).rd64 0x70 x) = (0, false))) ∧
    (Safety.Issues (.twait 1 0x71 0 false) (at' (team half)) (usesCtl (wideCodes 0x71) [] [] 1) 0 0 (ctx (team half) half) ∧
      (∃ x ∈ half.strands, x.em = true ∧ 0 < ((ctx (team half) half).rd64 0x71 x).1.toNat)) ∧
    (let t : Team := { team half with place := { (team half).place with ctx := none } }
     Safety.Issues (.twait 1 0x71 16 false) (at' t) (usesCtl (wideCodes 0x71) [] [] 1) 0 0 (ctx t half) ∧ timelineOf (at' t) t 16 = none) ∧
    (Safety.Issues (.twait 1 0x70 0 false) (at' (team (weft [strand 0 false 1 7]))) (usesCtl (wideCodes 0x70) [] [] 1) 0 0
      (ctx (team (weft [strand 0 false 1 7])) (weft [strand 0 false 1 7])) ∧
      (weft [strand 0 false 1 7]).strands.filter (·.em) = []) ∧
    (Safety.Issues (.twait 1 2 0 false) (at' (team (weft [sick 0]))) (usesCtl (wideCodes 2) [] [] 1) 0 0
      (ctx (team (weft [sick 0])) (weft [sick 0])) ∧
      ((ctx (team (weft [sick 0])) (weft [sick 0])).lanes fun x => ((ctx (team (weft [sick 0])) (weft [sick 0])).rd64 2 x).2) ≠ 0) ∧
    Safety.Issues .yield (at' (team half)) (usesCtl [] [] [] 1) 0 0 (ctx (team half) half) :=
  ⟨⟨ready _ _ _ _, by decide⟩, ⟨ready _ _ _ _, by decide⟩, ⟨ready _ _ _ _, by decide⟩, ⟨ready _ _ _ _, by decide⟩,
    ⟨ready _ _ _ _, by decide⟩, ready _ _ _ _⟩

/-! ### Rendezvous, traps, clauses, pipes -/

/-- A state in which weft 0 of a team executes a word, changed. -/
def atIn (f : State → State) (t : Team) : State := f (at' t)

/-- What the word reads there. -/
def ctxIn (f : State → State) (t : Team) (w : Weft) : VCtx :=
  { s := atIn f t, t := t, w := w, wd := teamWidth (atIn f t) t, k := t.uni.k, qh := spGet 0 t.uni.uq (w.rpos.toNat % 64) }

/-- A word that its checks pass issues there. -/
theorem readyIn (f : State → State) (i : Instr) (u : Uses) (t : Team) (w : Weft) (hi : issues i (atIn f t) t w u = true := by decide)
    (hc : (atIn f t).cur = .weft 0 0 := by rfl) (ht : getTeam (atIn f t) 0 = some t := by rfl) (hw : t.weft? 0 = some w := by rfl)
    (hp : w.polls = false := by rfl) (ho : weftOps (atIn f t) 0 0 = [] := by rfl) (hk : t.uni.kpend = [] := by rfl) :
    Safety.Issues i (atIn f t) u 0 0 (ctxIn f t w) :=
  ⟨hc, t, w, ht, hw, hp, hi, prologue_quiet u ht hw ho hk⟩

/-- With another object. -/
def withObj (g : Obj → Obj) (s : State) : State := { s with loom := { s.loom with objs := s.loom.objs.map g } }

/-- The object names clause 0 in its veer table and has a default handler at offset 0. -/
def full : State → State := withObj fun o => { o with veer := [0], traps := [(0xFFFF, 0)] }

/-- All strands active, in the places of SIDs 0 and 1. -/
def seated : Weft := weft [strand 0 true 1 7, strand 1 true 1 9]

/-- Two wefts of one strand each; the second waits. -/
def two (w : Wait) : Team :=
  { team seated with wefts := [seated, { seated with wid := 1, strands := [{ strand 0 true 1 7 with sid := 64 }], wait := w }], nstr := 66 }

/-- The second weft waits at its UNGROUP with another queue position. -/
def apart : Team := { two .none with wefts := [seated, { seated with wid := 1, wait := .regroup true 1 0 0, rpos := 3 }] }

theorem test_meets_RegroupKeepsStrands :
    (Safety.Issues (.regroup 1) (at' (team half)) { usesNone 1 with dests := [1] } 0 0 (ctx (team half) half) ∧ ∃ x ∈ half.strands, x.em = false) ∧
    (Safety.Issues (.ungroup 1) (at' (two .none)) { usesNone 1 with dests := [1] } 0 0 (ctx (two .none) seated) ∧ (∀ x ∈ seated.strands, x.em = true) ∧
      (∃ w ∈ (two .none).wefts, w.strands ≠ [] ∧ w.wid ≠ 0 ∧ sameRegroup w true 0 0 = false) ∧
      ∀ w ∈ (two .none).wefts, sameRegroup w true 0 0 = true → w.rpos = seated.rpos) ∧
    (Safety.Issues (.regroup 1) (at' (two (.regroup false 1 0 0))) { usesNone 1 with dests := [1] } 0 0 (ctx (two (.regroup false 1 0 0)) seated) ∧
      Safety.Issues (.ungroup 1) (at' (two (.regroup true 1 0 0))) { usesNone 1 with dests := [1] } 0 0 (ctx (two (.regroup true 1 0 0)) seated) ∧
      Spec.lastAtRegroup (ctx (two (.regroup true 1 0 0)) seated) true 0 ∧
      ∀ w ∈ (two (.regroup true 1 0 0)).wefts, ∀ x ∈ w.strands, canonical 64 x.sid = (w.wid, x.lane)) ∧
    (Safety.Issues (.ungroup 1) (at' apart) { usesNone 1 with dests := [1] } 0 0 (ctx apart seated) ∧
      ∃ w ∈ apart.wefts, w.strands ≠ [] ∧ sameRegroup w true 0 0 = true ∧ w.rpos ≠ seated.rpos) ∧
    (Spec.regroupStatus (ctx (two (.regroup true 1 0 0)) seated) true 1 = 1 ∧
      Spec.regroupStatus (ctx (two (.regroup false 1 0 0)) seated) false 1 = 0) ∧
    ∃ t', getTeam (relayout (at' (team half)) 0 (canonical 64)) 0 = some t' ∧ ∃ w ∈ t'.wefts, w.strands.length = 2 :=
  ⟨⟨ready _ _ _ _, by decide⟩, ⟨ready _ _ _ _, by decide⟩, ⟨ready _ _ _ _, ready _ _ _ _, by unfold Spec.lastAtRegroup; decide⟩,
    ⟨ready _ _ _ _, by decide⟩, by decide, ⟨_, rfl, by decide⟩⟩

/-- The team's weft waits at VEER of clause 0, for point 3. -/
def veering : Team := team { seated with wait := .veer 1 (some 3) 0 }

/-- A core of a cluster at a point, and where it moves. -/
def cored (c i : Nat) (pt : BitVec 2) (m : Option (BitVec 2)) : State :=
  { State.reset with clusters := [(c, { Cluster.reset with cores := [(i, { pt := pt, moving := m, last := [] })] })] }

theorem test_meets_VeerMovesCores :
    (Safety.Issues (.veer 1 0x72) (at' (team seated)) (usesCtl [0x72] [] [1] 1) 0 0 (ctx (team seated) seated) ∧
      ∃ o, getObj (at' (team seated)) 1 = some o ∧ 0 ∉ o.veer) ∧
    (Safety.Issues (.veer 1 0x72) (atIn full (team seated)) (usesCtl [0x72] [] [1] 1) 0 0 (ctxIn full (team seated) seated) ∧
      Safety.Issues (.veerMay 1) (atIn full (team seated)) (usesCtl [] [] [1] 1) 0 0 (ctxIn full (team seated) seated) ∧
      (∃ o, getObj (atIn full (team seated)) 1 = some o ∧ 0 ∈ o.veer) ∧ (∀ x ∈ seated.strands, x.em = true) ∧
      ((ctxIn full (team seated) seated).rd .i 0x72 noStrand).val = 2 ∧
      (∀ w ∈ (team seated).wefts, atVeer w 0 = true → w.rpos = seated.rpos) ∧
      ∀ w ∈ (team seated).wefts, w.wait = .none) ∧
    ((getCore (atIn full veering) 0 0).moving = none ∧ (∀ tm ∈ teamsOnAny (atIn full veering) 0 [0], ∀ v ∈ tm.live, atVeer v 0 = true) ∧
      vaneAnswer (atIn full veering) 2 (some 3) = some 3 ∧ (getCore (atIn full veering) 0 0).pt = 2 ∧
      coresWith (atIn full veering) 0 0 = [0] ∧ fitsAt (atIn full veering) 0 0 (widthOf 3) = true) ∧
    ((getCore (cored 0 0 2 (some 0)) 0 0).moving = some 0 ∧ ((cored 0 0 2 (some 0)).teams.map (·.tid)).Nodup ∧
      (getCore State.reset 159 3).moving = none) ∧
    (coreIdle (cored 159 3 2 none) 159 3 = true ∧ (getCore (cored 159 3 2 none) 159 3).pt ≠ 3 ∧ (159, 3) ∉ wantedCores (cored 159 3 2 none)) ∧
    coreIdle (at' (team seated)) 0 0 = false :=
  ⟨⟨ready _ _ _ _, _, rfl, by decide⟩, ⟨readyIn _ _ _ _ _, readyIn _ _ _ _ _, ⟨_, rfl, by decide⟩, by decide⟩, by decide, by decide, by decide, by decide⟩

/-- A weft that handles a trap of the word at offset 4. -/
def handling : Weft := { half with trap := { clause := 0, word := 4, xv := true, mem := 0, cause := 0x105, info := 0, mask := 1 } }

/-- A pool of 65,536 elements that other wefts fill: 16 wefts of 64 registers at W = 64. -/
def hungry : Team :=
  { team half with wefts := { half with alloc := 0xFF } :: (upFrom 1 16).map fun i => { half with wid := i, alloc := BitVec.ofNat 64 (2 ^ 64 - 1) } }

/-- A weft that handles a trap of a header. -/
def atHeader : Weft := { half with trap := { handling.trap with word := 0 } }

theorem test_meets_TrapEntry :
    (getTeam (atIn full (team half)) 0 = some (team half) ∧ (team half).weft? 0 = some half ∧ half.trap.xv = false ∧
      (∃ o, getObj (atIn full (team half)) 1 = some o ∧ handlerOf o 3 = some 0) ∧
      poolAllows (atIn full (team half)) (team half) half [57, 58, 59, 60, 61, 62, 63] = true) ∧
    handling.trap.xv = true ∧ (getObj (at' (team half)) 1).bind (handlerOf · 3) = none :=
  ⟨⟨rfl, rfl, rfl, ⟨_, rfl, rfl⟩, by decide⟩, rfl, rfl⟩

theorem test_meets_TrapAndBreakpointWords :
    (Safety.Issues (.trap 31) (atIn full (team half)) (usesCtl [] [] [] 1) 0 0 (ctxIn full (team half) half) ∧
      (∃ o, getObj (atIn full (team half)) 1 = some o ∧ handlerOf o 0x11F = some 0) ∧
      poolAllows (atIn full (team half)) (team half) half [57, 58, 59, 60, 61, 62, 63] = true) ∧
    (Safety.Issues (.trap 0) (atIn full hungry) (usesCtl [] [] [] 1) 0 0 (ctxIn full hungry (hungry.wefts.headD half)) ∧
      poolAllows (atIn full hungry) hungry (hungry.wefts.headD half) [57, 58, 59, 60, 61, 62, 63] = false) ∧
    Safety.Issues (.trap 0) (at' (team half)) (usesCtl [] [] [] 1) 0 0 (ctx (team half) half) ∧
    (Safety.Issues (.tret true) (at' (team atHeader)) (usesCtl [] [] [] 1) 0 0 (ctx (team atHeader) atHeader) ∧
      atHeader.trap.word = atHeader.trap.clause) ∧
    (Safety.Issues (.tret true) (at' (team handling)) (usesCtl [] [] [] 1) 0 0 (ctx (team handling) handling) ∧
      Safety.Issues (.tret false) (at' (team handling)) (usesCtl [] [] [] 1) 0 0 (ctx (team handling) handling) ∧
      headerCnt (clauseHeader (at' (team handling)) (team handling) handling) ≤ handling.pos.word + 1 ∧
      handling.trap.word ≠ handling.trap.clause) ∧
    Safety.Issues (.tret false) (at' (team half)) (usesCtl [] [] [] 1) 0 0 (ctx (team half) half) ∧
    Safety.Issues .bkpt (at' (team half)) (usesCtl [] [] [] 1) 0 0 (ctx (team half) half) :=
  ⟨⟨readyIn _ _ _ _ _, ⟨_, rfl, rfl⟩, by decide⟩, ⟨readyIn _ _ _ _ _, by decide⟩, ready _ _ _ _, ⟨ready _ _ _ _, rfl⟩,
    ⟨ready _ _ _ _, ready _ _ _ _, by decide⟩, ready _ _ _ _, ready _ _ _ _⟩

/-- The header of a clause of one ALU word, with or without flags to wait for. -/
def header (wm : BitVec 12) : Header := { resv := 0, yld := false, fb := 15, fa := 15, wm := wm, cls := 0, cnt := 1 }

/-- An outstanding load of the weft, under flag 0. -/
def load (a : Acc) : VOp :=
  { id := 5, tid := 0, kind := .load false, size := 4, vd := 1, accs := [a], owners := [0], flag := some 0, discard := [] }

/-- Its access. -/
def acc : Acc :=
  { sid := 0, addr := 0x1000, data := 0, data2 := 0, poison := false, result := 0, resPoison := false, remote := false, rel := none, acq := none,
    lead := none, far := none, given := none, done := false, landed := false }

theorem test_meets_ClauseStarts :
    (waitFlags (at' (team half)) 0 0 1 = false ∧ half.polls = false ∧ { half with wait := .retry Why.flags.code, active := false }.polls = true ∧
      clauseOk (header 1) (clauseWords (at' (team half)) (team half) 0 1) = true) ∧
    clauseOk { header 0 with cls := 6 } (clauseWords (at' (team half)) (team half) 0 1) = false ∧
    waitFlags (atIn (fun s => { s with vops := [load acc] }) (team half)) 0 0 1 = true := by
  decide

theorem test_meets_IllegalWordsTrap :
    Safety.usesOf (.iadd { v3 with sx := 0x69 }) = some (usesV3 { v3 with sx := 0x69 } false [1]) ∧ legal (.iadd { v3 with sx := 0x69 }) = false ∧
    tooNew (.veerMay 1) (atIn (withObj fun o => { o with vmin := 1 }) (team half)) (team half) = true ∧
    getTeam (at' (team half)) 0 = some (team half) ∧ (team half).weft? 0 = some half ∧ half.polls = false := by
  decide

theorem test_meets_WordsWaitBeforeIssue :
    Safety.usesOf (.iadd { v3 with sx := 0x60 }) = some (usesV3 { v3 with sx := 0x60 } false [1]) ∧
    legal (.iadd { v3 with sx := 0x60 }) = true ∧ tooNew (.iadd v3) (at' (team half)) (team half) = false ∧
    0x60 ∈ (usesV3 { v3 with sx := 0x60 } false [1]).codes ∧ half.rpos = (team half).uni.tail ∧
    poolAllows (at' hungry) hungry { half with alloc := 0xFF } [63] = false := by
  decide

/-- A stage with an output pipe 0 and an input pipe 1, and their pipes. -/
def staged (s : State) : State :=
  { s with heddle := {
      pipes := [{ rsz := 64, nslot := 4, rwin := 0, ring := 0x1000, fn := 0, acq := 0, pub := 0, published := [], holders := [], pubs := [],
                  closed := false, attaches := [{ stage := 1, j := 0, nxt := 0, rel := 0, released := [], holders := [], rels := [], removed := false }] },
                { rsz := 64, nslot := 4, rwin := 0, ring := 0x2000, fn := 0, acq := 2, pub := 1, published := [], holders := [], pubs := [],
                  closed := true, attaches := [{ stage := 0, j := 0, nxt := 0, rel := 0, released := [], holders := [], rels := [], removed := false }] }],
      stages := [{ idx := 0, ident := [], fn := 0, secure := false, obj := 1, vent := 0, cent := 0, nstr := 2, scrsize := 0, args := [], cls := 1,
                   index := 1, creator := 1, owner := 1, isPrefix := false, out := some 0, inp := some 1, tid := some 0, started := true,
                   ended := false, seq := 1, acq := [] }],
      pipelines := [] } }

/-- The same, with both strands' records held and no one attached to the output. -/
def holding (s : State) : State :=
  { staged s with heddle := { (staged s).heddle with pipes := (staged s).heddle.pipes.map fun p =>
      { p with holders := [(0, 0)], attaches := p.attaches.map fun a => { a with nxt := 1, holders := [(0, 0)] } } } }

/-- The same, with nobody attached to the output, and the input at its end. -/
def lonely (s : State) : State :=
  { staged s with heddle := { (staged s).heddle with pipes := (staged s).heddle.pipes.map fun p =>
      { p with attaches := (p.attaches.filter fun a => a.stage = 0).map fun a => { a with nxt := 1 } } } }

/-- A team of a stage. -/
def stageTeam (w : Weft) : Team := { team w with ref := .stage 0 }

/-- Strands that are all inactive. -/
def idle : Weft := weft [strand 0 false 1 7, strand 1 false 1 9]

/-- The same, with its output closed to it by full slots: four records that nobody has released. -/
def crowded (s : State) : State :=
  { staged s with heddle := { (staged s).heddle with pipes := (staged s).heddle.pipes.map fun p =>
      { p with acq := 4, pub := 4, closed := false, attaches := p.attaches.map fun a => { a with nxt := 4 } } } }

/-- The same, without an attachment to its input. -/
def detached (s : State) : State :=
  { staged s with heddle := { (staged s).heddle with pipes := (staged s).heddle.pipes.map fun p => { p with attaches := [] } } }

theorem test_meets_Pipes :
    ((Safety.Issues (.pacq 1) (atIn staged (stageTeam idle)) (usesPipe 1) 0 0 (ctxIn staged (stageTeam idle) idle) ∧
        Safety.Issues (.pacq 1) (atIn staged (stageTeam half)) (usesPipe 1) 0 0 (ctxIn staged (stageTeam half) half) ∧
        Safety.Issues (.pacq 1) (atIn lonely (stageTeam half)) (usesPipe 1) 0 0 (ctxIn lonely (stageTeam half) half) ∧
        Safety.Issues (.pacq 1) (atIn crowded (stageTeam half)) (usesPipe 1) 0 0 (ctxIn crowded (stageTeam half) half)) ∧
      (stageTeam half).partner = none ∧
      ∃ g p q r, stageOf (atIn staged (stageTeam half)) (stageTeam half) = some (0, g) ∧ g.out = some 0 ∧
        getPipe (atIn staged (stageTeam half)) 0 = some p ∧ leastHeld p.holders half = none ∧ p.attached = true ∧ p.acq < p.nslot ∧
        getPipe (atIn lonely (stageTeam half)) 0 = some q ∧ q.attached = false ∧
        getPipe (atIn crowded (stageTeam half)) 0 = some r ∧ r.attached = true ∧ r.acq = 4 ∧ r.nslot = 4 ∧ r.slotFree 0 = false) ∧
    ((Safety.Issues (.pget 1) (atIn staged (stageTeam half)) (usesPipe 1) 0 0 (ctxIn staged (stageTeam half) half) ∧
        Safety.Issues (.pget 1) (atIn lonely (stageTeam half)) (usesPipe 1) 0 0 (ctxIn lonely (stageTeam half) half) ∧
        Safety.Issues (.pget 1) (atIn crowded (stageTeam half)) (usesPipe 1) 0 0 (ctxIn crowded (stageTeam half) half) ∧
        Safety.Issues (.pget 1) (atIn detached (stageTeam half)) (usesPipe 1) 0 0 (ctxIn detached (stageTeam half) half)) ∧
      ∃ p a q b r d n, getPipe (atIn staged (stageTeam half)) 1 = some p ∧ p.attachOf 0 = some a ∧ leastHeld a.holders half = none ∧ a.nxt < p.pub ∧
        getPipe (atIn lonely (stageTeam half)) 1 = some q ∧ q.attachOf 0 = some b ∧ q.pub ≤ b.nxt ∧ q.closed = true ∧
        getPipe (atIn crowded (stageTeam half)) 1 = some r ∧ r.attachOf 0 = some d ∧ r.pub ≤ d.nxt ∧ r.closed = false ∧
        getPipe (atIn detached (stageTeam half)) 1 = some n ∧ n.attachOf 0 = none) ∧
    (Safety.Issues .prel (atIn staged (stageTeam half)) (usesCtl [] [] [] 1) 0 0 (ctxIn staged (stageTeam half) half) ∧
      Safety.Issues .pdone (atIn staged (stageTeam half)) (usesCtl [] [] [] 1) 0 0 (ctxIn staged (stageTeam half) half) ∧
      Safety.Issues .prel (atIn holding (stageTeam half)) (usesCtl [] [] [] 1) 0 0 (ctxIn holding (stageTeam half) half) ∧
      Safety.Issues .pdone (atIn holding (stageTeam half)) (usesCtl [] [] [] 1) 0 0 (ctxIn holding (stageTeam half) half) ∧
      ownUndone (atIn holding (stageTeam half)) 0 0 = false ∧ heldPoison (atIn holding (stageTeam half)) (stageTeam half) [0] = false ∧
      commitReady (atIn holding (stageTeam half)) (stageTeam half) = true ∧
      ∃ p q a, getPipe (atIn holding (stageTeam half)) 0 = some p ∧ heldBy p.holders [0] ≠ [] ∧
        getPipe (atIn holding (stageTeam half)) 1 = some q ∧ q.attachOf 0 = some a ∧ heldBy a.holders [0] ≠ []) :=
  ⟨⟨⟨readyIn _ _ _ _ _, readyIn _ _ _ _ _, readyIn _ _ _ _ _, readyIn _ _ _ _ _⟩, rfl, _, _, _, _, rfl, rfl, rfl, rfl, by decide, by decide,
      rfl, by decide, rfl, by decide, rfl, rfl, by decide⟩,
    ⟨⟨readyIn _ _ _ _ _, readyIn _ _ _ _ _, readyIn _ _ _ _ _, readyIn _ _ _ _ _⟩, _, _, _, _, _, _, _, rfl, rfl, rfl, by decide, rfl, rfl,
      by decide, rfl, rfl, rfl, by decide, rfl, rfl, rfl⟩,
    readyIn _ _ _ _ _, readyIn _ _ _ _ _, readyIn _ _ _ _ _, readyIn _ _ _ _ _, by decide, by decide, by decide, _, _, _, rfl, by decide, rfl, rfl,
    by decide⟩


/-- A store of strand 0 that is not yet performed. -/
def unstored (s : State) : State := { s with vops := [{ load acc with kind := .store, flag := none }] }

/-- Two wefts of one slot, the second ready outside the active set. -/
def pushed : Team := { two .none with wefts := (two .none).wefts.map fun w => { w with active := decide (w.wid = 0) } }

/-- A weft is held at an NBAR while a store of its own is not performed; a YIELD meets a pending weft that is ready. -/
theorem test_meets_BarriersAndYield :
    (Safety.Issues (.nbar 0x72 2) (atIn unstored (team half)) (usesCtl [0x72] [] [] 1) 0 0 (ctxIn unstored (team half) half) ∧
      ownUndone (atIn unstored (team half)) 0 0 = true) ∧
    (Safety.Issues .yield (at' pushed) (usesCtl [] [] [] 1) 0 0 (ctx pushed seated) ∧ pendingReady (at' pushed) pushed seated = true) ∧
    pendingReady (at' (team half)) (team half) half = false :=
  ⟨⟨⟨rfl, team half, half, rfl, rfl, rfl, by decide, by rfl⟩, by decide⟩, ⟨ready _ _ _ _, by decide⟩, by decide⟩

/-- The second weft waits at a VEER of the clause, for a point, at a queue position. -/
def meeting' (tgt : Option Nat) (rpos : BitVec 16) : Team :=
  { two .none with wefts := [seated, { seated with wid := 1, wait := .veer 1 tgt 0, rpos := rpos }] }

/-- All of a team waits at a VEER of the clause, for a point. -/
def veeringTo (tgt : Option Nat) : Team := team { seated with wait := .veer 1 tgt 0 }

/-- 34 wefts of 32 lanes and 64 registers are more than a core's register file holds. -/
def wide : Team :=
  { team half with
    wefts := (upFrom 0 17).map fun i =>
      { seated with wid := i, strands := [{ strand 0 true 1 7 with sid := 64 * i }, { strand 32 true 1 7 with sid := 64 * i + 32 }],
                    alloc := BitVec.allOnes 64, wait := .veer 1 (some 1) 0 },
    nstr := 2048 }

/-- The Vane has told a fall, and acts on it. -/
def fallen (s : State) : State := { s with vane := { s.vane with samples := [1], fall := true } }

/-- VEERDIV in its three cases, and the statuses 1, 3 and 4. -/
theorem test_meets_VeerStatuses :
    (Safety.Issues (.veer 1 0x72) (atIn full (team half)) (usesCtl [0x72] [] [1] 1) 0 0 (ctxIn full (team half) half) ∧
      ∃ x ∈ half.strands, x.em = false) ∧
    (Safety.Issues (.veer 1 0x72) (atIn full (meeting' (some 2) 3)) (usesCtl [0x72] [] [1] 1) 0 0 (ctxIn full (meeting' (some 2) 3) seated) ∧
      ∃ w ∈ (meeting' (some 2) 3).live, atVeer w 0 = true ∧ w.rpos ≠ seated.rpos) ∧
    (Safety.Issues (.veer 1 0x74) (atIn full (team seated)) (usesCtl [0x74] [] [1] 1) 0 0 (ctxIn full (team seated) seated) ∧
      ((ctxIn full (team seated) seated).rd .i 0x74 noStrand).val.toNat = 4) ∧
    (Safety.Issues (.veer 1 0x72) (atIn full (meeting' (some 1) 0)) (usesCtl [0x72] [] [1] 1) 0 0 (ctxIn full (meeting' (some 1) 0) seated) ∧
      veerTarget (teamsOnAny (atIn full (meeting' (some 1) 0)) 0 [0]) 0 = some (some 1)) ∧
    (let s := atIn full (veeringTo (some 2))
     getTeam s 0 = some (veeringTo (some 2)) ∧ (s.teams.map (·.tid)).Nodup ∧ (getCore s 0 0).moving = none ∧
      (∀ tm ∈ teamsOnAny s 0 [0], ∀ v ∈ tm.live, atVeer v 0 = true) ∧ vaneAnswer s 2 (some 2) = some 2) ∧
    (let s := atIn (fun s => fallen (full s)) (veeringTo (some 3))
     (∀ tm ∈ teamsOnAny s 0 [0], ∀ v ∈ tm.live, atVeer v 0 = true) ∧ vaneAnswer s 2 (some 3) = none) ∧
    (let s := atIn full wide
     vaneAnswer s 2 (some 1) = some 1 ∧ fitsAt s 0 0 (widthOf 1) = false) :=
  ⟨⟨readyIn _ _ _ _ _, by decide⟩, ⟨readyIn _ _ _ _ _, by decide⟩, ⟨readyIn _ _ _ _ _, by decide⟩, ⟨readyIn _ _ _ _ _, by decide⟩, by decide,
    by decide, by decide⟩
/-! ### Memory words -/

/-- One page of function 0 at 1000h, read and written, at hand in every TLB of cluster 0; another at 3000h that no TLB holds. -/
def page (va : Nat) : Page :=
  { fn := 0, va := va, size := 4096, r := true, w := true, x := false, secure := false, hint := 0, hintDie := 0,
    home := { die := 0, sram := false }, migrating := none, remote := none, obj := none }

/-- With that memory. -/
def mapped (s : State) : State :=
  { s with xlat := { s.xlat with pages := [page 0x1000, page 0x3000], utlb := [(0, [(0, 0x1000)])], dtlb := [(0, [(0, 0x1000)])] } }

/-- One active strand with v1 to v3 and an inactive one: v2 and v3 make an address. -/
def at1 (a : W32) : Weft :=
  weft [{ strand 0 true a 0 with regs := [(1, { val := 0x80, poison := false }), (2, { val := a, poison := false }), (3, Elem.zero)] },
    strand 1 false 1 9]

/-- No path of the team counts anything. -/
theorem may_issue (w : Weft) : Spec.mayIssue (team w) :=
  ⟨rfl, fun p => by rcases p with _ | _ | _ | _ | p <;> simp [Team.pathCount, nthD, team, sampleTeam]⟩

/-- Accesses that pass every check: their hypotheses together. -/
theorem test_meets_GlobalLoadsAndStoresIssue :
    ((Safety.Issues (.ldg32 vm) (atIn mapped (team (at1 0x1FFC))) (usesVM vm true [] [1]) 0 0 (ctxIn mapped (team (at1 0x1FFC)) (at1 0x1FFC)) ∧
        Safety.Issues (.stg64 vm) (atIn mapped (team (at1 0x1FF8))) (usesVM vm true [1, 2] []) 0 0
          (ctxIn mapped (team (at1 0x1FF8)) (at1 0x1FF8))) ∧
      Spec.mayIssue (team (at1 0x1FFC)) ∧
      (∀ x ∈ (at1 0x1FFC).active', ((ctxIn mapped (team (at1 0x1FFC)) (at1 0x1FFC)).gaddr 2 0 0x68 4 x).sum = 0x1FFC ∧
        ((ctxIn mapped (team (at1 0x1FFC)) (at1 0x1FFC)).gaddr 2 0 0x68 4 x).poison = false) ∧
      checkAccess (atIn mapped (team (at1 0x1FFC))) 0 false 0x1FFC 4 true [.read] = none ∧
      checkAccess (atIn mapped (team (at1 0x1FF8))) 0 false 0x1FF8 8 true [.write] = none ∧
      (tlbAll (atIn mapped (team (at1 0x1FFC))) 0 0 [0x1FFC]).1 = true ∧
      missingOf (atIn mapped (team (at1 0x1FFC))) 0 (upFrom 0x1FFC 4) = none) ∧
    (Safety.Issues (.ldg32 vm) (atIn mapped (team (weft [sick 0]))) (usesVM vm true [] [1]) 0 0
        (ctxIn mapped (team (weft [sick 0])) (weft [sick 0])) ∧
      ((ctxIn mapped (team (weft [sick 0])) (weft [sick 0])).lanes fun x =>
        ((ctxIn mapped (team (weft [sick 0])) (weft [sick 0])).gaddr 2 0 0x68 4 x).poison) ≠ 0) ∧
    globalCode (ctxIn mapped (team (at1 0x1FFC)) (at1 0x1FFC)) (.load false) 4 0x2000 = some 3 :=
  ⟨⟨⟨readyIn _ _ _ _ _, readyIn _ _ _ _ _⟩, may_issue _, by decide, by decide, by decide, by decide⟩,
    ⟨readyIn _ _ _ _ _, by decide⟩, by decide⟩

/-- An atomic: add. -/
def atom : VM := { vm with ext := some { mx with aop := 2 } }

theorem test_meets_AtomicsAndStagingIssue :
    (Safety.Issues (.atomg atom) (atIn mapped (team (at1 0x1FFC))) (usesVM atom true [1] [1]) 0 0
        (ctxIn mapped (team (at1 0x1FFC)) (at1 0x1FFC)) ∧
      (∀ x ∈ (at1 0x1FFC).active', (atomData 2 1 x).2.2 = false) ∧ missingOf (atIn mapped (team (at1 0x1FFC))) 0 (upFrom 0x1FFC 4) = none ∧
      checkAccess (atIn mapped (team (at1 0x1FFC))) 0 false 0x1FFC 4 true [.write] = none ∧ (∀ fn tcb, (team half).ref ≠ .task fn tcb)) ∧
    Safety.Issues (.ldgs vm) (atIn mapped (team (at1 0x1FF0))) (usesVM vm true [1] []) 0 0 (ctxIn mapped (team (at1 0x1FF0)) (at1 0x1FF0)) ∧
    (∀ x ∈ (at1 0x1FF0).active', (x.reg 1).poison = false ∧ (x.reg 1).val.toNat % 16 = 0 ∧ (x.reg 1).val.toNat + 16 ≤ 4096) ∧
    checkAccess (atIn mapped (team (at1 0x1FF0))) 0 false 0x1FF0 16 true [.read] = none :=
  ⟨⟨readyIn _ _ _ _ _, by decide, by decide, by decide, fun _ _ h => nomatch h⟩, readyIn _ _ _ _ _, by decide, by decide⟩

/-- Line 3 of the cluster's scratchpad is empty. -/
def drained' (s : State) : State := updCluster s 0 fun k => { k with empty := [(3, true)] }

theorem test_meets_ScratchpadWordsIssue :
    (Safety.Issues (.lds32 vm) (atIn drained' (team (at1 0xFFC))) (usesVM vm false [] [1]) 0 0 (ctxIn drained' (team (at1 0xFFC)) (at1 0xFFC)) ∧
      Safety.Issues (.ldsC vm) (atIn drained' (team (at1 0))) (usesVM vm false [] [1]) 0 0 (ctxIn drained' (team (at1 0)) (at1 0)) ∧
      (∀ x ∈ (at1 0xFFC).active', ((ctxIn drained' (team (at1 0xFFC)) (at1 0xFFC)).saddr 2 0 0x68 4 x).sum = 0xFFC) ∧
      scrCode (team half) 4 0xFFC = none ∧ scrCode (team half) 4 0x1000 = some 6 ∧ scrCode (team half) 4 2 = some 2 ∧
      spGet false (getCluster (atIn drained' (team (at1 0xFFC))) 0).empty (0xFFC / 128) = false) ∧
    (∀ x ∈ (at1 0).active', Spec.unblocked (ctxIn drained' (team (at1 0)) (at1 0)) x [(true, 0, 4)] none) ∧
    (Safety.Issues (.lds32 vm) (atIn drained' (team (at1 0x180))) (usesVM vm false [] [1]) 0 0 (ctxIn drained' (team (at1 0x180)) (at1 0x180)) ∧
      spGet false (getCluster (atIn drained' (team (at1 0x180))) 0).empty (0x180 / 128) = true) ∧
    Safety.Issues (.sts64 vm) (atIn drained' (team (at1 0xFF8))) (usesVM vm false [1, 2] []) 0 0 (ctxIn drained' (team (at1 0xFF8)) (at1 0xFF8)) ∧
    Safety.Issues (.atoms atom) (atIn drained' (team (at1 0xFFC))) (usesVM atom false [1] [1]) 0 0
      (ctxIn drained' (team (at1 0xFFC)) (at1 0xFFC)) :=
  ⟨⟨readyIn _ _ _ _ _, readyIn _ _ _ _ _, by decide, by decide, by decide, by decide, by decide⟩,
    fun _ _ _ _ => rfl, ⟨readyIn _ _ _ _ _, by decide⟩, readyIn _ _ _ _ _, readyIn _ _ _ _ _⟩

/-- A line word, a tag word and an installing word. -/
def vl : VLine := { sx := 2, ofs := 0, lx := false, ext := none }
def vt : VTag := { vd := 1, sx := 2, lx := false, ext := none }
def st : VM := { vm with ext := some { mx with sz := 1 } }

theorem test_meets_LineAndTagWordsComplete :
    (Safety.Issues (.sfull vl) (at' (team (at1 0xF80))) (usesLine vl) 0 0 (ctx (team (at1 0xF80)) (at1 0xF80)) ∧
      Safety.Issues (.sempty vl) (at' (team (at1 0xF80))) (usesLine vl) 0 0 (ctx (team (at1 0xF80)) (at1 0xF80)) ∧
      (∀ x ∈ (at1 0xF80).active', ((ctx (team (at1 0xF80)) (at1 0xF80)).saddr 2 0 0 128 x).sum < 4096) ∧
      weftOps (at' (team (at1 0xF80))) 0 0 = []) ∧
    (Safety.Issues (.stag vt) (at' (team (at1 5))) (usesTag vt [1]) 0 0 (ctx (team (at1 5)) (at1 5)) ∧
      ∀ x ∈ (at1 5).active', Spec.unblocked (ctx (team (at1 5)) (at1 5)) x Spec.everyEntry none) ∧
    (Safety.Issues (.stset { st with ext := some { mx with sz := 0x5F } }) (at' (team (at1 5)))
        { codes := wideCodes 2 ++ [0x5F], frees := [] ++ markReg 0x5F false, holds := markReg 0x5F false, dests := [1], len := 2 } 0 0
        (ctx (team (at1 5)) (at1 5)) ∧
      ∀ x ∈ (at1 5).active', ((ctx (team (at1 5)) (at1 5)).rd .i 0x5F x).val.toNat < 4096 / 128) ∧
    Safety.Issues (.stinv { vt with vd := 0 }) (at' (team (at1 5))) (usesTag { vt with vd := 0 } []) 0 0 (ctx (team (at1 5)) (at1 5)) :=
  ⟨⟨ready _ _ _ _, ready _ _ _ _, by decide, by decide⟩, ⟨ready _ _ _ _, fun _ _ _ _ => rfl⟩, ⟨ready _ _ _ _, by decide⟩,
    ready _ _ _ _⟩

/-- Path 3 has three accesses outstanding. -/
def busy : Team := { team half with paths := [[], [], [], [(3, false)]] }

theorem test_meets_FenceAndWaitp :
    Safety.Issues (.fence { ord := 3, scp := 5 }) (at' (team half)) { codes := [], frees := [], holds := [], dests := [], len := 2 } 0 0
      (ctx (team half) half) ∧
    Safety.Issues (.waitp { path := 3, sx := 0x73 }) (at' busy) { codes := [0x73], frees := [], holds := [], dests := [], len := 1 } 0 0
      (ctx busy half) ∧
    Safety.Issues (.waitp { path := 3, sx := 0x70 }) (at' busy) { codes := [0x70], frees := [], holds := [], dests := [], len := 1 } 0 0
      (ctx busy half) ∧ 0 < busy.pathCount 3 :=
  ⟨ready _ _ _ _, ready _ _ _ _, ready _ _ _ _, by decide⟩

/-- With one operation outstanding. -/
def issued (o : VOp) (s : State) : State := { mapped s with vops := [o] }

/-- One of each kind. -/
def op (k : OpKind) : VOp := { load acc with kind := k }

/-- Two accesses of one operation. -/
def two' (k : OpKind) : VOp := { op k with accs := [acc, { acc with sid := 1, addr := 0x1100 }] }

/-- One element of an outstanding operation may be performed. -/
theorem ready_op (k : OpKind) (hb : blocked (atIn (issued (op k)) (team half)) 0 0 ((op k).next acc) = false := by decide)
    (hd : (team half).die < (atIn (issued (op k)) (team half)).mem.views.length := by decide) :
    Spec.Ready (atIn (issued (op k)) (team half)) 5 (op k) acc (team half) :=
  ⟨rfl, rfl, rfl, ⟨rfl, rfl, rfl, rfl⟩, hb, rfl, hd⟩

/-- An operation of two accesses may return. -/
theorem returns_op (k : OpKind)
    (hu : ∀ a ∈ (two' k).accs, a.done = false →
      a.remote = false ∧ blocked (atIn (issued (two' k)) (team half)) 0 a.sid ((two' k).next a) = false := by decide) :
    Spec.Returns (atIn (issued (two' k)) (team half)) 5 (two' k) (team half) :=
  { found := rfl, team := rfl, undone := hu, empty := fun h => (nomatch h), alone := rfl }

/-- A store before it to the same bytes. -/
def earlier (o : VOp) (s : State) : State := { mapped s with vops := [{ op .store with id := 4 }, o] }

/-- An operation on another module's memory. -/
def far (k : OpKind) : VOp := { op k with accs := [{ acc with remote := true }] }

/-- No port is up. -/
def cut (s : State) : State := { s with weave := { s.weave with ports := (upFrom 0 24).map fun p => (p, { WeavePort.reset with up := false }) } }

theorem test_meets_OperationsReturn :
    (Spec.Ready (atIn (issued (op (.load true))) (team half)) 5 (op (.load true)) acc (team half) ∧
      Spec.Ready (atIn (issued (op .store)) (team half)) 5 (op .store) acc (team half) ∧
      Spec.Ready (atIn (issued (op (.atomic 2 false))) (team half)) 5 (op (.atomic 2 false)) acc (team half) ∧
      Spec.Ready (atIn (issued (op .ldgs)) (team half)) 5 (op .ldgs) acc (team half) ∧
      Spec.Ready (atIn (issued (op (.scrStore false))) (team half)) 5 (op (.scrStore false)) acc (team half) ∧
      Spec.Ready (atIn (issued (op (.scrAtomic 2 false))) (team half)) 5 (op (.scrAtomic 2 false)) acc (team half)) ∧
    (Spec.Returns (atIn (issued (two' (.load true))) (team half)) 5 (two' (.load true)) (team half) ∧
      Spec.Returns (atIn (issued (two' (.atomic 2 false))) (team half)) 5 (two' (.atomic 2 false)) (team half) ∧
      Spec.Returns (atIn (issued (two' .store)) (team half)) 5 (two' .store) (team half) ∧
      Spec.Returns (atIn (issued (two' .ldgs)) (team half)) 5 (two' .ldgs) (team half) ∧
      ((two' .store).accs.map (·.sid)).Nodup) ∧
    (Spec.Returns (atIn (issued { op (.load false) with accs := [] }) (team half)) 5 { op (.load false) with accs := [] } (team half) ∧
      emptyReady (atIn (issued { op (.load false) with accs := [] }) (team half)) { op (.load false) with accs := [] } = true) ∧
    Spec.Holds (team half) (op .stag) 0 half [1, 2] ∧ acc.addr < apertureBase ∧
    (getOp (atIn (earlier (op (.load false))) (team half)) 5 = some (op (.load false)) ∧
      ∀ k ∈ [OpKind.load false, .store, .ldgs], blocked (atIn (earlier (op k)) (team half)) 0 0 ((op k).next acc) = true) ∧
    (getOp (atIn (issued (far .ldgs)) (team half)) 5 = some (far .ldgs) ∧ linked (atIn (issued (far .ldgs)) (team half)) = true ∧
      blocked (atIn (issued (far .ldgs)) (team half)) 0 0 ((far .ldgs).next { acc with remote := true }) = false) ∧
    linked (atIn cut (team half)) = false :=
  ⟨⟨ready_op _, ready_op _, ready_op _, ready_op _, ready_op _, ready_op _⟩,
    ⟨returns_op _, returns_op _, returns_op _, returns_op _, by decide⟩, ⟨{ found := rfl, team := rfl, undone := by decide, empty := by decide, alone := rfl }, by decide⟩,
    ⟨rfl, rfl, by decide, rfl⟩, by decide, ⟨rfl, by decide⟩, ⟨rfl, by decide⟩, by decide⟩


/-- A team of a task that has not committed. -/
def asTask (w : Weft) : Team := { team w with ref := .task 0 0x1000 }

/-- One that defers an enqueue. -/
def deferring (w : Weft) : Team := { asTask w with deferred := [.tenq 0x1000] }

/-- A strand whose LDGS offset is not aligned. -/
def askew : Weft := weft [{ strand 0 true 0x1FF0 0 with regs := [(1, { val := 8, poison := false }), (2, { val := 0x1FF0, poison := false }), (3, Elem.zero)] }]

/-- A strand whose LDGS offset is poisoned. -/
def sickly : Weft := weft [{ strand 0 true 0x1FF0 0 with regs := [(1, { val := 0, poison := true }), (2, { val := 0x1FF0, poison := false }), (3, Elem.zero)] }]

/-- A task's ATOMG commits or waits to; LDGS is refused. -/
theorem test_meets_AtomicsInTasks :
    (Safety.Issues (.atomg atom) (atIn mapped (asTask (at1 0x1FFC))) (usesVM atom true [1] [1]) 0 0
        (ctxIn mapped (asTask (at1 0x1FFC)) (at1 0x1FFC)) ∧
      defersWork (asTask (at1 0x1FFC)) = true ∧ commitReady (atIn mapped (asTask (at1 0x1FFC))) (asTask (at1 0x1FFC)) = true ∧
      (at1 0x1FFC).active' ≠ []) ∧
    (let f (s : State) : State := { mapped s with vops := [{ load acc with kind := .store, flag := none, owners := [1] }] }
     Safety.Issues (.atomg atom) (atIn f (deferring (at1 0x1FFC))) (usesVM atom true [1] [1]) 0 0 (ctxIn f (deferring (at1 0x1FFC)) (at1 0x1FFC)) ∧
      commitReady (atIn f (deferring (at1 0x1FFC))) (deferring (at1 0x1FFC)) = false) ∧
    (Safety.Issues (.ldgs vm) (atIn mapped (team askew)) (usesVM vm true [1] []) 0 0 (ctxIn mapped (team askew) askew) ∧
      (∀ x ∈ askew.active', (x.reg 1).val.toNat % 16 ≠ 0 ∧ (x.reg 1).poison = false)) ∧
    (Safety.Issues (.ldgs vm) (atIn mapped (team sickly)) (usesVM vm true [1] []) 0 0 (ctxIn mapped (team sickly) sickly) ∧
      ((ctxIn mapped (team sickly) sickly).lanes fun x => (x.reg 1).poison) ≠ 0) :=
  ⟨⟨readyIn _ _ _ _ _, by decide⟩, ⟨readyIn _ _ _ _ _, by decide⟩, ⟨readyIn _ _ _ _ _, by decide⟩, readyIn _ _ _ _ _, by decide⟩

/-- Wefts that wait at line 0 to execute the word at offset 4. -/
def held (n : Nat) : Team :=
  { team (at1 0) with wefts := (upFrom 0 n).map fun i => { at1 0 with wid := i, wait := .retry Why.line.code, active := false, readyAt := i } }

/-- The state before and after line 0 was filled; a is the word at offset 4. -/
def filling (a : W32) (t : Team) (full : Bool) : State :=
  { placeTeam State.reset false [0x0007F801, a] [] with teams := [t], clusters := [(0, { Cluster.reset with empty := if full then [] else [(0, true)] })] }

/-- A fill serves a held LDS32; of two held LDS.C it serves the first. -/
theorem test_meets_Fills :
    filled (getCluster (filling 2751995904 (held 1) false) 0) (getCluster (filling 2751995904 (held 1) true) 0) = [0] ∧
    (∃ h s', Spec.heldAt (filling 2751995904 (held 1) true) (held 1) = [h] ∧ (0 ∈ h.lines ∧ ∀ m ∈ h.lines, lineFull (filling 2751995904 (held 1) true) 0 m = true) ∧
      Spec.served (filling 2751995904 (held 1) true) 0 h s') ∧
    (∃ h g s', Spec.heldAt (filling 2953322496 (held 2) true) (held 2) = [h, g] ∧ (h.take = true ∧ g.take = true ∧ h.since ≤ g.since) ∧
      (0 ∈ g.lines ∧ ∀ m ∈ g.lines, lineFull (filling 2953322496 (held 2) true) 0 m = true) ∧
      Spec.served (filling 2953322496 (held 2) true) 0 h s' ∧ lineFull s' 0 0 = false) :=
  ⟨by decide, ⟨_, _, rfl, by decide, rfl, by decide⟩, _, _, _, rfl, by decide, by decide, ⟨rfl, by decide⟩, by decide⟩

/-- A store of FL may be performed. -/
theorem test_meets_FillingStores :
    Spec.Ready (atIn (issued (op (.scrStore true))) (team half)) 5 (op (.scrStore true)) acc (team half) ∧
    Spec.Returns (atIn (issued (two' (.scrStore true))) (team half)) 5 (two' (.scrStore true)) (team half) :=
  ⟨ready_op _, returns_op _⟩
/-! ### The control core -/

/-- A hart with x1 = a, x2 = b. -/
def hart (a b : W64) : Hart := { sampleHart with pc := 0x100, x := [0, a, b] ++ List.replicate 29 0 }

/-- The same with x1 poisoned. -/
def sickHart : Hart := { hart 0 0 with pois := 2 }

/-- A team with a hart. -/
def hteam (h : Hart) : Team := { sampleTeam true with hart := some h }

/-- A state in which the hart of a team executes. -/
def hat (f : State → State) (t : Team) : State := f { placeTeam State.reset true [] [] with teams := [t], cur := .hart 0 }

/-- An instruction is about to execute there. -/
theorem hready (f : State → State) (i : Instr) (h : Hart) (t : Team := hteam h) (hl : legal i = true := by decide)
    (hc : (hat f t).cur = .hart 0 := by rfl) (ht : getTeam (hat f t) 0 = some t := by rfl) (hh : t.hart = some h := by rfl)
    (hm : t.inM = false := by rfl) (hg : h.wait = .none := by rfl) : Spec.HartAt i (hat f t) 0 t h :=
  ⟨hc, ht, hh, hm, ⟨by rw [hg]; nofun, fun _ => by rw [hg]; nofun⟩, hl⟩

theorem test_meets_HartArithmetic :
    Spec.HartAt (.rv64Instruction (.alu .div 3 1 2)) (hat id (hteam (hart 7 0))) 0 (hteam (hart 7 0)) (hart 7 0) ∧
    Spec.HartAt (.rv64Instruction (.aluImm .sra 0 1 63)) (hat id (hteam (hart 7 0))) 0 (hteam (hart 7 0)) (hart 7 0) ∧
    Spec.HartAt (.rv64Instruction (.aluW .remu 3 1 2)) (hat id (hteam (hart 7 0))) 0 (hteam (hart 7 0)) (hart 7 0) ∧
    Spec.HartAt (.rv64Instruction (.aluImmW .sll 3 1 31)) (hat id (hteam (hart 7 0))) 0 (hteam (hart 7 0)) (hart 7 0) ∧
    Spec.HartAt (.rv64Instruction (.lui 3 0x80000)) (hat id (hteam (hart 7 0))) 0 (hteam (hart 7 0)) (hart 7 0) ∧
    Spec.HartAt (.rv64Instruction (.auipc 3 0x80000)) (hat id (hteam (hart 7 0))) 0 (hteam (hart 7 0)) (hart 7 0) ∧
    Spec.HartAt (.rv64Instruction (.jal 3 4)) (hat id (hteam (hart 7 0))) 0 (hteam (hart 7 0)) (hart 7 0) ∧
    Spec.HartAt (.rv64Instruction (.jal 3 2)) (hat id (hteam (hart 7 0))) 0 (hteam (hart 7 0)) (hart 7 0) ∧
    (((hart 7 0).pc + (4 : BitVec 21).signExtend 64).toNat % 4 = 0 ∧ ((hart 7 0).pc + (2 : BitVec 21).signExtend 64).toNat % 4 ≠ 0) ∧
    Spec.HartAt (.rv64Instruction (.jalr 3 1 0)) (hat id (hteam (hart 8 0))) 0 (hteam (hart 8 0)) (hart 8 0) ∧
    Spec.HartAt (.rv64Instruction (.jalr 3 1 0)) (hat id (hteam sickHart)) 0 (hteam sickHart) sickHart ∧ sickHart.pd 1 = true ∧
    Spec.HartAt (.rv64Instruction (.branch .eq 1 2 4)) (hat id (hteam (hart 0 0))) 0 (hteam (hart 0 0)) (hart 0 0) ∧
    Spec.HartAt (.rv64Instruction (.branch .ne 1 2 2)) (hat id (hteam (hart 7 0))) 0 (hteam (hart 7 0)) (hart 7 0) ∧
    (Spec.HartAt (.rv64Instruction (.jalr 3 1 2)) (hat id (hteam (hart 8 0))) 0 (hteam (hart 8 0)) (hart 8 0) ∧
      Spec.HartAt (.rv64Instruction (.branch .ne 1 2 4)) (hat id (hteam sickHart)) 0 (hteam sickHart) sickHart) ∧
    (hart 7 0).x.length = 32 :=
  ⟨hready _ _ _, hready _ _ _, hready _ _ _, hready _ _ _, hready _ _ _, hready _ _ _, hready _ _ _, hready _ _ _, by decide, hready _ _ _,
    hready _ _ _, by decide, hready _ _ _, hready _ _ _, ⟨hready _ _ _, hready _ _ _⟩, by decide⟩

/-- A hart that waits for the memory system. -/
def waiting (w : HWait) : Hart := { hart 0x1FF8 5 with wait := w }

/-- The page at 1000h is another module's. -/
def elsewhere (s : State) : State :=
  { mapped s with xlat := { (mapped s).xlat with pages := [{ page 0x1000 with remote := some (1, 0, 0) }] } }

/-- That page is a DATA page of an object's chunk 1, which was evicted. -/
def evicted (s : State) : State :=
  { mapped s with
    xlat := { (mapped s).xlat with pages := [{ page 0x1000 with obj := some 1 }] },
    loom := { s.loom with objs := [{ sampleObj [] [0] with leaves := [[1], [2]], data := [(0x1000, 4096, 1)] }] } }

theorem test_meets_HartLoadsAndAtomics :
    (Spec.HartAt (.hartLoad .d 3 1 0) (hat mapped (hteam (hart 0x1FF8 5))) 0 (hteam (hart 0x1FF8 5)) (hart 0x1FF8 5) ∧
      Spec.Allowed (hat mapped (hteam (hart 0x1FF8 5))) (hteam (hart 0x1FF8 5)) (hart 0x1FF8 5) 1 0x1FF8 8 .read) ∧
    (Spec.HartAt (.hartLoad .d 3 1 0) (hat mapped (hteam sickHart)) 0 (hteam sickHart) sickHart ∧ sickHart.pd 1 = true) ∧
    (apertureOk (.load false) 8 0x1FFC = false ∧ checkAccess (hat mapped (hteam (hart 0x1FFC 5))) 0 false 0x1FFC 8 true [.read] = some 2) ∧
    Spec.HartAt (.lr true true true 3 1) (hat mapped (hteam (hart 0x1FF8 5))) 0 (hteam (hart 0x1FF8 5)) (hart 0x1FF8 5) ∧
    (Spec.HartAt (.hartAmo .maxu true false false 3 1 2) (hat mapped (hteam (hart 0x1FF8 5))) 0 (hteam (hart 0x1FF8 5)) (hart 0x1FF8 5) ∧
      Spec.Allowed (hat mapped (hteam (hart 0x1FF8 5))) (hteam (hart 0x1FF8 5)) (hart 0x1FF8 5) 1 0x1FF8 8 .write ∧
      { hart 0x1FF8 5 with pois := 4 }.pd 2 = true ∧ commitReady (hat mapped (hteam (hart 0x1FF8 5))) (hteam (hart 0x1FF8 5)) = true ∧ ∀ fn tcb, (hteam (hart 0x1FF8 5)).ref ≠ .task fn tcb) ∧
    ((hat mapped (hteam (waiting (.load 3 0x1FF8 8 true)))).cur = .hart 0 ∧
      getTeam (hat mapped (hteam (waiting (.load 3 0x1FF8 8 true)))) 0 = some (hteam (waiting (.load 3 0x1FF8 8 true))) ∧
      (hteam (waiting (.load 3 0x1FF8 8 true))).pairLoads = [] ∧ isRemote (hat mapped (hteam (waiting .none))) 0 0x1FF8 = false ∧
      (waiting .none).stores = [] ∧ (hteam (waiting .none)).die < (hat mapped (hteam (waiting .none))).mem.views.length) ∧
    (isRemote (hat elsewhere (hteam (waiting (.load 3 0x1000 8 true)))) 0 0x1000 = true ∧
      linked (hat elsewhere (hteam (waiting (.load 3 0x1000 8 true)))) = true) ∧
    (getTeam (hat mapped (hteam (waiting (.lr 3 0x1FF8 8 true true)))) 0 = some (hteam (waiting (.lr 3 0x1FF8 8 true true))) ∧
      getTeam (hat mapped (hteam (waiting (.amo .maxu 3 0x1FF8 5 8 true false)))) 0 =
        some (hteam (waiting (.amo .maxu 3 0x1FF8 5 8 true false))) ∧ (hteam (waiting .none)).partner = none) ∧
    (Spec.HartAt (.lr true true true 3 1) (hat mapped (hteam sickHart)) 0 (hteam sickHart) sickHart ∧
      Spec.HartAt (.lr true true true 3 1) (hat mapped (hteam (hart 0x1FFC 5))) 0 (hteam (hart 0x1FFC 5)) (hart 0x1FFC 5) ∧
      Spec.HartAt (.hartAmo .maxu true false false 3 1 2) (hat mapped (hteam (hart 0x1FFC 5))) 0 (hteam (hart 0x1FFC 5)) (hart 0x1FFC 5) ∧
      checkAccess (hat mapped (hteam (hart 0x1FFC 5))) 0 false 0x1FFC 8 true [.write] = some 2) ∧
    (Spec.HartAt (.hartAmo .maxu true false false 3 1 2) (hat evicted (hteam (hart 0x1FF8 5))) 0 (hteam (hart 0x1FF8 5)) (hart 0x1FF8 5) ∧
      Spec.Allowed (hat evicted (hteam (hart 0x1FF8 5))) (hteam (hart 0x1FF8 5)) (hart 0x1FF8 5) 1 0x1FF8 8 .write ∧
      missingOf (tlbLookup (hat evicted (hteam (hart 0x1FF8 5))) 0 0 0x1FF8).2 0 (upFrom 0x1FF8 8) = some (1, 1) ∧
      missingOf (tlbLookup (hat mapped (hteam (hart 0x1FF8 5))) 0 0 0x1FF8).2 0 (upFrom 0x1FF8 8) = none) :=
  ⟨⟨hready _ _ _, ⟨by decide, by decide, by decide, by decide, rfl⟩⟩, ⟨hready _ _ _, by decide⟩, by decide, hready _ _ _,
    ⟨hready _ _ _, ⟨by decide, by decide, by decide, by decide, rfl⟩, by decide, by decide, fun _ _ h => nomatch h⟩, by decide, by decide, by decide,
    ⟨hready _ _ _, hready _ _ _, hready _ _ _, by decide⟩, hready _ _ _, ⟨by decide, by decide, by decide, by decide, rfl⟩, by decide, by decide⟩

/-- A store that its die has not applied, and another to common bytes before it. -/
def hstore (n : Nat) : HStore := { addr := 0x1FF8, bytes := [1, 2], poison := false, rel := none, num := n }

/-- A team of a task, with what it defers. -/
def jobOf (l : List Deferred) (h : Hart) : Team := { hteam h with ref := .task 0 0x1000, deferred := l }

/-- The hart holds the granule at 1FC0h, and the memory is another module's or not. -/
def reserved (f : State → State) (s : State) : State := setResv (f s) 0 0 (some (0x1FF8 / 64))

/-- No port is up. -/
def alone (s : State) : State := cut (elsewhere s)

theorem test_meets_HartStores :
    (Spec.HartAt (.hartStore .d 1 2 0) (hat mapped (hteam (hart 0x1FF8 5))) 0 (hteam (hart 0x1FF8 5)) (hart 0x1FF8 5) ∧
      Spec.Allowed (hat mapped (hteam (hart 0x1FF8 5))) (hteam (hart 0x1FF8 5)) (hart 0x1FF8 5) 1 0x1FF8 8 .write ∧ (hart 0x1FF8 5).pd 2 = false) ∧
    (let h := { hart 0x1FF8 5 with stores := [hstore 0, hstore 1] }
     getTeam (hat mapped (hteam h)) 0 = some (hteam h) ∧ h.stores[1]? = some (hstore 1) ∧ h.stores[0]? = some (hstore 0) ∧
      (∃ y ∈ h.stores.take 1, overlap y.addr.toNat y.bytes.length (hstore 1).addr.toNat 2 = true) ∧
      isRemote (hat mapped (hteam h)) 0 0x1FF8 = false ∧ (hstore 0).num < (hstore 1).num ∧ ∀ y ∈ h.stores, ¬ y.num < (hstore 0).num) ∧
    Spec.HartAt (.sc true true true 3 1 2) (hat mapped (hteam (hart 0x1FF8 5))) 0 (hteam (hart 0x1FF8 5)) (hart 0x1FF8 5) ∧
    resvOf (setResv (hat mapped (hteam (hart 0x1FF8 5))) 0 0 (some (0x1FF8 / 64))) 0 0 = some (0x1FF8 / 64) ∧
    resvOf (hat mapped (hteam (hart 0x1FF8 5))) 0 0 = none ∧
    (let t := jobOf [] (hart 0x1FF8 5)
     Spec.HartAt (.sc true true true 3 1 2) (hat (reserved mapped) t) 0 t (hart 0x1FF8 5) ∧
      Spec.Allowed (hat (reserved mapped) t) t (hart 0x1FF8 5) 1 0x1FF8 8 .write ∧ commitReady (hat (reserved mapped) t) t = true ∧
      resvOf (hat (reserved mapped) t) 0 0 = some (0x1FF8 / 64)) ∧
    (let h := { hart 0x1FF8 5 with stores := [hstore 0] }
     Spec.HartAt (.sc true true true 3 1 2) (hat (reserved mapped) (jobOf [.tenq 0x1000] h)) 0 (jobOf [.tenq 0x1000] h) h ∧
      Spec.Allowed (hat (reserved mapped) (jobOf [.tenq 0x1000] h)) (jobOf [.tenq 0x1000] h) h 1 0x1FF8 8 .write ∧
      commitReady (hat (reserved mapped) (jobOf [.tenq 0x1000] h)) (jobOf [.tenq 0x1000] h) = false) ∧
    (Spec.HartAt (.sc true true true 3 1 2) (hat mapped (hteam sickHart)) 0 (hteam sickHart) sickHart ∧
      Spec.HartAt (.sc true true true 3 1 2) (hat mapped (hteam (hart 0x1FFC 5))) 0 (hteam (hart 0x1FFC 5)) (hart 0x1FFC 5) ∧
      checkAccess (hat mapped (hteam (hart 0x1FFC 5))) 0 false 0x1FFC 8 true [.write] = some 2) ∧
    (Spec.HartAt (.sc true true true 3 1 2) (hat (reserved elsewhere) (hteam (hart 0x1FF8 5))) 0 (hteam (hart 0x1FF8 5)) (hart 0x1FF8 5) ∧
      Spec.Allowed (hat (reserved elsewhere) (hteam (hart 0x1FF8 5))) (hteam (hart 0x1FF8 5)) (hart 0x1FF8 5) 1 0x1FF8 8 .write ∧
      isRemote (hat (reserved elsewhere) (hteam (hart 0x1FF8 5))) 0 0x1FF8 = true ∧
      linked (hat (reserved elsewhere) (hteam (hart 0x1FF8 5))) = true ∧ linked (hat (reserved alone) (hteam (hart 0x1FF8 5))) = false ∧
      Spec.HartAt (.sc true true true 3 1 2) (hat (reserved alone) (hteam (hart 0x1FF8 5))) 0 (hteam (hart 0x1FF8 5)) (hart 0x1FF8 5) ∧
      Spec.Allowed (hat (reserved alone) (hteam (hart 0x1FF8 5))) (hteam (hart 0x1FF8 5)) (hart 0x1FF8 5) 1 0x1FF8 8 .write) :=
  ⟨⟨hready _ _ _, ⟨by decide, by decide, by decide, by decide, rfl⟩, by decide⟩, by decide, hready _ _ _, by decide, by decide,
    ⟨hready _ _ _ (jobOf [] (hart 0x1FF8 5)), ⟨by decide, by decide, by decide, by decide, rfl⟩, by decide, by decide⟩,
    ⟨hready _ _ _ (jobOf [.tenq 0x1000] { hart 0x1FF8 5 with stores := [hstore 0] }), ⟨by decide, by decide, by decide, by decide, rfl⟩, by decide⟩,
    ⟨hready _ _ _, hready _ _ _, by decide⟩,
    hready _ _ _, ⟨by decide, by decide, by decide, by decide, rfl⟩, by decide, by decide, by decide, hready _ _ _,
    ⟨by decide, by decide, by decide, by decide, rfl⟩⟩

/-- A team whose uniform queue holds 64 entries that a weft has not read. -/
def fullQueue (h : Hart) : Team := { hteam h with uni := { (hteam h).uni with tail := 64 } }

theorem test_meets_HartOrderingAndQueues :
    (Spec.HartAt (.xfence 3 5) (hat id (hteam (hart 7 0))) 0 (hteam (hart 7 0)) (hart 7 0) ∧
      Spec.HartAt (.hartFence 0 15 15) (hat id (hteam (hart 7 0))) 0 (hteam (hart 7 0)) (hart 7 0) ∧
      Spec.HartAt .fenceI (hat id (hteam (hart 7 0))) 0 (hteam (hart 7 0)) (hart 7 0) ∧
      Spec.HartAt .hpause (hat id (hteam (hart 7 0))) 0 (hteam (hart 7 0)) (hart 7 0)) ∧
    (Spec.HartAt (.uqpush 1) (hat id (hteam sickHart)) 0 (hteam sickHart) sickHart ∧
      Spec.HartAt (.uqpush 1) (hat id (fullQueue (hart 7 0))) 0 (fullQueue (hart 7 0)) (hart 7 0) ∧ uqUsed (fullQueue (hart 7 0)) = 64 ∧
      Spec.HartAt (.uqtry 3 1) (hat id (hteam (hart 7 0))) 0 (hteam (hart 7 0)) (hart 7 0) ∧ uqUsed (hteam (hart 7 0)) ≠ 64 ∧
      (hart 7 0).stores = [] ∧ (hart 7 0).pd 1 = false) ∧
    Spec.HartAt (.tlrd 3 true 16) (hat id (hteam (hart 7 0))) 0 (hteam (hart 7 0)) (hart 7 0) ∧
    Spec.HartAt (.tlwait 3 1 5 15) (hat id (hteam (hart 7 0))) 0 (hteam (hart 7 0)) (hart 7 0) ∧
    Spec.HartAt (.tlwait 3 2 5 15) (hat id (hteam (hart 7 0))) 0 (hteam (hart 7 0)) (hart 7 0) ∧
    Spec.HartAt (.tlwait 3 2 0 15) (hat id (hteam (hart 7 0))) 0 (hteam (hart 7 0)) (hart 7 0) ∧
    (Spec.HartAt (.uqpush 1) (hat id (hteam { hart 7 0 with stores := [hstore 0] })) 0 (hteam { hart 7 0 with stores := [hstore 0] })
        { hart 7 0 with stores := [hstore 0] } ∧
      Spec.HartAt (.uqtry 3 1) (hat id (fullQueue (hart 7 0))) 0 (fullQueue (hart 7 0)) (hart 7 0) ∧
      Spec.HartAt (.tlwait 3 1 5 15) (hat id (hteam sickHart)) 0 (hteam sickHart) sickHart) ∧
    (let t : Team := { hteam (hart 7 0) with place := { (hteam (hart 7 0)).place with ctx := none } }
     Spec.HartAt (.tlrd 3 true 16) (hat id t) 0 t (hart 7 0) ∧ Spec.HartAt (.tlwait 3 1 5 16) (hat id t) 0 t (hart 7 0) ∧
      timelineOf (hat id t) t 16 = none) ∧
    timelineOf (hat id (hteam (hart 7 0))) (hteam (hart 7 0)) 16 = some 0 ∧ timelineOf (hat id (hteam (hart 7 0))) (hteam (hart 7 0)) 15 = some 0 :=
  ⟨⟨hready _ _ _, hready _ _ _, hready _ _ _, hready _ _ _⟩, ⟨hready _ _ _, hready _ _ _ (fullQueue (hart 7 0)), by decide, hready _ _ _, by decide,
    rfl, by decide⟩, hready _ _ _, hready _ _ _, hready _ _ _, hready _ _ _, ⟨hready _ _ _, hready _ _ _ (fullQueue (hart 7 0)), hready _ _ _⟩,
    ⟨hready _ _ _ _, hready _ _ _ _, rfl⟩, by decide, by decide⟩

/-- A team that has a hart and a matrix operation outstanding. -/
def working (s : State) : State :=
  updCluster s 0 fun k => { k with mx := { k.mx with ctxs := [(0, { Ctx.reset with tid := some 0, issued := 1, ops := [{ num := 1, pc := 0, kind := .mend, acq := [] }] })] } }

theorem test_meets_HartSystem :
    (Spec.HartAt (.csrAccess .rw false 0xC00 3 1) (hat id (hteam (hart 7 0))) 0 (hteam (hart 7 0)) (hart 7 0) ∧
      Spec.HartAt (.csrAccess .rs true 0xCC7 3 0) (hat id (hteam (hart 7 0))) 0 (hteam (hart 7 0)) (hart 7 0) ∧
      (0xC00, (hart 7 0).cycle) ∈ Spec.csrs (hat id (hteam (hart 7 0))) (hteam (hart 7 0)) (hart 7 0) ∧
      (0xCC7, BitVec.ofNat 64 4096) ∈ Spec.csrs (hat id (hteam (hart 7 0))) (hteam (hart 7 0)) (hart 7 0)) ∧
    (Spec.HartAt (.csrAccess .rs false 0xC01 3 0) (hat id (hteam (hart 7 0))) 0 (hteam (hart 7 0)) (hart 7 0) ∧
      Spec.HartAt (.csrAccess .rs false 0x300 3 0) (hat id (hteam (hart 7 0))) 0 (hteam (hart 7 0)) (hart 7 0) ∧
      ∀ p ∈ Spec.csrs (hat id (hteam (hart 7 0))) (hteam (hart 7 0)) (hart 7 0), p.1 ≠ 0x300) ∧
    (Spec.HartAt .ecall (hat id (hteam (hart 7 0))) 0 (hteam (hart 7 0)) (hart 7 0) ∧
      Spec.HartAt .wfi (hat id (hteam (hart 7 0))) 0 (hteam (hart 7 0)) (hart 7 0) ∧
      Spec.HartAt .ebreak (hat id (hteam (hart 7 0))) 0 (hteam (hart 7 0)) (hart 7 0) ∧
      Spec.HartAt .hend (hat id (hteam (hart 7 0))) 0 (hteam (hart 7 0)) (hart 7 0)) ∧
    ((getCtx (getCluster (hat id (hteam (hart 7 0))) 0).mx 0).ops = [] ∧ (getCtx (getCluster (hat working (hteam (hart 7 0))) 0).mx 0).ops ≠ [] ∧
      (hteam (hart 7 0)).wefts ≠ [] ∧ (hteam (hart 7 0)).partner = none ∧ (hart 7 0).stores = [] ∧ (hteam (hart 7 0)).place.ctx = some 0) ∧ legal (.hartStore .bu 1 2 0) = false ∧
    (Spec.HartAt (.csrAccess .rs false 0xC01 3 1) (hat id (hteam (hart 7 0))) 0 (hteam (hart 7 0)) (hart 7 0) ∧
      Spec.HartAt (.csrAccess .rc false 0xC01 3 0) (hat id (hteam (hart 7 0))) 0 (hteam (hart 7 0)) (hart 7 0) ∧
      Spec.HartAt (.csrAccess .rs true 0xC01 3 0) (hat id (hteam (hart 7 0))) 0 (hteam (hart 7 0)) (hart 7 0)) :=
  ⟨⟨hready _ _ _, hready _ _ _, by decide, by decide⟩, ⟨hready _ _ _, hready _ _ _, fun p hp he => by
      have hm : (0x300 : BitVec 12) ∈ [0xC00, 0xC02, 0xCC0, 0xCC1, 0xCC2, 0xCC3, 0xCC4, 0xCC5, 0xCC6, 0xCC7] :=
        he ▸ List.mem_map_of_mem (f := Prod.fst) hp
      exact absurd hm (by decide)⟩,
    ⟨hready _ _ _, hready _ _ _, hready _ _ _, hready _ _ _⟩, by decide, by decide, ⟨hready _ _ _, hready _ _ _, hready _ _ _⟩⟩

/-- M-mode code executes there, with any memory. -/
theorem machine_ready (m : MemSys) : Spec.MachineAt { State.reset with cur := .machine 0 3, mem := m } 0 3 Hart.reset :=
  ⟨rfl, rfl, rfl, (fun _ h => by cases h), fun _ h => by cases h⟩

/-- Memory in which hart 3 of M-mode has reserved the granule at 0 of its memory. -/
def machineHolds : State := setResv State.reset 0 (2 ^ 64 + 3) (some (gkey 4 0 / 64))

theorem test_meets_HartSystem_machine :
    (Spec.MachineAt { State.reset with cur := .machine 0 3, mem := State.reset.mem } 0 3 Hart.reset ∧ (4 : W64).toNat % 8 ≠ 0 ∧
      Hart.reset.pd 1 = false ∧ 0 < State.reset.mem.views.length ∧ legal (.hartLoad .d 3 1 0) = true ∧ legal (.hartStore .d 1 2 0) = true) ∧
    (Spec.MachineAt { State.reset with cur := .machine 0 3, mem := machineHolds.mem } 0 3 Hart.reset ∧
      Spec.machineMay { State.reset with cur := .machine 0 3, mem := machineHolds.mem } 0 8 ∧
      resvOf { State.reset with cur := .machine 0 3, mem := machineHolds.mem } 0 (2 ^ 64 + 16 * 0 + 3) = some (gkey 4 0 / 64) ∧
      resvOf { State.reset with cur := .machine 0 3, mem := State.reset.mem } 0 (2 ^ 64 + 16 * 0 + 3) = none) :=
  ⟨⟨machine_ready _, by decide, by decide, by decide, by decide, by decide⟩, machine_ready _,
    by unfold Spec.machineMay; decide +kernel, by decide +kernel, by decide +kernel⟩
/-! ### Matrix engine -/

/-- A hart with a map at x2, x3, a descriptor in x4, and x5. -/
def mhart (d : W64) (mapb : W64) : Hart := { sampleHart with x := [0, 0, 0x4000000, mapb, d, 3] ++ List.replicate 26 0 }

/-- B of 16 columns and 16 rows of FP32, bound. -/
def bind16 : Binding := { bmap := { oma := 0x4000000, omb := 0, t := false }, n := 16, k := 16 }

/-- The team's matrix context, changed. -/
def mxs (x : Ctx) (s : State) : State := updCluster s 0 fun k => { k with mx := { k.mx with ctxs := [(0, { x with tid := some 0 })] } }

/-- A context with a weight binding, in a batch that has the feed registers 0 and 1, at position 1 of a chain of two. -/
def bound : Ctx := { Ctx.reset with binding := some bind16, batch := some 3, chain := some { len := 2, pos := 1, tag := 0 } }

theorem test_meets_MatrixInstructionsIssue :
    (Spec.HartAt (.mldw 6 2 4) (hat id (hteam (mhart 0x100400000 0))) 0 (hteam (mhart 0x100400000 0)) (mhart 0x100400000 0) ∧
      (mapOf (mhart 0x100400000 0) 2 false).ok = true ∧ Spec.size 0x100400000 22 16 ∧ 16 * bitsOf 0x100400000 32 12 = 16 ∧
      mapBeyond (mapOf (mhart 0x100400000 0) 2 false) 16 16 4096 = false ∧ (0x100400000 : W64) &&& ~~~(0x00000FFF00C10000 : W64) = 0) ∧
    (Spec.HartAt (.mmulMap 6 2 4) (hat (mxs bound) (hteam (mhart 0x100000 0))) 0 (hteam (mhart 0x100000 0)) (mhart 0x100000 0) ∧
      Spec.MmulOk (hteam (mhart 0x100000 0)) { bound with tid := some 0 } 0x100000 0x000000000031001F bind16 16 0 0 ∧
      Spec.HartAt (.mmulFeed 6 0 4) (hat (mxs bound) (hteam (mhart 0x100000 0))) 0 (hteam (mhart 0x100000 0)) (mhart 0x100000 0) ∧
      Spec.MmulOk (hteam (mhart 0x100000 0)) { bound with tid := some 0 } 0x100000 0x000000000F30001F bind16 16 0 0 ∧
      streamFmt 0 = true ∧ 4096 * 0 + streamBytes 0 16 16 ≤ 16384 ∧ feedsNamed 3 0 (streamBytes 0 16 16) = true ∧
      Spec.HartAt (.mmulWest 6 4) (hat (mxs bound) (hteam (mhart 0x100000 0))) 0 (hteam (mhart 0x100000 0)) (mhart 0x100000 0)) ∧
    (Spec.HartAt (.mdrain 6 2 4) (hat id (hteam (mhart 0x500000 0))) 0 (hteam (mhart 0x500000 0)) (mhart 0x500000 0) ∧
      Spec.size 0x500000 20 16 ∧ Spec.size 0x500000 22 16 ∧ (0x500000 : W64) &&& ~~~(0x0000000000FD001F : W64) = 0 ∧
      drainFmtOk .none 0 false false = true) ∧
    (Spec.HartAt (.mzero 6 1) (hat id (hteam (hart 1 0))) 0 (hteam (hart 1 0)) (hart 1 0) ∧ (1 : W64).toNat < 2 ^ 1 ∧
      Spec.HartAt (.mbegin 6 15) (hat id (hteam (hart 1 0))) 0 (hteam (hart 1 0)) (hart 1 0) ∧
      Spec.HartAt (.mend 6) (hat (mxs bound) (hteam (hart 1 0))) 0 (hteam (hart 1 0)) (hart 1 0) ∧
      Spec.HartAt (.mchain 6 1 9 0) (hat (mxs { Ctx.reset with batch := some 0 }) (hteam (hart 1 0))) 0 (hteam (hart 1 0)) (hart 1 0) ∧
      Spec.HartAt (.mstat 6) (hat id (hteam (hart 1 0))) 0 (hteam (hart 1 0)) (hart 1 0)) ∧
    (Spec.HartAt (.mzero 6 1) (hat id (hteam sickHart)) 0 (hteam sickHart) sickHart ∧ sickHart.pd 1 = true ∧
      (let t := { hteam (hart 0 0) with place := { (hteam (hart 0 0)).place with ctx := none } }
       Spec.HartAt (.mzero 6 1) (hat id t) 0 t (hart 0 0))) :=
  ⟨⟨hready _ _ _, by decide, by unfold Spec.size; decide, by decide, by decide, by decide⟩,
    ⟨hready _ _ _, ⟨by decide, rfl, by unfold Spec.size; decide, by decide, by decide, by decide⟩, hready _ _ _,
      ⟨by decide, rfl, by unfold Spec.size; decide, by decide, by decide, by decide⟩, by decide, by decide, by decide, hready _ _ _⟩,
    ⟨hready _ _ _, by unfold Spec.size; decide, by unfold Spec.size; decide, by decide, by decide⟩,
    ⟨hready _ _ _, by decide, hready _ _ _, hready _ _ _, hready _ _ _, hready _ _ _⟩, hready _ _ _, by decide, hready _ _ _ _⟩

/-- A cluster that serves context 0, whose next operation is of a kind; st: its progress, run: whether the array has it. -/
def serving (k : MKind) (st : Nat) (run : Option Nat) : State :=
  { hat id (hteam (hart 0 0)) with
    cur := .cluster 0,
    clusters := [(0, { Cluster.reset with mx := { Matrix.reset with
      ctxs := [(0, { Ctx.reset with tid := some 0, ops := [{ num := 1, kind := k, acq := [], pc := 0 }], steps := st })], running := run } })] }

/-- Operations of other contexts and chains there are none. -/
theorem serves (k : MKind) (st : Nat) (run : Option Nat) : Spec.Serves (serving k st run) 0 0 { num := 1, kind := k, acq := [], pc := 0 } [] :=
  ⟨rfl, by decide, rfl, fun j => by rcases j with _ | j <;> rfl⟩

/-- MMUL of 16 rows into slot 0, and a drain of slot 0. -/
def mmul16 : MKind := .mmul bind16 (.map bind16.bmap) 16 0 false
def mdrain16 : MKind := .mdrain bind16.bmap 16 16 0 false false false

/-- The array holds the weights of the first segment. -/
def latchedState : State :=
  updCluster (serving mmul16 255 (some 0)) 0 fun k =>
    { k with mx := { k.mx with latch := some { ctx := 0, num := 1, seg := 15, cols := List.replicate 16 [] } } }

/-- The system context's MZERO of both its slots. -/
def sysZero : State :=
  { serving .mldw 0 none with
    clusters := [(0, { Cluster.reset with mx := { Matrix.reset with
      ctxs := [(4, { Ctx.reset with ops := [{ num := 1, kind := .mzero 0x30000, acq := [], pc := 0 }] })] } })] }

theorem test_meets_MatrixOperationsRun :
    (Spec.Serves (serving .mldw 0 none) 0 0 { num := 1, kind := .mldw, acq := [], pc := 0 } [] ∧
      Spec.Serves (serving (.mzero 1) 0 none) 0 0 { num := 1, kind := .mzero 1, acq := [], pc := 0 } [] ∧
      Spec.Serves (serving (.mbegin 15) 0 none) 0 0 { num := 1, kind := .mbegin 15, acq := [], pc := 0 } [] ∧
      Spec.Serves (serving .mend 0 none) 0 0 { num := 1, kind := .mend, acq := [], pc := 0 } [] ∧
      (∀ k ∈ [MKind.mldw, .mzero 1, .mbegin 15, .mend], selectCtx (serving k 0 none) 0 = some 0 ∧
        (getCluster (serving k 0 none) 0).mx.running = none ∧ (getCluster (serving k 0 none) 0).preempt = .none)) ∧
    (Spec.Serves sysZero 0 4 { num := 1, kind := .mzero 0x30000, acq := [], pc := 0 } [] ∧ selectCtx sysZero 0 = some 4 ∧
      (getCtx (getCluster sysZero 0).mx 4).tid = none) ∧
    (Spec.Serves (serving mmul16 0 (some 0)) 0 0 { num := 1, kind := mmul16, acq := [], pc := 0 } [] ∧
      (Config.engineDisabled 0 = false → engineRuns (serving mmul16 0 (some 0)) 0 = true) ∧
      latched (getCluster (serving mmul16 0 (some 0)) 0) 0 { num := 1, kind := mmul16, acq := [], pc := 0 } 0 = false ∧
      ∀ j ∈ upFrom 0 16, runFull (getCluster (serving .mldw 0 none) 0) { cluster := 0, base := 0, size := 4096 } bind16.bmap j
        (segRange 0 16 0) = true) ∧
    (Spec.Serves latchedState 0 0 { num := 1, kind := mmul16, acq := [], pc := 0 } [] ∧ (getCluster latchedState 0).mx.running = some 0 ∧
      (∃ l, (getCluster latchedState 0).mx.latch = some l ∧ l.ctx = 0 ∧ l.num = 1 ∧ l.seg = 255 / 16) ∧
      runFull (getCluster latchedState 0) { cluster := 0, base := 0, size := 4096 } bind16.bmap 15 (segRange 0 16 15) = true) ∧
    (Spec.Serves (updCluster (serving mmul16 3 (some 0)) 0 fun k => { k with preempt := .requested }) 0 0
        { num := 1, kind := mmul16, acq := [], pc := 0 } [] ∧
      ∀ j < 5, rankOf (getCtx (getCluster (serving mmul16 3 (some 0)) 0).mx 0) 0 <
          rankOf (getCtx (getCluster (serving mmul16 3 (some 0)) 0).mx j) j →
        (getCtx (getCluster (serving mmul16 3 (some 0)) 0).mx j).ops = []) ∧
    (Spec.Serves (serving mdrain16 0 (some 0)) 0 0 { num := 1, kind := mdrain16, acq := [], pc := 0 } [] ∧
      Spec.Serves (serving mdrain16 255 (some 0)) 0 0 { num := 1, kind := mdrain16, acq := [], pc := 0 } []) :=
  ⟨⟨serves _ _ _, serves _ _ _, serves _ _ _, serves _ _ _, by decide⟩,
    ⟨⟨rfl, by decide, rfl, fun j => by rcases j with _ | _ | _ | _ | _ | j <;> rfl⟩, by decide⟩,
    ⟨serves _ _ _, fun h => by simp [engineRuns, h]; decide, by decide, by decide⟩, ⟨⟨rfl, by decide, rfl, fun j => by rcases j with _ | j <;> rfl⟩, rfl, by decide⟩,
    ⟨⟨rfl, by decide, rfl, fun j => by rcases j with _ | j <;> rfl⟩, by decide⟩, serves _ _ _, serves _ _ _⟩

/-- MMUL of 16 rows from feed registers, at its first step; row 0 of feed register 0 is full. -/
def feedKind : MKind := .mmul bind16 (.feed 0 0) 16 0 false
def fedState : State :=
  updCluster (serving feedKind 0 (some 0)) 0 fun k =>
    { k with mx := { k.mx with latch := some { ctx := 0, num := 1, seg := 0, cols := List.replicate 16 [] },
                               feeds := [(0, { Feed.reset with full := [(0, true)] })] } }

/-- The team of the chain's second member, on cluster 1. -/
def mate : Team :=
  { hteam (hart 0 0) with tid := 1, ref := .launch 0 1 1, place := { (hteam (hart 0 0)).place with cluster := 1 } }

/-- The matrix engine of a member of a chain of two at its first step, with that operation and those weights. -/
def memberOf (tid pos : Nat) (k : MKind) (l : Option Latch) (f : Sp Feed) : Cluster :=
  { Cluster.reset with mx := { Matrix.reset with
      ctxs := [(0, { Ctx.reset with tid := some tid, formed := some { len := 2, pos := pos, tag := 0 },
                                    ops := [{ num := 1, kind := k, acq := [], pc := 0 }] })],
      running := some 0, latch := l, feeds := f } }

/-- A chain of two whose head forwards its operation to the other's west form. -/
def chained (cur : Nat) (a : AForm) (l : Option Latch) (f : Sp Feed) : State :=
  { hat id (hteam (hart 0 0)) with
    cur := .cluster cur, teams := [hteam (hart 0 0), mate],
    clusters := [(0, memberOf 0 0 (.mmul bind16 a 16 0 true) l f), (1, memberOf 1 1 (.mmul bind16 (.west a.fmt) 16 1 false) l [])] }

theorem inStep (cur : Nat) (a : AForm) (l : Option Latch) (f : Sp Feed) (h : a = .map bind16.bmap ∨ a = .feed 0 0) :
    Spec.Paired (chained cur a l f) (0, 0) (1, 0) { num := 1, kind := .mmul bind16 a 16 0 true, acq := [], pc := 0 }
      { num := 1, kind := .mmul bind16 (.west a.fmt) 16 1 false, acq := [], pc := 0 } bind16 bind16 a 16 0 1 := by
  rcases h with rfl | rfl <;>
    exact ⟨by decide, by decide, ⟨(0, 1, 0, 2, 0), rfl, rfl, rfl⟩, ⟨_, rfl, rfl⟩, ⟨rfl, rfl⟩, ⟨rfl, _, _, rfl⟩, rfl, rfl, ⟨rfl, rfl⟩, rfl, rfl⟩

/-- The weights of the first segment. -/
def weights : Latch := { ctx := 0, num := 1, seg := 0, cols := List.replicate 16 [] }

theorem test_meets_MatrixOperationsRun_sources :
    (Spec.Serves fedState 0 0 { num := 1, kind := feedKind, acq := [], pc := 0 } [] ∧ (getCluster fedState 0).mx.running = some 0 ∧
      Spec.holdsWeights (getCluster fedState 0) 0 { num := 1, kind := feedKind, acq := [], pc := 0 } 0 weights ∧
      (∃ row, Spec.rowAtHand (getCluster fedState 0) { cluster := 0, base := 0, size := 4096 } (.feed 0 0) 16 0 0 0 row) ∧
      (∀ g, AForm.feed 0 0 ≠ .west g)) ∧
    ((Config.engineDisabled 1 = false → engineRuns (chained 1 (.feed 0 0) none []) 1 = true) ∧
      latched (getCluster (chained 1 (.feed 0 0) none []) 1) 0
        { num := 1, kind := .mmul bind16 (.west 0) 16 1 false, acq := [], pc := 0 } 0 = false ∧
      ∀ j < 16, runFull (getCluster (chained 1 (.feed 0 0) none []) 1) { cluster := 1, base := 0, size := 4096 } bind16.bmap j
        (segRange 0 16 0) = true) ∧
    (let s := chained 0 (.map bind16.bmap) (some weights) []
     (Config.engineDisabled 0 = false → engineRuns s 0 = true) ∧
      Spec.holdsWeights (getCluster s 0) 0 { num := 1, kind := .mmul bind16 (.map bind16.bmap) 16 0 true, acq := [], pc := 0 } 0 weights ∧
      Spec.holdsWeights (getCluster s 1) 0 { num := 1, kind := .mmul bind16 (.west 0) 16 1 false, acq := [], pc := 0 } 0 weights ∧
      ∃ row, Spec.rowAtHand (getCluster s 0) { cluster := 0, base := 0, size := 4096 } (.map bind16.bmap) 16 0 0 0 row) ∧
    (∃ row, Spec.rowAtHand (getCluster (chained 0 (.feed 0 0) (some weights) [(0, { Feed.reset with full := [(0, true)] })]) 0)
      { cluster := 0, base := 0, size := 4096 } (.feed 0 0) 16 0 0 0 row) :=
  ⟨⟨⟨rfl, by decide, rfl, fun j => by rcases j with _ | j <;> rfl⟩, rfl, ⟨rfl, rfl, rfl, rfl⟩, ⟨_, by decide, rfl⟩, nofun⟩,
    ⟨fun h => by simp [engineRuns, h]; decide, by decide, by decide⟩,
    ⟨fun h => by simp [engineRuns, h]; decide, ⟨rfl, rfl, rfl, rfl⟩, ⟨rfl, rfl, rfl, rfl⟩, ⟨_, by decide, rfl⟩⟩, ⟨_, by decide, rfl⟩⟩
/-! ### Copies -/

/-- A template: 16 elements of 16 bytes in a row, from global memory to scratchpad (dir 0) or back (dir 1). -/
def tmpl (dir : Nat) : Template :=
  { src := if dir = 0 then 0x1000 else 0, dst := if dir = 0 then 0 else 0x1000, ss := [16, 0, 0, 0], ds := [16, 0, 0, 0], n := [15, 0, 0, 0], dir := dir,
    esz := 16, xp := false, emp := false, dec := false, srot := 0, drot := 0, dsel := 0, mcn := 0, mcs := 0, ctab := 0 }

/-- A copy of a template, at its last byte. -/
def copy (dir : Nat) : Copy :=
  { num := 1, root := 1, tmpl := tmpl dir, disp := 0, tid := 0, launch := some (0, 1, 0), dstTid := 0, prog := 255, ahead := [], fetched := [], halted := false, finished := false,
    table := [], tablePoison := false, bitpos := 0, hop := 0, carried := [], tile := [], left := [], dirty := [], acq := [], wrote := [] }

/-- Channel 0 of cluster 0 has that copy. -/
def copying (x : Copy) (s : State) : State :=
  updCluster (mapped s) 0 fun k => { k with chans := [(0, { issued := 1, copies := [x], rel := [] })] }

/-- A state with a team, in which that copy moves. -/
def moving (x : Copy) : State := hat (copying x) (hteam (hart 0 0))

/-- It may move. -/
theorem moves (x : Copy) (hf : findCopy (moving x) 0 0 1 = some x := by rfl)
    (hg : x.finished = false ∧ x.halted = false ∧ channelsRun (moving x) 0 = true := by decide) (hm : x.prog < x.tmpl.bytes ∧ x.prog ∉ x.ahead := by decide)
    (ht : copyTeam (moving x) x = some (hteam (hart 0 0)) := by rfl) : Spec.Moves (moving x) 0 0 1 x (hteam (hart 0 0)) :=
  ⟨hf, hg, hm, ht, rfl⟩

/-- The last byte alone is still to be written. -/
theorem last_byte (x : Copy) (i : Nat) (h : Spec.toWrite x i) (hp : x.prog = 255 := by rfl) (hb : x.tmpl.bytes = 256 := by decide) : i = 255 := by
  obtain ⟨h1, h2, -⟩ := h
  omega

/-- The same copy with its last byte read. -/
def got (x : Copy) : Copy := { x with fetched := [{ idx := 255, byte := 7, poison := false, start := 0 }] }

/-- A copy from scratchpad to scratchpad, one to feed register 0, a hop, and one whose source is encoded: value 0 has the one-bit code 0. -/
def within : Copy := { copy 1 with tmpl := { tmpl 1 with dst := 0x100, dir := 2 } }
def feeding : Copy := { copy 0 with tmpl := { tmpl 0 with dir := 4 } }
def hopping : Copy := { copy 0 with hop := 1, carried := List.replicate 256 (7, true) }
def decoding : Copy := { copy 0 with tmpl := { tmpl 0 with dec := true }, table := [1], bitpos := 9 }

/-- What the next step of a copy may do, with one byte read or none. -/
structure Goes (s : State) (x : Copy) : Prop where
  moves : Spec.Moves s 0 0 1 x (hteam (hart 0 0))
  gives : ∀ i, Spec.toWrite x i → x.got i = none → ∃ b pos, Spec.Gives s x (hteam (hart 0 0)) (x.source i) b pos
  takes : ∀ i f, Spec.toWrite x i → x.got i = some f → Spec.CopyTakes s x (hteam (hart 0 0)) i f.poison

/-- A copy that has read nothing. -/
theorem goesReading (s : State) (x : Copy) (hm : Spec.Moves s 0 0 1 x (hteam (hart 0 0)))
    (hg : ∃ b pos, Spec.Gives s x (hteam (hart 0 0)) (x.source 255) b pos) (hf : x.fetched = [] := by rfl) (hp : x.prog = 255 := by rfl)
    (hb : x.tmpl.bytes = 256 := by decide) : Goes s x ∧ ∀ i, Spec.toWrite x i → x.got i = none :=
  ⟨⟨hm, fun i h _ => by rw [last_byte x i h hp hb]; exact hg, fun i f _ h => by simp [Copy.got, hf] at h⟩, fun i _ => by simp [Copy.got, hf]⟩

/-- A copy that has read all. -/
theorem goesWriting (s : State) (x : Copy) (hm : Spec.Moves s 0 0 1 x (hteam (hart 0 0)))
    (ht : Spec.CopyTakes s x (hteam (hart 0 0)) 255 false) (hf : x.fetched = (got x).fetched := by rfl) (hp : x.prog = 255 := by rfl)
    (hb : x.tmpl.bytes = 256 := by decide) : Goes s x ∧ ∀ i, Spec.toWrite x i → (x.got i).isSome = true := by
  have hg : ∀ i, Spec.toWrite x i → x.got i = some { idx := 255, byte := 7, poison := false, start := 0 } := fun i h => by
    rw [last_byte x i h hp hb, Copy.got, hf]; rfl
  exact ⟨⟨hm, fun i h hn => by simp [hg i h] at hn, fun i f h hn => by
    rw [hg i h] at hn; cases hn; rw [last_byte x i h hp hb]; exact ht⟩, fun i h => by simp [hg i h]⟩

/-- An image that holds team 9 of launch 2. -/
def imaged : Image :=
  { id := 5, fn := 0, cls := 1, order := 5, cluster := Cluster.reset, teams := [{ hteam (hart 0 0) with ref := .launch 0 2 9 }], acq := [], ops := [] }

/-- The object has a template. -/
def withTmpl (s : State) : State := withObj (fun o => { o with templates := [tmpl 0], tbase := 0 }) (mapped s)

theorem test_meets_CopiesRun :
    (let h := { hart (BitVec.ofNat 64 apertureBase) 0 with pc := 0 }
     Spec.HartAt (.hartStore .d 1 2 120) (hat withTmpl (hteam h)) 0 (hteam h) h ∧
      (h.rd 1 + (120 : BitVec 12).signExtend 64).toNat = apertureBase + 8 * 15 ∧ copyCheck (hat withTmpl (hteam h)) (hteam h) (h.rd 2) = none ∧
      copyCheck (hat id (hteam h)) (hteam h) (h.rd 2) ≠ none ∧ channelRoom (hat withTmpl (hteam h)) 0 15 1 = true ∧
      missingTemplate (hat withTmpl (hteam h)) (hteam h) (storeIndex (h.rd 2)) = none ∧ (hteam h).partner = none ∧ h.stores = []) ∧
    ((Goes (moving (copy 0)) (copy 0) ∧ ∀ i, Spec.toWrite (copy 0) i → (copy 0).got i = none) ∧
      (Goes (moving (copy 1)) (copy 1) ∧ ∀ i, Spec.toWrite (copy 1) i → (copy 1).got i = none) ∧
      (Goes (moving within) within ∧ ∀ i, Spec.toWrite within i → within.got i = none) ∧
      (Goes (moving hopping) hopping ∧ ∀ i, Spec.toWrite hopping i → hopping.got i = none) ∧
      (Goes (moving decoding) decoding ∧ ∀ i, Spec.toWrite decoding i → decoding.got i = none)) ∧
    ((Goes (moving (got (copy 0))) (got (copy 0)) ∧ ∀ i, Spec.toWrite (got (copy 0)) i → ((got (copy 0)).got i).isSome = true) ∧
      (Goes (moving (got (copy 1))) (got (copy 1)) ∧ ∀ i, Spec.toWrite (got (copy 1)) i → ((got (copy 1)).got i).isSome = true) ∧
      (Goes (moving (got feeding)) (got feeding) ∧ ∀ i, Spec.toWrite (got feeding) i → ((got feeding).got i).isSome = true)) ∧
    ((let s := hat (fun s => { copying (copy 0) s with xlat := (elsewhere s).xlat }) (hteam (hart 0 0))
      Goes s (copy 0) ∧ isRemote s 0 0x10FF = true ∧ linked s = true) ∧
     (let s := hat (fun s => { copying (got (copy 1)) s with xlat := (elsewhere s).xlat }) (hteam (hart 0 0))
      Goes s (got (copy 1)) ∧ isRemote s 0 0x10FF = true ∧ linked s = true)) ∧
    (let x := { copy 0 with tmpl := { tmpl 0 with src := 0x5000 } }
     Spec.Moves (moving x) 0 0 1 x (hteam (hart 0 0)) ∧ Spec.readsMemory x ∧ x.fetched = [] ∧
      (∀ i, Spec.toWrite x i → checkAccess (moving x) 0 false (Spec.sourceAt x i : Int) 1 false [.read] = some 3) ∧
      mapOnDemand (moving x) 0 (Spec.sourceAt x x.prog) = none) ∧
    findCopy (moving { copy 0 with halted := true }) 0 0 1 = some { copy 0 with halted := true } ∧
    (let x := { copy 0 with launch := some (0, 1, 0) }
     let s := updCluster (hat id (hteam (hart 0 0))) 0 fun k => { k with hops := [(0, x)] }
     (getCluster s 0).hops.find? (fun e => decide (e.1 = 0) && decide (e.2.num = 1)) = some (0, x) ∧
      launchTeam s 0 1 (0 + (x.hop + 1) * x.tmpl.mcs) = some (hteam (hart 0 0)) ∧ channelRoom s 0 0 1 = true ∧ channelsRun s 0 = true ∧
      launchTeam s 0 2 9 = none ∧ teamToCome s 0 2 9 = false ∧
      teamToCome { s with loom := { s.loom with images := [imaged] } } 0 2 9 =
        true) :=
  ⟨⟨hready _ _ _, by decide, by decide, by decide, by decide, by decide, rfl, rfl⟩,
    ⟨goesReading _ _ (moves _) ⟨_, 0, .inr (.inr (.inr ⟨⟨rfl, rfl, rfl⟩, rfl, by decide, by decide, fun _ => by decide, fun _ => rfl⟩))⟩,
      goesReading _ _ (moves _) ⟨_, 0, .inr (.inr (.inl ⟨rfl, rfl, rfl, rfl, rfl⟩))⟩,
      goesReading _ _ (moves _) ⟨_, 0, .inr (.inr (.inl ⟨rfl, rfl, rfl, rfl, rfl⟩))⟩,
      goesReading _ _ (moves _) ⟨_, 0, .inl ⟨by decide, rfl, rfl, rfl⟩⟩,
      goesReading _ _ (moves _) ⟨_, 10, .inr (.inl ⟨rfl, rfl, decoding, 0, false, fun _ => rfl, fun ⟨_, l⟩ => by cases l <;> rfl, rfl⟩)⟩⟩,
    ⟨goesWriting _ _ (moves _) (.inl (by decide)), goesWriting _ _ (moves _) (.inr (.inr ⟨by decide, by decide⟩)),
      goesWriting _ _ (moves _) (.inr (.inl (by decide)))⟩,
    ⟨⟨(goesReading _ _ ⟨rfl, by decide, by decide, rfl, rfl⟩
        ⟨(0, false), 0, .inr (.inr (.inr ⟨⟨rfl, rfl, rfl⟩, rfl, by decide, by decide, fun _ => by decide,
          fun h => absurd h (by decide)⟩))⟩).1, by decide, by decide⟩,
      (goesWriting _ _ ⟨rfl, by decide, by decide, rfl, rfl⟩ (.inr (.inr ⟨by decide, fun _ => ⟨rfl, by decide⟩⟩))).1, by decide, by decide⟩,
    ⟨moves _, ⟨rfl, rfl, rfl⟩, rfl, fun i h => by rw [last_byte _ i h]; decide, by decide⟩, rfl, by decide⟩
/-! ### Tasks -/

/-- Bytes at an address of function 0, on every die. -/
def holds (a : Nat) (b : List Byte) (s : State) : State :=
  { s with mem := { s.mem with views := s.mem.views.map fun v => { v with mem := memWrite v.mem a b } } }

/-- A TCB of object 1, one strand, class 1, with a counter. -/
def tcb (dep : Nat) : List Byte :=
  leBytes 4 1 ++ leBytes 4 0 ++ leBytes 4 0xFFFFFFFF ++ leBytes 2 1 ++ [1, 0] ++ leBytes 8 0 ++ leBytes 4 dep ++ leBytes 100 0

/-- A card for it, with no tile. -/
def card : List Byte := leBytes 8 0x1000 ++ leBytes 56 0

/-- The TCB at 1000h and the card at 1800h. -/
def tasked (s : State) : State := holds 0x1800 card (holds 0x1000 (tcb 0) (mapped s))

/-- The same in a poisoned granule. -/
def ruined (s : State) : State :=
  { tasked s with mem := { (tasked s).mem with views := (tasked s).mem.views.map fun v => { v with poison := [(0x40, true), (0x60, true)] } } }

/-- An enqueued task of that TCB, with a counter of 1. -/
def task (state : Nat) : Task := { tcbTask 0 false 0 0x1000 (tcb 1) with seq := 1, state := state }

/-- The engine holds it. -/
def queued (state : Nat) (s : State) : State := { tasked s with tasks := { s.tasks with tasks := [task state] } }

/-- A task whose counter is 0; a counter in memory alone. -/
def idleTask (s : State) : State := { tasked s with tasks := { s.tasks with tasks := [{ task 1 with dep := 0, state := 2 }] } }
def counted (s : State) : State := holds 0x1000 (tcb 1) (mapped s)

/-- The team of a task that has not committed. -/
def taskTeam (h : Hart) : Team := { hteam h with ref := .task 0 0x2000 }

/-- A task instruction reads its structure of n bytes at a. -/
theorem taskAt (f : State → State) (i : Instr) (a : W64) (n : Nat) (t : Team := hteam (hart a 0)) (hl : legal i = true := by decide)
    (hc : (hat f t).cur = .hart 0 := by rfl) (ht : getTeam (hat f t) 0 = some t := by rfl) (hh : t.hart = some (hart a 0) := by rfl)
    (hm : t.inM = false := by rfl) (hx : checkAccess (hat f t) t.fn t.secure (((hart a 0).rd 1).toNat : Int) n true [.read] = none := by decide +kernel)
    (hr : (tlbLookup (hat f t) t.place.cluster t.fn ((hart a 0).rd 1).toNat).1 = true := by decide +kernel)
    (hs : missingOf (hat f t) t.fn (upFrom ((hart a 0).rd 1).toNat n) = none := by decide +kernel) (hp : t.partner = none := by rfl)
    (hd : teamPerformed (hat f t) t = true := by rfl) (hq : (hart a 0).pd 1 = false := by decide)
    (hz : isRemote (hat f t) t.fn ((hart a 0).rd 1).toNat = false := by decide +kernel) : Spec.TaskAt i (hat f t) 0 t (hart a 0) 1 n :=
  ⟨hready f i (hart a 0) t hl hc ht hh hm rfl, ⟨hq, hx, hr, fun _ => hs, hp⟩, hd, hz⟩

/-- The task engine's look at a state of these tests. -/
abbrev seen (f : State → State) (t : Team) : Look := Spec.look (hat f t)

/-- A hart whose task instruction names a structure of another module; lost: its request to it is. -/
def asking (w : HWait) : Hart := { hart 0x1000 0 with wait := w }

/-- It may read that structure, on whose TLB entry it need not wait. -/
theorem may_ask (w : HWait) (n : Nat) (hn : n = 64 ∨ n = 128) :
    Spec.Allowed (hat elsewhere (hteam (asking w))) (hteam (asking w)) (asking w) 1 0x1000 n .read := by
  rcases hn with rfl | rfl <;> exact ⟨show (hart 0x1000 0).pd 1 = false by decide, rfl, rfl, fun _ => rfl, rfl⟩

theorem test_meets_TaskInstructions :
    (Spec.TaskAt (.tenq 3 1) (hat ruined (hteam (hart 0x1000 0))) 0 (hteam (hart 0x1000 0)) (hart 0x1000 0) 1 128 ∧
      readTcb (hat ruined (hteam (hart 0x1000 0))) (seen ruined (hteam (hart 0x1000 0))) 0 0 false 0x1000 = none) ∧
    (Spec.TaskAt (.tenq 3 1) (hat tasked (hteam (hart 0x1000 0))) 0 (hteam (hart 0x1000 0)) (hart 0x1000 0) 1 128 ∧
      (readTcb (hat tasked (hteam (hart 0x1000 0))) (seen tasked (hteam (hart 0x1000 0))) 0 0 false 0x1000 = some (tcbTask 0 false 0 0x1000 (tcb 0), tcb 0) ∧
        enqStatus (hat tasked (hteam (hart 0x1000 0))) (tcbTask 0 false 0 0x1000 (tcb 0)) (tcb 0) (decide ((hteam (hart 0x1000 0)).cls = 3)) = 0 ∧
        defers (hteam (hart 0x1000 0)) = false) ∧
      enqStatus (hat (queued 1) (hteam (hart 0x1000 0))) (tcbTask 0 false 0 0x1000 (tcb 0)) (tcb 0) false = 3) ∧
    (Spec.TaskAt (.tenq 3 1) (hat tasked (taskTeam (hart 0x1000 0))) 0 (taskTeam (hart 0x1000 0)) (hart 0x1000 0) 1 128 ∧
      Spec.TaskAt (.tcard 3 1) (hat tasked (taskTeam (hart 0x1800 0))) 0 (taskTeam (hart 0x1800 0)) (hart 0x1800 0) 1 64 ∧
      defers (taskTeam (hart 0x1000 0)) = true ∧ defers (taskTeam (hart 0x1800 0)) = true) ∧
    (Spec.TaskAt (.tsig 3 1) (hat (queued 1) (hteam (hart 0x1000 0))) 0 (hteam (hart 0x1000 0)) (hart 0x1000 0) 1 128 ∧
      poisonAt (hat (queued 1) (hteam (hart 0x1000 0))) 0 (gkey 0 0x1018) = false ∧
      getTask (hat (queued 1) (hteam (hart 0x1000 0))) 0 0x1000 = some (task 1) ∧ (task 1).dep ≠ 0) ∧
    (Spec.TaskAt (.tsig 3 1) (hat idleTask (hteam (hart 0x1000 0))) 0 (hteam (hart 0x1000 0)) (hart 0x1000 0) 1 128 ∧
      (∃ k, getTask (hat idleTask (hteam (hart 0x1000 0))) 0 0x1000 = some k ∧ k.dep = 0) ∧
      Spec.TaskAt (.tsig 3 1) (hat ruined (hteam (hart 0x1000 0))) 0 (hteam (hart 0x1000 0)) (hart 0x1000 0) 1 128 ∧
      poisonAt (hat ruined (hteam (hart 0x1000 0))) 0 (gkey 0 0x1018) = true ∧
      Spec.TaskAt (.tsig 3 1) (hat counted (hteam (hart 0x1000 0))) 0 (hteam (hart 0x1000 0)) (hart 0x1000 0) 1 128 ∧
      getTask (hat counted (hteam (hart 0x1000 0))) 0 0x1000 = none ∧ depInMemory (hat counted (hteam (hart 0x1000 0))) (seen counted (hteam (hart 0x1000 0))) 0 0 0x1000 = 1 ∧
      (findPage (hat counted (hteam (hart 0x1000 0))).xlat 0 0x1018).isSome = true) ∧
    (Spec.TaskAt (.tcard 3 1) (hat ruined (hteam (hart 0x1800 0))) 0 (hteam (hart 0x1800 0)) (hart 0x1800 0) 1 64 ∧
      readCard (hat ruined (hteam (hart 0x1800 0))) (seen ruined (hteam (hart 0x1800 0))) (hteam (hart 0x1800 0)) 0 0x1800 = none) ∧
    Spec.TaskAt (.tcard 3 1) (hat tasked (hteam (hart 0x1800 0))) 0 (hteam (hart 0x1800 0)) (hart 0x1800 0) 1 64 ∧
    (∃ c b, readCard (hat tasked (hteam (hart 0x1800 0))) (seen tasked (hteam (hart 0x1800 0))) (hteam (hart 0x1800 0)) 0 0x1800 = some (c, b) ∧
      (checkCard (hat tasked (hteam (hart 0x1800 0))) (seen tasked (hteam (hart 0x1800 0))) (hteam (hart 0x1800 0)) 0 c b).1 = 0) ∧
    (isRemote (hat elsewhere (hteam (asking .none))) 0 0x1000 = true ∧ linked (hat elsewhere (hteam (asking .none))) = true ∧
      (∀ w, Spec.Allowed (hat elsewhere (hteam (asking w))) (hteam (asking w)) (asking w) 1 0x1000 128 .read ∧
        Spec.Allowed (hat elsewhere (hteam (asking w))) (hteam (asking w)) (asking w) 1 0x1000 64 .read) ∧
      Spec.HartAt (.tenq 3 1) (hat elsewhere (hteam (hart 0x1000 0))) 0 (hteam (hart 0x1000 0)) (hart 0x1000 0) ∧
      Spec.HartAt (.tsig 3 1) (hat elsewhere (hteam (hart 0x1000 0))) 0 (hteam (hart 0x1000 0)) (hart 0x1000 0) ∧
      Spec.HartAt (.tcard 3 1) (hat elsewhere (hteam (hart 0x1000 0))) 0 (hteam (hart 0x1000 0)) (hart 0x1000 0)) :=
  ⟨⟨taskAt _ _ _ _, by decide +kernel⟩, ⟨taskAt _ _ _ _, by decide +kernel, by decide +kernel⟩,
    ⟨taskAt _ _ _ _ (taskTeam (hart 0x1000 0)), taskAt _ _ _ _ (taskTeam (hart 0x1800 0)), by decide⟩,
    ⟨taskAt _ _ _ _, by decide +kernel⟩,
    ⟨taskAt _ _ _ _, ⟨_, rfl, by decide +kernel⟩, taskAt _ _ _ _, by decide +kernel, taskAt _ _ _ _, by decide +kernel⟩,
    ⟨taskAt _ _ _ _, by decide +kernel⟩, taskAt _ _ _ _, ⟨_, _, rfl, by decide +kernel⟩, by decide +kernel, by decide +kernel,
    fun w => ⟨may_ask w 128 (.inr rfl), may_ask w 64 (.inl rfl)⟩, hready _ _ _, hready _ _ _, hready _ _ _⟩

/-- A card of that TCB on its way. -/
def sentCard : Card :=
  { id := 7, acq := [], fn := 0, secure := false, issuerQueue := 1, cls := 1, tcb := 0x1000, die := 0, remote := false, modid := 0, port := 0,
    tiles := [], lid := 1, team := 0, tcb2 := 0 }

/-- With that card. -/
def carded (s : State) : State := { s with tasks := { s.tasks with cards := [sentCard] } }

/-- A member of a redundant pair whose first visible access waits. -/
def member (tid other : Nat) : Team :=
  { hteam { hart 0 0 with wait := .pairAccess } with tid := tid, partner := some other, visible := [{ who := 4096, kind := 1, data := [5] }] }

/-- Both members. -/
def paired : State := { hat id (member 0 1) with teams := [member 0 1, member 1 0] }

/-- A request for a team of three strands. -/
def request : Req :=
  { ref := .launch 0 1 0, fn := 0, secure := false, cls := 1, obj := sampleObj [0x0007F801] [], nstr := 3, scrsize := 4096, args := [9], vent := 0,
    cent := 0xFFFFFFFF, queue := 1, twice := false, stopped := false, acq := [] }

/-- Members whose first accesses differ: at pc and a vector word. -/
def unequal : State :=
  { hat id (member 0 1) with teams := [member 0 1, { member 1 0 with visible := [{ who := 0, kind := 1, data := [5] }, { who := 4096, kind := 1, data := [6] }] }] }

/-- Members whose first accesses store other data: of their harts, or of their wefts 0. -/
def differing (who : Nat) : State :=
  let m (tid other d : Nat) : Team := { member tid other with visible := [{ who := who, kind := 1, data := [d] }] }
  { hat id (member 0 1) with teams := [m 0 1 5, m 1 0 6] }

/-- Function 0 has one cluster, where a team of class 0 holds the whole scratchpad; a task of class 1 wants some. -/
def crowd (s : State) : State :=
  { tasked s with
    loom := { s.loom with funcs := [(0, some { sampleFunc with clusters := 1 })] },
    tasks := { s.tasks with tasks := [{ task 2 with scrsize := 4096 }] } }

/-- A team of class 0 with the whole scratchpad, and without a matrix context. -/
def low : Team := { hteam (hart 0 0) with cls := 0, place := { (hteam (hart 0 0)).place with scrSize := 1048576, ctx := none } }

/-- The same, where the cluster is fenced. What is dispatched elsewhere depends on the engines that the configuration disables. -/
def shut (s : State) : State := updCluster (crowd s) 0 fun k => { k with fenced := true }

theorem test_meets_TasksAndTeamsStart :
    (getTask (hat (queued 2) (hteam (hart 0 0))) 0 0x1000 = some (task 2) ∧ (task 2).fn = 0 ∧ (task 2).tcb = 0x1000 ∧ (task 2).die ≠ (1 : BitVec 2).toNat ∧
      engineLoad (hat (queued 2) (hteam (hart 0 0))) 1 < 65536 ∧ getTask (hat (queued 1) (hteam (hart 0 0))) 0 0x1000 = some (task 1)) ∧
    ((carded (hat tasked (hteam (hart 0 0)))).tasks.cards.find? (fun c => c.id = 7) = some sentCard ∧
      readTcb (carded (hat tasked (hteam (hart 0 0)))) (lookNow (carded (hat tasked (hteam (hart 0 0))))).1 0 0 false 0x1000 = some (tcbTask 0 false 0 0x1000 (tcb 0), tcb 0) ∧
      enqStatus (carded (hat tasked (hteam (hart 0 0)))) (tcbTask 0 false 0 0x1000 (tcb 0)) (tcb 0) (decide (sentCard.cls = 3)) = 0 ∧
      readTcb (carded (hat ruined (hteam (hart 0 0)))) (lookNow (carded (hat ruined (hteam (hart 0 0))))).1 0 0 false 0x1000 = none) ∧
    (getTeam paired 0 = some (member 0 1) ∧ (member 0 1).partner = some 1 ∧ getTeam paired 1 = some (member 1 0) ∧
      (member 0 1).visible = [{ who := 4096, kind := 1, data := [5] }] ∧ (member 1 0).visible = [{ who := 4096, kind := 1, data := [5] }]) ∧
    pick State.reset 0 [3, 2, 1, 0] = .nothing ∧ (∀ t ∈ (placeTeam State.reset true [] []).teams, t.tid ≠ (placeTeam State.reset true [] []).nextId) ∧
    pick (hat shut low) 0 [3, 2, 1, 0] = .evict 0 ∧
    (getTeam unequal 0 = some (member 0 1) ∧ ∃ u, getTeam unequal 1 = some u ∧ ∃ a l b m, (member 0 1).visible = a :: l ∧ u.visible = b :: m ∧
      a.data = b.data ∧ a.who ≠ b.who) ∧
    (∀ who ∈ [0, 4096], ∃ t u a b, getTeam (differing who) 0 = some t ∧ t.partner = some 1 ∧ getTeam (differing who) 1 = some u ∧
      t.visible = [a] ∧ u.visible = [b] ∧ a.who = who ∧ ¬ (a.kind = b.kind ∧ a.data = b.data) ∧ t.hart.isSome = true ∧ (t.weft? 0).isSome = true) ∧
    request.nstr = 3 ∧ request.scrsize % 128 = 0 ∧ (sampleTeam true).place.scrBase % 128 = 0 :=
  ⟨by decide +kernel, by decide +kernel, by decide +kernel, by decide +kernel, by decide +kernel, by decide +kernel,
    ⟨rfl, _, rfl, _, _, _, _, rfl, rfl, rfl, by decide⟩,
    fun who h => ⟨_, _, _, _, rfl, rfl, rfl, rfl, rfl, rfl, fun e => absurd e.2 (by decide : ¬ ([5] : List Nat) = [6]), rfl, rfl⟩, rfl, rfl, rfl⟩

/-! ### Commands -/

/-- A frame of a code with fields at offsets. -/
def frm (opc : Nat) (l : List (Nat × Nat)) : Frame := BitVec.ofNat 1024 (l.foldl (fun a p => a + p.2 * 2 ^ (8 * p.1)) opc)

/-- A state in which queue q's command processor takes a frame: function 0 has queue 1, object 1, launch 1 and team 0. -/
def lm (q : Nat) (g : State → State) : State := g { placeTeam State.reset false [0x0007F801, 0] [] with cur := .command q 0 }

/-- What a command of the queue acts on. -/
def cmd (q : Nat) (f : Frame) (s : State) : Cmd :=
  { s := (takeFrame s q f).2, q := q, fn := (fnOfQueue s q).getD 0, secure := secureQueue s q, p := (takeFrame s q f).1, f := f }

/-- A queue takes a frame. -/
theorem takes (q : Nat) (g : State → State) (f : Frame) (opc : Nat) (admin own : Bool) (named : List (Nat × Nat))
    (hc : ∃ n, (lm q g).cur = .command q n := by exact ⟨0, rfl⟩) (ho : f.opc.toNat = opc := by decide +kernel)
    (hq : (if q = 0 then admin else own) = true := by decide) (hz : reservedZero f named = true := by decide +kernel) :
    Spec.Takes opc admin own named f (lm q g) (cmd q f (lm q g)) := ⟨hc, ho, hq, hz, rfl⟩

/-- MAP of two pages of 4 KiB at 8000h for reading and writing, with flags. -/
def mapFrame (mf : Nat) : Frame := frm 0x10 [(8, 0x8000), (0x10, 0x2000), (0x19, 3), (0x1C, mf)]

/-- The function has no quota. -/
def poor (s : State) : State := { s with loom := { s.loom with funcs := [(0, some { sampleFunc with squota := 0, gquota := 0 })] } }

/-- A port of a range. -/
def port : Port := { fn := 0, port := 5, va := 0x1000, size := 0x1000, rights := 3 }

/-- Port 5 is bound. -/
def ported (s : State) : State := { mapped s with xlat := { (mapped s).xlat with ports := [port] } }

/-- A frame with a range. -/
def ranged (opc va n : Nat) (l : List (Nat × Nat)) : Frame := frm opc ([(8, va), (0x10, n)] ++ l)

/-- The page at 1000h is an object's. -/
def owned' (s : State) : State := { mapped s with xlat := { (mapped s).xlat with pages := [{ page 0x1000 with obj := some 1 }] } }

/-- Team 0 has an outstanding load at 1000h. -/
def loading (s : State) : State := { mapped s with vops := [load { acc with addr := 0x1000 }] }

/-- The page at 1000h moves to another home; a walk for 3000h waits. -/
def migrating (s : State) : State :=
  { mapped s with cur := .die 0, xlat := { (mapped s).xlat with
      pages := [{ page 0x1000 with migrating := some { die := 1, sram := true } }, page 0x3000],
      walks := [{ die := 0, cluster := 0, fn := 0, va := 0x3000 }] } }

/-- The function has a page and no quota. -/
def poor' (s : State) : State := poor (mapped s)

theorem test_meets_MappingCommands :
    (Spec.Takes 0x10 false true [(8, 21), (0x20, 16)] (mapFrame 4) (lm 1 mapped) (cmd 1 (mapFrame 4) (lm 1 mapped)) ∧
      (fld (mapFrame 4) 0x1C 1).testBit 2 = true ∧ (cmd 1 (mapFrame 4) (lm 1 mapped)).secure = false) ∧
    (Spec.Takes 0x10 false true [(8, 21), (0x20, 16)] (mapFrame 9) (lm 1 mapped) (cmd 1 (mapFrame 9) (lm 1 mapped)) ∧
      Spec.mapMalformed (cmd 1 (mapFrame 9) (lm 1 mapped)) (mapFrame 9)) ∧
    (Spec.Takes 0x10 false true [(8, 21), (0x20, 16)] (mapFrame 0) (lm 1 mapped) (cmd 1 (mapFrame 0) (lm 1 mapped)) ∧
      Spec.Takes 0x10 false true [(8, 21), (0x20, 16)] (mapFrame 1) (lm 1 mapped) (cmd 1 (mapFrame 1) (lm 1 mapped)) ∧
      ¬ Spec.mapMalformed (cmd 1 (mapFrame 0) (lm 1 mapped)) (mapFrame 0) ∧ ¬ Spec.mapMalformed (cmd 1 (mapFrame 1) (lm 1 mapped)) (mapFrame 1) ∧
      quotaAllows (cmd 1 (mapFrame 0) (lm 1 mapped)).s 0 0x2000 0 = true ∧ quotaAllows (cmd 1 (mapFrame 0) (lm 1 poor)).s 0 0x2000 0 = false) ∧
    (Spec.Takes 0x14 false true [(8, 21)] (ranged 0x14 0x1000 0x1000 [(0x18, 6), (0x1C, 3)]) (lm 1 ported)
        (cmd 1 (ranged 0x14 0x1000 0x1000 [(0x18, 6), (0x1C, 3)]) (lm 1 ported)) ∧
      Spec.Takes 0x13 false true [(8, 18)] (ranged 0x13 0x1000 0x1000 [(0x18, 3), (0x19, 2)]) (lm 1 mapped)
        (cmd 1 (ranged 0x13 0x1000 0x1000 [(0x18, 3), (0x19, 2)]) (lm 1 mapped)) ∧ hintOk 3 2 = true ∧ hintOk 4 2 = false) ∧
    (Spec.Takes 0x11 false true [(8, 16)] (ranged 0x11 0x1000 0x1000 []) (lm 1 mapped) (cmd 1 (ranged 0x11 0x1000 0x1000 []) (lm 1 mapped)) ∧
      wholePages (lm 1 mapped) 0 0x1000 0x1000 = true ∧ (∃ p ∈ (lm 1 mapped).xlat.pages, p.meets 0 0x1000 0x1000 = true) ∧
      (∀ p ∈ (lm 1 mapped).xlat.pages, p.meets 0 0x5000 0x1000 = false) ∧ outstandingOn (lm 1 mapped) 0 0x1000 0x1000 = false ∧
      outstandingOn (lm 1 loading) 0 0x1000 0x1000 = true ∧ (∃ p ∈ (lm 1 owned').xlat.pages, p.meets 0 0x1000 0x1000 = true ∧ p.obj ≠ none)) ∧
    (Spec.Takes 0x12 false true [(8, 17)] (ranged 0x12 0x1000 0x1000 [(0x18, 1)]) (lm 1 mapped)
        (cmd 1 (ranged 0x12 0x1000 0x1000 [(0x18, 1)]) (lm 1 mapped)) ∧ badRange 0x1000 0x1000 4096 = false ∧ meetsAperture 0x1000 0x1000 = false) ∧
    (findPage (lm 1 mapped).xlat 0 0x1000 = some (page 0x1000) ∧ quotaRoom (lm 1 mapped) (page 0x1000) true = true ∧
      findPage (lm 1 migrating).xlat 0 0x1000 = some { page 0x1000 with migrating := some { die := 1, sram := true } }) ∧
    ((lm 1 migrating).cur = .die 0 ∧ walking (lm 1 migrating).xlat 0 = [{ die := 0, cluster := 0, fn := 0, va := 0x3000 }] ∧
      walking (lm 1 mapped).xlat 0 = [] ∧ findPage (lm 1 migrating).xlat 0 0x3000 = some (page 0x3000)) ∧
    ((cmd 1 (ranged 0x14 0x1000 0x1000 [(0x18, 5), (0x1C, 3)]) (lm 1 ported)).s.xlat.ports.any (fun p => p.port = 5) = true ∧
      fld (ranged 0x14 0x1000 0x1000 [(0x18, 6), (0x1C, 3)]) 0x18 4 = 6 ∧ 8 ≤ fld (ranged 0x14 0x1000 0x1000 [(0x1C, 8)]) 0x1C 1 ∧
      badRange 0x1000 0 4096 = true ∧ wholePages (lm 1 mapped) 0 0x1800 0x1000 = false ∧
      quotaRoom (lm 1 poor') (page 0x1000) true = false) ∧
    (memoryRoom (lm 1 mapped) 0 0x2000 true = true ∧ memoryRoom (lm 1 mapped) 0 0x2000 false = true ∧
      memoryRoom (lm 1 migrating) 0 0 true = true ∧ memoryRoom (poor (lm 1 migrating)) 0 0 true = false ∧
      findPage (poor (lm 1 migrating)).xlat 0 0x1000 = some { page 0x1000 with migrating := some { die := 1, sram := true } }) := by
  refine ⟨⟨takes _ _ _ _ _ _ _, by decide +kernel⟩, ⟨takes _ _ _ _ _ _ _, .inr (.inr (.inl (by decide +kernel)))⟩,
    ⟨takes _ _ _ _ _ _ _, takes _ _ _ _ _ _ _, ?_, ?_, by decide +kernel⟩, ⟨takes _ _ _ _ _ _ _, takes _ _ _ _ _ _ _, by decide⟩,
    ⟨takes _ _ _ _ _ _ _, by decide +kernel⟩, ⟨takes _ _ _ _ _ _ _, by decide +kernel⟩, by decide +kernel, by decide +kernel, by decide +kernel, by decide +kernel⟩ <;>
    rw [Spec.mapMalformed] <;> decide +kernel

/-! ### Objects and launches -/

/-- A part of an image, filled up to a chunk. -/
def filled (b : List Byte) : List Byte := b ++ List.replicate (4096 - b.length) 0

/-- An entry of the section table. -/
def entry (typ rights off size va : Nat) : List Byte :=
  leBytes 2 typ ++ leBytes 2 rights ++ leBytes 4 off ++ leBytes 4 size ++ leBytes 4 0 ++ leBytes 8 va ++ leBytes 8 0

/-- Sections: a text, declarations, the table itself, an empty DATA range at 8000h (05 R79). -/
def entries : List Byte := entry 1 0 0x3000 8 0 ++ entry 7 0 0x2000 32 0 ++ entry 9 0 0x1000 128 0 ++ entry 3 3 0x1000 0 0x8000

/-- Declarations (05 R90). -/
def declared : List Byte := leBytes 4 64 ++ [2, 0, 8, 0, 0, 0, 16, 0] ++ leBytes 20 0

/-- A clause of one word. -/
def text : List Byte := leBytes 4 0x0007F801 ++ leBytes 4 0

/-- The chunks of the table and of the declarations. -/
def table : List Byte := filled entries
/-- The chunk of the declarations. -/
def decls : List Byte := filled declared

/-- The 48 bytes of a hash. -/
def hash48 (h : List Byte) : List Byte := (upFrom 0 48).map (nthD 0 h)

/-- The first fields of an image of 3.2 with four sections and three body chunks (05 R78). -/
def fixed : List Byte :=
  leBytes 4 0x1A4F4650 ++ [2, 3, 0, 0, 4, 0, 0, 0] ++ leBytes 4 0x1000 ++ leBytes 4 0 ++ leBytes 4 3 ++ leBytes 4 0 ++ leBytes 4 0xFFFFFFFF ++
    leBytes 4 0x4000 ++ leBytes 4 192 ++ leBytes 8 0

/-- The header's fields with a ROOT. -/
def fields (r : List Byte) : List Byte := fixed ++ hash48 r

/-- An image whose text is one clause: header, table, declarations, text, and a tree of these hashes (05 R81 to R83). -/
def image (h1 h2 r : List Byte) : List Byte :=
  filled (fields r) ++ (table ++ (decls ++ (filled text ++ (hash48 h1 ++ (hash48 h2 ++ (leBytes 48 0 ++ (hash48 r ++ [])))))))

/-- What the table says. -/
def sections : List Section :=
  [{ typ := 1, rights := 0, offset := 0x3000, size := 8, vaddr := 0 }, { typ := 7, rights := 0, offset := 0x2000, size := 32, vaddr := 0 },
   { typ := 9, rights := 0, offset := 0x1000, size := 128, vaddr := 0 }, { typ := 3, rights := 3, offset := 0x1000, size := 0, vaddr := 0x8000 }]

/-- What a load finds in it. -/
def parsed (h1 h2 r : List Byte) : Parsed :=
  { obj := { handle := 2, fn := 0, secure := false, vmaj := 3, vmin := 2, root := hash48 r, leaves := [hash48 h1, hash48 h2, leBytes 48 0],
             image := 0x10000, vbase := 2, cbase := 0, tbase := 0, vtext := [0x0007F801, 0], ctext := [], hasCtext := false, ventry := 0,
             centry := 0xFFFFFFFF, headers := [0], veer := [], traps := [], templates := [],
             decl := { scrMin := 0, tags := 16, hart := false, acc := 0, floor := 8, width := 0, pt := 2, nstrMax := 64 },
             data := [(0x8000, 0, 0)] },
    data := [({ typ := 3, rights := 3, offset := 0x1000, size := 0, vaddr := 0x8000 }, [])], places := [] }

/-- A part of what comes first. -/
theorem slice_append (a b : List Byte) (off n : Nat) (h : off + n ≤ a.length) : slice (a ++ b) off n = slice a off n := by
  rw [slice, slice, List.drop_append_of_le_length (by omega), List.take_append_of_le_length (by simp; omega)]

/-- A part of what comes after. -/
theorem slice_skip (a b : List Byte) (off n k : Nat) (h : a.length = k) (hk : k ≤ off) : slice (a ++ b) off n = slice b (off - k) n := by
  rw [slice, slice, List.drop_append, List.drop_eq_nil_of_le (by omega), List.nil_append, h]

theorem filled_length (b : List Byte) (h : b.length ≤ 4096) : (filled b).length = 4096 := by simp [filled]; omega

theorem image_length (h1 h2 r : List Byte) : (image h1 h2 r).length = 16576 := by
  have l (h : List Byte) : (hash48 h).length = 48 := rfl
  simp only [image, table, decls, List.length_append, l, show (leBytes 48 0).length = 48 from rfl, List.length_nil,
    filled_length (fields r) (by rw [fields, List.length_append, l]; decide +kernel), filled_length entries (by decide +kernel),
    filled_length declared (by decide +kernel), filled_length text (by decide +kernel), Nat.reduceAdd]

/-- The first piece of a list cut into pieces of 48. -/
theorem chunksOf_append (n f : Nat) (a b : List Byte) (h : a.length = n + 1) : chunksOf (n + 1) (f + 1) (a ++ b) = a :: chunksOf (n + 1) f b := by
  rw [chunksOf, List.take_left' h, List.drop_left' h]
  cases a with
  | nil => simp at h
  | cons x l => rfl

/-- 05 R83: an image whose hashes are right passes every check of a load. -/
theorem test_image_loads (h1 h2 r : List Byte) (e1 : leafHash table = hash48 h1) (e2 : leafHash decls = hash48 h2)
    (e3 : sha384 (1 :: (hash48 h1 ++ hash48 h2 ++ leBytes 48 0)) = hash48 r) :
    parseImage 0 false 2 0x10000 (image h1 h2 r) = some (parsed h1 h2 r) := by
  have tree : treeOk [hash48 h1, hash48 h2, leBytes 48 0, hash48 r] 3 (hash48 r) = true := by
    have : treeAbove 9 [hash48 h1, hash48 h2, leBytes 48 0] = [hash48 r] := by
      simp [treeAbove, levelAbove, chunksOf, ← e3]
    simp [treeOk, this]
  have l1 : (fields r).length = 96 := rfl
  have n1 : (filled (fields r)).length = 4096 := filled_length _ (by omega)
  have n2 : table.length = 4096 := filled_length entries (by decide +kernel)
  have n3 : decls.length = 4096 := filled_length declared (by decide +kernel)
  have n4 : (filled text).length = 4096 := filled_length _ (by decide)
  have n0 := image_length h1 h2 r
  have c0 : (image h1 h2 r).take 4096 = filled (fields r) := List.take_left' n1
  have l0 : fixed.length = 48 := by decide +kernel
  have fl (off n : Nat) (h : off + n ≤ 48) : leAt (filled (fields r)) off n = leAt fixed off n :=
    congrArg leNat ((slice_append _ _ _ _ (by omega)).trans (slice_append _ _ _ _ (by omega)))
  have f1 : leAt (filled (fields r)) 0 4 = 0x1A4F4650 := (fl 0 4 (by omega)).trans (by decide +kernel)
  have f2 : leAt (filled (fields r)) 4 1 = 2 := (fl 4 1 (by omega)).trans (by decide +kernel)
  have f3 : leAt (filled (fields r)) 5 1 = 3 := (fl 5 1 (by omega)).trans (by decide +kernel)
  have f4 : leAt (filled (fields r)) 6 2 = 0 := (fl 6 2 (by omega)).trans (by decide +kernel)
  have f5 : leAt (filled (fields r)) 8 2 = 4 := (fl 8 2 (by omega)).trans (by decide +kernel)
  have f6 : leAt (filled (fields r)) 0x0A 2 = 0 := (fl 10 2 (by omega)).trans (by decide +kernel)
  have f7 : leAt (filled (fields r)) 0x0C 4 = 0x1000 := (fl 12 4 (by omega)).trans (by decide +kernel)
  have f8 : leAt (filled (fields r)) 0x10 4 = 0 := (fl 16 4 (by omega)).trans (by decide +kernel)
  have f9 : leAt (filled (fields r)) 0x14 4 = 3 := (fl 20 4 (by omega)).trans (by decide +kernel)
  have g1 : leAt (filled (fields r)) 0x18 4 = 0 := (fl 24 4 (by omega)).trans (by decide +kernel)
  have g2 : leAt (filled (fields r)) 0x1C 4 = 0xFFFFFFFF := (fl 28 4 (by omega)).trans (by decide +kernel)
  have g3 : leAt (filled (fields r)) 0x20 4 = 0x4000 := (fl 32 4 (by omega)).trans (by decide +kernel)
  have g4 : leAt (filled (fields r)) 0x24 4 = 192 := (fl 36 4 (by omega)).trans (by decide +kernel)
  have g5 : leAt (filled (fields r)) 0x28 8 = 0 := (fl 40 8 (by omega)).trans (by decide +kernel)
  have g6 : zeros (filled (fields r)) 0x60 (4096 - 0x60) = true := by
    rw [zeros, filled, slice_skip _ _ _ _ 96 l1 (by omega)]; simp [slice]
  have g7 : slice (filled (fields r)) 0x30 48 = hash48 r := slice_append _ _ _ _ (by omega)
  have g8 : chunksOf 48 (192 / 48) (slice (image h1 h2 r) 0x4000 192) = [hash48 h1, hash48 h2, leBytes 48 0, hash48 r] := by
    rw [image, slice_skip _ _ _ _ _ n1 (by omega), slice_skip _ _ _ _ _ n2 (by omega), slice_skip _ _ _ _ _ n3 (by omega),
      slice_skip _ _ _ _ _ n4 (by omega)]
    simp only [slice, List.drop_zero, Nat.sub_self]
    rw [List.take_of_length_le (Nat.le_refl 192)]
    exact (chunksOf_append 47 3 _ _ rfl).trans (congrArg _ ((chunksOf_append 47 2 _ _ rfl).trans (congrArg _ ((chunksOf_append 47 1 _ _ rfl).trans
      (congrArg _ (chunksOf_append 47 0 _ _ rfl))))))
  have g9 (off n : Nat) (h : off + n ≤ 4096) : slice (image h1 h2 r) (0x1000 + off) n = slice table off n := by
    rw [image, slice_skip _ _ _ _ _ n1 (by omega), Nat.add_sub_cancel_left, slice_append _ _ _ _ (by omega)]
  have t1 : slice table 0 (32 * 4) = entries := by rw [table, filled, slice_append _ _ _ _ (by decide +kernel)]; decide +kernel
  have s1 : (chunksOf 32 4 entries).mapM (parseSection 3) = some sections := by decide +kernel
  have b1 : slice (image h1 h2 r) 12288 8 = text := by
    rw [image, slice_skip _ _ _ _ _ n1 (by omega), slice_skip _ _ _ _ _ n2 (by omega), slice_skip _ _ _ _ _ n3 (by omega), filled,
      List.append_assoc, slice_append _ _ _ _ (by decide)]
    rfl
  have b7 (n : Nat) (h : n ≤ 4096) : slice (image h1 h2 r) 8192 n = slice decls 0 n := by
    rw [image, slice_skip _ _ _ _ _ n1 (by omega), slice_skip _ _ _ _ _ n2 (by omega), slice_append _ _ _ _ (by omega)]
  have whole (l : List Byte) (h : l.length = 4096) : slice l 0 4096 = l := List.take_of_length_le (Nat.le_of_eq h)
  have d1 : slice decls 0 32 = declared := by rw [decls, filled, slice_append _ _ _ _ (by decide +kernel)]; decide +kernel
  have paged (e : Section) (he : e = ⟨7, 0, 0x2000, 32, 0⟩ ∨ e = ⟨9, 0, 0x1000, 128, 0⟩ ∨ e = ⟨3, 3, 0x1000, 0, 0x8000⟩) :
      sectionPaged (image h1 h2 r) [hash48 h1, hash48 h2, leBytes 48 0] e = true := by
    have k1 : bodyChunk (image h1 h2 r) 0 = table := (g9 0 4096 (by omega)).trans (whole _ n2)
    have k2 : bodyChunk (image h1 h2 r) 1 = decls := (b7 4096 (by omega)).trans (whole _ n3)
    rcases he with rfl | rfl | rfl <;> simp [sectionPaged, chunksOfSection, upFrom, k1, k2, e1, e2]
  have paged' : (sections.filter fun e => !(e.typ = 1 || e.typ = 2 || e.typ = 10)).all
      (sectionPaged (image h1 h2 r) [hash48 h1, hash48 h2, leBytes 48 0]) = true := by
    simp [sections, paged]
  have o1 : (ofType sections 1).head? = some ⟨1, 0, 0x3000, 8, 0⟩ := rfl
  have o2 : (ofType sections 2).head? = none := rfl
  have o3 : ofType sections 3 = [⟨3, 3, 0x1000, 0, 0x8000⟩] := rfl
  have o4 : (ofType sections 4).head? = none := rfl
  have o5 : (ofType sections 5).head? = none := rfl
  have o6 : (ofType sections 6).head? = none := rfl
  have o7 : (ofType sections 7).head? = some ⟨7, 0, 0x2000, 32, 0⟩ := rfl
  have o8 : (ofType sections 8).head? = none := rfl
  have o9 : (ofType sections 9).head? = some ⟨9, 0, 0x1000, 128, 0⟩ := rfl
  have v1 : textWords text = [0x0007F801, 0] := by decide
  have v3 : parseDecl 2 false declared = some (parsed h1 h2 r).obj.decl := rfl
  unfold parseImage
  simp only [c0, n0, n1, f1, f2, f3, f4, f5, f6, f7, f8, f9, g1, g2, g3, g4, g5, g6, g7, g8, tree, g9 0 128 (by omega), t1, s1, List.take,
    paged', o1, o2, o3, o4, o5, o6, o7, o8, o9, b1, b7 32 (by omega), d1, v1]
  have so : sectionsOk sections = true := by decide +kernel
  have w3 : parseTemplates [] = some [] := rfl
  have w4 : parsePlaces [] = some [] := rfl
  have w5 : textWords [] = [] := rfl
  have w6 : slice (image h1 h2 r) 4096 0 = [] := List.take_zero
  have w7 : decide (text.length % 4 ≠ 0) = false := by decide
  simp [so, v3, w3, w4, w5, w6, w7, parsed]
  rfl

theorem sha384_length (m : List Byte) : (sha384 m).length = 48 := by
  have round (st : List W64) (k : W64) (h : st.length = 8) : (shaRound st k).length = 8 := by
    unfold shaRound; split
    · rfl
    · exact h
  have fold (l : List W64) : ∀ st : List W64, st.length = 8 → (l.foldl shaRound st).length = 8 := by
    induction l with
    | nil => exact fun _ h => h
    | cons k l ih => exact fun st h => ih _ (round st k h)
  have blocks (l : List (List Byte)) : ∀ st : List W64, st.length = 8 → (l.foldl shaBlock st).length = 8 := by
    induction l with
    | nil => exact fun _ h => h
    | cons b l ih => exact fun st h => ih _ (by simp [shaBlock, fold _ _ h, h])
  have le (n : Nat) : ∀ v, (leBytes n v).length = n := by
    induction n with
    | zero => exact fun _ => rfl
    | succ n ih => intro v; simp [leBytes, ih]
  have six (l : List W64) : (l.flatMap fun x => beBytes 8 x.toNat).length = 8 * l.length := by
    induction l with
    | nil => rfl
    | cons x l ih => simp [beBytes, le] at ih ⊢; omega
  rw [sha384]
  simp only [six, List.length_take, blocks _ sha384Init rfl]
  rfl

/-- A hash is its 48 bytes. -/
theorem hash48_sha384 (m : List Byte) : hash48 (sha384 m) = sha384 m := by
  have go (l : List Byte) : ∀ a : List Byte, (upFrom a.length l.length).map (nthD 0 (a ++ l)) = l := by
    induction l with
    | nil => exact fun _ => rfl
    | cons x l ih =>
      intro a
      have h := ih (a ++ [x])
      rw [List.length_append, List.append_assoc] at h
      simp only [List.length_cons, upFrom, List.map_cons, List.cons.injEq]
      refine ⟨?_, h⟩
      clear h ih
      induction a with
      | nil => rfl
      | cons y a ih => exact ih
  have h := go (sha384 m) []
  rwa [sha384_length] at h

/-- The image with its hashes. -/
def signed : List Byte :=
  image (leafHash table) (leafHash decls) (sha384 (1 :: (hash48 (leafHash table) ++ hash48 (leafHash decls) ++ leBytes 48 0)))

/-- An image at 10000h. -/
def loadable (b : List Byte) (s : State) : State :=
  holds 0x10000 b { s with
    xlat := { s.xlat with pages := [{ page 0x10000 with size := 0x10000 }] }, loom := { s.loom with nextHandle := 2 } }

/-- OBJ.LOAD of n bytes at 10000h. -/
def loadFrame (n : Nat) : Frame := ranged 0x20 0x10000 n []

/-- Nothing uses the object. -/
def unused (s : State) : State := { s with loom := { s.loom with launches := [] } }

/-- The object is another function's. -/
def foreign : State → State := withObj fun o => { o with fn := 1 }

/-- The object's chunk is one of zeros, and not resident. -/
def absent (s : State) : State :=
  withObj (fun o => { o with leaves := [leafHash (memRead [] 0 4096)] }) { mapped s with loom := { s.loom with chunks := [] } }

/-- Bytes of a page, read one by one. -/
theorem bytes_of_page (s : State) (d : Nat) (free : Nat → Nat) (p : Page) (n : Nat) : ∀ a, (∀ b, a ≤ b → b < a + n → findPage s.xlat 0 b = some p) →
    p.remote = none → (upFrom a n).map (fun b => byteOn s d 0 (free b) b) = memRead (viewOf s.mem d).mem a n := by
  induction n with
  | zero => exact fun _ _ _ => rfl
  | succ n ih =>
    intro a h hr
    have h0 := h a (Nat.le_refl _) (by omega)
    rw [upFrom, List.map_cons, ih (a + 1) (fun b h1 h2 => h b (by omega) (by omega)) hr, byteOn, h0]
    simp [hr, memRead, gkey]

theorem memRead_nil (n : Nat) : ∀ a b, memRead [] a n = memRead [] b n := by
  induction n with
  | zero => exact fun _ _ => rfl
  | succ n ih => exact fun a b => congrArg _ (ih _ _)

theorem read_loadable (b : List Byte) (f : Frame) (hb : b.length ≤ 0x10000) : (cmd 1 f (lm 1 (loadable b))).read 0x10000 b.length = b := by
  rw [Cmd.read, loomRead, show (cmd 1 f (lm 1 (loadable b))).fn = 0 from rfl,
    bytes_of_page _ _ (fun x => Config.freeNat ((cmd 1 f (lm 1 (loadable b))).s.tick - 1) + x) { page 0x10000 with size := 0x10000 } b.length 0x10000
      (fun a h1 h2 => by
        show List.find? _ [{ page 0x10000 with size := 0x10000 }] = _
        simp [page]; omega) rfl,
    show (viewOf (cmd 1 f (lm 1 (loadable b))).s.mem (cpDie (cmd 1 f (lm 1 (loadable b))).q)).mem = memWrite [] 0x10000 b from rfl]
  exact memRead_memWrite _ _ _

theorem test_meets_ObjectCommands :
    (Spec.Takes 0x20 false true [(8, 16)] (loadFrame 16576) (lm 1 (loadable signed)) (cmd 1 (loadFrame 16576) (lm 1 (loadable signed))) ∧
      imageReadable (cmd 1 (loadFrame 16576) (lm 1 (loadable signed))) 0x10000 16576 = true ∧
      ∃ p : Parsed, parseImage 0 false 2 0x10000 ((cmd 1 (loadFrame 16576) (lm 1 (loadable signed))).read 0x10000 16576) = some p ∧
        (∀ d ∈ p.obj.data, meetsAperture d.1 d.2.1 = false) ∧ quotaAllows (cmd 1 (loadFrame 16576) (lm 1 (loadable signed))).s 0 (dataBytes p) 0 = true ∧
        dataOverlaps (cmd 1 (loadFrame 16576) (lm 1 (loadable signed))).s 0 p.obj.data = false ∧ p.data.length = 1) ∧
    (Spec.Takes 0x20 false true [(8, 16)] (loadFrame 16) (lm 1 (loadable signed)) (cmd 1 (loadFrame 16) (lm 1 (loadable signed))) ∧
      parseImage 0 false 2 0x10000 (List.replicate 16 0) = none) ∧
    imageReadable (cmd 1 (loadFrame 16) (lm 1 mapped)) (2 ^ 56 - 15) 16 = false ∧
    (Spec.Takes 0x21 false true [(8, 4)] (frm 0x21 [(8, 1)]) (lm 1 unused) (cmd 1 (frm 0x21 [(8, 1)]) (lm 1 unused)) ∧
      ownObj (cmd 1 (frm 0x21 [(8, 1)]) (lm 1 unused)).s 0 false 1 = some (sampleObj [0x0007F801, 0] []) ∧
      objInUse (cmd 1 (frm 0x21 [(8, 1)]) (lm 1 unused)).s (sampleObj [0x0007F801, 0] []) = false ∧
      objInUse (cmd 1 (frm 0x21 [(8, 1)]) (lm 1 id)).s (sampleObj [0x0007F801, 0] []) = true ∧
      getObj (lm 1 foreign) 1 = some { sampleObj [0x0007F801, 0] [] with fn := 1 } ∧ ownObj (lm 1 id) 0 false 9 = none) ∧
    (getObj (lm 1 id) 1 = some (sampleObj [0x0007F801, 0] []) ∧ (sampleObj [0x0007F801, 0] []).leaves[0]? = some [1] ∧
      stored (lm 1 id) (sampleObj [0x0007F801, 0] []) 0 = true) ∧
    ∃ o leaf, getObj (lm 1 absent) 1 = some o ∧ o.leaves[0]? = some leaf ∧ stored (lm 1 absent) o 0 = false ∧
      leafHash (imageChunk (lm 1 absent) o 0).1 = leaf := by
  have image : (cmd 1 (loadFrame 16576) (lm 1 (loadable signed))).read 0x10000 16576 = signed := by
    rw [← show signed.length = 16576 from image_length _ _ _]; exact read_loadable signed _ (by rw [show signed.length = 16576 from image_length _ _ _]; decide)
  refine ⟨⟨takes _ _ _ _ _ _ _, by decide +kernel, parsed _ _ _, by rw [image]; exact test_image_loads _ _ _ (hash48_sha384 _).symm (hash48_sha384 _).symm (hash48_sha384 _).symm, by decide +kernel, by decide +kernel, by decide +kernel, rfl⟩,
    ⟨takes _ _ _ _ _ _ _, by decide +kernel⟩, by decide +kernel, ⟨takes _ _ _ _ _ _ _, by decide +kernel⟩, by decide +kernel,
    _, _, rfl, rfl, rfl, ?_⟩
  refine congrArg leafHash ?_
  have h : Config.freeNat (lm 1 absent).tick % 4 < 4 := Nat.mod_lt _ (by decide)
  simp only [imageChunk, takeFree]
  refine (bytes_of_page _ _ _ (page 0x1000) 4096 0x1000 (fun a h1 h2 => ?_) rfl).trans ?_
  · show List.find? _ [page 0x1000, page 0x3000] = _
    simp [page]; omega
  generalize Config.freeNat (lm 1 absent).tick % 4 = d at h
  match d, h with
  | 0, _ | 1, _ | 2, _ | 3, _ => exact memRead_nil _ _ _

/-- The fields of a launch body, at their offsets in a frame (23 R338): object 1, one strand, one team. -/
def bodyFields (lid : Nat) : List (Nat × Nat) :=
  [(8, 1), (0x10, 0xFFFFFFFF), (0x14, 1), (0x16, 1), (0x18, 0x1000), (0x1C, 1), (0x40, lid)]

/-- A LAUNCH frame. -/
def launchFrame (lid : Nat) : Frame := frm 0x30 (bodyFields lid)

/-- A body of 120 bytes. -/
def body (lid : Nat) : List Byte := frameBody (launchFrame lid)

/-- Two bodies at 1000h. -/
def bodies (s : State) : State := holds 0x1000 (body 7 ++ body 8) (mapped s)

/-- What the frame acts on. -/
def launching : Cmd := cmd 1 (launchFrame 7) (lm 1 id)

/-- GANG.LAUNCH of n bodies at an address. -/
def gangFrame (a n : Nat) : Frame := frm 0x31 [(8, a), (0x10, n)]

/-- What it acts on. -/
def ganging (n : Nat) : Cmd := cmd 1 (gangFrame 0x1000 n) (lm 1 bodies)

/-- Requests of two launches. -/
def requests : List Req :=
  ([body 7, body 8].map (Spec.launchOfBody (ganging 2))).flatMap fun l =>
    (upFrom 0 (Nat.min 40961 l.teams)).filterMap fun i => launchReq (ganging 2).s l i

/-- Where no engine is disabled, the function's clusters. -/
theorem clustersOf_enabled (h : ∀ c, Config.engineDisabled c = false) : clustersOf = fun s fn => (upFrom 0 160).filter fun c =>
    (match getFunc s fn with | some f => f.clusters.getLsbD c | none => false) && !(getCluster s c).fenced &&
      decide ((getCluster s c).preempt = .none) := by
  funext s fn
  rw [clustersOf]
  refine List.filter_congr fun c _ => ?_
  rw [offered, h, Bool.not_false, Bool.and_true]
  first | done | exact match getFunc s fn with | some _ => rfl | none => rfl

/-- A request of object 1 for one strand. -/
def asked (lid : Nat) : Req :=
  { request with ref := .launch 0 lid 0, obj := sampleObj [0x0007F801, 0] [], nstr := 1, args := List.replicate 8 0 }

/-- The function has no cluster. -/
def homeless (s : State) : State := { s with loom := { s.loom with funcs := [(0, some { sampleFunc with clusters := 0 })] } }

theorem test_meets_LaunchCommands :
    (Spec.Takes 0x30 true true [(8, 120)] (launchFrame 7) (lm 1 id) launching ∧ Spec.Acceptable launching [body 7] ∧
      (launchReq launching.s (Spec.launchOfBody launching (body 7)) 0 = some (asked 7) ∧ neverFit (lm 1 homeless) [asked 7] = true ∧
        ((∀ c, Config.engineDisabled c = false) → neverFit launching.s [asked 7] = false)) ∧
      getLaunch launching.s 0 7 = none ∧ (getLaunch launching.s 0 1).isSome = true) ∧
    (bodyDenied launching.s 1 0 (frameBody (frm 0x30 [(8, 1), (0x16, 3)])) = true ∧ bodyMalformed 1 (frameBody (frm 0x30 [(8, 1)])) = true ∧
      bodyMalformed 1 (body 7) = false ∧ getObj launching.s 9 = none ∧ ∃ o, getObj launching.s 1 = some o ∧
      bodyUnfit o (Spec.launchOfBody launching (frameBody (frm 0x30 ((0x0C, 4) :: bodyFields 7)))) = true) ∧
    (Spec.Takes 0x31 true true [(8, 9)] (gangFrame 0x1000 2) (lm 1 bodies) (ganging 2) ∧ (ganging 2).q ≠ 0 ∧
      (loomRange (ganging 2).s 0 false 0x1000 240 [.read]).isNone = true ∧ (loomRange (ganging 2).s 0 false 0x5000 240 [.read]).isNone = false ∧
      chunksOf 120 2 (readBytes (ganging 2).s (cpDie 1) (gkey 0 0x1000) 240) = [body 7, body 8] ∧ Spec.Acceptable (ganging 2) [body 7, body 8] ∧
      (requests = [asked 7, asked 8] ∧ ((∀ c, Config.engineDisabled c = false) → neverFit (ganging 2).s requests = false)) ∧ ([7, 8] : List Nat).Nodup ∧
      ∀ l ∈ [body 7, body 8].map (Spec.launchOfBody (ganging 2)), getLaunch (ganging 2).s 0 l.lid = none) ∧
    Spec.Takes 0x31 true true [(8, 9)] (gangFrame 0x1000 1) (lm 1 bodies) (ganging 1) ∧ ¬ ([7, 7] : List Nat).Nodup := by
  have known (c : Cmd) (b : List Byte) (h1 : getFunc c.s (launchFn c.q c.fn b) ≠ none)
      (h2 : getObj c.s (Spec.launchOfBody c b).obj = some (sampleObj [0x0007F801, 0] []))
      (h3 : bodyUnfit (sampleObj [0x0007F801, 0] []) (Spec.launchOfBody c b) = false) :
      getFunc c.s (launchFn c.q c.fn b) ≠ none ∧ ∃ o, getObj c.s (Spec.launchOfBody c b).obj = some o ∧ bodyUnfit o (Spec.launchOfBody c b) = false :=
    ⟨h1, _, h2, h3⟩
  refine ⟨⟨takes _ _ _ _ _ _ _, ⟨by decide +kernel, by decide +kernel, ?_⟩, ⟨by decide +kernel, by decide +kernel, ?_⟩,
      by decide +kernel⟩,
    ⟨by decide +kernel, by decide +kernel, by decide +kernel, by decide +kernel, sampleObj [0x0007F801, 0] [],
      by decide +kernel, by decide +kernel⟩,
    ⟨takes _ _ _ _ _ _ _, by decide, by decide +kernel, by decide +kernel, by decide +kernel, ⟨by decide +kernel, by decide +kernel, ?_⟩,
      ⟨by decide +kernel, ?_⟩, by decide, by decide +kernel⟩, takes _ _ _ _ _ _ _, by decide⟩
  · exact List.forall_mem_singleton.mpr (known _ _ (by decide +kernel) (by decide +kernel) (by decide +kernel))
  · intro h
    simp only [neverFit, seatAll, places, clustersOf_enabled h]
    decide +kernel
  · refine List.forall_mem_cons.mpr ⟨known _ _ (by decide +kernel) (by decide +kernel) (by decide +kernel), ?_⟩
    exact List.forall_mem_singleton.mpr (known _ _ (by decide +kernel) (by decide +kernel) (by decide +kernel))
  · intro h
    rw [show requests = [asked 7, asked 8] by decide +kernel]
    simp only [neverFit, seatAll, places, clustersOf_enabled h]
    decide +kernel

/-- A number with fields at offsets. -/
def num (l : List (Nat × Nat)) : Nat := l.foldl (fun a p => a + p.2 * 2 ^ (8 * p.1)) 0

/-- A descriptor of two stages of object 1 and a pipe of two records of 64 bytes at 3000h (21 R311). -/
def descriptor : List Byte :=
  leBytes 64 (num [(0, 2), (0x19, 1)]) ++
  leBytes 96 (num [(0x20, 1), (0x28, 0xFFFFFFFF), (0x30, 1), (0x32, 64), (0x34, 2), (0x36, 1), (0x38, 0x3000)]) ++
  leBytes 96 (num [(0x20, 1), (0x28, 0xFFFFFFFF), (0x30, 1)])

/-- The descriptor at 1000h. -/
def piped (s : State) : State := holds 0x1000 descriptor (mapped s)

/-- PIPE.BIND of it. -/
def bindFrame : Frame := frm 0x50 [(8, 0x1000)]

/-- Only the header and 32 bytes of stage 0 can be read; its class is in range or not. -/
def partly (cls : Nat) (s : State) : State := holds 0x1FA0 (leBytes 64 (num [(0, 2), (0x19, cls)]) ++ leBytes 32 0) (mapped s)

/-- PIPE.BIND of that. -/
def partFrame : Frame := frm 0x50 [(8, 0x1FA0)]

/-- What it acts on. -/
def binding : Cmd := cmd 1 bindFrame (lm 1 piped)

/-- Its stage entries. -/
def stages2 : List StageBlock := (upFrom 0 2).map (stageBlock descriptor)

/-- What a stage of it asks for. -/
def stageAsk (e : StageBlock) : Req :=
  { ref := .stage 0, fn := 0, secure := false, cls := 1, obj := sampleObj [0x0007F801, 0] [], nstr := e.nstr, scrsize := e.scrsize, args := e.args,
    vent := e.vent, cent := e.cent, queue := 0, twice := false, stopped := false, acq := [] }

/-- Team 0 of launch 1 is held after a page fault. -/
def faulted : Team := { team half with held := some (.weftFault 0 0x5000) }

/-- With that team. -/
def withHeld (s : State) : State := { s with teams := [faulted] }

/-- TEAM.RESUME or TEAM.END of team n of launch 1. -/
def teamFrame (opc n : Nat) : Frame := frm opc [(8, 1), (0x0C, n)]

theorem test_meets_TaskTeamAndPipeCommands :
    (Spec.Takes 0x40 false true [(8, 8)] (frm 0x40 [(8, 0x1000)]) (lm 1 tasked) (cmd 1 (frm 0x40 [(8, 0x1000)]) (lm 1 tasked)) ∧
      (cmd 1 (frm 0x40 [(8, 0x1000)]) (lm 1 tasked)).range 0x1000 128 [.read, .write] = true ∧
      readTcb (lm 1 tasked) { seed := 0, lost := false } (cpDie 1) 0 false 0x1000 = some (tcbTask 0 false 1 0x1000 (tcb 0), tcb 0) ∧
      enqStatus (lm 1 tasked) (tcbTask 0 false 1 0x1000 (tcb 0)) (tcb 0) false = 0 ∧
      enqStatus (lm 1 (queued 1)) (tcbTask 0 false 1 0x1000 (tcb 0)) (tcb 0) false = 3 ∧
      enqStatus (lm 1 tasked) (tcbTask 0 false 1 0x1000 (leBytes 128 1)) (leBytes 128 1) false = 2 ∧
      readTcb (lm 1 ruined) { seed := 0, lost := false } (cpDie 1) 0 false 0x1000 = none ∧ (cmd 1 (frm 0x40 [(8, 0x1000)]) (lm 1 id)).range 0x1000 128 [.read, .write] = false) ∧
    (Spec.Takes 0x41 false true [(8, 8)] (frm 0x41 [(8, 0x1000)]) (lm 1 (queued 5)) (cmd 1 (frm 0x41 [(8, 0x1000)]) (lm 1 (queued 5))) ∧
      Spec.Takes 0x42 false true [(8, 8)] (frm 0x42 [(8, 0x1000)]) (lm 1 (queued 5)) (cmd 1 (frm 0x42 [(8, 0x1000)]) (lm 1 (queued 5))) ∧
      getTask (lm 1 (queued 5)) 0 0x1000 = some (task 5) ∧ (task 5).state = 5 ∧ (task 5).die < (lm 1 (queued 5)).mem.views.length ∧
      getTask (lm 1 (queued 1)) 0 0x1000 = some (task 1)) ∧
    (Spec.Takes 0x43 false true [(8, 24)] (teamFrame 0x43 0) (lm 1 withHeld) (cmd 1 (teamFrame 0x43 0) (lm 1 withHeld)) ∧
      Spec.Takes 0x44 false true [(8, 24)] (teamFrame 0x44 0) (lm 1 withHeld) (cmd 1 (teamFrame 0x44 0) (lm 1 withHeld)) ∧
      ((allTeams (lm 1 withHeld)).filter (named (lm 1 withHeld) 0 (teamFrame 0x43 0))).find? (fun t => (heldAt t).isSome) = some faulted ∧
      getTeam (lm 1 withHeld) faulted.tid = some faulted ∧ faulted.partner = none ∧ (fld (teamFrame 0x43 0) 8 4 ≠ 0 ∧ fld (teamFrame 0x43 0) 0x10 8 = 0) ∧
      (allTeams (lm 1 withHeld)).filter (named (lm 1 withHeld) 0 (teamFrame 0x43 1)) = [] ∧
      (allTeams (lm 1 id)).filter (named (lm 1 id) 0 (teamFrame 0x43 0)) ≠ [] ∧ ∀ t ∈ allTeams (lm 1 id), heldAt t = none) ∧
    (Spec.Takes 0x50 false true [(8, 8)] bindFrame (lm 1 piped) binding ∧ binding.range 0x1000 64 [.read, .write] = true ∧
      binding.range 0x1000 256 [.read, .write] = true ∧ binding.range 0x1000 64 [.read] = true ∧ leAt (binding.read 0x1000 64) 0 1 = 2 ∧
      binding.read 0x1000 256 = descriptor ∧ descMalformed descriptor 2 stages2 = false ∧ anyPoison binding.s 1 0x1000 256 = false ∧
      ringsBad binding stages2 = false) ∧
    (∀ e ∈ stages2, ownObj binding.s 0 false e.obj = some (sampleObj [0x0007F801, 0] []) ∧ ventOk (sampleObj [0x0007F801, 0] []) e.vent = true ∧
      centOk (sampleObj [0x0007F801, 0] []) e.cent = true ∧ sizesOk (sampleObj [0x0007F801, 0] []) e.nstr e.scrsize = true) ∧
    ((∀ c, Config.engineDisabled c = false) → ∀ e ∈ stages2, neverFit binding.s [stageAsk e] = false) ∧
    sharedChain binding.s 0 false false ((identities binding.s (leBytes 48 0) 0 stages2).zip stages2) 1 = [] ∧
    (cmd 1 bindFrame (lm 1 mapped)).read 0x1000 64 = List.replicate 64 0 ∧ (cmd 1 bindFrame (lm 1 id)).range 0x1000 64 [.read] = false ∧
    (∀ g ∈ [lm 1 (partly 1), lm 1 (partly 9)], Spec.Takes 0x50 false true [(8, 8)] partFrame g (cmd 1 partFrame g) ∧
      (cmd 1 partFrame g).range 0x1FA0 64 [.read] = true ∧ leAt ((cmd 1 partFrame g).read 0x1FA0 64) 0 1 = 2 ∧
      (cmd 1 partFrame g).range 0x1FA0 (64 + 96 * 2) [.read] = false ∧ descPoisoned (cmd 1 partFrame g) 0x1FA0 2 = false ∧
      ∀ i < 2, (cmd 1 partFrame g).range (0x1FA0 + 96 + 96 * i) 32 [.read] = false) ∧
    (let m (cls : Nat) := descBytes (cmd 1 partFrame (lm 1 (partly cls))) 0x1FA0 2
     descMalformed (m 1) 2 ((upFrom 0 2).map (stageBlock (m 1))) = false ∧ descMalformed (m 9) 2 ((upFrom 0 2).map (stageBlock (m 9))) = true) := by
  refine ⟨⟨takes _ _ _ _ _ _ _, by decide +kernel⟩, ⟨takes _ _ _ _ _ _ _, takes _ _ _ _ _ _ _, by decide +kernel⟩,
    ⟨takes _ _ _ _ _ _ _, takes _ _ _ _ _ _ _, by decide +kernel⟩, ⟨takes _ _ _ _ _ _ _, by decide +kernel⟩, by decide +kernel, ?_,
    by decide +kernel, by decide +kernel, by decide +kernel,
    List.forall_mem_cons.mpr ⟨⟨takes _ _ _ _ _ _ _, by decide +kernel⟩, List.forall_mem_singleton.mpr ⟨takes _ _ _ _ _ _ _, by decide +kernel⟩⟩,
    by decide +kernel⟩
  intro h
  simp only [neverFit, seatAll, places, clustersOf_enabled h]
  decide +kernel

theorem test_meets_CommandsRefused :
    ((.powerSet, 0xA0, true, false, [(8, 9)]) ∈ Spec.commandTable ∧ (lm 1 id).cur = .command 1 0 ∧ (frm 0xA0 []).opc.toNat = 0xA0 ∧
      (if (1 : Nat) = 0 then true else false) = false) ∧
    ((.fenceCommand, 0x60, true, true, []) ∈ Spec.commandTable ∧ (frm 0x60 [(8, 1)]).opc.toNat = 0x60 ∧ reservedZero (frm 0x60 [(8, 1)]) [] = false) ∧
    (getQueue (lm 1 id) 1).backlog = [] ∧ (getQueue (lm 1 id) 1).cprod - (getQueue (lm 1 id) 1).ccons ≠ 1024 :=
  ⟨⟨List.mem_of_getElem? (i := 30) rfl, rfl, by decide +kernel⟩, ⟨List.mem_of_getElem? (i := 16) rfl, by decide +kernel⟩, by decide⟩

/-- A command of a code that has been taken. -/
def taken (opc : BitVec 16) : Pending := { opc := opc, ctag := 3, flags := 0, seq := 0xFFFFFFFF, lid := 0, addr := 0x1000, value := 5, acq := [], rel := [] }

/-- Queue 1 has taken it, and has memory. -/
def waits (opc : BitVec 16) (s : State) : State := setQueue (mapped s) 1 { Queue.reset with pending := [taken opc] }

/-- A record that is held back. -/
def heldBack : Record := { opc := 0x60, status := 0, ctag := 3, seq := 0, result := 0 }

/-- Queue 1 holds it back, its ring being full. -/
def clogged (s : State) : State := setQueue s 1 { Queue.reset with cprod := 1024, backlog := [heldBack] }

/-- Queue 1 is being reset. -/
def stopped (s : State) : State := setQueue s 1 { Queue.reset with stopped := true }

/-- Its command processors do not answer. -/
def silent (s : State) : State := { s with loom := { s.loom with deadCp := [(0, true), (1, true)] } }

/-- A DEBUG.STOP of launch 1 has been taken behind that command. -/
def stopping (s : State) : State := setQueue (mapped s) 1 { Queue.reset with pending := [taken 0x62, { taken 0x90 with lid := 1, seq := 7 }] }

/-- A SIGNAL to another module has been taken, with a port up or none. -/
def signals (f : State → State) (s : State) : State := setQueue (f s) 1 { Queue.reset with pending := [taken 0x61] }

/-- WDCFG has a reserved byte that is not zero. -/
def wrongWdcfg (s : State) : State := { s with loom := { s.loom with ctl := memWrite s.loom.ctl 0x30030 [1] } }

theorem test_meets_QueuesAndRegisters :
    (Spec.Takes 0x60 true true [] (frm 0x60 []) (lm 1 id) (cmd 1 (frm 0x60 []) (lm 1 id)) ∧ (getQueue (lm 1 id) 1).pending = [] ∧
      (getQueue (lm 1 (waits 0x62)) 1).pending ≠ []) ∧
    ((getQueue (lm 1 (waits 0x60)) 1).pending = [taken 0x60] ∧ (getQueue (lm 1 (waits 0x60)) 1).backlog = [] ∧ (taken 0x60).opc = 0x60 ∧
      (taken 0x61).opc = 0x61 ∧ (taken 0x90).opc = 0x90 ∧ (taken 0x62).opc ≠ 0x60 ∧ (taken 0x62).opc ≠ 0x61 ∧ (taken 0x62).opc ≠ 0x90 ∧
      cpDead (lm 1 id) 1 = false ∧ cpDead (lm 1 silent) 1 = true ∧ cpDead (lm 0 silent) 0 = true) ∧
    (let f := frm 0x61 [(8, 0x1000), (0x10, 5)]
     Spec.Takes 0x61 false true [(8, 16)] f (lm 1 mapped) (cmd 1 f (lm 1 mapped)) ∧ (cmd 1 f (lm 1 mapped)).range 0x1000 8 [.write] = true ∧
      isRemote (cmd 1 f (lm 1 mapped)).s 0 0x1000 = false ∧ cpDead (cmd 1 f (lm 1 mapped)).s 1 = false ∧ cpDie 1 < (cmd 1 f (lm 1 mapped)).s.mem.views.length ∧
      (getQueue (lm 1 mapped) 1).pending = [] ∧ (cmd 1 f (lm 1 mapped)).range 0x5000 8 [.write] = false) ∧
    (let f := frm 0x61 [(8, 0x1000), (0x10, 5)]
     let s := lm 1 (waits 0x62)
     Spec.Takes 0x61 false true [(8, 16)] f s (cmd 1 f s) ∧ (getQueue (cmd 1 f s).s 1).backlog = [] ∧ (cmd 1 f s).range 0x1000 8 [.write] = true ∧
      isRemote (cmd 1 f s).s 0 0x1000 = false ∧ cpDie 1 < (cmd 1 f s).s.mem.views.length ∧
      cpDead (cmd 1 f s).s 1 = false ∧ (getQueue s 1).pending = [taken 0x62] ∧ (taken 0x62).opc ≠ 0x60 ∧ (taken 0x62).opc ≠ 0x61 ∧ ∀ x ∈ [taken 0x62], x.seq ≠ (cmd 1 f s).p.seq) ∧
    Spec.Takes 0x61 false true [(8, 16)] (frm 0x61 [(8, 0x1001)]) (lm 1 mapped) (cmd 1 (frm 0x61 [(8, 0x1001)]) (lm 1 mapped)) ∧
    (let f := frm 0x62 [(8, 0x1000), (0x10, 5)]
     Spec.Takes 0x62 false true [(8, 16)] f (lm 1 mapped) (cmd 1 f (lm 1 mapped)) ∧ (cmd 1 f (lm 1 mapped)).range 0x1000 8 [.read] = true ∧
      readNat (cmd 1 f (lm 1 mapped)).s (cpDie 1) (gkey 0 0x1000) 8 < fld f 0x10 8) ∧
    (Spec.Takes 0x62 false true [(8, 16)] (frm 0x62 [(8, 0x1000)]) (lm 1 mapped) (cmd 1 (frm 0x62 [(8, 0x1000)]) (lm 1 mapped)) ∧
      fld (frm 0x62 [(8, 0x1000)]) 0x10 8 ≤ readNat (cmd 1 (frm 0x62 [(8, 0x1000)]) (lm 1 mapped)).s (cpDie 1) (gkey 0 0x1000) 8) ∧
    (let f := frm 0x62 [(8, 0x1000), (0x10, 5)]
     Spec.Takes 0x62 false true [(8, 16)] f (lm 1 elsewhere) (cmd 1 f (lm 1 elsewhere)) ∧
      (cmd 1 f (lm 1 elsewhere)).range 0x1000 8 [.read] = true ∧ isRemote (cmd 1 f (lm 1 elsewhere)).s 0 0x1000 = true) ∧
    ((getQueue (lm 1 (waits 0x62)) 1).pending.find? (fun p => p.opc = 0x62) = some (taken 0x62) ∧ fnOfQueue (lm 1 (waits 0x62)) 1 = some 0 ∧
      loomRange (lm 1 (waits 0x62)) 0 (secureQueue (lm 1 (waits 0x62)) 1) 0x1000 8 [.read] = none ∧ isRemote (lm 1 (waits 0x62)) 0 0x1000 = false) ∧
    (fnOfQueue (lm 1 id) 1 ≠ none ∧ fnOfQueue (lm 1 id) 2 = none ∧ (getQueue (lm 1 id) 1).stopped = false ∧ (getQueue (lm 1 stopped) 1).stopped = true ∧
      readWdcfg (lm 0 id) = some Wdcfg.reset ∧ readWdcfg (lm 0 wrongWdcfg) = none) ∧
    ((getQueue (lm 1 clogged) 1).backlog = [heldBack] ∧ (getQueue (lm 1 clogged) 1).cprod - 1 ≠ 1024) ∧
    (let f := frm 0x01 [(8, 1)]
     Spec.Takes 0x01 true true [(8, 2)] f (lm 0 (waits 0x62)) (cmd 0 f (lm 0 (waits 0x62))) ∧ fnOfQueue (lm 0 (waits 0x62)) (fld f 8 2) ≠ none ∧
      fld f 8 2 ≠ 0 ∧ (getQueue (lm 0 (waits 0x62)) 1).pending = [taken 0x62] ∧ (taken 0x62).opc ≠ 0x30 ∧ (taken 0x62).opc ≠ 0x31 ∧
      (getQueue (lm 0 (waits 0x62)) 1).cprod - (getQueue (lm 0 (waits 0x62)) 1).ccons ≠ 1024) ∧
    (Spec.Takes 0x01 true true [(8, 2)] (frm 0x01 [(8, 1)]) (lm 0 (waits 0x80)) (cmd 0 (frm 0x01 [(8, 1)]) (lm 0 (waits 0x80))) ∧
      (getQueue (lm 0 (waits 0x80)) 1).pending.any (·.saves) = true ∧ (getQueue (lm 0 (waits 0x62)) 1).pending.any (·.saves) = false) ∧
    (Spec.Takes 0x01 true true [(8, 2)] (frm 0x01 [(8, 2000)]) (lm 0 id) (cmd 0 (frm 0x01 [(8, 2000)]) (lm 0 id)) ∧
      Spec.Takes 0x01 true true [(8, 2)] (frm 0x01 [(8, 2)]) (lm 0 id) (cmd 0 (frm 0x01 [(8, 2)]) (lm 0 id))) ∧
    ((getQueue (lm 1 stopping) 1).pending.find? (fun p => decide (p.opc = 0x90) && atBoundary (lm 1 stopping) 0 p.lid) =
        some { taken 0x90 with lid := 1, seq := 7 } ∧
      (getQueue (lm 1 (waits 0x62)) 1).pending.find? (fun p => decide (p.opc = 0x90) && atBoundary (lm 1 (waits 0x62)) 0 p.lid) = none) ∧
    (isRemote (lm 1 (signals elsewhere)) 0 0x1000 = true ∧ linked (lm 1 (signals elsewhere)) = true ∧
      isRemote (lm 1 (signals alone)) 0 0x1000 = true ∧ linked (lm 1 (signals alone)) = false ∧
      (getQueue (lm 1 (signals alone)) 1).pending = [taken 0x61]) ∧
    (let f := frm 0x62 [(8, 0x1000), (0x10, 5)]
     Spec.Takes 0x62 false true [(8, 16)] f (lm 1 alone) (cmd 1 f (lm 1 alone)) ∧ (cmd 1 f (lm 1 alone)).range 0x1000 8 [.read] = true ∧
      isRemote (cmd 1 f (lm 1 alone)).s 0 0x1000 = true ∧ linked (cmd 1 f (lm 1 alone)).s = false) ∧
    ((getQueue (lm 0 (waits 0x80)) 1).pending.any (fun p => p.saves && !Machine.heldBack (getQueue (lm 0 (waits 0x80)) 1) p) = true ∧
      (getQueue (lm 0 (waits 0x62)) 1).pending.any (fun p => p.saves && !Machine.heldBack (getQueue (lm 0 (waits 0x62)) 1) p) = false ∧
      ((getQueue (lm 0 (waits 0x80)) 1).pending.map (·.seq)).Nodup ∧ cpDead (lm 0 (waits 0x62)) 1 = false) :=
  ⟨⟨takes _ _ _ _ _ _ _, by decide +kernel⟩, by decide, ⟨takes _ _ _ _ _ _ _, by decide +kernel⟩, ⟨takes _ _ _ _ _ _ _, by decide +kernel⟩, takes _ _ _ _ _ _ _,
    ⟨takes _ _ _ _ _ _ _, by decide +kernel⟩, ⟨takes _ _ _ _ _ _ _, by decide +kernel⟩, ⟨takes _ _ _ _ _ _ _, by decide +kernel⟩,
    by decide +kernel, by decide +kernel, by decide, ⟨takes _ _ _ _ _ _ _, by decide +kernel⟩,
    ⟨takes _ _ _ _ _ _ _, by decide +kernel⟩, ⟨takes _ _ _ _ _ _ _, takes _ _ _ _ _ _ _⟩,
    by decide +kernel, by decide +kernel, ⟨takes _ _ _ _ _ _ _, by decide +kernel⟩, by decide +kernel⟩

/-- PARTITION of function 1: queues 2 and 3, cluster 5, no memory. -/
def partitionFrame (fn : Nat) : Frame := frm 0x70 [(8, fn), (0x0C, 2), (0x0E, 3), (0x10, 32)]

/-- Function 0 is being reset by a command of queue 0, and nothing of it is left; its function has queue 1. -/
def draining (s : State) : State :=
  setQueue { s with teams := [], loom := { s.loom with launches := [], draining := some 0 } } 0
    { Queue.reset with pending := [taken 0x71] }

theorem test_meets_PartitionAndFunctionReset :
    (Spec.Takes 0x70 true false [(8, 2), (0x0C, 40)] (partitionFrame 1) (lm 0 homeless) (cmd 0 (partitionFrame 1) (lm 0 homeless)) ∧
      funcBusy (cmd 0 (partitionFrame 1) (lm 0 homeless)).s 1 = false ∧ funcBusy (lm 0 homeless) 0 = true ∧
      otherFuncs (cmd 0 (partitionFrame 1) (lm 0 homeless)).s 1 = [{ sampleFunc with clusters := 0 }] ∧
      (0 : BitVec 160) &&& BitVec.ofNat 160 (fld (partitionFrame 1) 0x10 28) = 0 ∧ fld (partitionFrame 1) 0x10 28 ≠ 0 ∧
      Spec.Takes 0x70 true false [(8, 2), (0x0C, 40)] (partitionFrame 4) (lm 0 homeless) (cmd 0 (partitionFrame 4) (lm 0 homeless))) ∧
    (Spec.Takes 0x71 true false [(8, 1)] (frm 0x71 []) (lm 0 id) (cmd 0 (frm 0x71 []) (lm 0 id)) ∧
      getFunc (cmd 0 (frm 0x71 []) (lm 0 id)).s 0 = some sampleFunc ∧ getFunc (lm 0 id) 1 = none ∧
      Spec.Takes 0x71 true false [(8, 1)] (frm 0x71 [(8, 4)]) (lm 0 id) (cmd 0 (frm 0x71 [(8, 4)]) (lm 0 id)) ∧
      Spec.Takes 0x71 true false [(8, 1)] (frm 0x71 [(8, 1)]) (lm 0 id) (cmd 0 (frm 0x71 [(8, 1)]) (lm 0 id))) ∧
    (getFunc (lm 0 draining) 0 = some sampleFunc ∧ (lm 0 draining).loom.draining = some 0 ∧ drained (lm 0 draining) 0 = true ∧
      (lm 0 draining).mem.views.length = 4 ∧ sampleFunc.qlo ≠ 0 ∧
      (getQueue (lm 0 draining) 0).pending.find? (fun p => p.opc = 0x71) = some (taken 0x71)) ∧
    drained (lm 0 id) 0 = false :=
  ⟨⟨takes _ _ _ _ _ _ _, by decide +kernel, by decide +kernel, by decide +kernel, by decide +kernel, by decide +kernel, takes _ _ _ _ _ _ _⟩,
    ⟨takes _ _ _ _ _ _ _, by decide +kernel, by decide +kernel, takes _ _ _ _ _ _ _, takes _ _ _ _ _ _ _⟩, by decide +kernel, by decide +kernel⟩

/-- The launch is parked, and its team saved or not; its checkpoint of three bytes stands at 1000h. -/
def parkedTeams (l : List Team) (s : State) : State :=
  { mapped s with teams := l, loom := { s.loom with launches := [{ sampleLaunch with parked := true }] } }

/-- A checkpoint of that launch, without images. -/
def checkpoint : Checkpoint := { bytes := [1, 2, 3], launch := { sampleLaunch with parked := true }, images := [], hops := [], root := [], secure := false }

/-- It stands at 1000h. -/
def checkpointed (s : State) : State :=
  holds 0x1000 [1, 2, 3] { mapped s with loom := { s.loom with checkpoints := [checkpoint] } }

/-- A frame of a code with a launch and a buffer. -/
def buffered (opc lid a n : Nat) : Frame := frm opc [(8, lid), (0x10, a), (0x18, n)]

/-- Cluster 0 is in a phase of a pre-emption, with a quiet team. -/
def phase (p : Preempt) (s : State) : State :=
  updCluster { s with cur := .cluster 0, teams := [{ team half with wefts := [{ half with pos := Pos.atClause 0 }] }] } 0
    fun k => { k with preempt := p }

/-- An image of team 0 of class 3. -/
def saved : Image := { id := 5, fn := 0, cls := 3, order := 5, cluster := Cluster.reset, teams := [{ team half with cls := 3 }], acq := [], ops := [] }

/-- Nothing is resident, and that image waits. -/
def resting (s : State) : State := { s with teams := [], clusters := [], loom := { s.loom with images := [saved] } }

theorem freeFor_enabled (h : ∀ c, Config.engineDisabled c = false) : freeFor = fun s fn c =>
    ((match getFunc s fn with | some f => f.clusters.getLsbD c | none => false) && !(getCluster s c).fenced &&
      decide ((getCluster s c).preempt = .none)) && (residents s c).isEmpty &&
      (upFrom 0 16).all fun ch => (getChan s c ch).copies.isEmpty := by
  funext s fn c
  rw [freeFor, offered, h, Bool.not_false, Bool.and_true]
  first | done | exact match getFunc s fn with | some _ => rfl | none => rfl

/-- A copy of the cluster has written a byte beyond its PROG. -/
def ahead (s : State) : State :=
  updCluster s 0 fun k => { k with chans := [(0, { issued := 1, copies := [{ copy 0 with prog := 100, ahead := [200] }], rel := [] })] }

theorem test_meets_Preemption :
    (Spec.Takes 0x80 false true [(8, 4)] (frm 0x80 [(8, 1)]) (lm 1 id) (cmd 1 (frm 0x80 [(8, 1)]) (lm 1 id)) ∧
      getLaunch (lm 1 id) 0 1 = some sampleLaunch ∧ launchSaved (lm 1 id) 0 1 = false ∧ launchSaved (lm 1 (parkedTeams [])) 0 1 = true ∧
      getLaunch (lm 1 id) 0 9 = none) ∧
    (Spec.Takes 0x81 false true [(8, 4)] (frm 0x81 [(8, 1)]) (lm 1 (parkedTeams [])) (cmd 1 (frm 0x81 [(8, 1)]) (lm 1 (parkedTeams []))) ∧
      getLaunch (lm 1 (parkedTeams [])) 0 1 = some { sampleLaunch with parked := true }) ∧
    (let f := buffered 0x82 1 0x1000 0x100
     Spec.Takes 0x82 false true [(8, 4), (0x10, 16)] f (lm 1 (parkedTeams [])) (cmd 1 f (lm 1 (parkedTeams []))) ∧
      (cmd 1 f (lm 1 (parkedTeams []))).range 0x1000 0x100 [.write] = true ∧ (cmd 1 f (lm 1 id)).range 0x1000 0x100 [.write] = false ∧
      cpDie 1 < (cmd 1 f (lm 1 (parkedTeams []))).s.mem.views.length) ∧
    (let f := buffered 0x83 2 0x1000 0x100
     Spec.Takes 0x83 false true [(8, 4), (0x10, 16)] f (lm 1 checkpointed) (cmd 1 f (lm 1 checkpointed)) ∧ fld f 8 4 ≠ 0 ∧
      (cmd 1 f (lm 1 checkpointed)).range 0x1000 0x100 [.read] = true ∧ checkpointAt (cmd 1 f (lm 1 checkpointed)) 0x1000 0x100 = some checkpoint ∧
      (∃ o ∈ (lm 1 checkpointed).loom.objs, o.fn = 0 ∧ o.secure = false ∧ o.root = checkpoint.root) ∧
      getLaunch (lm 1 checkpointed) 0 2 = none ∧ (getLaunch (lm 1 checkpointed) 0 1).isSome = true) ∧
    ((lm 1 (phase .requested)).cur = .cluster 0 ∧ (getCluster (lm 1 (phase .requested)) 0).preempt = .requested ∧
      (∀ t ∈ residents (lm 1 (phase .requested)) 0, quiet (lm 1 (phase .requested)) t = true) ∧
      (getCluster (lm 1 (phase .requested)) 0).mx.running = none ∧ (getCluster (lm 1 (phase .stopped)) 0).preempt = .stopped ∧
      residents (lm 1 (phase .stopped)) 0 ≠ [] ∧ (∀ i < 4, (getCore (lm 1 (phase .requested)) 0 i).moving = none) ∧
      residents { lm 1 (phase .stopped) with teams := [] } 0 = []) ∧
    ((∀ c, Config.engineDisabled c = false) → pick (lm 1 resting) 0 [3, 2, 1, 0] = .image 5 ∧
      (lm 1 resting).loom.images.find? (fun m => m.id = 5) = some saved ∧
      spotsFor (lm 1 resting) saved.fn (imageSet (lm 1 resting) saved) 7 = some [(saved, 7)]) ∧
    (∀ x ∈ saved.teams, ∀ w ∈ x.wefts, w.wait ≠ .retry Why.line.code) ∧
    (∃ y ∈ (getChan (ahead (lm 1 (phase .requested))) 0 0).copies, y.ahead ≠ []) ∧
    (∀ ch < 16, (getChan (lm 1 (phase .requested)) 0 ch).copies = []) := by
  refine ⟨⟨takes _ _ _ _ _ _ _, by decide +kernel⟩, ⟨takes _ _ _ _ _ _ _, by decide +kernel⟩, ⟨takes _ _ _ _ _ _ _, by decide +kernel⟩,
    ⟨takes _ _ _ _ _ _ _, by decide +kernel⟩, by decide +kernel, fun h => ⟨?_, by decide +kernel, ?_⟩, by decide +kernel,
    ⟨{ copy 0 with prog := 100, ahead := [200] }, List.mem_singleton.mpr rfl, by decide⟩, by decide +kernel⟩
  · have e : imagesOf (lm 1 resting) 0 3 = [saved] := by decide +kernel
    have f : ((upFrom 0 160).any fun c => (spotsFor (lm 1 resting) saved.fn (imageSet (lm 1 resting) saved) c).isSome) = true := by
      simp only [spotsFor, freeFor_enabled h]
      decide +kernel
    rw [pick, e, pickImage, if_pos f]
    decide +kernel
  · simp only [spotsFor, freeFor_enabled h]
    decide +kernel

/-- Its hart has a load out. -/
def reaching (s : State) : State := { s with teams := [hteam (waiting (.load 3 0x1FF8 8 true))] }

/-- Its object's chunk is not resident. -/
def gone (s : State) : State := { s with loom := { s.loom with launches := [{ sampleLaunch with stopped := true }], chunks := [] } }

/-- The launch is stopped by debug. -/
def debugged (s : State) : State := { mapped s with loom := { s.loom with launches := [{ sampleLaunch with stopped := true }] } }

/-- Its team is held at a breakpoint. -/
def broken (s : State) : State := { s with teams := [{ team half with held := some .breakpoint }] }

/-- Memory for a weft's state. -/
def roomy (s : State) : State := { s with xlat := { s.xlat with pages := [{ page 0x10000 with size := 0x10000 }] } }

theorem test_meets_DebugCommands :
    (Spec.Takes 0x90 false true [(8, 4)] (frm 0x90 [(8, 1)]) (lm 1 id) (cmd 1 (frm 0x90 [(8, 1)]) (lm 1 id)) ∧
      getLaunch (lm 1 id) 0 1 = some sampleLaunch ∧ getLaunch (lm 1 id) 0 2 = none ∧ atBoundary (lm 1 id) 0 1 = true ∧
      atBoundary (lm 1 reaching) 0 1 = false) ∧
    (Spec.Takes 0x91 false true [(8, 4)] (frm 0x91 [(8, 1)]) (lm 1 debugged) (cmd 1 (frm 0x91 [(8, 1)]) (lm 1 debugged)) ∧
      getLaunch (lm 1 debugged) 0 1 = some { sampleLaunch with stopped := true } ∧ sampleLaunch.stopped = false ∧
      (∀ m ∈ allTeams (lm 1 id), ofLaunch 0 1 m = true → m.held ≠ some .breakpoint) ∧
      ∃ m ∈ allTeams (lm 1 broken), ofLaunch 0 1 m = true ∧ m.held = some .breakpoint) ∧
    (Spec.Takes 0x92 false true [(8, 8)] (frm 0x92 [(8, 1), (0x0C, 4)]) (lm 1 debugged) (cmd 1 (frm 0x92 [(8, 1), (0x0C, 4)]) (lm 1 debugged)) ∧
      Spec.Takes 0x93 false true [(8, 8)] (frm 0x93 [(8, 1), (0x0C, 4)]) (lm 1 debugged) (cmd 1 (frm 0x93 [(8, 1), (0x0C, 4)]) (lm 1 debugged)) ∧
      getObj (lm 1 debugged) 1 = some (sampleObj [0x0007F801, 0] []) ∧ namesWord (sampleObj [0x0007F801, 0] []) 4 = true ∧
      namesWord (sampleObj [0x0007F801, 0] []) 0 = false ∧ copyAt { sampleLaunch with stopped := true } (sampleObj [0x0007F801, 0] []) 4 = none ∧
      stored (lm 1 debugged) (sampleObj [0x0007F801, 0] []) (chunkOfText (sampleObj [0x0007F801, 0] []) false 4) = true ∧
      stored (lm 1 gone) (sampleObj [0x0007F801, 0] []) (chunkOfText (sampleObj [0x0007F801, 0] []) false 4) = false) ∧
    (let f := frm 0x94 [(8, 1), (0x18, 0x10000), (0x20, 17152)]
     Spec.Takes 0x94 false true [(8, 12), (0x18, 16)] f (lm 1 roomy) (cmd 1 f (lm 1 roomy)) ∧
      (allTeams (lm 1 roomy)).find? (fun t => ofLaunch 0 1 t && decide (t.ref.number = 0)) = some (sampleTeam false) ∧
      (sampleTeam false).weft? 0 = some sampleWeft ∧ (sampleTeam false).weft? 1 = none ∧
      (cmd 1 f (lm 1 roomy)).range 0x10000 (Nat.min 17152 17152) [.write] = true ∧ (cmd 1 f (lm 1 id)).range 0x10000 (Nat.min 17152 17152) [.write] = false ∧
      cpDie 1 < (cmd 1 f (lm 1 roomy)).s.mem.views.length ∧ (sampleTeam false).uni.k.length = 32) :=
  ⟨⟨takes _ _ _ _ _ _ _, by decide +kernel⟩, ⟨takes _ _ _ _ _ _ _, by decide +kernel⟩, ⟨takes _ _ _ _ _ _ _, takes _ _ _ _ _ _ _, by decide +kernel⟩,
    takes _ _ _ _ _ _ _, by decide +kernel⟩

/-! ### The Vane, time, errors, the fabric -/

/-- A full window whose record has not been sent, with telemetry on. -/
def windowed (s : State) : State :=
  { s with vane := { s.vane with samples := List.replicate 100 7, dest := { s.loom.telem with tdest := 1 } },
           loom := { s.loom with telem := { s.loom.telem with tdest := 1, ptpdom := 4 } } }

/-- A two-step Sync has arrived; the clock is locked. -/
def synced (s : State) : State := { windowed s with ptp := { s.ptp with sync := 1, twoStep := some 9 } }

/-- A Delay_Req of number 3 is out; and the bit of PMODE that lets a rendezvous answer is set, with the window full. -/
def requested (s : State) : State :=
  { windowed s with ptp := { s.ptp with request := some (3, 8), nextReq := 4 },
                    loom := { s.loom with power := { s.loom.power with pmode := 2 } } }

/-- The record of the full window has been sent. -/
def recorded (s : State) : State := { windowed s with vane := { (windowed s).vane with telemSent := true } }

/-- A Sync message of a domain. -/
def syncOf (domain : BitVec 8) (twoStep : Bool) (origin : Nat) : PtpSyncMsg :=
  { domain := domain, twoStep := twoStep, origin := origin }

/-- Nothing runs. -/
def quietAll (s : State) : State := { mapped s with teams := [], loom := { s.loom with launches := [] } }

/-- A buffer of queue 0 at 1000h of function 0, which is secure. -/
def secured (s : State) : State :=
  { mapped s with xlat := { (mapped s).xlat with pages := [{ page 0x1000 with secure := true }] },
                  loom := { s.loom with funcs := [(0, some { sampleFunc with secure := true })] } }

/-- PATCH.LOAD of n bytes at 1000h. Which images are accepted, the key in Config decides (log entry 10). -/
def patchFrame (n : Nat) : Frame := frm 0xB0 [(8, 2 ^ 58 + 0x1000), (0x10, n)]

theorem test_meets_PowerTimeAndTrust :
    (Spec.Takes 0xA0 true false [(8, 9)] (frm 0xA0 [(8, 2200), (0x0E, 800), (0x10, 7)]) (lm 0 id)
        (cmd 0 (frm 0xA0 [(8, 2200), (0x0E, 800), (0x10, 7)]) (lm 0 id)) ∧ inRange 2200 200 2200 = true ∧ inRange 0 1 10000 = true ∧
      inRange 800 1 800 = true ∧ inRange 199 200 2200 = false ∧
      Spec.Takes 0xA0 true false [(8, 9)] (frm 0xA0 [(8, 199)]) (lm 0 id) (cmd 0 (frm 0xA0 [(8, 199)]) (lm 0 id))) ∧
    (Spec.Takes 0xA1 true false [(0x10, 24)] (frm 0xA1 [(0x1A, 2), (0x1C, 16), (0x20, 64)]) (lm 0 id)
        (cmd 0 (frm 0xA1 [(0x1A, 2), (0x1C, 16), (0x20, 64)]) (lm 0 id)) ∧ (16 : Nat) = 2 ^ 4 ∧
      Spec.Takes 0xA1 true false [(0x10, 24)] (frm 0xA1 [(0x1A, 2), (0x1C, 17)]) (lm 0 id) (cmd 0 (frm 0xA1 [(0x1A, 2), (0x1C, 17)]) (lm 0 id))) ∧
    (riseRoom Power.reset { (lm 0 id).vane with prevSum := some 5 } = some 2000005 ∧ riseRoom Power.reset (lm 0 id).vane = none ∧
      ceilRoom Power.reset (lm 0 id).vane < 2 ^ 40 ∧
      ¬ ((lm 0 recorded).vane.samples.length = 100 ∧ (lm 0 recorded).vane.telemSent = false ∧ (lm 0 recorded).vane.dest.tdest ≠ 0)) ∧
    ((lm 0 windowed).vane.samples.length = 100 ∧ (lm 0 windowed).vane.telemSent = false ∧ (lm 0 windowed).vane.dest.tdest ≠ 0 ∧
      (lm 0 recorded).vane.telemSent = true ∧ (syncOf 5 false 0).domain ≠ (lm 0 windowed).loom.telem.ptpdom ∧
      (syncOf 4 true 0).domain = (lm 0 windowed).loom.telem.ptpdom ∧ (lm 0 synced).ptp.twoStep = some 9 ∧ (lm 0 synced).ptp.sync = 1 ∧
      (lm 0 windowed).ptp.twoStep = none ∧ (lm 0 windowed).ptp.sync ≠ 1) ∧
    (((lm 0 synced).ptp.delay - ((9 : Nat) - (9 : Nat) : Int)).natAbs ≤ 10 ^ 6 ∧
      (10 : Int) ^ 6 < (lm 0 synced).ptp.delay - ((9 : Nat) - (2 * 10 ^ 6 : Nat) : Int) ∧
      timeNs (lm 0 synced) + ((lm 0 synced).ptp.delay - ((9 : Nat) - (2 * 10 ^ 6 : Nat) : Int)).natAbs < 2 ^ 48 * 10 ^ 9 ∧
      (lm 0 synced).ptp.delay - ((2 * 10 ^ 6 : Nat) - (9 : Nat) : Int) < -(10 : Int) ^ 6) ∧
    (Spec.Takes 0xB0 true false [(8, 16)] (patchFrame 256) (lm 0 secured) (cmd 0 (patchFrame 256) (lm 0 secured)) ∧
      (cmd 0 (patchFrame 256) (lm 0 secured)).bufferOk (2 ^ 58 + 0x1000) 256 [.read] = true ∧
      (cmd 0 (patchFrame 256) (lm 0 id)).bufferOk (2 ^ 58 + 0x1000) 256 [.read] = false ∧ patchOf (List.replicate 256 0) = none ∧
      allIdle (lm 0 id) = false ∧ allIdle (lm 0 quietAll) = true) ∧
    (Spec.Takes 0xB1 true true [(8, 48)] (frm 0xB1 [(0x30, 0x1000)]) (lm 1 mapped) (cmd 1 (frm 0xB1 [(0x30, 0x1000)]) (lm 1 mapped)) ∧
      (cmd 1 (frm 0xB1 [(0x30, 0x1000)]) (lm 1 mapped)).buffer 0x1000 = some (0, 0x1000) ∧
      (cmd 1 (frm 0xB1 [(0x30, 0x1000)]) (lm 1 mapped)).bufferOk 0x1000 512 [.write] = true ∧
      (cmd 1 (frm 0xB1 [(0x30, 0x1000)]) (lm 1 id)).bufferOk 0x1000 512 [.write] = false) ∧
    ((lm 0 requested).ptp.request = some (3, 8) ∧ (lm 0 windowed).ptp.request = none ∧ (lm 0 requested).vane.samples.length = 100 ∧
      (lm 0 requested).loom.power.pmode.getLsbD 1 = true) :=
  ⟨⟨takes _ _ _ _ _ _ _, by decide, by decide, by decide, by decide, takes _ _ _ _ _ _ _⟩, ⟨takes _ _ _ _ _ _ _, by decide, takes _ _ _ _ _ _ _⟩,
    by decide +kernel, by decide +kernel, by decide +kernel, ⟨takes _ _ _ _ _ _ _, by decide +kernel⟩, ⟨takes _ _ _ _ _ _ _, by decide +kernel⟩, by decide +kernel⟩

/-- CP1 has missed two heartbeats. -/
def missing (n : Nat) (s : State) : State := { s with loom := { s.loom with missed := [(1, n)] } }

/-- A corrected error of memory has been counted in this millisecond. -/
def oneError (s : State) : State := match exec (.eccCorrected (.memory 0 0)) s with | .next t => t | _ => s

theorem test_meets_StorageErrorsAndHeartbeats :
    ((getQueue (lm 0 id) 0).eprod - (getQueue (lm 0 id) 0).econs ≠ 512 ∧
      (getQueue (setQueue (lm 0 id) 0 { Queue.reset with eprod := 512 }) 0).eprod - 0 = 512) ∧
    (Spec.mergedAt (lm 0 id) (lm 0 id) (.memory 0 0) = none ∧ (Spec.mergedAt (oneError (lm 0 id)) (oneError (lm 0 id)) (.memory 0 0)).isSome = true) ∧
    ((lm 0 id).mem.views.length = 4 ∧ Safety.weftIn (at' (team half)) 0 0 = some half ∧ half.alloc.getLsbD 2 = true ∧
      half.at 0 = some (strand 0 true 1 7) ∧ Safety.hartIn (hat id (hteam (hart 7 0))) 0 = some (hart 7 0)) ∧
    (((0 : BitVec 2) = 0 ∧ (1 : BitVec 2) ≠ 0) ∧ spGet false (lm 0 id).loom.deadCp 1 = false ∧ spGet 0 (lm 0 (missing 1)).loom.missed 1 + 1 < 3 ∧
      (lm 0 id).loom.wd.pcount = 3 ∧ 3 ≤ spGet 0 (lm 0 (missing 2)).loom.missed 1 + 1) := by
  decide +kernel

/-- A weft at BAR, and a hart at a full queue, whose waits have expired n times. -/
def waited (n : Nat) : Team :=
  { hteam { hart 0 0 with wait := .retry Why.queue.code, expiries := n } with wefts := [{ half with wait := .bar, expiries := n }] }

/-- With that team. -/
def waitIn (n : Nat) : State := { hat id (waited n) with teams := [waited n] }

/-- Its context 0 has an operation that waits. -/
def queuedOp (s : State) : State :=
  updCluster s 0 fun k => { k with mx := { k.mx with ctxs := [(0, { Ctx.reset with tid := some 0, ops := [{ num := 1, kind := .mend, acq := [], pc := 0 }] })] } }

/-- Its context 0 waits for a chain that is not formed; the wait has expired n times. -/
def noted (n : Nat) (s : State) : State :=
  let x : Ctx := { Ctx.reset with tid := some 0, ops := [{ num := 1, kind := .mchain 2 0 0, acq := [], pc := 0 }], expiries := n }
  updCluster s 0 fun k => { k with mx := { k.mx with ctxs := [(0, { x with waitMark := (1, x.steps, x.latches) })] } }

/-- Cluster 0 is fenced, or has been stalled for periods, with marks that its last check saw. -/
def stalledFor (n : Nat) (f : Bool) (s : State) : State :=
  updCluster s 0 fun k => { k with stalled := n, fenced := f, seen := engineMarks s 0 }

/-- Cluster 0 is being saved. -/
def saving (s : State) : State := updCluster s 0 fun k => { k with preempt := .stopped }

theorem test_meets_WatchdogsAndResets :
    (getTeam (waitIn 0) 0 = some (waited 0) ∧ (waited 0).weft? 0 = some { half with wait := .bar, expiries := 0 } ∧
      timersStill (waitIn 0) (waited 0) = false ∧ watchedWait .bar = true ∧ (0 : Nat) + 1 < (waitIn 0).loom.wd.wcount ∧
      (waitIn 3).loom.wd.wcount ≤ 3 + 1 ∧ (waited 3).partner = none ∧ watchedWait .none = false) ∧
    ((waited 0).hart = some { hart 0 0 with wait := .retry Why.queue.code, expiries := 0 } ∧
      watchedHart { hart 0 0 with wait := .retry Why.queue.code, expiries := 0 } = true) ∧
    (let s := queuedOp (waitIn 0)
     (getCtx (getCluster s 0).mx 0).tid = some 0 ∧ getTeam s 0 = some (waited 0) ∧ (getCtx (getCluster s 0).mx 0).ops = [{ num := 1, kind := .mend, acq := [], pc := 0 }] ∧
      timersStill s (waited 0) = false ∧ watchedCtx s 0 0 = false) ∧
    (let s := noted 1 (waitIn 0)
     let x := getCtx (getCluster s 0).mx 0
     watchedCtx s 0 0 = true ∧ timersStill s (waited 0) = false ∧ x.tid = some 0 ∧ x.ops = [{ num := 1, kind := .mchain 2 0 0, acq := [], pc := 0 }] ∧
      x.waitMark = (1, x.steps, x.latches) ∧ x.expiries + 1 < s.loom.wd.wcount ∧
      s.loom.wd.wcount ≤ (getCtx (getCluster (noted 3 (waitIn 0)) 0).mx 0).expiries + 1 ∧
      timersStill s { waited 0 with stopped := true } = true) ∧
    (let busy := fun n f => stalledFor n f (saving (waitIn 0))
     engineMarks (busy 1 false) 0 ≠ [] ∧ (getCluster (busy 1 false) 0).seen = engineMarks (busy 1 false) 0 ∧ engineMarks (waitIn 0) 0 = [] ∧
      (getCluster (busy 1 false) 0).fenced = false ∧ (getCluster (busy 1 false) 0).stalled + 1 < 3 ∧ (waitIn 0).loom.wd.ccount = 3 ∧
      3 ≤ (getCluster (busy 2 false) 0).stalled + 1 ∧ (getCluster (busy 0 true) 0).fenced = true) ∧
    BareUnit.team 0 ∈ [BareUnit.team 0, .weft 0 0] := by
  decide +kernel

/-- A store to another module. -/
def remoteOp (kind : OpKind) : VOp := { load { acc with remote := true } with kind := kind }

/-- The same range, where the page at 1000h is an object's DATA page whose chunk was evicted. -/
def portedOut (s : State) : State := { evicted s with xlat := { (evicted s).xlat with ports := [port] } }

/-- It is outstanding. -/
def outward (kind : OpKind) (s : State) : State := { s with vops := [remoteOp kind], cur := .port 3 }

/-- Port 3 is up and has retried n times. -/
def portUp (n : Nat) (s : State) : State := { s with cur := .port 3, weave := { s.weave with ports := [(3, { up := true, retries := n })] } }

theorem test_meets_FabricAccesses :
    (linked (lm 1 ported) = true ∧ linked { lm 1 ported with weave := { (lm 1 ported).weave with ports := [(0, { up := false, retries := 0 })] } } = false ∧
      getPort (lm 1 ported) 5 = some port ∧ port.holds 0xFF8 8 [0] = true ∧ port.holds 0xFF9 8 [0] = false ∧ (port.va + 0xFF8) % 8 = 0 ∧
      getPort (lm 1 ported) 6 = none) ∧
    ((findPage (lm 1 ported).xlat 0 0x1FF8).isSome = true ∧ (lm 1 ported).loom.draining ≠ some 0 ∧
      checkAccess (lm 1 ported) 0 (worldOf (lm 1 ported) 0) 0x1FF8 8 true [.read] = none ∧
      checkAccess (lm 1 ported) 0 (worldOf (lm 1 ported) 0) 0x1FF8 8 true [.write] = none ∧ isRemote (lm 1 ported) 0 0x1FF8 = false ∧
      (lm 1 ported).mem.views.length = 4 ∧ meeting (lm 1 ported).mem (gkey 0 0x1FF8) 8 = [] ∧
      checkAccess (lm 1 ported) 0 true 0x1FF8 8 true [.read] ≠ none) ∧
    (port.holds 0 4 [0, 1] = true ∧ checkAccess (lm 1 ported) 0 (worldOf (lm 1 ported) 0) 0x1000 4 true [.read, .write] = none) ∧
    ((tcb 0).length = 128 ∧ (0x1000 : Nat) % 128 = 0 ∧ port.va ≤ 0x1000 ∧ port.holds (0x1000 - port.va) 128 [1] = true ∧
      checkRange (lm 1 ported) 0 (worldOf (lm 1 ported) 0) 0x1000 128 [.write] = none ∧
      (lm 1 ported).loom.draining ≠ some port.fn ∧
      enqStatus (lm 1 ported) (tcbTask 0 (worldOf (lm 1 ported) 0) 0 0x1000 (tcb 0)) (tcb 0) true = 0 ∧
      enqStatus (lm 1 ported) (tcbTask 0 (worldOf (lm 1 ported) 0) 0 0x1000 (leBytes 128 0)) (leBytes 128 0) true ≠ 0) ∧
    (missingOf (lm 1 ported) 0 (upFrom 0x1FF8 8) = none ∧ missingOf (lm 1 ported) 0 (upFrom 0x1000 4) = none ∧
      missingOf (lm 1 portedOut) 0 (upFrom 0x1FF8 8) ≠ none ∧ missingOf (lm 1 portedOut) 0 (upFrom 0x1000 4) ≠ none ∧
      getPort (lm 1 portedOut) 5 = some port ∧ (lm 1 portedOut).loom.draining ≠ some 0 ∧
      outsideOk (lm 1 portedOut) 0 (worldOf (lm 1 portedOut) 0) (pieces 0x1FF8 8) [.read] = true ∧
      outsideOk (lm 1 portedOut) 0 (worldOf (lm 1 portedOut) 0) [(0x1000, 4)] [.read, .write] = true ∧
      port.holds 0xFF8 3 [0] = true ∧ ¬ ((3 : Nat) ≠ 0 ∧ (0x1FF8 : Nat) % 4 = 0 ∧ (3 : Nat) % 4 = 0) ∧
      port.holds 2 4 [0, 1] = true ∧ (0x1000 + 2 : Nat) % 4 ≠ 0) ∧
    ((0x30000 : Nat) / 2 ^ 56 = 0 ∧ (0x10000004 : Nat) / 2 ^ 56 = 0 ∧ (2 ^ 58 + 0x1FF8 : Nat) / 2 ^ 56 = 4 + 0 ∧ (2 ^ 57 : Nat) / 2 ^ 56 = 2) ∧
    (getOp (outward .store (at' (team half))) (remoteOp .store).id = some (remoteOp .store) ∧
      getTeam (outward .store (at' (team half))) (remoteOp .store).tid = some (team half) ∧ (remoteOp .store).accs = [{ acc with remote := true }] ∧
      { acc with remote := true }.done = false ∧ (team half).partner = none ∧ (remoteOp (.load true)).kind = .load true ∧
      getOp (outward (.load true) (at' (team half))) (remoteOp (.load true)).id = some (remoteOp (.load true))) ∧
    ((lm 1 (portUp 15)).cur = .port 3 ∧ (spGet WeavePort.reset (lm 1 (portUp 15)).weave.ports 3).up = true ∧
      (spGet WeavePort.reset (lm 1 (outward .store)).weave.ports 3).up = false) := by
  decide +kernel


theorem test_meets_FabricAccesses_undeliverable :
    (let s := hat elsewhere (hteam (waiting (.load 3 0x1FF8 8 true)))
     Spec.ofTeam s ∧ getOp s 0 = none ∧ getTeam s 0 = some (hteam (waiting (.load 3 0x1FF8 8 true))) ∧ isRemote s 0 0x1FF8 = true ∧
      (hteam (waiting (.load 3 0x1FF8 8 true))).partner = none) ∧
    (let h := { hart 0 0 with stores := [{ addr := 0x1FF8, bytes := [1], poison := false, rel := none, num := 1 }] }
     let s := hat elsewhere (hteam h)
     Spec.ofTeam s ∧ getTeam s 0 = some (hteam h) ∧ h.wait = .none ∧ ∃ x ∈ h.stores, isRemote s 0 x.addr.toNat = true) ∧
    (let s := hat (fun s => { copying (copy 0) s with xlat := (elsewhere s).xlat, cur := .cluster 0 }) (hteam (hart 0 0))
     s.cur = .cluster 0 ∧ Spec.Moves s 0 0 1 (copy 0) (hteam (hart 0 0)) ∧ Spec.readsMemory (copy 0) ∧ (copy 0).fetched = [] ∧
      (Spec.toWrite (copy 0) 255 ∧ (copy 0).got 255 = none ∧ isRemote s 0 (Spec.sourceAt (copy 0) 255) = true) ∧
      ∀ i, Spec.toWrite (copy 0) i → checkAccess s 0 false (Spec.sourceAt (copy 0) i : Int) 1 false [.read] = none ∧
        missingOf s 0 [Spec.sourceAt (copy 0) i] = none) ∧
    (let s := hat (fun s => { copying (got (copy 1)) s with xlat := (elsewhere s).xlat, cur := .cluster 0 }) (hteam (hart 0 0))
     s.cur = .cluster 0 ∧ Spec.Moves s 0 0 1 (got (copy 1)) (hteam (hart 0 0)) ∧ ∃ f ∈ (got (copy 1)).fetched,
      (got (copy 1)).tmpl.dstScratch = false ∧ (got (copy 1)).tmpl.dstFeed = false ∧
        isRemote s 0 ((got (copy 1)).tmpl.byteAt (got (copy 1)).disp f.idx) = true) ∧
    (let s := hat elsewhere (hteam (asking (.retry (Why.remote 0x1000 false).code)))
     Spec.ofTeam s ∧ getTeam s 0 = some (hteam (asking (.retry (Why.remote 0x1000 false).code)))) ∧
    (let s := lm 1 fun s => { waits 0x62 s with xlat := (elsewhere s).xlat }
     s.cur = .command 1 0 ∧ (getQueue s 1).pending.find? (fun p => p.opc = 0x62) = some (taken 0x62) ∧ fnOfQueue s 1 = some 0 ∧
      cpDead s 1 = false ∧ (getQueue s 1).backlog = [] ∧ isRemote s 0 (taken 0x62).addr = true ∧
      isRemote (lm 1 (waits 0x62)) 0 (taken 0x62).addr = false) ∧
    Spec.ofTeam (outward .store (at' (team half))) ∧ (lm 1 id).cur = .command 1 0 := by
  refine ⟨⟨⟨(fun _ h => nomatch h), (fun _ _ h => nomatch h)⟩, by decide +kernel⟩, ⟨⟨(fun _ h => nomatch h), (fun _ _ h => nomatch h)⟩, rfl, rfl, by decide +kernel⟩,
    ⟨rfl, ⟨rfl, by decide, by decide, rfl, rfl⟩, ⟨rfl, rfl, rfl⟩, rfl, ⟨⟨by decide, by decide, by decide⟩, rfl, by decide +kernel⟩,
      fun i h => by rw [last_byte (copy 0) i h]; decide +kernel⟩,
    ⟨rfl, ⟨rfl, by decide, by decide, rfl, rfl⟩, _, List.mem_singleton.mpr rfl, by decide +kernel⟩,
    ⟨⟨(fun _ h => nomatch h), (fun _ _ h => nomatch h)⟩, rfl⟩, by decide +kernel,
    ⟨(fun _ h => nomatch h), (fun _ _ h => nomatch h)⟩, rfl⟩
/-! ### The step, encodings, memory -/

/-- Reset with one word where the next step fetches it. -/
def first (w : Nat) : State := State.reset.withFetchWord 32 w

/-- The same once the turn is taken. -/
def turned (w : Nat) (a : Agent) : State := { first w with agenda := [], cur := a }

/-- Weft 0 at the header of clause 0. -/
def headerTeam : Team := { sampleTeam false with wefts := [{ sampleWeft with pos := Pos.atClause 0 }] }

/-- With that team. -/
def headed : State := { turned 0x003040B8 (.weft 0 0) with teams := [headerTeam] }

theorem test_meets_StepRunsTheDecoded :
    State.reset.agenda = [] ∧
    ((first 0x003040B8).agenda = [.weft 0 0] ∧ getTeam (first 0x003040B8) 0 = some (sampleTeam false) ∧
      (sampleTeam false).weft? 0 = some sampleWeft ∧ sampleWeft.strands ≠ [] ∧
      mayIssue (turned 0x003040B8 (.weft 0 0)) (sampleTeam false) sampleWeft = true ∧ sampleWeft.active = true ∧ sampleWeft.wait = .none ∧
      spanReady (turned 0x003040B8 (.weft 0 0)) (sampleTeam false) sampleWeft = true ∧ sampleWeft.pos.started = true ∧
      vtextWord (turned 0x003040B8 (.weft 0 0)) (sampleTeam false) sampleWeft sampleWeft.pos.offset = some 0x003040B8 ∧
      okOpt (decodeVector 0x003040B8 0x003040B8) =
        some (.iadd { vd := 6, sx := 4, sy := 5, lx := true, ly := true, hx := false, hy := false, ext := none }) ∧
      okOpt (decodeVector 0x003040B9 0xFFFFFFFF) = none) ∧
    ((let s := turned 0x003040B8 (.weft 0 0)
      let u := serveSlot s (sampleTeam false) sampleWeft
      slotTurn s (sampleTeam false) sampleWeft = true ∧ spanReady u (sampleTeam false) sampleWeft = true ∧
        vtextWord u (sampleTeam false) sampleWeft sampleWeft.pos.offset = some 0x003040B8 ∧
        vtextWord u (sampleTeam false) { sampleWeft with pos := Pos.atClause 400 } 400 = none) ∧
      (let t := { sampleTeam false with wefts := [sampleWeft, { sampleWeft with wid := 2 }] }
       let s := { turned 0x003040B8 (.weft 0 2) with teams := [t] }
       let v := serveSlot s t sampleWeft
       (slotWefts s t.place.cluster 0 sampleWeft.slot).length = 2 ∧ slotTurn v t { sampleWeft with wid := 2 } = false)) ∧
    (getTeam headed 0 = some headerTeam ∧ mayIssue headed headerTeam { sampleWeft with pos := Pos.atClause 0 } = true ∧
      spanReady headed headerTeam { sampleWeft with pos := Pos.atClause 0 } = true ∧
      vtextWord headed headerTeam { sampleWeft with pos := Pos.atClause 0 } 0 = some (headerFor 0x003040B8)) ∧
    ((first 0x0205128B).agenda = [.hart 0] ∧ getTeam (first 0x0205128B) 0 = some (sampleTeam true) ∧ (sampleTeam true).hart = some sampleHart ∧
      hartMayIssue (turned 0x0205128B (.hart 0)) (sampleTeam true) sampleHart = true ∧ sampleHart.paused = false ∧ sampleHart.wait = .none ∧
      (let s := turned 0x0205128B (.hart 0)
       turnFor s 0 sampleHart.num = s ∧ (sampleTeam true).place.cluster = 0 ∧ hartReady s (sampleTeam true) sampleHart = true ∧
        hartTurn s 0 sampleHart.num = true ∧ textReady (serveHart s 0 sampleHart.num) (sampleTeam true) true 0 = true ∧
        getObj (serveHart s 0 sampleHart.num) 1 = some (sampleObj [] [0x0205128B])) ∧
      (let s := { State.reset with cur := .machine 0 3 }
       machineRuns .wfi = true ∧ hartTurn (turnFor s 0 3) 0 3 = true ∧ State.reset.teams = [] ∧
        (spGet (Hart.reset, none) (getCluster s 0).machine 3).2 = none) ∧
      getObj (turned 0x0205128B (.hart 0)) 1 = some (sampleObj [] [0x0205128B]) ∧ sampleHart.pc.toNat % 4 = 0 ∧
      (sampleObj [] [0x0205128B]).ctext[sampleHart.pc.toNat / 4]? = some 0x0205128B ∧
      textReady (turned 0x0205128B (.hart 0)) (sampleTeam true) true 0 = true ∧ okOpt (decodeHart 0x0205128B) = some (.uqtry 5 10) ∧
      okOpt (decodeHart 0) = none) ∧
    ((State.reset.withFetchWord 1024 0x10).agenda = [.loom 1] ∧
      (progress { State.reset.withFetchWord 1024 0x10 with agenda := [] } 1).isNone = true ∧
      mayTake { State.reset.withFetchWord 1024 0x10 with agenda := [] } 1 = true ∧ mayTake (lm 1 id) 1 = false ∧
      (progress (lm 1 (waits 0x60)) 1).isSome = true) ∧
    isEvent .selfReset = true := by
  decide +kernel

theorem test_meets_EncodeThenDecode :
    (Instr.iadd v3).wf = true ∧ (Instr.iadd { v3 with ext := some mods }).wf = true ∧ Instr.selfReset.wf = true ∧
    (Instr.map 0x10).frame? = some 0x10 ∧ (Instr.map 0x10).wf = true ∧ (Instr.uqtry 5 10).wf = true ∧ Spec.isHart (.uqtry 5 10) = true ∧
    (Instr.clauseStart { resv := 0, yld := false, fb := 15, fa := 15, wm := 0, cls := 0, cnt := 1 }).wf = true := by
  decide +kernel

theorem test_meets_DecodeThenEncode :
    decodeVector 0x003040B8 0 = .ok (.iadd { vd := 6, sx := 4, sy := 5, lx := true, ly := true, hx := false, hy := false, ext := none }) ∧
    decodeHart 0x0205128B = .ok (.uqtry 5 10) ∧ (0x0205128B : W32).extractLsb' 0 7 ≠ 0x0F ∧ decodeHart 0x0FF0000F = .ok (.hartFence 0 15 15) ∧
    decodeHart 0x0000100F = .ok .fenceI := by
  refine ⟨rfl, rfl, by decide, rfl, rfl⟩

theorem test_meets_StepsKeepCanonicalMemory :
    (Memory.wf (State.reset.mem.views.map (·.mem)).flatten = true ∧ ∀ v ∈ State.reset.mem.views, Memory.wf v.mem = true) ∧
    Memory.wf State.reset.loom.ctl = true ∧ ∃ t, step { State.reset with agenda := [.event .device .selfReset] } = .next t :=
  ⟨by decide, rfl, _, rfl⟩

end Sys2Proof.Tests
end

section
/-! PROOF. BRU and BRK (11 R189 to R191): the four outcomes of a conditional branch, one equation each, and what its word leaves where it goes on. -/

namespace Sys2Proof.Machine

open Sys2Proof

/-! ### Taking a branch (06 R101) -/

/-- A recorded target is gone to. -/
theorem branchTo_recorded {c : VCtx} (u : Uses) (f : Weft → Weft) {target : Nat} {b : Obj} (hb : getObj c.s c.t.obj = some b)
    (hr : target ∈ b.headers) : branchTo c u f target = .next (finishAt c.s c.t.tid c.w.wid u f target) := by
  simp [branchTo, hb, ventOk, hr]

/-- A target that no header was recorded at raises ILLEGALCLAUSE. -/
theorem branchTo_unrecorded {c : VCtx} (u : Uses) (f : Weft → Weft) {target : Nat} {b : Obj} (hb : getObj c.s c.t.obj = some b)
    (hr : target ∉ b.headers) : branchTo c u f target = trapWord c.s c.t c.w 2 0 0 c.w.emBits := by
  simp [branchTo, hb, ventOk, hr]

section
variable {i : Instr} {s : State} {u : Uses} {tid wid : Nat} {c : VCtx} {disp : W32}

/-- A word that does not take its branch passes to the clause that follows. -/
theorem passes_of_branch_not_taken (h : Safety.Issues i s u tid wid c) (he : exec i s = branchIf c u false disp) :
    Safety.Passes i s c u tid wid (Pos.atClause (nextClause c)) := by
  obtain ⟨htid, hwid, -, -⟩ := issues_ctx h
  refine passes_at h ?_
  rw [he, ← htid, ← hwid]
  rfl

/-- A word that takes its branch passes to a recorded target, and traps at one that is not recorded. -/
theorem branch_taken (h : Safety.Issues i s u tid wid c) (he : exec i s = branchIf c u true disp) {b : Obj}
    (hb : getObj c.s c.t.obj = some b) :
    (dispTarget c disp ∈ b.headers → Safety.Passes i s c u tid wid (Pos.atClause (dispTarget c disp))) ∧
    (dispTarget c disp ∉ b.headers → exec i s = trapWord c.s c.t c.w 2 0 0 c.w.emBits) := by
  obtain ⟨htid, hwid, -, -⟩ := issues_ctx h
  have taken : exec i s = branchTo c u id (dispTarget c disp) := he
  constructor
  · intro hr
    refine passes_at h ?_
    rw [taken, branchTo_recorded u id hb hr, htid, hwid]
  · intro hr
    rw [taken, branchTo_unrecorded u id hb hr]

end

/-! ### BRU (R190) -/

/-- The active strands whose operand of a branch is poisoned. -/
def branchPoison (c : VCtx) (o : VBranch) : Nat := c.lanes fun x => (c.rd .i o.sx x).poison

/-- The active strands that hold the condition of a branch. -/
def branchHolders (c : VCtx) (o : VBranch) : Nat := c.lanes fun x => decide ((c.rd .i o.sx x).val ≠ 0) != o.inv

section
variable {o : VBranch} {s : State} {tid wid : Nat} {c : VCtx}
  (h : Safety.Issues (.bru o) s (usesCtl [o.sx] (markReg o.sx o.lx) [] 2) tid wid c)
include h

/-- Poison comes first: it ends the team. -/
theorem exec_bru_poisoned (hbad : branchPoison c o ≠ 0) : exec (.bru o) s = poisonWord c.s c.t c.w (branchPoison c o) := by
  rw [exec_bru, execBru, issues_run h]
  exact if_pos hbad

/-- A condition that some active strands hold and some do not raises NONUNIFORM. -/
theorem exec_bru_divided (hbad : branchPoison c o = 0) (hsome : branchHolders c o ≠ 0) (hall : branchHolders c o ≠ c.w.emBits) :
    exec (.bru o) s = trapWord c.s c.t c.w 3 0 0 (branchHolders c o) := by
  rw [exec_bru, execBru, issues_run h]
  refine (if_neg (not_not_intro hbad)).trans (if_pos ?_)
  rw [Bool.and_eq_true, decide_eq_true_eq, decide_eq_true_eq]
  exact ⟨hsome, hall⟩

/-- A condition that none or all of the active strands hold decides the branch. -/
theorem exec_bru_agreed (hbad : branchPoison c o = 0) (hagree : branchHolders c o = 0 ∨ branchHolders c o = c.w.emBits) :
    exec (.bru o) s =
      branchIf c (usesCtl [o.sx] (markReg o.sx o.lx) [] 2) (decide (branchHolders c o ≠ 0)) o.disp := by
  rw [exec_bru, execBru, issues_run h]
  refine (if_neg (not_not_intro hbad)).trans (if_neg ?_)
  rw [Bool.and_eq_true, decide_eq_true_eq, decide_eq_true_eq]
  rintro ⟨hsome, hall⟩
  exact hagree.elim hsome hall

end

/-! ### BRK (R191) -/

theorem exec_brk_issues {o : VBranch} {s : State} {tid wid : Nat} {c : VCtx}
    (h : Safety.Issues (.brk o) s (usesCtl [o.sx] [] [] 2) tid wid c) :
    exec (.brk o) s =
      branchIf c (usesCtl [o.sx] [] [] 2) (decide ((c.rd .i o.sx noStrand).val ≠ 0) != o.inv) o.disp := by
  rw [exec_brk, execBrk, issues_run h]

/-- Settles O11: BRU by its outcomes in the order in which they are looked for (poison, a divided condition, an agreed one), BRK by whether
its uniform operand takes the branch; both go on, or trap at an unrecorded target, as a taken branch does. -/
theorem conditionalBranches : Obligations.ConditionalBranches := by
  refine ⟨fun o s tid wid c h => ⟨exec_bru_poisoned h, exec_bru_divided h, ?_, ?_⟩, fun o s tid wid c h => ⟨?_, ?_⟩⟩
  · intro hbad (hnone : branchHolders c o = 0)
    refine passes_of_branch_not_taken h (disp := o.disp) ?_
    rw [exec_bru_agreed h hbad (.inl hnone), decide_eq_false (not_not_intro hnone)]
  · intro hbad (hsome : branchHolders c o ≠ 0) hall b hb
    refine branch_taken h ?_ hb
    rw [exec_bru_agreed h hbad (.inr hall), decide_eq_true hsome]
  · intro htaken
    refine passes_of_branch_not_taken h (disp := o.disp) ?_
    rw [exec_brk_issues h, htaken]
  · intro htaken b hb
    refine branch_taken h ?_ hb
    rw [exec_brk_issues h, htaken]

end Sys2Proof.Machine
end

section
/-! PROOF. KOWN, KFREE and KWR (11 R196, R197): an equation for each outcome, and what a word leaves that changes its team's uniform
registers beside its own weft. -/

namespace Sys2Proof

theorem Safety.SameOutside.symm {s t : Machine.State} (h : Safety.SameOutside s t) : Safety.SameOutside t s :=
  ⟨⟨h.memory.views.symm, h.memory.transit.symm⟩, h.xlat.symm, h.clusters.symm, h.vops.symm, h.tasks.symm, h.heddle.symm, h.loom.symm,
    h.vane.symm, h.ptp.symm, h.weave.symm⟩

end Sys2Proof

namespace Sys2Proof.Machine

open Sys2Proof

/-! ### What a change of a team leaves outside the teams -/

theorem updTeam_outside (s : State) (tid : Nat) (f : Team → Team) : Safety.SameOutside s (updTeam s tid f) :=
  ⟨Safety.SameMemory.of_eq rfl, rfl, rfl, rfl, rfl, rfl, rfl, rfl, rfl, rfl⟩

theorem updHists_outside (s : State) (tid : Nat) (f : Hist → Hist) (keys : List Nat) :
    Safety.SameOutside s (keys.foldl (fun s k => updHist s tid k f) s) :=
  foldl_keeps (P := Safety.SameOutside s) (fun a _ ha => ha.trans (updTeam_outside a tid _)) keys (Safety.SameOutside.refl s)

/-- What agents acquire is the same after a change of their team that leaves it on its die. -/
theorem acquireIds_updTeam_outside {s : State} {t t' : Team} (tid : Nat) (f : Team → Team) (keys ids : List Nat) (hd : t'.die = t.die) :
    Safety.SameOutside (acquireIds s t keys ids) (acquireIds (updTeam s tid f) t' keys ids) := by
  unfold acquireIds
  rw [updTeam_mem, hd]
  cases inTransit s.mem ids with
  | nil => exact updTeam_outside s tid f
  | cons a l =>
    have acquired := updHists_outside (takeId (bring s t.die (a :: l))).2 t.tid
      (fun h => h.acquire (takeId (bring s t.die (a :: l))).1 (a :: l)) keys
    have changed := updTeam_outside (takeId (bring s t.die (a :: l))).2 tid f
    exact acquired.symm.trans (changed.trans (updHists_outside _ t'.tid _ keys))

/-- The entry that a word takes from the uniform queue is the same after a change of its team that leaves the queue and the die. -/
theorem takenIn_updTeam_outside {c : VCtx} {t' : Team} (u : Uses) (tid : Nat) (f : Team → Team) (hd : t'.die = c.t.die)
    (hq : t'.uni.uqRel = c.t.uni.uqRel) : Safety.SameOutside (Safety.taken c u) (takenIn (updTeam c.s tid f) t' c.w u) := by
  unfold Safety.taken takenIn
  rw [hq]
  split
  · exact acquireIds_updTeam_outside tid f _ _ hd
  · exact updTeam_outside c.s tid f

/-! ### Finishing a word after a change of the uniform registers -/

section
variable {i : Instr} {s : State} {u : Uses} {tid wid : Nat} {c : VCtx}

/-- Two states of a team with the same object, launch and wefts. -/
structure SameWefts (t t' : Team) : Prop where
  obj : t'.obj = t.obj
  ref : t'.ref = t.ref
  wefts : t'.wefts = t.wefts

/-- A word is finished in a state where its team may have other uniform registers: they stay, and its weft goes on after the word. -/
theorem finishWord_uniform (h : Safety.Issues i s u tid wid c) {a : State} {t' : Team} (ha : getTeam a tid = some t')
    (ht : SameWefts c.t t') (hl : a.loom = c.s.loom) :
    Safety.SameOutside (takenIn a t' c.w u) (finishWord a tid wid u id) ∧
    ∃ w tm, Safety.weftIn (finishWord a tid wid u id) tid wid = some w ∧ w.pos = followPos c.s c.t c.w u.len ∧
      w.strands = (settled u id c.w).strands ∧ getTeam (finishWord a tid wid u id) tid = some tm ∧ tm.uni = t'.uni := by
  obtain ⟨-, -, -, hw⟩ := issues_ctx h
  have hw' : t'.weft? wid = some c.w := by rw [Team.weft?, ht.wefts]; exact hw
  obtain ⟨only, w, hweft, core, -, hpos, -⟩ := finishWord_spec u id_only ha hw'
  obtain ⟨t₁, ht₁, hs, rfl⟩ := takenIn_team (t := t') (w := c.w) u ha
  obtain ⟨tm, htm, hbut⟩ := only.team ht₁
  obtain ⟨-, -, -, huni, -⟩ := butWeft_obj hbut
  exact ⟨only.outside, w, tm, hweft, hpos.trans (followPos_congr u.len hl ht.obj ht.ref rfl rfl), core.strands, htm, huni⟩

/-- The team of a word after a change of it. -/
theorem getTeam_updTeam_issues (h : Safety.Issues i s u tid wid c) {f : Team → Team} (hf : ∀ t, (f t).tid = t.tid) :
    getTeam (updTeam c.s tid f) tid = some (f c.t) := by
  obtain ⟨-, -, ht, -⟩ := issues_ctx h
  rw [getTeam_updTeam hf, ht, Option.map_some]

end

/-- A word that frees no register leaves the strands. -/
theorem settled_strands_of_no_frees (codes : List (BitVec 7)) (dests : List Nat) (len : Nat) (w : Weft) :
    (settled (usesCtl codes [] dests len) id w).strands = w.strands :=
  List.map_id w.strands

/-! ### KOWN (R196) -/

theorem lowestSid_eq_none {l : List Strand} : lowestSid l = none ↔ l = [] := by
  cases l <;> simp [lowestSid]

theorem ownsK_of_unowned {t : Team} (w : Weft) (h : t.uni.kowner = none) : ownsK t w = false := by
  simp [ownsK, h]

/-- A retried word leaves its context's state with its weft swapped out. -/
theorem retryWord_issues {i : Instr} {s : State} {u : Uses} {tid wid : Nat} {c : VCtx} (h : Safety.Issues i s u tid wid c) (y : Why) :
    retryWord c.s c.t.tid c.w.wid y = .next (swapOut c.s tid wid (c.w.retries y)) := by
  obtain ⟨htid, hwid, ht, hw⟩ := issues_ctx h
  unfold retryWord
  rw [htid, hwid, ht, Option.bind_some, hw]

/-- KOWN's claim for a strand. -/
def claimFor (sid : Nat) (t : Team) : Team := { t with uni := { t.uni with kowner := some sid } }

section
variable {s : State} {tid wid : Nat} {c : VCtx} (h : Safety.Issues .kown s (usesCtl [] [] [] 1) tid wid c)
include h

theorem exec_kown_idle (hi : c.w.active' = [] ∨ ownsK c.t c.w = true) : exec .kown s = c.done (usesCtl [] [] [] 1) id := by
  rw [exec_kown, execKown, issues_run h]
  cases hl : lowestSid c.w.active' with
  | none => simp only
  | some sid =>
    have hne : c.w.active' ≠ [] := fun e => by rw [lowestSid_eq_none.mpr e] at hl; cases hl
    simp only [hi.resolve_left hne, if_true]

theorem exec_kown_claims {sid : Nat} (hl : lowestSid c.w.active' = some sid) (hk : c.t.uni.kowner = none) :
    exec .kown s =
      .next (finishWord (acquireIds (updTeam c.s tid (claimFor sid)) c.t c.w.keys c.t.uni.krel) tid wid (usesCtl [] [] [] 1) id) := by
  obtain ⟨htid, hwid, -, -⟩ := issues_ctx h
  rw [exec_kown, execKown, issues_run h]
  simp only [hl, ownsK_of_unowned c.w hk, hk, Option.isSome_none, Bool.false_eq_true, if_false, htid, hwid]
  rfl

theorem exec_kown_waits (ha : c.w.active' ≠ []) (hk : c.t.uni.kowner.isSome = true) (ho : ownsK c.t c.w = false) :
    exec .kown s = .next (swapOut c.s tid wid (c.w.retries .kown)) := by
  obtain ⟨sid, hl⟩ := Option.ne_none_iff_exists'.mp (fun e => ha (lowestSid_eq_none.mp e))
  rw [exec_kown, execKown, issues_run h]
  simp only [hl, ho, hk, Bool.false_eq_true, if_false, if_true]
  exact retryWord_issues h .kown

/-- A claim that is granted: what the last owner released is acquired, the strand owns, and the weft goes on. -/
theorem kown_claims {sid : Nat} (hl : lowestSid c.w.active' = some sid) (hk : c.t.uni.kowner = none) :
    ∃ t w tm, exec .kown s = .next t ∧ Safety.SameOutside (acquireIds c.s c.t c.w.keys c.t.uni.krel) t ∧
      Safety.weftIn t tid wid = some w ∧ w.pos = followPos c.s c.t c.w 1 ∧ w.strands = c.w.strands ∧ getTeam t tid = some tm ∧
      tm.uni = { c.t.uni with kowner := some sid } := by
  have claimed := getTeam_updTeam_issues h (f := claimFor sid) fun _ => rfl
  obtain ⟨ta, hta, hs, rfl⟩ := acquireIds_team (t := c.t) c.w.keys c.t.uni.krel claimed
  obtain ⟨outside, w, tm, hw, hpos, hstrands, htm, huni⟩ :=
    finishWord_uniform h hta ⟨rfl, rfl, rfl⟩ (acquireIds_loom _ _ _ _)
  exact ⟨_, w, tm, exec_kown_claims h hl hk, (acquireIds_updTeam_outside tid _ _ _ rfl).trans outside, hw, hpos,
    hstrands.trans (settled_strands_of_no_frees [] [] 1 c.w), htm, huni⟩

end

/-! ### KFREE (R196) -/

/-- What KFREE by the owning weft makes of its team: its k writes are seen by all, and no strand owns. -/
def freeK (m : MemSys) (w : Weft) (t : Team) : Team :=
  { publishK t w with uni := { (publishK t w).uni with kowner := none, krel := inTransit m (t.done w.keys) } }

section
variable {s : State} {tid wid : Nat} {c : VCtx} (h : Safety.Issues .kfree s (usesCtl [] [] [] 1) tid wid c)
include h

theorem exec_kfree_other (ho : ownsK c.t c.w = false) : exec .kfree s = c.done (usesCtl [] [] [] 1) id := by
  rw [exec_kfree, execKfree, issues_run h]
  simp only [ho, Bool.not_false, if_true]

theorem exec_kfree_frees (ho : ownsK c.t c.w = true) (hu : ownUndone c.s tid wid = false) :
    exec .kfree s = .next (finishWord (updTeam c.s tid (freeK c.s.mem c.w)) tid wid (usesCtl [] [] [] 1) id) := by
  obtain ⟨htid, hwid, -, -⟩ := issues_ctx h
  rw [exec_kfree, execKfree, issues_run h]
  simp only [ho, hu, htid, hwid, Bool.not_true, Bool.false_eq_true, if_false]
  rfl

/-- KFREE by the owning weft: no strand owns, the k registers stay, and what the weft has done is there to acquire. -/
theorem kfree_frees (ho : ownsK c.t c.w = true) (hu : ownUndone c.s tid wid = false) :
    ∃ t w tm, exec .kfree s = .next t ∧ Safety.SameOutside c.s t ∧ Safety.weftIn t tid wid = some w ∧
      w.pos = followPos c.s c.t c.w 1 ∧ getTeam t tid = some tm ∧ tm.uni.kowner = none ∧ tm.uni.k = c.t.uni.k ∧
      tm.uni.krel = inTransit c.s.mem (c.t.done c.w.keys) := by
  have freed := getTeam_updTeam_issues h (f := freeK c.s.mem c.w) fun _ => rfl
  obtain ⟨outside, w, tm, hw, hpos, -, htm, huni⟩ := finishWord_uniform h freed ⟨rfl, rfl, rfl⟩ rfl
  refine ⟨_, w, tm, exec_kfree_frees h ho hu, (updTeam_outside c.s tid _).trans outside, hw, hpos, htm, ?_⟩
  rw [huni]
  exact ⟨rfl, rfl, rfl⟩

end

/-! ### KWR (R197) -/

/-- Of two strands the one on the lower lane, the first where they share one. -/
def lowerLane (a y : Strand) : Strand := if y.lane < a.lane then y else a

theorem lowerLane_spec (a y : Strand) :
    (lowerLane a y = a ∨ lowerLane a y = y) ∧ (lowerLane a y).lane ≤ a.lane ∧ (lowerLane a y).lane ≤ y.lane := by
  unfold lowerLane
  split
  · exact ⟨.inr rfl, by omega, Nat.le_refl _⟩
  · exact ⟨.inl rfl, Nat.le_refl _, by omega⟩

/-- A fold over lanes finds a strand of the list on its lowest lane. -/
theorem foldl_lowerLane (l : List Strand) : ∀ a : Strand,
    l.foldl lowerLane a ∈ a :: l ∧ ∀ y ∈ a :: l, (l.foldl lowerLane a).lane ≤ y.lane := by
  induction l with
  | nil => simp
  | cons b l ih =>
    intro a
    obtain ⟨hmem, hle⟩ := ih (lowerLane a b)
    obtain ⟨hpick, hla, hlb⟩ := lowerLane_spec a b
    obtain ⟨hfirst, hrest⟩ := List.forall_mem_cons.mp hle
    refine ⟨?_, List.forall_mem_cons.mpr ⟨Nat.le_trans hfirst hla,
      List.forall_mem_cons.mpr ⟨Nat.le_trans hfirst hlb, hrest⟩⟩⟩
    simp only [List.foldl_cons, List.mem_cons] at hmem ⊢
    rcases hmem with heq | hmem
    · rw [heq]
      exact hpick.imp_right .inl
    · exact .inr (.inr hmem)

/-- A strand below all others of a list is the one that the fold finds. -/
theorem foldl_lowerLane_eq {a x : Strand} {l : List Strand} (hx : x ∈ a :: l) (hlow : ∀ y ∈ a :: l, y = x ∨ x.lane < y.lane) :
    l.foldl lowerLane a = x := by
  obtain ⟨hmem, hle⟩ := foldl_lowerLane l a
  have := hle x hx
  exact (hlow _ hmem).resolve_right (by omega)

/-- KWR's write of a k register by a weft: what earlier owners left unseen of the register is gone, and the value replaced may be seen still. -/
def writeK (kd : Nat) (v : W32) (keys : List Nat) (t : Team) : Team :=
  { t with uni := { t.uni with
      k := updAt (fun _ => v) kd t.uni.k,
      kpend := (t.uni.kpend.filter fun e => decide (e.1 ≠ kd) || e.2.2.any keys.contains) ++ [(kd, nthD 0 t.uni.k kd, keys)] } }

/-- The strand is active in a weft, and every other active one is on a higher lane. -/
def LowestActive (w : Weft) (x : Strand) : Prop :=
  x ∈ w.strands ∧ x.em = true ∧ ∀ y ∈ w.strands, y.em = true → y = x ∨ x.lane < y.lane

/-- The active strands of a weft with such a strand, and what the fold over their lanes finds. -/
theorem LowestActive.active {w : Weft} {x : Strand} (hx : LowestActive w x) :
    ∃ a l, w.active' = a :: l ∧ l.foldl lowerLane a = x := by
  obtain ⟨hmem, hem, hlow⟩ := hx
  have hxa : x ∈ w.active' := List.mem_filter.mpr ⟨hmem, hem⟩
  obtain ⟨a, l, hal⟩ := List.exists_cons_of_ne_nil (List.ne_nil_of_mem hxa)
  refine ⟨a, l, hal, foldl_lowerLane_eq (hal ▸ hxa) ?_⟩
  intro y hy
  obtain ⟨hym, hye⟩ := List.mem_filter.mp (hal ▸ hy : y ∈ w.active')
  exact hlow y hym hye

section
variable {kd : BitVec 5} {sx : BitVec 7} {lx : Bool} {s : State} {tid wid : Nat} {c : VCtx}
  (h : Safety.Issues (.kwr kd sx lx) s (usesCtl [sx] (markReg sx lx) [] 1) tid wid c)
include h

theorem exec_kwr_other (ho : ownsK c.t c.w = false) :
    exec (.kwr kd sx lx) s = trapWord c.s c.t c.w 7 0 kd.toNat c.w.emBits := by
  rw [exec_kwr, execKwr, issues_run h]
  simp only [ho, Bool.not_false, if_true]

theorem exec_kwr_inactive (ha : c.w.active' = []) (ho : ownsK c.t c.w = true) :
    exec (.kwr kd sx lx) s = c.done (usesCtl [sx] (markReg sx lx) [] 1) id := by
  rw [exec_kwr, execKwr, issues_run h]
  simp only [ho, ha, Bool.not_true, Bool.false_eq_true, if_false]

/-- With an active strand, the operand of the lowest one decides. -/
theorem exec_kwr_lowest {x : Strand} (hx : LowestActive c.w x) (ho : ownsK c.t c.w = true) :
    exec (.kwr kd sx lx) s =
      if (c.rd .i sx x).poison then poisonWord c.s c.t c.w (2 ^ x.lane)
      else .next (finishWord (updTeam c.s tid (writeK kd.toNat (c.rd .i sx x).val c.w.keys)) tid wid
        (usesCtl [sx] (markReg sx lx) [] 1) id) := by
  obtain ⟨htid, hwid, -, -⟩ := issues_ctx h
  obtain ⟨a, l, hal, rfl⟩ := hx.active
  rw [exec_kwr, execKwr, issues_run h]
  simp only [ho, hal, htid, hwid, Bool.not_true, Bool.false_eq_true, if_false]
  rfl

/-- KWR by the owning weft writes its register with the lowest active strand's operand. -/
theorem kwr_writes {x : Strand} (hx : LowestActive c.w x) (ho : ownsK c.t c.w = true) (hp : (c.rd .i sx x).poison = false) :
    ∃ t w tm, exec (.kwr kd sx lx) s = .next t ∧ Safety.SameOutside (Safety.taken c (usesCtl [sx] (markReg sx lx) [] 1)) t ∧
      Safety.weftIn t tid wid = some w ∧ w.pos = followPos c.s c.t c.w 1 ∧ getTeam t tid = some tm ∧
      tm.uni.k = updAt (fun _ => (c.rd .i sx x).val) kd.toNat c.t.uni.k := by
  have written := getTeam_updTeam_issues h (f := writeK kd.toNat (c.rd .i sx x).val c.w.keys) fun _ => rfl
  obtain ⟨outside, w, tm, hw, hpos, -, htm, huni⟩ := finishWord_uniform h written ⟨rfl, rfl, rfl⟩ rfl
  refine ⟨_, w, tm, (exec_kwr_lowest h hx ho).trans (if_neg (by simp [hp])),
    (takenIn_updTeam_outside _ tid _ rfl rfl).trans outside, hw, hpos, htm, ?_⟩
  rw [huni]
  rfl

end

/-- Settles O15, word by word: each outcome is an equation of exec above, and a claim, a release and a write finish their word in a team with
other uniform registers. -/
theorem uniformOwnership : Obligations.UniformOwnership := by
  refine ⟨fun s tid wid c h => ⟨?_, fun _ => kown_claims h, exec_kown_waits h⟩, fun s tid wid c h => ⟨?_, kfree_frees h⟩,
    fun kd sx lx s tid wid c h => ⟨exec_kwr_other h, ?_, ?_, ?_⟩⟩
  · exact fun hi => passes_done h (exec_kown_idle h hi)
  · exact fun ho => passes_done h (exec_kfree_other h ho)
  · exact fun ha ho => passes_done h (exec_kwr_inactive h ha ho)
  · intro x hmem hem hlow ho hp
    rw [exec_kwr_lowest h ⟨hmem, hem, hlow⟩ ho, if_pos hp]
  · exact fun x hmem hem hlow => kwr_writes h ⟨hmem, hem, hlow⟩

end Sys2Proof.Machine
end
